-- ==== Sys2Proof/Word.lean ====
section
/-! DEFINITION. The value types of the block: bytes, 16-bit channel values, the four channels of a
pixel and the four Bayer sub-pixels of an output quad (spec/00_scope.md rules R10, R11, R18). -/

namespace Sys2Proof

/-- A byte of stream memory (R61). -/
abbrev Byte := BitVec 8

/-- A signed 16-bit reconstructed channel value, two's complement (R14, R36). -/
abbrev Half := BitVec 16

/-- The four channels in their fixed order 0 = Y, 1 = Cd, 2 = Cm, 3 = Co (R11). -/
inductive Channel where
  | y
  | cd
  | cm
  | co
deriving DecidableEq, Repr

/-- The number of a channel, 0 to 3 (R11). -/
def Channel.index : Channel → Nat
  | .y => 0
  | .cd => 1
  | .cm => 2
  | .co => 3

/-- The channel after this one in channel order; none after Co. -/
def Channel.next : Channel → Option Channel
  | .y => some .cd
  | .cd => some .cm
  | .cm => some .co
  | .co => none

/-- A register array with one element per channel, such as `A[0..3]` (R11). -/
structure Quad (α : Type) where
  y : α
  cd : α
  cm : α
  co : α
deriving DecidableEq, Repr

/-- Element `c` of a register array. -/
def Quad.get {α : Type} (x : Quad α) : Channel → α
  | .y => x.y
  | .cd => x.cd
  | .cm => x.cm
  | .co => x.co

/-- The array with element `c` replaced. -/
def Quad.set {α : Type} (x : Quad α) (c : Channel) (v : α) : Quad α :=
  match c with
  | .y => { x with y := v }
  | .cd => { x with cd := v }
  | .cm => { x with cm := v }
  | .co => { x with co := v }

/-- The array with `f` applied to each element. -/
def Quad.map {α β : Type} (f : α → β) (x : Quad α) : Quad β :=
  ⟨f x.y, f x.cd, f x.cm, f x.co⟩

/-- The array whose four elements are all `v`. -/
def Quad.fill {α : Type} (v : α) : Quad α := ⟨v, v, v, v⟩

/-- The four sub-pixels of an output quad (R4, R17). -/
inductive SubPixel where
  | gb
  | b
  | r
  | gr
deriving DecidableEq, Repr

/-- One value per sub-pixel, in the output order (Gb, B, R, Gr) (R38, R195). -/
structure Bayer (α : Type) where
  gb : α
  b : α
  r : α
  gr : α
deriving DecidableEq, Repr

/-- The value of one sub-pixel. -/
def Bayer.get {α : Type} (x : Bayer α) : SubPixel → α
  | .gb => x.gb
  | .b => x.b
  | .r => x.r
  | .gr => x.gr

/-- The four values with one sub-pixel's replaced. -/
def Bayer.set {α : Type} (x : Bayer α) (i : SubPixel) (v : α) : Bayer α :=
  match i with
  | .gb => { x with gb := v }
  | .b => { x with b := v }
  | .r => { x with r := v }
  | .gr => { x with gr := v }

/-- The same value for all four sub-pixels. -/
def Bayer.fill {α : Type} (v : α) : Bayer α := ⟨v, v, v, v⟩

end Sys2Proof
end

