-- ==== Sys2Proof/Syntax.lean ====
section
/-! DEFINITION. The instructions: one constructor for each of the 37 rows of spec/opcode_table.json,
that is the three codeword formats of the payload (`SEED` with one row per bit depth, `RICE`, `ESC`;
30_encoding.md R91 to R93) and the 32 operations (40_bit_cursor.md to 44_sequencer_host.md). -/

namespace Sys2Proof

/-- The status codes of a run, in the order of R240, which numbers them 0 to 7. -/
inductive Status where
  | success
  | generalError
  | divisionError
  | allBitsConsumed
  | bufferSizeMismatch
  | headerMisaligned
  | invalidHeader
  | unsupportedBitDepth
deriving DecidableEq, Repr

/-- The codes the block can raise: R241 to R245. `GeneralError` and `HeaderMisaligned` are never raised
(R246, R247) and `Success` is written by `SEQ.DONE` only (R247), so none of the three is here. -/
inductive RaiseCode where
  | divisionError
  | allBitsConsumed
  | bufferSizeMismatch
  | invalidHeader
  | unsupportedBitDepth
deriving DecidableEq, Repr

/-- The configuration registers 0 to 12, by name (R21 to R26; the numbers are R210's alternative). -/
inductive CfgReg where
  | width
  | height
  | unaryCap
  | bpp
  | lossyBits
  | ctrl
  | streamLen
  | payloadOffset
  | outLen
  | nThreshold
  | aInit
  | aMin
  | nStart
deriving DecidableEq, Repr

/-- The two forms of the table row `HOST.CFGWRITE`: the write, and the read back `HOST.CFGREAD` (R210). -/
inductive CfgAccess where
  | write (r : CfgReg) (v : BitVec 32)
  | read (r : CfgReg)
deriving DecidableEq, Repr

/-- One constructor per row of spec/opcode_table.json. Operands that the rules name as registers
(`K`, `Q`, `V`, `RESID`, the sums, quotients and shifted values) are read from State. -/
inductive Instr where
  /-- `SEED` at bpp 8: delimiter, 11-bit value (R91). -/
  | seed8 (d : Bool) (v : Nat)
  /-- `SEED` at bpp 10: delimiter, 13-bit value (R91). -/
  | seed10 (d : Bool) (v : Nat)
  /-- `SEED` at bpp 12: delimiter, 15-bit value (R91). -/
  | seed12 (d : Bool) (v : Nat)
  /-- `RICE`: unary quotient and remainder (R92); `k` is not in the codeword. -/
  | rice (q r : Nat)
  /-- `ESC`: the verbatim value (R93). -/
  | esc (v : Nat)
  | bcLoad
  | bcFetch1
  | bcFetchN (n : Nat)
  | arInit
  | arSeed
  | arK (c : Channel)
  | arUnary
  | arEsc
  | arRem
  | arMap
  | arUpdA (c : Channel)
  | arUpdN
  | arSym (c : Channel)
  | dpSeed
  | dpSeq (c : Channel)
  | dpStore (p : BitVec 32) (c : Channel) (x : Int)
  | dpCol0
  | dpRow (r : Nat)
  | ctSum (val : Quad Half)
  | ctDiv8 (i : SubPixel)
  | ctStrict
  | ctShl (i : SubPixel)
  | ctNarrow (i : SubPixel)
  | ctQuad (p : BitVec 32) (val : Quad Half)
  | hostCfgWrite (acc : CfgAccess)
  | hostStart
  | hostStatusRead
  | seqCheck
  | seqRunSeq
  | seqRunStaged
  | seqDone
  | seqFail (code : RaiseCode)
deriving DecidableEq, Repr

/-- What decides the format and length of the next codeword besides its bits (R94): whether the pixel
is the seed pixel (P = 0), `bpp_eff`, CFG.UNARY_CAP, and the Rice parameter of the channel. -/
structure Ctx where
  seedPixel : Bool
  bpp : Nat
  cap : Nat
  k : Nat
deriving DecidableEq, Repr

end Sys2Proof
end

