-- ==== Sys2Proof/WellFormed.lean ====
section
/-! DEFINITION. Well-formedness: which contexts a codeword can be read in, and which operand values each
instruction admits (30_encoding.md R91 to R99; the operand ranges of files 40 to 44). -/

namespace Sys2Proof

/-- A context the decoder can meet after `SEQ.CHECK`: `bpp_eff` is 8, 10 or 12 (R22), the cap is 1 to 255
(R22), and `k` is at most `bpp_eff + 2` (R92). -/
def Ctx.wf (x : Ctx) : Bool :=
  (x.bpp == 8 || x.bpp == 10 || x.bpp == 12) && decide (1 ≤ x.cap) && decide (x.cap ≤ 255) &&
    decide (x.k ≤ x.bpp + 2)

/-- A `SEED` codeword of the given depth can stand where the pixel is the seed pixel and `bpp_eff` is that
depth; its value field has `depth + 3` bits (R91). -/
def seedWellFormed (x : Ctx) (depth v : Nat) : Bool :=
  x.wf && x.seedPixel && x.bpp == depth && decide (v < 2 ^ (depth + 3))

/-- Which instructions are well formed in a context. A codeword is well formed where R91 to R94 let it
stand. An operation has no encoding (R103); its operands keep the ranges of its rule: at most 15 bits for
`BC.FETCHN` (R122), a 23-bit signed value for `DP.STORE` (R35, R172), a quad row below 2^15 for `DP.ROW`
(CFG.HEIGHT has 16 bits, R6, R21, R174). That a pixel is below NPIX and a row below HH depends on CFG, which is no part
of a context (log entry 16). -/
def Instr.wellFormed (x : Ctx) : Instr → Bool
  | .seed8 _ v => seedWellFormed x 8 v
  | .seed10 _ v => seedWellFormed x 10 v
  | .seed12 _ v => seedWellFormed x 12 v
  | .rice q r => x.wf && !x.seedPixel && decide (q < x.cap) && decide (r < 2 ^ x.k)
  | .esc v => x.wf && !x.seedPixel && decide (v < 2 ^ (x.bpp + 3))
  | .bcFetchN n => decide (n ≤ 15)
  | .dpStore _ _ x => decide (-(2 ^ 22) ≤ x) && decide (x < 2 ^ 22)
  | .dpRow r => decide (r < 2 ^ 15)
  | .bcLoad | .bcFetch1 | .arInit | .arSeed | .arK _ | .arUnary | .arEsc | .arRem | .arMap
  | .arUpdA _ | .arUpdN | .arSym _ | .dpSeed | .dpSeq _ | .dpCol0 | .ctSum _ | .ctDiv8 _ | .ctStrict
  | .ctShl _ | .ctNarrow _ | .ctQuad _ _ | .hostCfgWrite _ | .hostStart | .hostStatusRead | .seqCheck
  | .seqRunSeq | .seqRunStaged | .seqDone | .seqFail _ => true

/-- The instructions that have a bit encoding: the rows whose format is "codeword" (R103). -/
def Instr.isCodeword : Instr → Bool
  | .seed8 _ _ | .seed10 _ _ | .seed12 _ _ | .rice _ _ | .esc _ => true
  | .bcLoad | .bcFetch1 | .bcFetchN _ | .arInit | .arSeed | .arK _ | .arUnary | .arEsc | .arRem | .arMap
  | .arUpdA _ | .arUpdN | .arSym _ | .dpSeed | .dpSeq _ | .dpStore _ _ _ | .dpCol0 | .dpRow _ | .ctSum _
  | .ctDiv8 _ | .ctStrict | .ctShl _ | .ctNarrow _ | .ctQuad _ _ | .hostCfgWrite _ | .hostStart
  | .hostStatusRead | .seqCheck | .seqRunSeq | .seqRunStaged | .seqDone | .seqFail _ => false

end Sys2Proof
end

