-- ==== Sys2Proof/Decode.lean ====
section
/-! DEFINITION. The codeword decoder and encoder (30_encoding.md R90 to R102). The bits are in stream order,
first bit read first. The operations have no bits (R103): the sequencer selects them (Machine/Sequencer.lean). -/

namespace Sys2Proof

/-! ### Bits, bytes and fields -/

/-- The eight bits of a byte in the order the cursor delivers them, bit 7 first (R67). -/
def byteBits (b : Byte) : List Bool :=
  [b.getLsbD 7, b.getLsbD 6, b.getLsbD 5, b.getLsbD 4, b.getLsbD 3, b.getLsbD 2, b.getLsbD 1, b.getLsbD 0]

/-- The bits of consecutive bytes in stream order (R67). -/
def streamBits : List Byte → List Bool
  | [] => []
  | b :: bs => byteBits b ++ streamBits bs

/-- The value of a field whose first bit read is its least significant bit (R68, R95). -/
def fieldValue : List Bool → Nat
  | [] => 0
  | b :: bs => b.toNat + 2 * fieldValue bs

/-- The `n` bits of a field value in the order they are read, least significant first (R95). -/
def fieldBits : Nat → Nat → List Bool
  | 0, _ => []
  | n + 1, v => v.testBit 0 :: fieldBits n (v / 2)

/-- The byte whose bits, most significant first, are the first eight of a bit string; missing bits are 0
(R67, R102). -/
def byteOfBits (bs : List Bool) : Byte :=
  BitVec.ofNat 8 (fieldValue ((bs ++ List.replicate 8 false).take 8).reverse)

/-- `n` bytes packed most significant bit first from a bit string, the rest padded with 0 (R102). -/
def packBytes : Nat → List Bool → List Byte
  | 0, _ => []
  | n + 1, bs => byteOfBits bs :: packBytes n (bs.drop 8)

/-! ### Decoding -/

/-- Why no codeword is read: the bits end inside it (the block then raises `AllBitsConsumed`, R244), or the
context is none that `SEQ.CHECK` and `CfgWF` let through (R9, R22). There is no illegal codeword (R100). -/
inductive DecodeError where
  | bitsEnd
  | noSuchDepth
  | capOutOfRange
  | kOutOfRange
deriving DecidableEq, Repr

/-- Read a field of `n` bits: its value and the bits after it; none when fewer than `n` bits are left. -/
def takeField (n : Nat) (bs : List Bool) : Option (Nat × List Bool) :=
  if n ≤ bs.length then some (fieldValue (bs.take n), bs.drop n) else none

/-- The unary prefix (R94, R143): the number of ones read, at most `cap`, and the bits after the prefix. A
terminating 0 is consumed when fewer than `cap` ones were read; after `cap` ones nothing more is. -/
def takeUnary : Nat → List Bool → Option (Nat × List Bool)
  | 0, bs => some (0, bs)
  | _ + 1, [] => none
  | _ + 1, false :: bs => some (0, bs)
  | cap + 1, true :: bs => (takeUnary cap bs).map fun x => (x.1 + 1, x.2)

/-- A `SEED` codeword at the depth of the context (R91). -/
def decodeSeed (depth : Nat) (bs : List Bool) : Except DecodeError (Instr × List Bool) :=
  match bs with
  | [] => .error .bitsEnd
  | d :: rest =>
    match takeField (depth + 3) rest with
    | none => .error .bitsEnd
    | some (v, rest') =>
      if depth = 8 then .ok (.seed8 d v, rest')
      else if depth = 10 then .ok (.seed10 d v, rest')
      else .ok (.seed12 d v, rest')

/-- A `RICE` or `ESC` codeword (R92, R93, R94). -/
def decodeSymbol (x : Ctx) (bs : List Bool) : Except DecodeError (Instr × List Bool) :=
  match takeUnary x.cap bs with
  | none => .error .bitsEnd
  | some (q, rest) =>
    if q = x.cap then
      match takeField (x.bpp + 3) rest with
      | none => .error .bitsEnd
      | some (v, rest') => .ok (.esc v, rest')
    else
      match takeField x.k rest with
      | none => .error .bitsEnd
      | some (r, rest') => .ok (.rice q r, rest')

/-- The next codeword of a bit string in a context, and the bits after it; or, by name, why there is none. -/
def decode (x : Ctx) (bs : List Bool) : Except DecodeError (Instr × List Bool) :=
  if !(x.bpp == 8 || x.bpp == 10 || x.bpp == 12) then .error .noSuchDepth
  else if x.cap = 0 ∨ 255 < x.cap then .error .capOutOfRange
  else if x.bpp + 2 < x.k then .error .kOutOfRange
  else if x.seedPixel then decodeSeed x.bpp bs
  else decodeSymbol x bs

/-! ### Encoding -/

/-- The bits of a codeword in stream order (R91 to R93); an operation has none (R103). -/
def encode (x : Ctx) : Instr → List Bool
  | .seed8 d v => d :: fieldBits 11 v
  | .seed10 d v => d :: fieldBits 13 v
  | .seed12 d v => d :: fieldBits 15 v
  | .rice q r => List.replicate q true ++ false :: fieldBits x.k r
  | .esc v => List.replicate x.cap true ++ fieldBits (x.bpp + 3) v
  | .bcLoad | .bcFetch1 | .bcFetchN _ | .arInit | .arSeed | .arK _ | .arUnary | .arEsc | .arRem | .arMap
  | .arUpdA _ | .arUpdN | .arSym _ | .dpSeed | .dpSeq _ | .dpStore _ _ _ | .dpCol0 | .dpRow _ | .ctSum _
  | .ctDiv8 _ | .ctStrict | .ctShl _ | .ctNarrow _ | .ctQuad _ _ | .hostCfgWrite _ | .hostStart
  | .hostStatusRead | .seqCheck | .seqRunSeq | .seqRunStaged | .seqDone | .seqFail _ => []

/-- The number of bits of a codeword (R99); an operation has none. -/
def codewordLength (x : Ctx) : Instr → Nat
  | .seed8 _ _ => 12
  | .seed10 _ _ => 14
  | .seed12 _ _ => 16
  | .rice q _ => q + 1 + x.k
  | .esc _ => x.cap + x.bpp + 3
  | .bcLoad | .bcFetch1 | .bcFetchN _ | .arInit | .arSeed | .arK _ | .arUnary | .arEsc | .arRem | .arMap
  | .arUpdA _ | .arUpdN | .arSym _ | .dpSeed | .dpSeq _ | .dpStore _ _ _ | .dpCol0 | .dpRow _ | .ctSum _
  | .ctDiv8 _ | .ctStrict | .ctShl _ | .ctNarrow _ | .ctQuad _ _ | .hostCfgWrite _ | .hostStart
  | .hostStatusRead | .seqCheck | .seqRunSeq | .seqRunStaged | .seqDone | .seqFail _ => 0

/-! ### One word of the opcode table -/

/-- The context a table word of `nbits` bits is read in. 12, 14 and 16 bits are the lengths of `SEED` at bpp 8, 10 and 12
(R91); a length given in whole bytes, 16 for all three, is read at the least depth whose codeword has room for the
word. Any other length is read as a symbol of a later pixel, with cap 6 and bpp 8 (the example of the table's `ESC`
row) and Rice parameter 0 (DESIGN CHOICE, log entry 12). -/
def tableCtx (nbits w : Nat) : Ctx :=
  if nbits = 12 ∨ nbits = 16 ∧ w < 2 ^ 12 then ⟨true, 8, 6, 0⟩
  else if nbits = 14 ∨ nbits = 16 ∧ w < 2 ^ 14 then ⟨true, 10, 6, 0⟩
  else if nbits = 16 then ⟨true, 12, 6, 0⟩
  else ⟨false, 8, 6, 0⟩

/-- How many bytes hold the longest codeword, 270 bits (R99). -/
def longestBytes : Nat := 34

/-- The bytes of a table word: bit `i` of `w` is bit `i` of the codeword (R91 numbers the delimiter 0), the bits
above `nbits` are 0, packed most significant bit first into bytes (R67, R102). -/
def tableBytes (nbits w : Nat) : List Byte :=
  packBytes longestBytes (fieldBits nbits w)

/-- The instruction the decoder reads from a table word. The parameter 0 is the value `AR.K` gives on the reset state's
`N` and `A`. -/
def decodeTableWord (nbits w : Nat) : Option Instr :=
  match decode (tableCtx nbits w) (streamBits (tableBytes nbits w)) with
  | .ok (i, _) => some i
  | .error _ => none

end Sys2Proof
end

