-- ==== Sys2Proof/Config.lean ====
section
/-! DEFINITION. What the spec leaves open: the four algorithm constants' default values (open parameters of the
spec, R7, R25, R26), and the free value of an output element whose content is unspecified (R41, R252, U1). -/

namespace Sys2Proof.Config

/-- The default of CFG.N_THRESHOLD, from the source document (R7, R25). -/
def defaultNThreshold : BitVec 8 := 8

/-- The default of CFG.A_INIT, from the source document (R7, R25). -/
def defaultAInit : BitVec 16 := 32

/-- The default of CFG.A_MIN, the spec's own (R7, R26, D7). -/
def defaultAMin : BitVec 16 := 1

/-- The default of CFG.N_START, the spec's own (R7, R26, D6). -/
def defaultNStart : BitVec 8 := 1

/-- What an element of output memory holds when the spec leaves it unspecified: after reset (R41), and after a
run that ended with any code but Success (R252, U1 "any value"). A FREE VALUE: it has no body. The first
argument counts the runs that have failed since reset, the second is the element's index. Log entry 4. -/
opaque unspecifiedOut : Nat → Nat → BitVec 16

end Sys2Proof.Config
end

