-- ==== Sys2Proof/Machine/State.lean ====
section
/-! DEFINITION. The state of the block as plain data (10_state.md), the reasons a step can stop, and the state
after reset (R40, R41, R270). INVENTORY.md lists every field with its rule, width and reset value. -/

namespace Sys2Proof.Machine

/-- Why the machine stops with a fault. All are SAFE: the model stops where it will not guess. -/
inductive Fault where
  /-- `StreamRead` of a byte below CFG.STREAM_LEN that nothing has written since reset: stream memory is
  unspecified after reset (R41, R270). Raised by `BC.LOAD` and `BC.FETCH1` and what calls them. Safe. -/
  | streamUnwritten
  /-- `OutWrite` to an index at or above CFG.OUT_LEN, which R65 does not define. Raised by `CT.QUAD` when it is
  performed in a state no run reaches (R78). Safe. -/
  | outOfRange
  /-- The host reads OUT at an index at or above CFG.OUT_LEN, where the spec has no element (R24, R65; DESIGN CHOICE,
  log entry 18). Raised by a host request. Safe. -/
  | outReadOutOfRange
deriving DecidableEq, Repr

/-- Why an instruction or a host request has no meaning. All are SAFE: the model stops. -/
inductive Refusal where
  /-- An instruction whose arm in Dispatch.lean is not yet modelled; no arm uses it. Safe. -/
  | notModelled (mnemonic : String)
  /-- A run whose configuration is outside `CfgWF` and does not have the defined outcome `InvalidHeader`: "A
  configuration outside `CfgWF` has no meaning in this spec; a model refuses it" (R9, U2, U3, U4). Raised by
  `SEQ.CHECK`, `SEQ.RUN_SEQ`, `SEQ.RUN_STAGED` and by the step that opens a strategy. Safe. -/
  | outsideCfgWF
  /-- `AR.UNARY` with CFG.UNARY_CAP = 0, which "a model refuses" (R143, U2, N19). Safe. -/
  | unaryCapZero
  /-- The host writes stream memory during a run (R73, R273, U5: refuse). Raised by a host request. Safe. -/
  | streamWriteDuringRun
  /-- The host reads output memory during a run (R73, R273, U6: refuse). Raised by a host request. Safe. -/
  | outReadDuringRun
deriving DecidableEq, Repr

/-- A sparse memory: the cells that hold a known value, by index, in one canonical form (Machine/Memory.lean). -/
abbrev Mem (w : Nat) := List (Nat × BitVec w)

/-- The build parameter PIXEL_W, the width of an element of output memory: 8 or 16 bits (R8, R27). -/
inductive PixelWidth where
  | w8
  | w16
deriving DecidableEq, Repr

/-- PIXEL_W as a number. -/
def PixelWidth.bits : PixelWidth → Nat
  | .w8 => 8
  | .w16 => 16

/-- The configuration record, registers 0 to 12 (R21 to R26). -/
structure Cfg where
  /-- Register 0 (R21). -/
  width : BitVec 16
  /-- Register 1 (R21). -/
  height : BitVec 16
  /-- Register 2 (R22). -/
  unaryCap : BitVec 8
  /-- Register 3 (R22). -/
  bpp : BitVec 8
  /-- Register 4 (R22). -/
  lossyBits : BitVec 8
  /-- Register 5: bit 0 STRATEGY, bit 1 STRICT_CT; the other bits are not stored (R23). -/
  ctrl : BitVec 2
  /-- Register 6 (R24). -/
  streamLen : BitVec 32
  /-- Register 7 (R24). -/
  payloadOffset : BitVec 32
  /-- Register 8 (R24). -/
  outLen : BitVec 32
  /-- Register 9 (R25). -/
  nThreshold : BitVec 8
  /-- Register 10 (R25). -/
  aInit : BitVec 16
  /-- Register 11 (R26). -/
  aMin : BitVec 16
  /-- Register 12 (R26). -/
  nStart : BitVec 8
deriving DecidableEq, Repr

/-- The status register's three fields, register 13 (R28). -/
structure StatusReg where
  code : Status
  busy : Bool
  done : Bool
deriving DecidableEq, Repr

/-- The bit cursor: byte index, bits consumed in the byte, the byte (R29, R30, R31). -/
structure Cursor where
  idx : BitVec 32
  cnt : BitVec 4
  cur : Byte
deriving DecidableEq, Repr

/-- The adaptive state: the sample counter N, and the accumulators A[0..3] as exact naturals (R33, R34). -/
structure Adaptive where
  n : BitVec 8
  a : Quad Nat
deriving DecidableEq, Repr

/-- The transient symbol registers (R35), `K`, `V` and `RESID` as exact integers (N4, log entry 5). -/
structure SymbolRegs where
  k : Nat
  q : BitVec 8
  v : Nat
  resid : Int
deriving DecidableEq, Repr

/-- The DPCM references of the Sequential strategy (R36, R37). -/
structure DpcmRegs where
  prev : Quad Half
  above : Quad Half
deriving DecidableEq, Repr

/-- The transient colour registers: the sums S, the quotients T and the outputs O (R38), and the results U of
`CT.SHL` (R193), which R38 does not name. S, T and U are exact integers (R190, R191, R193). -/
structure ColourRegs where
  sums : Bayer Int
  quots : Bayer Int
  shifted : Bayer Int
  outs : Bayer (BitVec 16)
deriving DecidableEq, Repr

/-- Where the sequencer is: which operation comes next (R211, R214, R215). With `P` and `CH` it says where the
run is (R32). -/
inductive SeqPoint where
  /-- No run: the block is idle (R250, R270). -/
  | idle
  /-- `SEQ.CHECK` is next (R211). -/
  | check
  /-- The strategy is to be opened: the move from `SEQ.CHECK` into `SEQ.RUN_SEQ` or `SEQ.RUN_STAGED` (R211). -/
  | select
  /-- `BC.LOAD` is next. -/
  | load
  /-- `AR.INIT` is next. -/
  | init
  /-- The codeword of channel `CH` of pixel `P` is next: a `SEED` codeword, part of `AR.SEED`, when P is 0 (R94,
  R141); a `RICE` or `ESC` codeword, which is `AR.SYM(CH)`, when it is not (R94, R149). -/
  | codeword
  /-- `DP.SEED` is next (Sequential). -/
  | dpSeed
  /-- `DP.SEQ(CH, RESID)` is next (Sequential). -/
  | dpSeq
  /-- `DP.STORE(P, CH, x)` is next (Staged, phase A). -/
  | store
  /-- `AR.UPD_N` is next. -/
  | updN
  /-- `CT.QUAD(P, PREV)` is next (Sequential). -/
  | quad
  /-- `DP.COL0` is next (Staged, phase B). -/
  | col0
  /-- `DP.ROW(r)` is next (Staged, phase B). -/
  | row (r : Nat)
  /-- `CT.QUAD(p, VALBUF[p])` is next (Staged, phase C). -/
  | stagedQuad (p : Nat)
  /-- `SEQ.DONE` is next. -/
  | finish
deriving DecidableEq, Repr

/-- What the host can do at the block's interface (R60, R210, R211, R212). -/
inductive HostEvent where
  /-- `HOST.CFGWRITE` or `HOST.CFGREAD` (R210). -/
  | cfg (acc : CfgAccess)
  /-- `HOST.START` (R211). -/
  | start
  /-- `HOST.STATUSREAD` (R212). -/
  | statusRead
  /-- Write one byte of stream memory (R60, R272). -/
  | streamWrite (addr : BitVec 32) (b : Byte)
  /-- Read one element of output memory (R60). -/
  | outRead (j : BitVec 32)
deriving DecidableEq, Repr

/-- A request of the host and how many moves of the decoder come before it. The list of requests in State is
the outside world's, not the block's (log entry 9). -/
structure HostRequest where
  wait : Nat
  event : HostEvent
deriving DecidableEq, Repr

/-- The state: everything R20 lists, the two memories of R60, the parameter PIXEL_W, and, from `seedVal` on,
the fields the model itself needs. -/
structure State where
  /-- PIXEL_W, a parameter of the build that nothing writes (R27, R43). -/
  pixelW : PixelWidth
  /-- CFG, registers 0 to 12 (R21 to R26). -/
  cfg : Cfg
  /-- STATUS, register 13 (R28). -/
  status : StatusReg
  /-- IDX, CNT and CUR (R29 to R31). -/
  cursor : Cursor
  /-- P, the pixel being decoded (R32). -/
  p : BitVec 32
  /-- CH, the channel being decoded (R32). -/
  ch : Channel
  /-- N and A[0..3] (R33, R34). -/
  ad : Adaptive
  /-- K, Q, V and RESID (R35). -/
  sym : SymbolRegs
  /-- PREV[0..3] and ABOVE[0..3] (R36, R37). -/
  dpcm : DpcmRegs
  /-- The colour registers (R38). -/
  colour : ColourRegs
  /-- RESBUF, entry [p][c] at index 4*p + c (R39). -/
  resbuf : Mem 16
  /-- VALBUF, entry [p][c] at index 4*p + c (R39). -/
  valbuf : Mem 16
  /-- STREAM, the stream memory (R60, R61). -/
  stream : Mem 8
  /-- OUT, the output memory: PIXEL_W-bit elements, zero extended to 16 bits (R60, R65). -/
  out : Mem 16
  /-- SEEDVAL[0..3], the results of `AR.SEED` handed to `DP.SEED` (R141, R170). -/
  seedVal : Quad Int
  /-- The result of the last `BC.FETCH1` or `BC.FETCHN` performed as an operation of its own (R121, R122). -/
  fetched : Nat
  /-- The sequencer's place. -/
  seq : SeqPoint
  /-- The host's requests to come, first one first. -/
  host : List HostRequest
  /-- The data of the host's last read. -/
  hostData : BitVec 32
  /-- How many runs have failed since reset: the first argument of `Config.unspecifiedOut`. -/
  outEpoch : Nat
deriving DecidableEq, Repr

/-- The state after power-on reset: STATUS is 0 in all its fields, the block is idle, both memories list nothing
(R40, R41, R270). Every other value is the model's (DESIGN CHOICE, log entry 1): the four constants have the
spec's defaults (R25, R26) and everything else is zero. -/
def State.reset : State where
  pixelW := .w8
  cfg :=
    { width := 0, height := 0, unaryCap := 0, bpp := 0, lossyBits := 0, ctrl := 0, streamLen := 0,
      payloadOffset := 0, outLen := 0, nThreshold := Config.defaultNThreshold,
      aInit := Config.defaultAInit, aMin := Config.defaultAMin, nStart := Config.defaultNStart }
  status := ⟨.success, false, false⟩
  cursor := ⟨0, 0, 0⟩
  p := 0
  ch := .y
  ad := ⟨0, Quad.fill 0⟩
  sym := ⟨0, 0, 0, 0⟩
  dpcm := ⟨Quad.fill 0, Quad.fill 0⟩
  colour := ⟨Bayer.fill 0, Bayer.fill 0, Bayer.fill 0, Bayer.fill 0⟩
  resbuf := []
  valbuf := []
  stream := []
  out := []
  seedVal := Quad.fill 0
  fetched := 0
  seq := .idle
  host := []
  hostData := 0
  outEpoch := 0

end Sys2Proof.Machine
end

