-- ==== Sys2Proof/Machine/Flags.lean ====
section
/-! DEFINITION. The status register: the block's only flags (R28). The numbers of the codes (R240), the word the
host reads, and the three changes of the register: at a start, at the normal end, at a failure. -/

namespace Sys2Proof.Machine

/-- The number of a status code (R240). -/
def statusNumber : Status → Nat
  | .success => 0
  | .generalError => 1
  | .divisionError => 2
  | .allBitsConsumed => 3
  | .bufferSizeMismatch => 4
  | .headerMisaligned => 5
  | .invalidHeader => 6
  | .unsupportedBitDepth => 7

/-- The status code a raise reports. -/
def raisedStatus : RaiseCode → Status
  | .divisionError => .divisionError
  | .allBitsConsumed => .allBitsConsumed
  | .bufferSizeMismatch => .bufferSizeMismatch
  | .invalidHeader => .invalidHeader
  | .unsupportedBitDepth => .unsupportedBitDepth

/-- STATUS as the host reads it: CODE in bits 2 to 0, BUSY bit 3, DONE bit 4 (R28). -/
def statusWord (x : StatusReg) : BitVec 32 :=
  BitVec.ofNat 32 (statusNumber x.code + 8 * x.busy.toNat + 16 * x.done.toNat)

/-- An accepted start: BUSY is set, DONE cleared, CODE kept (R28, R211, R212). -/
def statusStart (x : StatusReg) : StatusReg := { x with busy := true, done := false }

/-- The end of a run with a code: BUSY cleared, DONE set (R216, R217). -/
def statusEnd (code : Status) : StatusReg := ⟨code, false, true⟩

end Sys2Proof.Machine
end

