-- ==== Sys2Proof/Machine/Memory.lean ====
section
/-! DEFINITION. Sparse memories in one canonical form: indices strictly rising, no entry equal to what an
unlisted index reads as. `dflt` is that reading: `none` for STREAM and OUT, where an unlisted cell holds
no known value (R41, R270; log entries 2 and 4), and `some 0` for RESBUF and VALBUF (log entry 3). -/

namespace Sys2Proof.Machine

/-- The listed value at an index. -/
def Mem.find {w : Nat} : Mem w → Nat → Option (BitVec w)
  | [], _ => none
  | (a, v) :: m, i => if a = i then some v else Mem.find m i

/-- The value at an index: the listed one, or what an unlisted index reads as. -/
def Mem.read {w : Nat} (dflt : Option (BitVec w)) (m : Mem w) (i : Nat) : Option (BitVec w) :=
  match Mem.find m i with
  | some v => some v
  | none => dflt

/-- List a value at an index, keeping the order. -/
def Mem.put {w : Nat} : Mem w → Nat → BitVec w → Mem w
  | [], i, v => [(i, v)]
  | (a, u) :: m, i, v =>
    if i < a then (i, v) :: (a, u) :: m
    else if i = a then (i, v) :: m
    else (a, u) :: Mem.put m i v

/-- Remove the entry at an index. -/
def Mem.drop {w : Nat} : Mem w → Nat → Mem w
  | [], _ => []
  | (a, u) :: m, i => if a = i then m else (a, u) :: Mem.drop m i

/-- Write a value at an index; the value an unlisted index reads as removes the entry. -/
def Mem.write {w : Nat} (dflt : Option (BitVec w)) (m : Mem w) (i : Nat) (v : BitVec w) : Mem w :=
  if dflt = some v then Mem.drop m i else Mem.put m i v

/-- Every listed index is above `lo` (when given), they rise strictly, and no entry is the unlisted reading. -/
def Mem.wfFrom {w : Nat} (dflt : Option (BitVec w)) : Option Nat → Mem w → Bool
  | _, [] => true
  | lo, (a, v) :: m =>
    (match lo with
      | none => true
      | some b => decide (b < a)) && !(dflt == some v) && Mem.wfFrom dflt (some a) m

/-- The canonical form. -/
def Mem.wf {w : Nat} (dflt : Option (BitVec w)) (m : Mem w) : Bool := Mem.wfFrom dflt none m

/-- What an unlisted byte of STREAM reads as: nothing, so that reading it faults (log entry 2). -/
def streamDefault : Option Byte := none

/-- What an unlisted element of OUT reads as: no known value (log entry 4). -/
def outDefault : Option (BitVec 16) := none

/-- What an unlisted entry of RESBUF or VALBUF reads as: 0 (log entry 3). -/
def bufDefault : Option Half := some 0

/-- The index of entry [p][c] of RESBUF and VALBUF. -/
def bufIndex (p : Nat) (c : Channel) : Nat := 4 * p + c.index

/-- Entry [p][c] of RESBUF or VALBUF. -/
def bufRead (m : Mem 16) (p : Nat) (c : Channel) : Half :=
  ((Mem.read bufDefault m (bufIndex p c)).getD 0)

/-- Write entry [p][c] of RESBUF or VALBUF. The spec has the entries of the pixels 0 to NPIX - 1 (R39); the model's
buffers have no bound, and a write beyond lists an entry there (DESIGN CHOICE, log entry 16). -/
def bufWrite (m : Mem 16) (p : Nat) (c : Channel) (v : Half) : Mem 16 :=
  Mem.write bufDefault m (bufIndex p c) v

/-- The four entries [p][0..3]. -/
def bufQuad (m : Mem 16) (p : Nat) : Quad Half :=
  ⟨bufRead m p .y, bufRead m p .cd, bufRead m p .cm, bufRead m p .co⟩

/-- The canonical form of all four memories of a state. -/
def State.memWF (s : State) : Bool :=
  Mem.wf streamDefault s.stream && Mem.wf outDefault s.out && Mem.wf bufDefault s.resbuf &&
    Mem.wf bufDefault s.valbuf

end Sys2Proof.Machine
end

