-- ==== Sys2Proof/Machine/Operands.lean ====
section
/-! DEFINITION. Operand forms and the arithmetic of the rules on exact integers: quantities derived from CFG (R6),
the residual mapping (R97, R98), wrap, division and narrowing (R13 to R15), the Rice parameter (R142), the
end-of-pixel update (R148), the colour sums (R190) and the output index map (R66). -/

namespace Sys2Proof.Machine

/-! ### Quantities derived from CFG (R6, R22, R23) -/

/-- `bpp_eff`: 0 is treated as 8 (R6, R22). -/
def bppEff (c : Cfg) : Nat := if c.bpp = 0 then 8 else c.bpp.toNat

/-- `HW`, the quads per row (R6). -/
def halfWidth (c : Cfg) : Nat := c.width.toNat / 2

/-- `HH`, the rows of quads (R6). -/
def halfHeight (c : Cfg) : Nat := c.height.toNat / 2

/-- `NPIX`, the number of pixels (R6). -/
def npix (c : Cfg) : Nat := halfWidth c * halfHeight c

/-- CFG.CTRL bit 0: 1 is Staged (R23). -/
def isStaged (c : Cfg) : Bool := c.ctrl.getLsbD 0

/-- CFG.CTRL bit 1: STRICT_CT (R23). -/
def isStrict (c : Cfg) : Bool := c.ctrl.getLsbD 1

/-! ### Integer arithmetic -/

/-- `wrap16` (R14). -/
def wrap16 (x : Int) : Half := BitVec.ofInt 16 x

/-- `fromAbs` (R97): an even `v` is `v/2`, an odd one `-((v+1)/2)`. -/
def fromAbs (v : Nat) : Int :=
  if v % 2 = 0 then ((v / 2 : Nat) : Int) else -(((v + 1) / 2 : Nat) : Int)

/-- `toAbs`, the inverse of `fromAbs` (R98). The block does not compute it. -/
def toAbs (x : Int) : Nat :=
  if 0 ≤ x then (2 * x).toNat else (-2 * x - 1).toNat

/-- `>>a 3`: the floor of the eighth (R13, R191). -/
def div8 (x : Int) : Int := x / 8

/-- The shift left that brings the lossy bits back, exact for either sign (R193). -/
def shiftLossy (c : Cfg) (t : Int) : Int := t * 2 ^ c.lossyBits.toNat

/-- `narrow`: the low PIXEL_W bits (R15, R194), zero extended to 16. -/
def narrow (w : PixelWidth) (u : Int) : BitVec 16 :=
  BitVec.ofNat 16 (u % 2 ^ w.bits).toNat

/-! ### The adaptive parameter -/

/-- The bounded search of R142 from `k`, with `fuel` iterations left. -/
def kSearch (n a : Nat) : Nat → Nat → Nat
  | 0, k => k
  | fuel + 1, k => if n * 2 ^ k < a then kSearch n a fuel (k + 1) else k

/-- The Rice parameter for a counter, an accumulator and `bpp_eff` (R142). -/
def riceParam (n a bpp : Nat) : Nat := kSearch n a (bpp + 2) 0

/-- `AR.UPD_N` on the adaptive state (R148). -/
def updatedN (c : Cfg) (x : Adaptive) : Adaptive :=
  let n1 := x.n.toNat + 1
  let halve := decide (c.nThreshold.toNat ≤ n1)
  { n := BitVec.ofNat 8 (if halve then n1 / 2 else n1)
    a := x.a.map fun v => max (if halve then v / 2 else v) c.aMin.toNat }

/-! ### Colour transform and output index -/

/-- The four sums of R190, exact. -/
def colourSums (x : Quad Half) : Bayer Int :=
  let y := x.y.toInt
  let cd := x.cd.toInt
  let cm := x.cm.toInt
  let co := x.co.toInt
  { gr := 2 * y + 2 * cd + 4 * cm + 2 * co
    r := 2 * y + 2 * cd - 4 * cm + 2 * co
    b := 2 * y + 2 * cd - 4 * cm - 6 * co
    gb := 2 * y - 6 * cd + 4 * cm + 2 * co }

/-- The output element of a sub-pixel of pixel `p`, for `hw` quads per row (R66). -/
def quadIndex (hw p : Nat) : SubPixel → Nat
  | .gb => 2 * (p / hw) * (2 * hw) + 2 * (p % hw)
  | .b => 2 * (p / hw) * (2 * hw) + 2 * (p % hw) + 1
  | .r => (2 * (p / hw) + 1) * (2 * hw) + 2 * (p % hw)
  | .gr => (2 * (p / hw) + 1) * (2 * hw) + 2 * (p % hw) + 1

/-! ### Register numbers and access (R21 to R26, R210) -/

/-- The register number (R21 to R26). -/
def cfgNumber : CfgReg → Nat
  | .width => 0
  | .height => 1
  | .unaryCap => 2
  | .bpp => 3
  | .lossyBits => 4
  | .ctrl => 5
  | .streamLen => 6
  | .payloadOffset => 7
  | .outLen => 8
  | .nThreshold => 9
  | .aInit => 10
  | .aMin => 11
  | .nStart => 12

/-- The value of a configuration register, zero extended (R210). -/
def cfgRead (c : Cfg) : CfgReg → BitVec 32
  | .width => c.width.setWidth 32
  | .height => c.height.setWidth 32
  | .unaryCap => c.unaryCap.setWidth 32
  | .bpp => c.bpp.setWidth 32
  | .lossyBits => c.lossyBits.setWidth 32
  | .ctrl => c.ctrl.setWidth 32
  | .streamLen => c.streamLen
  | .payloadOffset => c.payloadOffset
  | .outLen => c.outLen
  | .nThreshold => c.nThreshold.setWidth 32
  | .aInit => c.aInit.setWidth 32
  | .aMin => c.aMin.setWidth 32
  | .nStart => c.nStart.setWidth 32

/-- A configuration register takes a value, truncated to its width; the reserved bits of CFG.CTRL stay 0
(R23, R210). -/
def cfgWrite (c : Cfg) (r : CfgReg) (v : BitVec 32) : Cfg :=
  match r with
  | .width => { c with width := v.setWidth 16 }
  | .height => { c with height := v.setWidth 16 }
  | .unaryCap => { c with unaryCap := v.setWidth 8 }
  | .bpp => { c with bpp := v.setWidth 8 }
  | .lossyBits => { c with lossyBits := v.setWidth 8 }
  | .ctrl => { c with ctrl := v.setWidth 2 }
  | .streamLen => { c with streamLen := v }
  | .payloadOffset => { c with payloadOffset := v }
  | .outLen => { c with outLen := v }
  | .nThreshold => { c with nThreshold := v.setWidth 8 }
  | .aInit => { c with aInit := v.setWidth 16 }
  | .aMin => { c with aMin := v.setWidth 16 }
  | .nStart => { c with nStart := v.setWidth 8 }

/-! ### Well-formedness of a configuration -/

/-- The clauses of `CfgWF` on the registers of CFG alone (R9). The bound 255 on the cap and the clauses on the widths
of the four constants hold of every configuration, by the widths of the registers. -/
def registersWF (c : Cfg) : Bool :=
  decide (c.unaryCap ≠ 0) && decide (16 ≤ c.width.toNat) && decide (16 ≤ c.height.toNat) &&
    decide (c.aMin.toNat ≤ c.aInit.toNat) && decide (c.payloadOffset.toNat ≤ c.streamLen.toNat)

/-- `CfgWF` (R9): the clauses on the registers, and the one on the build: Staged only with PIXEL_W = 8. -/
def State.cfgWF (s : State) : Bool := registersWF s.cfg && (!isStaged s.cfg || decide (s.pixelW = .w8))

/-- The first of the three tests of `SEQ.CHECK` that fails, in the order of R213 and R249. -/
def checkFailure (c : Cfg) : Option RaiseCode :=
  if c.width.toNat % 16 ≠ 0 ∨ c.height.toNat % 16 ≠ 0 ∨
      ¬ (bppEff c = 8 ∨ bppEff c = 10 ∨ bppEff c = 12) then some .invalidHeader
  else if c.outLen.toNat ≠ c.width.toNat * c.height.toNat then some .bufferSizeMismatch
  else if isStaged c = true ∧ bppEff c ≠ 8 then some .unsupportedBitDepth
  else none

end Sys2Proof.Machine
end

