-- ==== Sys2Proof/Machine/Ops.lean ====
section
/-! DEFINITION. The shared operations: how an operation ends, what a raise does (R217, R250) and what begins the next
run (R211, R253), the two memory accesses (R11), and the bit cursor's fetches (R121, R122). -/

namespace Sys2Proof.Machine

/-! ### How an operation ends -/

/-- What an operation answers inside the block: a value and the state after it; a raise of a status code, with
the state at the raise; or a stop of the model. -/
inductive Run (α : Type) where
  | ok (a : α) (s : State)
  | raised (c : RaiseCode) (s : State)
  | fault (f : Fault)
  | refused (r : Refusal)
deriving Repr

/-- Do one operation, then another; a raise or a stop ends both (R11 "propagates the raise", R217). -/
def Run.bind {α β : Type} (x : Run α) (f : α → State → Run β) : Run β :=
  match x with
  | .ok a s => f a s
  | .raised c s => .raised c s
  | .fault e => .fault e
  | .refused e => .refused e

/-! ### Raising a status, and the start that follows -/

/-- `raise <Status>` performs `SEQ.FAIL` (R217, R250): CODE takes the status, BUSY is 0, DONE is 1, the block is
idle. Every element of output memory becomes unspecified (R252, U1): the list of known elements is emptied
and the free value's counter advances. Nothing is saved and no other register changes (R250, R251). -/
def State.fail (s : State) (c : RaiseCode) : State :=
  { s with
    status := statusEnd (raisedStatus c)
    seq := .idle
    out := []
    outEpoch := s.outEpoch + 1 }

/-- `SEQ.DONE` (R216): CODE is Success, BUSY 0, DONE 1; the block is idle. -/
def State.succeed (s : State) : State :=
  { s with status := statusEnd .success, seq := .idle }

/-- An accepted start (R211): BUSY is 1, DONE 0, and `SEQ.CHECK` is next. There is no return from a failure
(R253): this fresh start is all that follows one. -/
def State.begin (s : State) : State :=
  { s with status := statusStart s.status, seq := .check }

/-- The outcome of an operation: a raise is taken, and is a next state (R250). -/
def Run.outcome {α : Type} (x : Run α) : Host.Outcome State Fault Refusal :=
  match x with
  | .ok _ s => .next s
  | .raised c s => .next (s.fail c)
  | .fault e => .fault e
  | .refused e => .refused e

/-! ### Memory accesses -/

/-- `StreamRead(i)` (R11, R61): the byte at an index below CFG.STREAM_LEN, which the callers test. -/
def streamRead (s : State) (i : Nat) : Run Byte :=
  match Mem.read streamDefault s.stream i with
  | some b => .ok b s
  | none => .fault .streamUnwritten

/-- `OutWrite(j, v)` (R11, R65): defined for an index below CFG.OUT_LEN. -/
def outWrite (j : Nat) (v : BitVec 16) (s : State) : Run Unit :=
  if j < s.cfg.outLen.toNat then .ok () { s with out := Mem.write outDefault s.out j v }
  else .fault .outOfRange

/-- What an element of output memory reads as: its known value, or the free value of an element whose content
is unspecified, narrowed to PIXEL_W bits (R41, R252, U1). The caller tests the index against CFG.OUT_LEN. -/
def outRead (s : State) (j : Nat) : BitVec 16 :=
  match Mem.read outDefault s.out j with
  | some v => v
  | none => narrow s.pixelW (Config.unspecifiedOut s.outEpoch j).toNat

/-! ### The bit cursor -/

/-- The cursor inside a byte: deliver bit `7 - CNT` and count it (R67, R121). -/
def deliverBit (s : State) : Run Bool :=
  .ok (s.cursor.cur.getLsbD (7 - s.cursor.cnt.toNat))
    { s with cursor := { s.cursor with cnt := s.cursor.cnt + 1 } }

/-- `BC.FETCH1` (R121): the next byte is loaded lazily, at the fetch that needs it. -/
def fetchBit (s : State) : Run Bool :=
  if s.cursor.cnt = 8 then
    if s.cfg.streamLen.toNat ≤ s.cursor.idx.toNat + 1 then .raised .allBitsConsumed s
    else (streamRead s (s.cursor.idx.toNat + 1)).bind fun b s =>
      deliverBit { s with cursor := ⟨s.cursor.idx + 1, 0, b⟩ }
  else deliverBit s

/-- `n` bits in the order the cursor delivers them. -/
def fetchBits : Nat → State → Run (List Bool)
  | 0, s => .ok [] s
  | n + 1, s => (fetchBit s).bind fun b s => (fetchBits n s).bind fun bs s => .ok (b :: bs) s

/-- `BC.FETCHN(n)` (R122): the first bit fetched is bit 0 of the value. Any n is taken, also above the rule's 15
(DESIGN CHOICE, log entry 16). -/
def fetchField (n : Nat) (s : State) : Run Nat :=
  (fetchBits n s).bind fun bs s => .ok (fieldValue bs) s

end Sys2Proof.Machine
end

