-- ==== Sys2Proof/Machine/AdaptiveRice.lean ====
section
/-! DEFINITION. The adaptive Rice decoder's operations (41_adaptive_rice.md). -/

namespace Sys2Proof.Machine

/-- `AR.INIT` (R140). -/
def initAdaptive (s : State) : State :=
  { s with ad := ⟨s.cfg.nStart, Quad.fill s.cfg.aInit.toNat⟩ }

/-- The accumulator of a channel grows by the magnitude of a residual (R141, R147). -/
def accumulate (c : Channel) (x : Int) (s : State) : State :=
  { s with ad := { s.ad with a := s.ad.a.set c (s.ad.a.get c + x.natAbs) } }

/-- The effect of a seed codeword's value on one channel (R141): `V`, the seed value, the accumulator. The seed
changes neither N nor the other channels (R141, D5, D9). -/
def seedEffect (c : Channel) (v : Nat) (s : State) : State :=
  accumulate c (fromAbs v)
    { s with sym := { s.sym with v := v }, seedVal := s.seedVal.set c (fromAbs v) }

/-- One channel of `AR.SEED` (R141): the delimiter is read and discarded, then `bpp_eff + 3` bits. -/
def seedChannel (c : Channel) (s : State) : Run Unit :=
  (fetchBit s).bind fun _ s => (fetchField (bppEff s.cfg + 3) s).bind fun v s => .ok () (seedEffect c v s)

/-- `AR.SEED` (R141): the four channels in order. -/
def seedPixel (s : State) : Run Unit :=
  (seedChannel .y s).bind fun _ s => (seedChannel .cd s).bind fun _ s =>
    (seedChannel .cm s).bind fun _ s => seedChannel .co s

/-- `AR.K(c)` (R142). -/
def recomputeK (c : Channel) (s : State) : State :=
  { s with sym := { s.sym with k := riceParam s.ad.n.toNat (s.ad.a.get c) (bppEff s.cfg) } }

/-- The loop of `AR.UNARY` (R143), with `fuel` ones still below the cap. -/
def unaryLoop : Nat → State → Run Unit
  | 0, s => .ok () s
  | fuel + 1, s => (fetchBit s).bind fun b s =>
    if b then unaryLoop fuel { s with sym := { s.sym with q := s.sym.q + 1 } } else .ok () s

/-- `AR.UNARY` (R143); a cap of 0 is refused (R143, U2). -/
def readUnary (s : State) : Run Unit :=
  if s.cfg.unaryCap = 0 then .refused .unaryCapZero
  else unaryLoop s.cfg.unaryCap.toNat { s with sym := { s.sym with q := 0 } }

/-- `AR.ESC` (R144). -/
def readEscape (s : State) : Run Unit :=
  (fetchField (bppEff s.cfg + 3) s).bind fun v s => .ok () { s with sym := { s.sym with v := v } }

/-- `AR.REM(K, Q)` (R145), K and Q being the registers. -/
def readRemainder (s : State) : Run Unit :=
  (fetchField s.sym.k s).bind fun r s =>
    .ok () { s with sym := { s.sym with v := s.sym.q.toNat * 2 ^ s.sym.k + r } }

/-- `AR.MAP(V)` (R146). -/
def mapResidual (s : State) : State :=
  { s with sym := { s.sym with resid := fromAbs s.sym.v } }

/-- `AR.UPD_A(c, RESID)` (R147). -/
def updateA (c : Channel) (s : State) : State := accumulate c s.sym.resid s

/-- `AR.UPD_N` (R148). -/
def updateN (s : State) : State := { s with ad := updatedN s.cfg s.ad }

/-- `AR.SYM(c)` (R149). -/
def decodeOne (c : Channel) (s : State) : Run Unit :=
  (readUnary (recomputeK c s)).bind fun _ s =>
    (if s.sym.q = s.cfg.unaryCap then readEscape s else readRemainder s).bind fun _ s =>
      .ok () (updateA c (mapResidual s))

/-- The meaning of `AR.INIT` (R140). -/
def execArInit (s : State) : Host.Outcome State Fault Refusal := .next (initAdaptive s)

/-- The meaning of `AR.SEED` (R141). -/
def execArSeed (s : State) : Host.Outcome State Fault Refusal := (seedPixel s).outcome

/-- The meaning of `AR.K` (R142). -/
def execArK (c : Channel) (s : State) : Host.Outcome State Fault Refusal := .next (recomputeK c s)

/-- The meaning of `AR.UNARY` (R143). -/
def execArUnary (s : State) : Host.Outcome State Fault Refusal := (readUnary s).outcome

/-- The meaning of `AR.ESC` (R144). -/
def execArEsc (s : State) : Host.Outcome State Fault Refusal := (readEscape s).outcome

/-- The meaning of `AR.REM` (R145). -/
def execArRem (s : State) : Host.Outcome State Fault Refusal := (readRemainder s).outcome

/-- The meaning of `AR.MAP` (R146). -/
def execArMap (s : State) : Host.Outcome State Fault Refusal := .next (mapResidual s)

/-- The meaning of `AR.UPD_A` (R147). -/
def execArUpdA (c : Channel) (s : State) : Host.Outcome State Fault Refusal := .next (updateA c s)

/-- The meaning of `AR.UPD_N` (R148). -/
def execArUpdN (s : State) : Host.Outcome State Fault Refusal := .next (updateN s)

/-- The meaning of `AR.SYM` (R149). -/
def execArSym (c : Channel) (s : State) : Host.Outcome State Fault Refusal := (decodeOne c s).outcome

end Sys2Proof.Machine
end

