-- ==== Sys2Proof/Machine/Codewords.lean ====
section
/-! DEFINITION. The codewords' meanings (30_encoding.md R91 to R93): what the block does with a codeword of channel
CH whose bits the cursor has passed. Moving the cursor past the bits is the fetch's part (Machine/Fetch.lean).
A codeword that no bits at the state's place decode to, performed alone, follows its formula without a check of its
operands or of the place: RICE with q at or above CFG.UNARY_CAP (Q keeps the low 8 bits of q, V is formed from the
whole q) or with r at or above 2^K, a value field wider than the format's, `SEED` at another depth or where P is not 0,
`RICE` and `ESC` where P is 0 (DESIGN CHOICE, log entry 16). -/

namespace Sys2Proof.Machine

/-- A symbol's value becomes the residual and is accumulated (R146, R147, R149). -/
def symbolEffect (q : BitVec 8) (v : Nat) (s : State) : State :=
  updateA s.ch (mapResidual { s with sym := { s.sym with q := q, v := v } })

/-- A `RICE` codeword: `V = Q * 2^K + r` with K from the adaptive state (R92, R96, R145, R149); any q
and r are taken (DESIGN CHOICE, log entry 16). -/
def riceEffect (q r : Nat) (s : State) : State :=
  let t := recomputeK s.ch s
  symbolEffect (BitVec.ofNat 8 q) (q * 2 ^ t.sym.k + r) t

/-- An `ESC` codeword: Q is the cap, K is computed and unused (R93, R96, R144, R149); any v
is taken (DESIGN CHOICE, log entry 16). -/
def escEffect (v : Nat) (s : State) : State :=
  symbolEffect s.cfg.unaryCap v (recomputeK s.ch s)

/-- The meaning of `SEED` at bpp 8 (R91, R141); the delimiter has no effect (R101). -/
def execSeed8 (v : Nat) (s : State) : Host.Outcome State Fault Refusal := .next (seedEffect s.ch v s)

/-- The meaning of `SEED` at bpp 10 (R91, R141). -/
def execSeed10 (v : Nat) (s : State) : Host.Outcome State Fault Refusal := .next (seedEffect s.ch v s)

/-- The meaning of `SEED` at bpp 12 (R91, R141). -/
def execSeed12 (v : Nat) (s : State) : Host.Outcome State Fault Refusal := .next (seedEffect s.ch v s)

/-- The meaning of `RICE` (R92). -/
def execRice (q r : Nat) (s : State) : Host.Outcome State Fault Refusal := .next (riceEffect q r s)

/-- The meaning of `ESC` (R93). -/
def execEsc (v : Nat) (s : State) : Host.Outcome State Fault Refusal := .next (escEffect v s)

end Sys2Proof.Machine
end

