-- ==== Sys2Proof/Machine/BitCursor.lean ====
section
/-! DEFINITION. The bit cursor's operations (40_bit_cursor.md). -/

namespace Sys2Proof.Machine

/-- `BC.LOAD` (R120). -/
def loadCursor (s : State) : Run Unit :=
  if s.cfg.streamLen.toNat ≤ s.cfg.payloadOffset.toNat then .raised .allBitsConsumed s
  else (streamRead s s.cfg.payloadOffset.toNat).bind fun b s =>
    .ok () { s with cursor := ⟨s.cfg.payloadOffset, 0, b⟩ }

/-- The meaning of `BC.LOAD` (R120). -/
def execBcLoad (s : State) : Host.Outcome State Fault Refusal := (loadCursor s).outcome

/-- The meaning of `BC.FETCH1` (R121): the bit is the operation's result. -/
def execBcFetch1 (s : State) : Host.Outcome State Fault Refusal :=
  ((fetchBit s).bind fun b s => .ok () { s with fetched := b.toNat }).outcome

/-- The meaning of `BC.FETCHN` (R122): the field's value is the operation's result. With n above 15, beyond the rule's
range, n bits are fetched by the same loop (DESIGN CHOICE, log entry 16). -/
def execBcFetchN (n : Nat) (s : State) : Host.Outcome State Fault Refusal :=
  ((fetchField n s).bind fun v s => .ok () { s with fetched := v }).outcome

end Sys2Proof.Machine
end

