-- ==== Sys2Proof/Machine/ColourTransform.lean ====
section
/-! DEFINITION. The inverse colour transform and the output write (43_color_transform.md). -/

namespace Sys2Proof.Machine

/-- `CT.SUM` (R190). -/
def takeSums (val : Quad Half) (s : State) : State :=
  { s with colour := { s.colour with sums := colourSums val } }

/-- `CT.DIV8` of one sum (R191). -/
def divideSum (i : SubPixel) (s : State) : State :=
  { s with colour := { s.colour with quots := s.colour.quots.set i (div8 (s.colour.sums.get i)) } }

/-- `CT.STRICT` (R192): only S_GR is tested, and only when STRICT_CT is 1. -/
def strictCheck (s : State) : Run Unit :=
  if isStrict s.cfg = true ∧ s.colour.sums.gr % 8 ≠ 0 then .raised .divisionError s else .ok () s

/-- `CT.SHL` of one quotient (R193). -/
def shiftQuotient (i : SubPixel) (s : State) : State :=
  { s with
    colour :=
      { s.colour with shifted := s.colour.shifted.set i (shiftLossy s.cfg (s.colour.quots.get i)) } }

/-- `CT.NARROW` of one shifted value (R194). -/
def narrowShifted (i : SubPixel) (s : State) : State :=
  { s with
    colour := { s.colour with outs := s.colour.outs.set i (narrow s.pixelW (s.colour.shifted.get i)) } }

/-- One output element of `CT.QUAD`: divide, shift, narrow, write (R195). -/
def writeElement (p : Nat) (i : SubPixel) (s : State) : Run Unit :=
  let s := narrowShifted i (shiftQuotient i (divideSum i s))
  outWrite (quadIndex (halfWidth s.cfg) p i) (s.colour.outs.get i) s

/-- `CT.QUAD(p, Y, Cd, Cm, Co)` (R195). A pixel at or beyond NPIX is transformed by the same formula where its four
elements are below CFG.OUT_LEN (DESIGN CHOICE, log entry 16). -/
def transformQuad (p : Nat) (val : Quad Half) (s : State) : Run Unit :=
  (strictCheck (takeSums val s)).bind fun _ s => (writeElement p .gb s).bind fun _ s =>
    (writeElement p .b s).bind fun _ s => (writeElement p .r s).bind fun _ s => writeElement p .gr s

/-- The meaning of `CT.SUM` (R190). -/
def execCtSum (val : Quad Half) (s : State) : Host.Outcome State Fault Refusal := .next (takeSums val s)

/-- The meaning of `CT.DIV8` (R191). -/
def execCtDiv8 (i : SubPixel) (s : State) : Host.Outcome State Fault Refusal := .next (divideSum i s)

/-- The meaning of `CT.STRICT` (R192). -/
def execCtStrict (s : State) : Host.Outcome State Fault Refusal := (strictCheck s).outcome

/-- The meaning of `CT.SHL` (R193). -/
def execCtShl (i : SubPixel) (s : State) : Host.Outcome State Fault Refusal := .next (shiftQuotient i s)

/-- The meaning of `CT.NARROW` (R194). -/
def execCtNarrow (i : SubPixel) (s : State) : Host.Outcome State Fault Refusal := .next (narrowShifted i s)

/-- The meaning of `CT.QUAD` (R195). -/
def execCtQuad (p : BitVec 32) (val : Quad Half) (s : State) : Host.Outcome State Fault Refusal :=
  (transformQuad p.toNat val s).outcome

end Sys2Proof.Machine
end

