-- ==== Sys2Proof/Machine/Dpcm.lean ====
section
/-! DEFINITION. DPCM reconstruction (42_dpcm.md). -/

namespace Sys2Proof.Machine

/-- `DP.SEED` (R170). -/
def installSeed (s : State) : State :=
  { s with dpcm := ⟨s.seedVal.map wrap16, s.seedVal.map wrap16⟩ }

/-- Whether pixel P is in column 0 of its row (R171). -/
def inColumn0 (s : State) : Bool := decide (s.p.toNat % halfWidth s.cfg = 0)

/-- The reference of `DP.SEQ`: the value above in column 0, else the value on the left (R171). -/
def dpReference (c : Channel) (s : State) : Half :=
  if inColumn0 s then s.dpcm.above.get c else s.dpcm.prev.get c

/-- The value `DP.SEQ` reconstructs (R171). -/
def dpValue (c : Channel) (s : State) : Half := wrap16 ((dpReference c s).toInt + s.sym.resid)

/-- `DP.SEQ(ch, RESID)` (R171). -/
def reconstruct (c : Channel) (s : State) : State :=
  { s with
    dpcm :=
      { prev := s.dpcm.prev.set c (dpValue c s)
        above := if inColumn0 s then s.dpcm.above.set c (dpValue c s) else s.dpcm.above } }

/-- `DP.STORE(p, ch, x)` (R172). A pixel at or beyond NPIX, for which RESBUF has no entry (R39), is stored all the same,
and so is a pixel of a run that is not Staged (DESIGN CHOICE, log entry 16). -/
def storeResidual (p : Nat) (c : Channel) (x : Int) (s : State) : State :=
  { s with resbuf := bufWrite s.resbuf p c (wrap16 x) }

/-- One channel of one pixel of phase B: VALBUF[p][c] takes VALBUF[ref][c] plus RESBUF[p][c] (R173, R174). -/
def sumEntry (res : Mem 16) (ref p : Nat) (c : Channel) (val : Mem 16) : Mem 16 :=
  bufWrite val p c (wrap16 ((bufRead val ref c).toInt + (bufRead res p c).toInt))

/-- The four channels of one pixel of phase B, in channel order. -/
def sumPixel (res : Mem 16) (ref p : Nat) (val : Mem 16) : Mem 16 :=
  sumEntry res ref p .co (sumEntry res ref p .cm (sumEntry res ref p .cd (sumEntry res ref p .y val)))

/-- The first line of `DP.COL0`: pixel 0 takes its stored value (R173). -/
def copyPixel0 (res val : Mem 16) : Mem 16 :=
  bufWrite (bufWrite (bufWrite (bufWrite val 0 .y (bufRead res 0 .y)) 0 .cd (bufRead res 0 .cd)) 0 .cm
    (bufRead res 0 .cm)) 0 .co (bufRead res 0 .co)

/-- Column 0 of the rows 1 to `n`, in increasing order, for `hw` quads per row (R173). -/
def col0Rows (hw : Nat) (res : Mem 16) : Nat → Mem 16 → Mem 16
  | 0, val => val
  | n + 1, val => sumPixel res (n * hw) ((n + 1) * hw) (col0Rows hw res n val)

/-- `DP.COL0` (R173). -/
def reconstructCol0 (s : State) : State :=
  { s with
    valbuf := col0Rows (halfWidth s.cfg) s.resbuf (halfHeight s.cfg - 1) (copyPixel0 s.resbuf s.valbuf) }

/-- The columns 1 to `n` of row `r`, in increasing order, for `hw` quads per row (R174). -/
def rowCols (hw r : Nat) (res : Mem 16) : Nat → Mem 16 → Mem 16
  | 0, val => val
  | n + 1, val => sumPixel res (r * hw + n) (r * hw + (n + 1)) (rowCols hw r res n val)

/-- `DP.ROW(r)` (R174). A row at or beyond HH, which the rule does not give, is performed by the same formula (DESIGN
CHOICE, log entry 16). -/
def reconstructRow (r : Nat) (s : State) : State :=
  { s with valbuf := rowCols (halfWidth s.cfg) r s.resbuf (halfWidth s.cfg - 1) s.valbuf }

/-- The meaning of `DP.SEED` (R170). -/
def execDpSeed (s : State) : Host.Outcome State Fault Refusal := .next (installSeed s)

/-- The meaning of `DP.SEQ` (R171). -/
def execDpSeq (c : Channel) (s : State) : Host.Outcome State Fault Refusal := .next (reconstruct c s)

/-- The meaning of `DP.STORE` (R172). -/
def execDpStore (p : BitVec 32) (c : Channel) (x : Int) (s : State) : Host.Outcome State Fault Refusal :=
  .next (storeResidual p.toNat c x s)

/-- The meaning of `DP.COL0` (R173). -/
def execDpCol0 (s : State) : Host.Outcome State Fault Refusal := .next (reconstructCol0 s)

/-- The meaning of `DP.ROW` (R174). -/
def execDpRow (r : Nat) (s : State) : Host.Outcome State Fault Refusal := .next (reconstructRow r s)

end Sys2Proof.Machine
end

