-- ==== Sys2Proof/Machine/Sequencer.lean ====
section
/-! DEFINITION. The host's and the sequencer's operations (44_sequencer_host.md). -/

namespace Sys2Proof.Machine

/-! ### Host operations -/

/-- `HOST.CFGWRITE` and `HOST.CFGREAD` (R210): a write is dropped while BUSY is 1; a read is always answered. -/
def cfgAccess (acc : CfgAccess) (s : State) : State :=
  match acc with
  | .write r v => if s.status.busy then s else { s with cfg := cfgWrite s.cfg r v }
  | .read r => { s with hostData := cfgRead s.cfg r }

/-- The meaning of `HOST.CFGWRITE` (R210). -/
def execHostCfgWrite (acc : CfgAccess) (s : State) : Host.Outcome State Fault Refusal :=
  .next (cfgAccess acc s)

/-- The meaning of `HOST.START` (R211): dropped while BUSY is 1, else it begins a run, whose operations the
following steps perform (log entry 8). -/
def execHostStart (s : State) : Host.Outcome State Fault Refusal :=
  if s.status.busy then .next s else .next s.begin

/-- The meaning of `HOST.STATUSREAD` (R212): the host gets the word; nothing else changes. -/
def execHostStatusRead (s : State) : Host.Outcome State Fault Refusal :=
  .next { s with hostData := statusWord s.status }

/-! ### The precondition checks -/

/-- A run under a configuration outside `CfgWF` has no meaning (R9, R211). -/
def requireCfgWF (s : State) : Run Unit := if s.cfgWF then .ok () s else .refused .outsideCfgWF

/-- `SEQ.CHECK` (R213, R249). The tests of the header come first: a configuration that fails one has the defined outcome
`InvalidHeader` (R9). Any other configuration outside `CfgWF` is refused, whatever the two later tests would say (R9, U2,
U3, U4), but for one: Staged at a depth other than 8 with the right size, which on a block with PIXEL_W 16 still ends with
`UnsupportedBitDepth`, as the Staged variants of programs P4 and P5 do (log entry 7). -/
def checkConfig (s : State) : Run Unit :=
  match checkFailure s.cfg with
  | some .invalidHeader => .raised .invalidHeader s
  | some .unsupportedBitDepth =>
    if registersWF s.cfg then .raised .unsupportedBitDepth s else .refused .outsideCfgWF
  | some c => (requireCfgWF s).bind fun _ s => .raised c s
  | none => requireCfgWF s

/-- The meaning of `SEQ.CHECK` (R213). -/
def execSeqCheck (s : State) : Host.Outcome State Fault Refusal := (checkConfig s).outcome

/-! ### The two strategies -/

/-- `P <- 0`, `CH <- 0` (R42, R214, R215). -/
def firstPixel (s : State) : State := { s with p := 0, ch := .y }

/-- The common start of both strategies: `BC.LOAD`, `AR.INIT`, `P <- 0`, `AR.SEED` (R214, R215). `CfgWF` is read as R9
writes it, with the strategy that CFG.CTRL names: `SEQ.RUN_STAGED` performed alone while CFG.CTRL names Sequential runs
with PIXEL_W 16 too, and `SEQ.RUN_SEQ` performed alone while it names Staged is refused there (DESIGN CHOICE, log
entry 16). -/
def openRun (s : State) : Run Unit :=
  (requireCfgWF s).bind fun _ s => (loadCursor s).bind fun _ s => seedPixel (firstPixel (initAdaptive s))

/-- One channel of a pixel of the Sequential strategy (R214). -/
def seqChannel (c : Channel) (s : State) : Run Unit :=
  (decodeOne c { s with ch := c }).bind fun _ s => .ok () (reconstruct c s)

/-- One pixel of the Sequential strategy (R214). -/
def seqPixel (s : State) : Run Unit :=
  (seqChannel .y s).bind fun _ s => (seqChannel .cd s).bind fun _ s => (seqChannel .cm s).bind fun _ s =>
    (seqChannel .co s).bind fun _ s =>
      let s := updateN s
      transformQuad s.p.toNat s.dpcm.prev s

/-- The next `n` pixels of the Sequential strategy (R214). -/
def seqPixels : Nat → State → Run Unit
  | 0, s => .ok () s
  | n + 1, s => (seqPixel { s with p := s.p + 1 }).bind fun _ s => seqPixels n s

/-- `SEQ.RUN_SEQ` (R214). -/
def runSequential (s : State) : Run Unit :=
  (openRun s).bind fun _ s => (transformQuad 0 (installSeed s).dpcm.prev (installSeed s)).bind fun _ s =>
    seqPixels (npix s.cfg - 1) s

/-- One channel of a pixel of phase A (R215). -/
def stagedChannel (c : Channel) (s : State) : Run Unit :=
  (decodeOne c { s with ch := c }).bind fun _ s => .ok () (storeResidual s.p.toNat c s.sym.resid s)

/-- One pixel of phase A (R215). -/
def stagedPixel (s : State) : Run Unit :=
  (stagedChannel .y s).bind fun _ s => (stagedChannel .cd s).bind fun _ s =>
    (stagedChannel .cm s).bind fun _ s => (stagedChannel .co s).bind fun _ s => .ok () (updateN s)

/-- The next `n` pixels of phase A (R215). -/
def stagedPixels : Nat → State → Run Unit
  | 0, s => .ok () s
  | n + 1, s => (stagedPixel { s with p := s.p + 1 }).bind fun _ s => stagedPixels n s

/-- The seed pixel's four `DP.STORE` of phase A (R215). -/
def storeSeed (s : State) : State :=
  let st (c : Channel) (s : State) : State := storeResidual 0 c (s.seedVal.get c) { s with ch := c }
  st .co (st .cm (st .cd (st .y s)))

/-- `DP.ROW` of the rows below `n`, in increasing order (R215; any order is allowed, R75). -/
def stagedRows : Nat → State → State
  | 0, s => s
  | n + 1, s => reconstructRow n (stagedRows n s)

/-- Phase C from pixel `p` on, for `n` pixels in increasing order (R215; any order is allowed, R75). -/
def stagedQuads (p : Nat) : Nat → State → Run Unit
  | 0, s => .ok () s
  | n + 1, s => (transformQuad p (bufQuad s.valbuf p) s).bind fun _ s => stagedQuads (p + 1) n s

/-- `SEQ.RUN_STAGED` (R215): phases A, B and C. -/
def runStaged (s : State) : Run Unit :=
  (openRun s).bind fun _ s => (stagedPixels (npix s.cfg - 1) (storeSeed s)).bind fun _ s =>
    stagedQuads 0 (npix s.cfg) (stagedRows (halfHeight s.cfg) (reconstructCol0 s))

/-- The meaning of `SEQ.RUN_SEQ` (R214). -/
def execSeqRunSeq (s : State) : Host.Outcome State Fault Refusal := (runSequential s).outcome

/-- The meaning of `SEQ.RUN_STAGED` (R215). -/
def execSeqRunStaged (s : State) : Host.Outcome State Fault Refusal := (runStaged s).outcome

/-! ### The end of a run -/

/-- The meaning of `SEQ.DONE` (R216). -/
def execSeqDone (s : State) : Host.Outcome State Fault Refusal := .next s.succeed

/-- The meaning of `SEQ.FAIL` (R217). -/
def execSeqFail (c : RaiseCode) (s : State) : Host.Outcome State Fault Refusal := .next (s.fail c)

end Sys2Proof.Machine
end

