-- ==== Sys2Proof/Machine/Dispatch.lean ====
section
/-! DEFINITION. One arm per instruction, each one direct call of its meaning. -/

namespace Sys2Proof.Machine

def exec (i : Instr) (s : State) : Host.Outcome State Fault Refusal :=
  match i with
  | .seed8 _ v => Sys2Proof.Machine.execSeed8 v s
  | .seed10 _ v => Sys2Proof.Machine.execSeed10 v s
  | .seed12 _ v => Sys2Proof.Machine.execSeed12 v s
  | .rice q r => Sys2Proof.Machine.execRice q r s
  | .esc v => Sys2Proof.Machine.execEsc v s
  | .bcLoad => Sys2Proof.Machine.execBcLoad s
  | .bcFetch1 => Sys2Proof.Machine.execBcFetch1 s
  | .bcFetchN n => Sys2Proof.Machine.execBcFetchN n s
  | .arInit => Sys2Proof.Machine.execArInit s
  | .arSeed => Sys2Proof.Machine.execArSeed s
  | .arK c => Sys2Proof.Machine.execArK c s
  | .arUnary => Sys2Proof.Machine.execArUnary s
  | .arEsc => Sys2Proof.Machine.execArEsc s
  | .arRem => Sys2Proof.Machine.execArRem s
  | .arMap => Sys2Proof.Machine.execArMap s
  | .arUpdA c => Sys2Proof.Machine.execArUpdA c s
  | .arUpdN => Sys2Proof.Machine.execArUpdN s
  | .arSym c => Sys2Proof.Machine.execArSym c s
  | .dpSeed => Sys2Proof.Machine.execDpSeed s
  | .dpSeq c => Sys2Proof.Machine.execDpSeq c s
  | .dpStore p c x => Sys2Proof.Machine.execDpStore p c x s
  | .dpCol0 => Sys2Proof.Machine.execDpCol0 s
  | .dpRow r => Sys2Proof.Machine.execDpRow r s
  | .ctSum val => Sys2Proof.Machine.execCtSum val s
  | .ctDiv8 x => Sys2Proof.Machine.execCtDiv8 x s
  | .ctStrict => Sys2Proof.Machine.execCtStrict s
  | .ctShl x => Sys2Proof.Machine.execCtShl x s
  | .ctNarrow x => Sys2Proof.Machine.execCtNarrow x s
  | .ctQuad p val => Sys2Proof.Machine.execCtQuad p val s
  | .hostCfgWrite acc => Sys2Proof.Machine.execHostCfgWrite acc s
  | .hostStart => Sys2Proof.Machine.execHostStart s
  | .hostStatusRead => Sys2Proof.Machine.execHostStatusRead s
  | .seqCheck => Sys2Proof.Machine.execSeqCheck s
  | .seqRunSeq => Sys2Proof.Machine.execSeqRunSeq s
  | .seqRunStaged => Sys2Proof.Machine.execSeqRunStaged s
  | .seqDone => Sys2Proof.Machine.execSeqDone s
  | .seqFail code => Sys2Proof.Machine.execSeqFail code s

end Sys2Proof.Machine
end

