-- ==== Sys2Proof/Machine/Fetch.lean ====
section
/-! DEFINITION. What comes next: the codeword at the cursor (R94), the operation the sequencer selects (R214, R215,
R218), and how the sequencer advances after it. -/

namespace Sys2Proof.Machine

/-! ### The codeword at the cursor -/

/-- The context of the next codeword (R94): it is `SEED` when P is 0; `k` is what `AR.K(CH)` computes (R142). -/
def State.ctx (s : State) : Ctx where
  seedPixel := decide (s.p = 0)
  bpp := bppEff s.cfg
  cap := s.cfg.unaryCap.toNat
  k := riceParam s.ad.n.toNat (s.ad.a.get s.ch) (bppEff s.cfg)

/-- The bytes of stream memory from index `i` on, at most `n`, up to the first that is beyond CFG.STREAM_LEN or
holds no known value. -/
def bytesFrom (s : State) (i : Nat) : Nat → List Byte
  | 0 => []
  | n + 1 =>
    if i < s.cfg.streamLen.toNat then
      match Mem.read streamDefault s.stream i with
      | some b => b :: bytesFrom s (i + 1) n
      | none => []
    else []

/-- The bits the cursor has before it (R123): the rest of CUR, then the following bytes; enough for the longest
codeword (R99). -/
def bitsAhead (s : State) : List Bool :=
  (byteBits s.cursor.cur).drop s.cursor.cnt.toNat ++
    streamBits (bytesFrom s (s.cursor.idx.toNat + 1) longestBytes)

/-- The codeword at the cursor and its length in bits; none when the bits end inside it. -/
def codewordAhead (s : State) : Option (Instr × Nat) :=
  match decode s.ctx (bitsAhead s) with
  | .ok (i, rest) => some (i, (bitsAhead s).length - rest.length)
  | .error _ => none

/-! ### The operation the sequencer selects -/

/-- The value `DP.STORE` stores: the seed value of pixel 0, else the residual (R172, R215). -/
def storeOperand (s : State) : Int := if s.p = 0 then s.seedVal.get s.ch else s.sym.resid

/-- The operation at the sequencer's place (R211, R214, R215); none where a codeword is next, where the strategy is
to be opened, and where the block is idle. -/
def selectedOp (s : State) : Option Instr :=
  match s.seq with
  | .idle => none
  | .check => some .seqCheck
  | .select => none
  | .load => some .bcLoad
  | .init => some .arInit
  | .codeword => none
  | .dpSeed => some .dpSeed
  | .dpSeq => some (.dpSeq s.ch)
  | .store => some (.dpStore s.p s.ch (storeOperand s))
  | .updN => some .arUpdN
  | .quad => some (.ctQuad s.p s.dpcm.prev)
  | .col0 => some .dpCol0
  | .row r => some (.dpRow r)
  | .stagedQuad p => some (.ctQuad (BitVec.ofNat 32 p) (bufQuad s.valbuf p))
  | .finish => some .seqDone

/-! ### How the sequencer advances -/

/-- On to the next pixel's first codeword, or, after pixel NPIX - 1, to `after` (R214, R215). -/
def nextPixel (after : SeqPoint) (s : State) : State :=
  if s.p.toNat + 1 < npix s.cfg then { s with p := s.p + 1, ch := .y, seq := .codeword }
  else { s with seq := after }

/-- On to the next channel at `here`, or, after channel 3, the move `after` (R214, R215). -/
def nextChannel (here : SeqPoint) (after : State → State) (s : State) : State :=
  match s.ch.next with
  | some c => { s with ch := c, seq := here }
  | none => after s

/-- The sequencer's move after the operation at its place has completed (R211, R214, R215). A raise has made the
block idle, and an idle block does not move (R250). -/
def advance (s : State) : State :=
  match s.seq with
  | .idle => s
  | .check => { s with seq := .select }
  | .select => { s with seq := .load }
  | .load => { s with seq := .init }
  | .init => { firstPixel s with seq := .codeword }
  | .codeword =>
    if s.p = 0 then
      nextChannel .codeword (fun s => { s with ch := .y, seq := if isStaged s.cfg then .store else .dpSeed }) s
    else { s with seq := if isStaged s.cfg then .store else .dpSeq }
  | .dpSeed => { s with seq := .quad }
  | .dpSeq => nextChannel .codeword (fun s => { s with seq := .updN }) s
  | .store =>
    if s.p = 0 then nextChannel .store (nextPixel .col0) s
    else nextChannel .codeword (fun s => { s with seq := .updN }) s
  | .updN => if isStaged s.cfg then nextPixel .col0 s else { s with seq := .quad }
  | .quad => nextPixel .finish s
  | .col0 => { s with seq := .row 0 }
  | .row r => { s with seq := if r + 1 < halfHeight s.cfg then .row (r + 1) else .stagedQuad 0 }
  | .stagedQuad p => { s with seq := if p + 1 < npix s.cfg then .stagedQuad (p + 1) else .finish }
  | .finish => { s with seq := .idle }

/-- An operation's outcome, with the sequencer advanced when there is a next state. -/
def advanced (o : Host.Outcome State Fault Refusal) : Host.Outcome State Fault Refusal :=
  match o with
  | .next s => .next (advance s)
  | .fault e => .fault e
  | .refused e => .refused e

/-! ### The moves -/

/-- The codeword at the cursor is fetched, the cursor moves past its bits, and it is executed. Where the bits end
inside it, the operation that reads it bit by bit is performed instead, and raises (R149, R141, R244). -/
def codewordMove (s : State) : Host.Outcome State Fault Refusal :=
  match codewordAhead s with
  | some (i, n) =>
    match fetchBits n s with
    | .ok _ t => exec i t
    | .raised c t => .next (t.fail c)
    | .fault e => .fault e
    | .refused e => .refused e
  | none => if s.p = 0 then (seedChannel s.ch s).outcome else exec (.arSym s.ch) s

/-- One move of the decoder: the selected operation or the codeword at the cursor is executed, and the sequencer
advances. Opening a strategy refuses a configuration outside `CfgWF` (R9). An idle block stays as it is. -/
def decoderMove (s : State) : Host.Outcome State Fault Refusal :=
  match selectedOp s with
  | some i => advanced (exec i s)
  | none =>
    match s.seq with
    | .codeword => advanced (codewordMove s)
    | .select => advanced (requireCfgWF s).outcome
    | _ => .next s

/-- One request of the host is served (R60, R210 to R212). During a run the host has no access to the memories
(R73, R273): BUSY is tested, so an access after the run has ended is served also when the host has not read BUSY = 0
yet (DESIGN CHOICE, log entry 10). A byte of STREAM may be written before CFG.STREAM_LEN is (R272), and an element at or beyond CFG.OUT_LEN
does not exist (R24, R65), so that reading it stops the model (DESIGN CHOICE, log entry 18). -/
def hostMove (e : HostEvent) (s : State) : Host.Outcome State Fault Refusal :=
  match e with
  | .cfg acc => exec (.hostCfgWrite acc) s
  | .start => exec .hostStart s
  | .statusRead => exec .hostStatusRead s
  | .streamWrite addr b =>
    if s.status.busy then .refused .streamWriteDuringRun
    else .next { s with stream := Mem.write streamDefault s.stream addr.toNat b }
  | .outRead j =>
    if s.status.busy then .refused .outReadDuringRun
    else if j.toNat < s.cfg.outLen.toNat then .next { s with hostData := (outRead s j.toNat).setWidth 32 }
    else .fault .outReadOutOfRange

/-! ### A table word at the cursor -/

/-- List bytes in stream memory from index `i` on. -/
def loadBytes : Mem 8 → Nat → List Byte → Mem 8
  | m, _, [] => m
  | m, i, b :: bs => loadBytes (Mem.write streamDefault m i b) (i + 1) bs

end Sys2Proof.Machine
end

