-- ==== Sys2Proof/Machine/Step.lean ====
section
/-! DEFINITION. One step of the machine, and a table word placed where the next step fetches it. -/

namespace Sys2Proof.Machine

/-- One step: the host's request that is due, else one move of the decoder (R19, R72). The first request's `wait`
counts the decoder's moves that come before it (log entry 9). -/
def step (s : State) : Host.Outcome State Fault Refusal :=
  match s.host with
  | [] => decoderMove s
  | ⟨0, e⟩ :: rest => hostMove e { s with host := rest }
  | ⟨n + 1, e⟩ :: rest => decoderMove { s with host := ⟨n, e⟩ :: rest }

/-- The state with a table word's codeword where the next step fetches: a run is under way, the host asks nothing,
the sequencer is at a codeword of pixel 0 (a word read as `SEED`) or pixel 1 (any other), the cursor is at index 0,
and stream memory holds the word's bytes there (log entry 12). -/
def State.withFetchWord (s : State) (nbits w : Nat) : State :=
  let x := tableCtx nbits w
  let bytes := tableBytes nbits w
  { s with
    cfg :=
      { s.cfg with
        bpp := BitVec.ofNat 8 x.bpp
        unaryCap := BitVec.ofNat 8 x.cap
        payloadOffset := 0
        streamLen := if s.cfg.streamLen.toNat < longestBytes then BitVec.ofNat 32 longestBytes else s.cfg.streamLen }
    status := statusStart s.status
    cursor := ⟨0, 0, bytes.headD 0⟩
    p := if x.seedPixel then 0 else 1
    stream := loadBytes s.stream 0 bytes
    seq := .codeword
    host := [] }

end Sys2Proof.Machine
end

