-- ==== Sys2Proof/Safety.lean ====
section
/-! DEFINITION. The terms the statements use: the stream bit position and the bits of the stream as the rules number
them (R10, R67, R123), a cursor that agrees with the stream (R29 to R31), what holds of every state of a run, the strategies
as lists of operations, and a whole run as R211 writes it. -/

namespace Sys2Proof.Machine

/-! ### The stream as a sequence of bits -/

/-- The stream bit position of the next bit (R123). -/
def State.position (s : State) : Nat :=
  8 * (s.cursor.idx.toNat - s.cfg.payloadOffset.toNat) + s.cursor.cnt.toNat

/-- The bit at a stream bit position: bit `7 - (pos mod 8)` of byte `CFG.PAYLOAD_OFFSET + (pos div 8)` (R10, R123);
none beyond CFG.STREAM_LEN or where stream memory holds no known value. -/
def State.bitAt (s : State) (pos : Nat) : Option Bool :=
  if s.cfg.payloadOffset.toNat + pos / 8 < s.cfg.streamLen.toNat then
    (Mem.find s.stream (s.cfg.payloadOffset.toNat + pos / 8)).map fun b => b.getLsbD (7 - pos % 8)
  else none

/-- The `n` bits from a stream bit position on; none when one of them is not there. -/
def State.bitsFrom (s : State) (pos : Nat) : Nat → Option (List Bool)
  | 0 => some []
  | n + 1 =>
    match s.bitAt pos, s.bitsFrom (pos + 1) n with
    | some b, some bs => some (b :: bs)
    | _, _ => none

/-- The cursor stands in the stream and agrees with it: IDX is in [CFG.PAYLOAD_OFFSET, CFG.STREAM_LEN), CNT is at
most 8, and CUR is the byte at IDX (R29, R30, R31). -/
abbrev State.cursorOk (s : State) : Prop :=
  s.cfg.payloadOffset.toNat ≤ s.cursor.idx.toNat ∧ s.cursor.idx.toNat < s.cfg.streamLen.toNat ∧
    s.cursor.cnt.toNat ≤ 8 ∧ Mem.find s.stream s.cursor.idx.toNat = some s.cursor.cur

/-- The cursor `c` is where `n` successful fetches bring the cursor of `s` (R123): it agrees with the stream, its
position is `n` further on, no fetch leaves the cursor as it was, and after a fetch CNT is at least 1 (R121 (b)).
Exactly one cursor is so. -/
abbrev State.movedBy (s : State) (n : Nat) (c : Cursor) : Prop :=
  { s with cursor := c }.cursorOk ∧ { s with cursor := c }.position = s.position + n ∧
    (n = 0 → c = s.cursor) ∧ (0 < n → 1 ≤ c.cnt.toNat)

/-- The number of bits in the payload (R123). -/
def State.payloadBits (s : State) : Nat := 8 * (s.cfg.streamLen.toNat - s.cfg.payloadOffset.toNat)

/-- Every byte of the stream is known (R272 (a)). -/
abbrev State.streamFilled (s : State) : Prop :=
  ∀ i < s.cfg.streamLen.toNat, s.cfg.payloadOffset.toNat ≤ i → Mem.find s.stream i ≠ none

/-! ### The places of a run -/

/-- The strategy has been opened: the configuration is in `CfgWF` from here on (R9, R211). -/
def SeqPoint.opened : SeqPoint → Bool
  | .idle | .check | .select => false
  | .load | .init | .codeword | .dpSeed | .dpSeq | .store | .updN | .quad | .col0 | .row _ | .stagedQuad _
  | .finish => true

/-- `BC.LOAD` has been performed in this run. -/
def SeqPoint.loaded : SeqPoint → Bool
  | .idle | .check | .select | .load => false
  | .init | .codeword | .dpSeed | .dpSeq | .store | .updN | .quad | .col0 | .row _ | .stagedQuad _
  | .finish => true

/-- `AR.INIT` has been performed in this run. -/
def SeqPoint.initialised : SeqPoint → Bool
  | .idle | .check | .select | .load | .init => false
  | .codeword | .dpSeed | .dpSeq | .store | .updN | .quad | .col0 | .row _ | .stagedQuad _ | .finish => true

/-! ### What holds of every state of a run -/

/-- STATUS agrees with the sequencer: BUSY is 1 exactly while a run is under way, and BUSY and DONE are never both 1
(R28). -/
abbrev State.statusOk (s : State) : Prop :=
  (s.status.busy = true ↔ s.seq ≠ .idle) ∧ ¬(s.status.busy = true ∧ s.status.done = true)

/-- The accumulators never fall below the floor once the run has initialised them (R34). -/
abbrev State.floorOk (s : State) : Prop :=
  (s.seq.opened = true → s.cfg.aMin.toNat ≤ s.cfg.aInit.toNat) ∧
    (s.seq.initialised = true → ∀ c, s.cfg.aMin.toNat ≤ s.ad.a.get c)

/-- Once the run has loaded the cursor, it stands in the stream and agrees with it (R29 to R31). -/
abbrev State.runCursorOk (s : State) : Prop :=
  s.seq.loaded = true → s.cursorOk

/-- The run stays inside the two memories (R78): a configuration that reaches the strategy has passed `SEQ.CHECK` and is
in `CfgWF`, and the pixel being decoded or transformed is below NPIX. -/
abbrev State.geometryOk (s : State) : Prop :=
  (s.seq = .select ∨ s.seq.opened = true → checkFailure s.cfg = none ∧ s.cfgWF = true) ∧
    (s.seq.initialised = true → s.p.toNat < npix s.cfg) ∧
    (∀ p, s.seq = .stagedQuad p → p < npix s.cfg)

/-- CODE is one of the codes the block produces (R246, R247). -/
abbrev State.codeOk (s : State) : Prop :=
  s.status.code ≠ .generalError ∧ s.status.code ≠ .headerMisaligned

/-! ### Raises, turns and runs -/

/-- `t` is what a raise of the code `c` makes of `s` (R217, R250, R252): CODE is `c`, BUSY 0, DONE 1, the block is idle,
every other register and memory is as it was, and nothing is said about output memory. -/
abbrev State.stoppedBy (s t : State) (c : Status) : Prop :=
  t = { s with status := ⟨c, false, true⟩, seq := .idle, out := t.out, outEpoch := t.outEpoch }

/-- The state in which the decoder moves when the next step is the decoder's: the host has no request, or its first one
still waits and waits one move less. None when the step serves the host (log entry 9). -/
def State.decoderTurn (s : State) : Option State :=
  match s.host with
  | [] => some s
  | ⟨0, _⟩ :: _ => none
  | ⟨n + 1, e⟩ :: rest => some { s with host := ⟨n, e⟩ :: rest }

/-- `n` steps, stopping at the first fault or refusal. -/
def runSteps : Nat → State → Host.Outcome State Fault Refusal
  | 0, s => .next s
  | n + 1, s =>
    match step s with
    | .next t => runSteps n t
    | .fault e => .fault e
    | .refused e => .refused e

/-- The operations of a list performed one after the other, stopping at the first fault or refusal. -/
def performAll : List Instr → State → Host.Outcome State Fault Refusal
  | [], s => .next s
  | i :: is, s =>
    match exec i s with
    | .next t => performAll is t
    | .fault e => .fault e
    | .refused e => .refused e

/-! ### The strategies as lists of operations -/

/-- One item of a strategy's pseudocode: an operation whose operands are read from the state before it, or a write of the
loop variable P or CH (R11, R32). -/
abbrev Item := State → Host.Outcome State Fault Refusal

/-- The items one after the other. An item that stops the model stops the list, and so does one that raises: a raise makes
output memory unspecified once more, which `outEpoch` counts, and no other operation does (R217, R250, R252). -/
def inOrder : List Item → Item
  | [], s => .next s
  | f :: fs, s =>
    match f s with
    | .next t => if t.outEpoch = s.outEpoch then inOrder fs t else .next t
    | .fault e => .fault e
    | .refused e => .refused e

/-- `P <- p`. -/
def setP (p : Nat) : Item := fun s => .next { s with p := BitVec.ofNat 32 p }

/-- `CH <- c`. -/
def setCh (c : Channel) : Item := fun s => .next { s with ch := c }

/-- `for CH in 0..3`, the channels in the order Y, Cd, Cm, Co (R11). -/
def eachChannel (body : Channel → List Item) : List Item :=
  [.y, .cd, .cm, .co].flatMap fun c => setCh c :: body c

/-- `for P in 1 .. n-1`. -/
def eachLaterPixel (n : Nat) (body : List Item) : List Item :=
  (List.range (n - 1)).flatMap fun i => setP (i + 1) :: body

/-- What both strategies begin with: `BC.LOAD`, `AR.INIT`, `P <- 0` with `CH <- 0`, `AR.SEED` (R42, R214, R215). -/
def openingItems : List Item := [exec .bcLoad, exec .arInit, setP 0, setCh .y, exec .arSeed]

/-- `SEQ.RUN_SEQ` for n pixels, item by item (R214). -/
def sequentialItems (n : Nat) : List Item :=
  openingItems ++ [exec .dpSeed, fun s => exec (.ctQuad 0 s.dpcm.prev) s] ++
    eachLaterPixel n
      ((eachChannel fun c => [exec (.arSym c), exec (.dpSeq c)]) ++
        [exec .arUpdN, fun s => exec (.ctQuad s.p s.dpcm.prev) s])

/-- `SEQ.RUN_STAGED` for n pixels in rows rows, item by item (R215): phase A, phase B, phase C. -/
def stagedItems (n rows : Nat) : List Item :=
  openingItems ++ (eachChannel fun c => [fun s => exec (.dpStore 0 c (s.seedVal.get c)) s]) ++
    eachLaterPixel n
      ((eachChannel fun c => [exec (.arSym c), fun s => exec (.dpStore s.p c s.sym.resid) s]) ++ [exec .arUpdN]) ++
    (exec .dpCol0 :: (List.range rows).map fun r => exec (.dpRow r)) ++
    (List.range n).map fun p s => exec (.ctQuad (BitVec.ofNat 32 p) (bufQuad s.valbuf p)) s

/-! ### The three tests of `SEQ.CHECK` as R213 and R241 to R243 write them -/

/-- The geometry or the depth is none the rules cover (R241). -/
abbrev badGeometry (c : Cfg) : Prop :=
  c.width.toNat % 16 ≠ 0 ∨ c.height.toNat % 16 ≠ 0 ∨
    ¬(c.bpp.toNat = 0 ∨ c.bpp.toNat = 8 ∨ c.bpp.toNat = 10 ∨ c.bpp.toNat = 12)

/-- The output memory has not one element per sub-pixel (R242). -/
abbrev badSize (c : Cfg) : Prop := c.outLen.toNat ≠ c.width.toNat * c.height.toNat

/-- The Staged strategy at a depth other than 8 (R243). -/
abbrev badDepth (c : Cfg) : Prop := c.ctrl.getLsbD 0 = true ∧ ¬(c.bpp.toNat = 0 ∨ c.bpp.toNat = 8)

/-! ### A whole run -/

/-- An operation, and then another unless the first has raised, which leaves the block idle (R217, R250). -/
def unlessIdle (o : Host.Outcome State Fault Refusal) (f : State → Host.Outcome State Fault Refusal) :
    Host.Outcome State Fault Refusal :=
  match o with
  | .next s => if s.seq = .idle then .next s else f s
  | .fault e => .fault e
  | .refused e => .refused e

/-- The whole pseudocode of `HOST.START` for a block that is not busy (R211): the status change, `SEQ.CHECK`, the selected
strategy as one operation, `SEQ.DONE`. -/
def wholeRun (s : State) : Host.Outcome State Fault Refusal :=
  unlessIdle (exec .seqCheck s.begin) fun s =>
    unlessIdle (exec (if isStaged s.cfg then .seqRunStaged else .seqRunSeq) s) fun s => exec .seqDone s

/-- The configuration with the strategy named and everything else as it is (R23). -/
def State.withStrategy (s : State) (staged : Bool) : State :=
  { s with cfg := { s.cfg with ctrl := BitVec.ofBool (isStrict s.cfg) ++ BitVec.ofBool staged } }

/-- The most bits a run can read (R99, R214, R215): four `SEED` codewords, then for each later pixel four codewords of the
longest kind, the escape. -/
def mostBits (c : Cfg) : Nat :=
  4 * (bppEff c + 4) + 4 * (npix c - 1) * (c.unaryCap.toNat + bppEff c + 3)

/-- A state from which a whole run is defined and cannot run short: the configuration passes `SEQ.CHECK` and is in
`CfgWF`, every payload byte is known, and the payload has the most bits a run can read (R9, R123, R213, R272). -/
abbrev State.ready (s : State) : Prop :=
  checkFailure s.cfg = none ∧ s.cfgWF = true ∧ s.streamFilled ∧ mostBits s.cfg ≤ s.payloadBits

/-- The width of a configuration register in bits (R21 to R26). -/
def cfgBits : CfgReg → Nat
  | .width | .height | .aInit | .aMin => 16
  | .unaryCap | .bpp | .lossyBits | .nThreshold | .nStart => 8
  | .ctrl => 2
  | .streamLen | .payloadOffset | .outLen => 32

end Sys2Proof.Machine
end

