-- ==== Sys2Proof/Certificates/Slice0/Obligations.lean ====
section
/-! DEFINITION. The statements for the provers. Each docstring names the rules of spec/ the statement follows, and the
log entry where a clause is the model's own choice. OBLIGATIONS.json lists them in the same order. -/

open Sys2Proof Sys2Proof.Machine

/-! ### Encoding -/

/-- O1. Decoding an encoded codeword gives it back and leaves the bits after it, whatever they are: the round trip from
the encoder's side (R91 to R95). -/
def Obligations.DecodeOfEncode : Prop :=
  ∀ (x : Ctx) (i : Instr) (rest : List Bool), i.isCodeword = true → i.wellFormed x = true →
    decode x (encode x i ++ rest) = .ok (i, rest)

/-- O2. Every bit string parses: it begins with the encoding of a well-formed codeword, or it is shorter than the longest
codeword and begins with none, and then the decoder says that the bits end (R94, R99, R100). -/
def Obligations.EveryBitStringParses : Prop :=
  ∀ (x : Ctx) (bs : List Bool), x.wf = true →
    match decode x bs with
    | .ok (i, rest) => i.isCodeword = true ∧ i.wellFormed x = true ∧ bs = encode x i ++ rest
    | .error e => e = .bitsEnd ∧ bs.length < 270 ∧
        ∀ i rest, i.isCodeword = true → i.wellFormed x = true → bs ≠ encode x i ++ rest

/-- O3. The lengths of the codewords: `SEED` has bpp + 4 bits, `RICE` has q + 1 + k, which is between 1 and
cap + bpp + 2, `ESC` has cap + bpp + 3, and none is longer than 270 bits (R99). -/
def Obligations.CodewordLengths : Prop :=
  ∀ (x : Ctx) (i : Instr), i.isCodeword = true → i.wellFormed x = true →
    (encode x i).length ≤ 270 ∧
    (x.seedPixel = true → (encode x i).length = x.bpp + 4) ∧
    (∀ q r, i = .rice q r → (encode x i).length = q + 1 + x.k ∧ 1 ≤ (encode x i).length ∧
      (encode x i).length ≤ x.cap + x.bpp + 2) ∧
    (∀ v, i = .esc v → (encode x i).length = x.cap + x.bpp + 3)

/-- O4. Codewords written out from the worked examples of R91, R92 and R93 decode to the instructions they stand for; the
last clause reads one of them as a word of the opcode table, in the context the model chose for it (log entry 12). -/
def Obligations.WrittenOutCodewordsDecode : Prop :=
  decode ⟨true, 8, 6, 0⟩ [false, false, false, false, true, true, true, true, true, false, true, false] =
      .ok (.seed8 false 760, []) ∧
    decode ⟨false, 8, 6, 6⟩ [true, true, true, true, false, false, false, true, true, true, true] =
      .ok (.rice 4 60, []) ∧
    decode ⟨false, 8, 6, 3⟩
        [true, true, true, true, true, true, false, true, true, false, false, false, true, true, true, false, false] =
      .ok (.esc 454, []) ∧
    decodeTableWord 12 1520 = some (.seed8 false 760)

/-- O5. `fromAbs` and its inverse: even and odd values, the bijection, and the image of the n-bit values (R97, R98). -/
def Obligations.ResidualMapping : Prop :=
  (∀ v : Nat, v % 2 = 0 → fromAbs v = ((v / 2 : Nat) : Int)) ∧
    (∀ v : Nat, v % 2 = 1 → fromAbs v = -(((v + 1) / 2 : Nat) : Int)) ∧
    (∀ (v : Nat) (x : Int), fromAbs v = x ↔ v = toAbs x) ∧
    (∀ x : Int, 0 ≤ x → (toAbs x : Int) = 2 * x) ∧
    (∀ x : Int, x < 0 → (toAbs x : Int) = -2 * x - 1) ∧
    (∀ n v : Nat, v < 2 ^ (n + 1) ↔ -(2 ^ n : Int) ≤ fromAbs v ∧ fromAbs v ≤ (2 ^ n : Int) - 1)

/-! ### The step -/

/-- O6. A step performs the operation the sequencer selects and then advances the sequencer (R214, R215, R218; the step's
granularity is the model's, log entry 8, and the host's turns, log entry 9). -/
def Obligations.StepRunsSelectedOperation : Prop :=
  ∀ (s u : State) (i : Instr), s.decoderTurn = some u → selectedOp s = some i →
    step s = advanced (exec i u)

/-- O7. A step runs the decoded codeword: where the bits at the cursor are the encoding of a well-formed codeword, the
cursor moves past exactly those bits, the codeword is executed, and the sequencer advances (R94, R123, R149). -/
def Obligations.StepRunsDecodedCodeword : Prop :=
  ∀ (s u : State) (i : Instr), s.decoderTurn = some u → s.seq = .codeword → s.cursorOk → s.ctx.wf = true →
    i.isCodeword = true → i.wellFormed s.ctx = true →
    s.bitsFrom s.position (encode s.ctx i).length = some (encode s.ctx i) →
    ∃ c, s.movedBy (encode s.ctx i).length c ∧ step s = advanced (exec i { u with cursor := c })

/-- O8. A payload cut inside a codeword: where no codeword's encoding fits in the bits that are left, the step ends the run
with `AllBitsConsumed`, and no accumulator has been updated for the codeword (R100, R123, R149, R244, R250). -/
def Obligations.CutCodewordEndsTheRun : Prop :=
  ∀ (s u : State), s.decoderTurn = some u → s.seq = .codeword → s.cursorOk → s.streamFilled → s.ctx.wf = true →
    (∀ i, i.isCodeword = true → i.wellFormed s.ctx = true →
      s.bitsFrom s.position (encode s.ctx i).length ≠ some (encode s.ctx i)) →
    ∃ t c y, step s = .next t ∧ State.stoppedBy { u with cursor := c, sym := y } t .allBitsConsumed ∧
      { s with cursor := c }.position = s.payloadBits

/-- O9. Fetching, decoding and executing a codeword is the same as the operation that reads it bit by bit: `AR.SYM` of the
channel for a later pixel, one channel of `AR.SEED` for the seed pixel (R94, R141, R149). -/
def Obligations.CodewordMoveIsBitByBit : Prop :=
  ∀ s : State, s.cursor.cnt.toNat ≤ 8 →
    (s.p ≠ 0 → codewordMove s = exec (.arSym s.ch) s) ∧
    (s.p = 0 → codewordMove s = (seedChannel s.ch s).outcome)

/-- O10. The step serves the host's request when it is due; an idle block whose host is silent or waits does not move
(R19, R72; the host's list is the model's, log entry 9). -/
def Obligations.StepServesTheHost : Prop :=
  (∀ (s : State) (e : HostEvent) (rest : List HostRequest), s.host = ⟨0, e⟩ :: rest →
      step s = hostMove e { s with host := rest }) ∧
    (∀ s u : State, s.decoderTurn = some u → s.seq = .idle → step s = .next u)

/-! ### The bit cursor -/

/-- O11. `BC.LOAD` (R120). -/
def Obligations.BcLoad : Prop :=
  ∀ s : State,
    (s.cfg.streamLen.toNat ≤ s.cfg.payloadOffset.toNat →
      ∃ t, exec .bcLoad s = .next t ∧ s.stoppedBy t .allBitsConsumed) ∧
    (∀ b, s.cfg.payloadOffset.toNat < s.cfg.streamLen.toNat →
      Mem.find s.stream s.cfg.payloadOffset.toNat = some b →
      exec .bcLoad s = .next { s with cursor := ⟨s.cfg.payloadOffset, 0, b⟩ })

/-- O12. `BC.FETCH1` (R121): inside a byte, at the end of a byte, at the end of the stream. -/
def Obligations.BcFetch1 : Prop :=
  ∀ s : State,
    (s.cursor.cnt.toNat < 8 →
      exec .bcFetch1 s =
        .next { s with
          cursor := ⟨s.cursor.idx, s.cursor.cnt + 1, s.cursor.cur⟩
          fetched := (s.cursor.cur.getLsbD (7 - s.cursor.cnt.toNat)).toNat }) ∧
    (∀ b, s.cursor.cnt = 8 → s.cursor.idx.toNat + 1 < s.cfg.streamLen.toNat →
      Mem.find s.stream (s.cursor.idx.toNat + 1) = some b →
      exec .bcFetch1 s =
        .next { s with cursor := ⟨s.cursor.idx + 1, 1, b⟩, fetched := (b.getLsbD 7).toNat }) ∧
    (s.cursor.cnt = 8 → s.cfg.streamLen.toNat ≤ s.cursor.idx.toNat + 1 →
      ∃ t, exec .bcFetch1 s = .next t ∧ s.stoppedBy t .allBitsConsumed)

/-- O13. `BC.FETCHN(n)` (R95, R122, R123): the bits at the stream bit positions from the cursor on make the value, the first
one its bit 0, and the cursor moves past them; when the payload has fewer than n bits left, those it has are consumed
and the run ends with `AllBitsConsumed`. For n above 15, beyond the rule's range, this is the model's choice (log entry
16). -/
def Obligations.BcFetchN : Prop :=
  ∀ (n : Nat) (s : State), s.cursorOk →
    (∀ bs, s.bitsFrom s.position n = some bs →
      ∃ c, s.movedBy n c ∧
        exec (.bcFetchN n) s =
          .next { s with cursor := c, fetched := ∑ i : Fin bs.length, (bs.get i).toNat * 2 ^ (i : Nat) }) ∧
    (s.streamFilled → s.payloadBits < s.position + n →
      ∃ t c, exec (.bcFetchN n) s = .next t ∧ State.stoppedBy { s with cursor := c } t .allBitsConsumed ∧
        s.movedBy (s.payloadBits - s.position) c)

/-- O14. A byte below CFG.STREAM_LEN that nothing has written since reset is not guessed: reading it is the model's own
fault (the model's choice for the unspecified memory of R41 and R270, log entry 2). -/
def Obligations.UnwrittenStreamByteFaults : Prop :=
  ∀ s : State,
    (s.cfg.payloadOffset.toNat < s.cfg.streamLen.toNat → Mem.find s.stream s.cfg.payloadOffset.toNat = none →
      exec .bcLoad s = .fault .streamUnwritten) ∧
    (s.cursor.cnt = 8 → s.cursor.idx.toNat + 1 < s.cfg.streamLen.toNat →
      Mem.find s.stream (s.cursor.idx.toNat + 1) = none → exec .bcFetch1 s = .fault .streamUnwritten)

/-- O15. The cursor is strictly forward: no operation but the load, and the runs that begin with it, lowers IDX (R29,
R124). -/
def Obligations.CursorIsForward : Prop :=
  ∀ (i : Instr) (s t : State), i ≠ .bcLoad → i ≠ .seqRunSeq → i ≠ .seqRunStaged → exec i s = .next t →
    s.cursor.idx.toNat ≤ t.cursor.idx.toNat

/-! ### The adaptive Rice decoder -/

/-- O16. `AR.INIT` (R140). -/
def Obligations.ArInit : Prop :=
  ∀ s : State, exec .arInit s =
    .next { s with
      ad := ⟨s.cfg.nStart, ⟨s.cfg.aInit.toNat, s.cfg.aInit.toNat, s.cfg.aInit.toNat, s.cfg.aInit.toNat⟩⟩ }

/-- O17. `AR.SEED` (R91, R141): four `SEED` codewords at the cursor give the four seed values and grow the accumulators;
N is as before; the delimiters have no effect. With too few bits left all of them are consumed and the run ends with
`AllBitsConsumed`: the channels whose codewords are whole have their seed values and accumulators and the last of
them V, the others and every other register are as they were (R244, R250). At a bpp_eff other than 8, 10 and 12, where the
field can be wider than R122's 15 bits, this is the model's choice (log entry 16). -/
def Obligations.ArSeed : Prop :=
  ∀ s : State, s.cursorOk →
    (∀ (d : Quad Bool) (v : Quad Nat), (∀ c, v.get c < 2 ^ (bppEff s.cfg + 3)) →
      s.bitsFrom s.position (4 * (bppEff s.cfg + 4)) =
        some (d.y :: fieldBits (bppEff s.cfg + 3) v.y ++ d.cd :: fieldBits (bppEff s.cfg + 3) v.cd ++
          d.cm :: fieldBits (bppEff s.cfg + 3) v.cm ++ d.co :: fieldBits (bppEff s.cfg + 3) v.co) →
      ∃ c, s.movedBy (4 * (bppEff s.cfg + 4)) c ∧
        exec .arSeed s =
          .next { s with
            cursor := c
            sym := { s.sym with v := v.co }
            seedVal := ⟨fromAbs v.y, fromAbs v.cd, fromAbs v.cm, fromAbs v.co⟩
            ad := ⟨s.ad.n,
              ⟨s.ad.a.y + (fromAbs v.y).natAbs, s.ad.a.cd + (fromAbs v.cd).natAbs,
                s.ad.a.cm + (fromAbs v.cm).natAbs, s.ad.a.co + (fromAbs v.co).natAbs⟩⟩ }) ∧
    (s.streamFilled → s.payloadBits < s.position + 4 * (bppEff s.cfg + 4) →
      ∃ (t : State) (cur : Cursor) (w : Nat) (v : Quad Int) (a : Quad Nat) (m : Nat), exec .arSeed s = .next t ∧
        s.movedBy (s.payloadBits - s.position) cur ∧ m = (s.payloadBits - s.position) / (bppEff s.cfg + 4) ∧
        State.stoppedBy
          { s with cursor := cur, sym := { s.sym with v := w }, seedVal := v, ad := ⟨s.ad.n, a⟩ } t .allBitsConsumed ∧
        (m = 0 → w = s.sym.v) ∧
        ∀ c : Channel,
          if c.index < m then
            ∃ x, x < 2 ^ (bppEff s.cfg + 3) ∧
              s.bitsFrom (s.position + c.index * (bppEff s.cfg + 4) + 1) (bppEff s.cfg + 3) =
                some (fieldBits (bppEff s.cfg + 3) x) ∧
              v.get c = fromAbs x ∧ a.get c = s.ad.a.get c + (fromAbs x).natAbs ∧ (c.index + 1 = m → w = x)
          else v.get c = s.seedVal.get c ∧ a.get c = s.ad.a.get c)

/-- O18. A `SEED` codeword of any of the three depths, whose bits the cursor has passed: the value goes to the seed value
of channel CH and is accumulated; the delimiter has no effect (R91, R96, R101, R141). For a
codeword that no bits decode to at the state, of another depth, with too large a v or where P is not 0, this is the model's
choice (log entry 16). -/
def Obligations.SeedCodewords : Prop :=
  ∀ (d : Bool) (v : Nat) (s : State),
    ∃ t, exec (.seed8 d v) s = .next t ∧ exec (.seed10 d v) s = .next t ∧ exec (.seed12 d v) s = .next t ∧
      t = { s with
        sym := { s.sym with v := v }
        seedVal := s.seedVal.set s.ch (fromAbs v)
        ad := ⟨s.ad.n, s.ad.a.set s.ch (s.ad.a.get s.ch + (fromAbs v).natAbs)⟩ }

/-- O19. A `RICE` and an `ESC` codeword of channel CH, whose bits the cursor has passed: K is the parameter of the adaptive
state, V is q * 2^K + r or the verbatim value, RESID its signed form, and accumulator CH grows by its magnitude (R92, R93,
R96, R149). For a codeword that no bits decode to at the state, with q at or above CFG.UNARY_CAP, r at or above 2^K, too
large a v or where P is 0, this is the model's choice (log entry 16). -/
def Obligations.RiceAndEscapeCodewords : Prop :=
  ∀ s : State,
    (∀ q r : Nat, ∃ k, exec (.arK s.ch) s = .next { s with sym := { s.sym with k := k } } ∧
      exec (.rice q r) s =
        .next { s with
          sym := ⟨k, BitVec.ofNat 8 q, q * 2 ^ k + r, fromAbs (q * 2 ^ k + r)⟩
          ad := ⟨s.ad.n, s.ad.a.set s.ch (s.ad.a.get s.ch + (fromAbs (q * 2 ^ k + r)).natAbs)⟩ }) ∧
    (∀ v : Nat, ∃ k, exec (.arK s.ch) s = .next { s with sym := { s.sym with k := k } } ∧
      exec (.esc v) s =
        .next { s with
          sym := ⟨k, s.cfg.unaryCap, v, fromAbs v⟩
          ad := ⟨s.ad.n, s.ad.a.set s.ch (s.ad.a.get s.ch + (fromAbs v).natAbs)⟩ })

/-- O20. `AR.K(c)` (R142, R152): K is the smallest number in [0, bpp_eff + 2] with N * 2^K >= A[c], and bpp_eff + 2 when
there is none; nothing else changes. -/
def Obligations.ArKSearch : Prop :=
  ∀ (c : Channel) (s : State), ∃ k,
    exec (.arK c) s = .next { s with sym := { s.sym with k := k } } ∧ k ≤ bppEff s.cfg + 2 ∧
      (∀ j < k, s.ad.n.toNat * 2 ^ j < s.ad.a.get c) ∧
      (s.ad.a.get c ≤ s.ad.n.toNat * 2 ^ k ∨
        k = bppEff s.cfg + 2 ∧ ∀ j ≤ bppEff s.cfg + 2, s.ad.n.toNat * 2 ^ j < s.ad.a.get c)

/-- O21. `AR.UNARY` (R143): q ones and a zero give Q = q and consume q + 1 bits; CFG.UNARY_CAP ones give Q = CFG.UNARY_CAP
and consume no more; a payload that ends in ones before either raises `AllBitsConsumed`; a cap of 0 is refused. -/
def Obligations.ArUnary : Prop :=
  ∀ s : State, s.cursorOk →
    (s.cfg.unaryCap = 0 → exec .arUnary s = .refused .unaryCapZero) ∧
    (∀ q, q < s.cfg.unaryCap.toNat →
      s.bitsFrom s.position (q + 1) = some (List.replicate q true ++ [false]) →
      ∃ c, s.movedBy (q + 1) c ∧
        exec .arUnary s = .next { s with cursor := c, sym := { s.sym with q := BitVec.ofNat 8 q } }) ∧
    (s.cfg.unaryCap ≠ 0 →
      s.bitsFrom s.position s.cfg.unaryCap.toNat = some (List.replicate s.cfg.unaryCap.toNat true) →
      ∃ c, s.movedBy s.cfg.unaryCap.toNat c ∧
        exec .arUnary s = .next { s with cursor := c, sym := { s.sym with q := s.cfg.unaryCap } }) ∧
    (∀ n, n < s.cfg.unaryCap.toNat → s.position + n = s.payloadBits →
      s.bitsFrom s.position n = some (List.replicate n true) →
      ∃ t c, exec .arUnary s = .next t ∧ s.movedBy n c ∧
        State.stoppedBy { s with cursor := c, sym := { s.sym with q := BitVec.ofNat 8 n } } t .allBitsConsumed)

/-- O22. `AR.ESC` (R144): the field of bpp_eff + 3 bits at the cursor becomes V; with fewer bits left those are consumed and
the run ends with `AllBitsConsumed` (R122, R250). For a field wider than R122's 15 bits this is the model's choice (log
entry 16). -/
def Obligations.ArEsc : Prop :=
  ∀ s : State, s.cursorOk →
    (∀ v, v < 2 ^ (bppEff s.cfg + 3) →
      s.bitsFrom s.position (bppEff s.cfg + 3) = some (fieldBits (bppEff s.cfg + 3) v) →
      ∃ c, s.movedBy (bppEff s.cfg + 3) c ∧
        exec .arEsc s = .next { s with cursor := c, sym := { s.sym with v := v } }) ∧
    (s.streamFilled → s.payloadBits < s.position + (bppEff s.cfg + 3) →
      ∃ t c, exec .arEsc s = .next t ∧ s.movedBy (s.payloadBits - s.position) c ∧
        State.stoppedBy { s with cursor := c } t .allBitsConsumed)

/-- O23. `AR.REM(K, Q)` (R145): the field of K bits at the cursor is the remainder r, and V becomes Q * 2^K + r; with fewer
bits left those are consumed and the run ends with `AllBitsConsumed` (R122, R250). For K above R122's 15 this is the model's
choice (log entry 16). -/
def Obligations.ArRem : Prop :=
  ∀ s : State, s.cursorOk →
    (∀ r, r < 2 ^ s.sym.k → s.bitsFrom s.position s.sym.k = some (fieldBits s.sym.k r) →
      ∃ c, s.movedBy s.sym.k c ∧
        exec .arRem s =
          .next { s with cursor := c, sym := { s.sym with v := s.sym.q.toNat * 2 ^ s.sym.k + r } }) ∧
    (s.streamFilled → s.payloadBits < s.position + s.sym.k →
      ∃ t c, exec .arRem s = .next t ∧ s.movedBy (s.payloadBits - s.position) c ∧
        State.stoppedBy { s with cursor := c } t .allBitsConsumed)

/-- O24. `AR.MAP` and `AR.UPD_A` (R146, R147): RESID takes the signed form of V; the accumulator of the channel grows by the
magnitude of RESID. -/
def Obligations.ArMapAndUpdA : Prop :=
  ∀ s : State,
    exec .arMap s =
      .next { s with
        sym :=
          { s.sym with
            resid := if s.sym.v % 2 = 0 then ((s.sym.v / 2 : Nat) : Int) else -(((s.sym.v + 1) / 2 : Nat) : Int) } } ∧
    (∀ c, exec (.arUpdA c) s =
      .next { s with ad := ⟨s.ad.n, s.ad.a.set c (s.ad.a.get c + s.sym.resid.natAbs)⟩ })

/-- O25. `AR.UPD_N` (R148): N rises by one; when it reaches CFG.N_THRESHOLD, N and the four A are halved; then every A is
raised to CFG.A_MIN. The value written to N is the exact one: the 8-bit register does not overflow. -/
def Obligations.ArUpdN : Prop :=
  ∀ s : State, ∃ n a, exec .arUpdN s = .next { s with ad := ⟨n, a⟩ } ∧
    (s.ad.n.toNat + 1 < s.cfg.nThreshold.toNat →
      n.toNat = s.ad.n.toNat + 1 ∧ ∀ c, a.get c = max (s.ad.a.get c) s.cfg.aMin.toNat) ∧
    (s.cfg.nThreshold.toNat ≤ s.ad.n.toNat + 1 →
      n.toNat = (s.ad.n.toNat + 1) / 2 ∧ ∀ c, a.get c = max (s.ad.a.get c / 2) s.cfg.aMin.toNat)

/-- O26. `AR.SYM(c)` (R142 to R149): a `RICE` or an `ESC` codeword at the cursor, its result, everything it changes, and
how far the cursor moves. At a bpp_eff other than 8, 10 and 12, where k and the escape's field can be above R122's 15 bits,
this is the model's choice (log entry 16). -/
def Obligations.ArSym : Prop :=
  ∀ (c : Channel) (s : State) (k : Nat), s.cursorOk → k = riceParam s.ad.n.toNat (s.ad.a.get c) (bppEff s.cfg) →
    (∀ q r, q < s.cfg.unaryCap.toNat → r < 2 ^ k →
      s.bitsFrom s.position (q + 1 + k) = some (List.replicate q true ++ false :: fieldBits k r) →
      ∃ cur, s.movedBy (q + 1 + k) cur ∧
        exec (.arSym c) s =
          .next { s with
            cursor := cur
            sym := ⟨k, BitVec.ofNat 8 q, q * 2 ^ k + r, fromAbs (q * 2 ^ k + r)⟩
            ad := ⟨s.ad.n, s.ad.a.set c (s.ad.a.get c + (fromAbs (q * 2 ^ k + r)).natAbs)⟩ }) ∧
    (∀ v, s.cfg.unaryCap ≠ 0 → v < 2 ^ (bppEff s.cfg + 3) →
      s.bitsFrom s.position (s.cfg.unaryCap.toNat + (bppEff s.cfg + 3)) =
        some (List.replicate s.cfg.unaryCap.toNat true ++ fieldBits (bppEff s.cfg + 3) v) →
      ∃ cur, s.movedBy (s.cfg.unaryCap.toNat + (bppEff s.cfg + 3)) cur ∧
        exec (.arSym c) s =
          .next { s with
            cursor := cur
            sym := ⟨k, s.cfg.unaryCap, v, fromAbs v⟩
            ad := ⟨s.ad.n, s.ad.a.set c (s.ad.a.get c + (fromAbs v).natAbs)⟩ })

/-- O27. The ranges of a symbol (R151): after an `AR.SYM` that did not raise, under a legal depth and a legal cap, K is at
most bpp_eff + 2, Q at most the cap, an escape's V below 2^(bpp_eff + 3) and its RESID in [-2^14, 2^14), a Rice codeword's V
below cap * 2^K and 2^22 and its RESID below 2^21 in magnitude. -/
def Obligations.SymbolRanges : Prop :=
  ∀ (c : Channel) (s t : State), bppEff s.cfg = 8 ∨ bppEff s.cfg = 10 ∨ bppEff s.cfg = 12 →
    exec (.arSym c) s = .next t → t.seq = s.seq → s.seq ≠ .idle →
    t.sym.k ≤ bppEff s.cfg + 2 ∧ t.sym.q.toNat ≤ s.cfg.unaryCap.toNat ∧
      (t.sym.q = s.cfg.unaryCap →
        t.sym.v < 2 ^ (bppEff s.cfg + 3) ∧ -(2 ^ 14) ≤ t.sym.resid ∧ t.sym.resid < 2 ^ 14) ∧
      (t.sym.q ≠ s.cfg.unaryCap →
        t.sym.v < s.cfg.unaryCap.toNat * 2 ^ t.sym.k ∧ t.sym.v < 2 ^ 22 ∧ t.sym.resid.natAbs < 2 ^ 21)

/-! ### DPCM reconstruction -/

/-- O28. `wrap16` (R14): the only number in the range of 16 signed bits that is congruent to x modulo 65536. -/
def Obligations.WrapSixteen : Prop :=
  ∀ (x : Int) (y : Half),
    wrap16 x = y ↔ y.toInt % 65536 = x % 65536

/-- O29. `DP.SEED` (R170). -/
def Obligations.DpSeed : Prop :=
  ∀ s : State, ∃ v : Quad Half, (∀ c, v.get c = wrap16 (s.seedVal.get c)) ∧
    exec .dpSeed s = .next { s with dpcm := ⟨v, v⟩ }

/-- O30. `DP.SEQ(c, RESID)` (R171): in column 0 the reference is ABOVE and both registers take the value; elsewhere it is
PREV and only PREV takes it. -/
def Obligations.DpSeq : Prop :=
  ∀ (c : Channel) (s : State), 0 < halfWidth s.cfg →
    (s.p.toNat % halfWidth s.cfg = 0 →
      ∃ y, y = wrap16 ((s.dpcm.above.get c).toInt + s.sym.resid) ∧
        exec (.dpSeq c) s = .next { s with dpcm := ⟨s.dpcm.prev.set c y, s.dpcm.above.set c y⟩ }) ∧
    (s.p.toNat % halfWidth s.cfg ≠ 0 →
      ∃ y, y = wrap16 ((s.dpcm.prev.get c).toInt + s.sym.resid) ∧
        exec (.dpSeq c) s = .next { s with dpcm := ⟨s.dpcm.prev.set c y, s.dpcm.above⟩ })

/-- O31. `DP.STORE(p, c, x)` (R172): entry [p][c] of RESBUF takes the wrapped value, no other entry changes, nothing else
changes. For p at or beyond NPIX, of which R39 has no entry, this is the model's choice (log entry 16). -/
def Obligations.DpStore : Prop :=
  ∀ (p : BitVec 32) (c : Channel) (x : Int) (s : State), s.memWF = true →
    ∃ m, exec (.dpStore p c x) s = .next { s with resbuf := m } ∧
      bufRead m p.toNat c = wrap16 x ∧
      ∀ p' c', (p', c') ≠ (p.toNat, c) → bufRead m p' c' = bufRead s.resbuf p' c'

/-- O32. `DP.COL0` (R173): pixel 0 takes its stored value, column 0 of each later row the value above plus the residual; no
other entry of VALBUF changes, nothing else changes. -/
def Obligations.DpCol0 : Prop :=
  ∀ s : State, 0 < halfWidth s.cfg → s.memWF = true →
    ∃ m, exec .dpCol0 s = .next { s with valbuf := m } ∧
      (∀ c, bufRead m 0 c = bufRead s.resbuf 0 c) ∧
      (∀ r c, r + 1 < halfHeight s.cfg →
        bufRead m ((r + 1) * halfWidth s.cfg) c =
          wrap16 ((bufRead m (r * halfWidth s.cfg) c).toInt +
            (bufRead s.resbuf ((r + 1) * halfWidth s.cfg) c).toInt)) ∧
      (∀ p c, p ≠ 0 → (∀ r < halfHeight s.cfg, p ≠ r * halfWidth s.cfg) → bufRead m p c = bufRead s.valbuf p c)

/-- O33. `DP.ROW(r)` (R174): each column of the row from the second on takes the value on its left plus the residual; no
other entry of VALBUF changes, nothing else changes. For r at or beyond HH, which the rule does not give, this is the
model's choice (log entry 16). -/
def Obligations.DpRow : Prop :=
  ∀ (r : Nat) (s : State), s.memWF = true →
    ∃ m, exec (.dpRow r) s = .next { s with valbuf := m } ∧
      (∀ j c, j + 1 < halfWidth s.cfg →
        bufRead m (r * halfWidth s.cfg + (j + 1)) c =
          wrap16 ((bufRead m (r * halfWidth s.cfg + j) c).toInt +
            (bufRead s.resbuf (r * halfWidth s.cfg + (j + 1)) c).toInt)) ∧
      (∀ p c, (∀ j, j + 1 < halfWidth s.cfg → p ≠ r * halfWidth s.cfg + (j + 1)) →
        bufRead m p c = bufRead s.valbuf p c)

/-- O34. The row passes of phase B may run in any order: every order of the rows gives the state that the increasing
order gives (R75, R174). -/
def Obligations.RowsInAnyOrder : Prop :=
  ∀ (s : State) (rows : List Nat), s.memWF = true → rows.Perm (List.range (halfHeight s.cfg)) →
    ∃ t, performAll (rows.map .dpRow) s = .next t ∧
      performAll ((List.range (halfHeight s.cfg)).map .dpRow) s = .next t

/-- O35. The closed form of phase B (R177), modulo 2^16: the value at quad row r and column c is the seed plus the column 0
residuals of the rows 1 to r plus the residuals of row r in the columns 1 to c. -/
def Obligations.PhaseBClosedForm : Prop :=
  ∀ (s : State) (r j : Nat) (c : Channel), s.memWF = true → r < halfHeight s.cfg → j < halfWidth s.cfg →
    ∃ t, performAll (.dpCol0 :: (List.range (halfHeight s.cfg)).map .dpRow) s = .next t ∧
      bufRead t.valbuf (r * halfWidth s.cfg + j) c =
        bufRead s.resbuf 0 c +
          ((List.range r).map fun i => bufRead s.resbuf ((i + 1) * halfWidth s.cfg) c).sum +
          ((List.range j).map fun i => bufRead s.resbuf (r * halfWidth s.cfg + (i + 1)) c).sum

/-- O36. The stages are apart (R150, R215): no DPCM or colour operation changes the cursor, the adaptive state or the symbol
registers, and no bit cursor or adaptive Rice operation changes the DPCM references, the colour registers or the two
buffers. -/
def Obligations.StagesAreApart : Prop :=
  (∀ (i : Instr) (s t : State),
      i ∈ [Instr.dpSeed, .dpCol0, .ctStrict] ∨ (∃ c, i = .dpSeq c) ∨ (∃ p c x, i = .dpStore p c x) ∨
        (∃ r, i = .dpRow r) ∨ (∃ v, i = .ctSum v) ∨ (∃ j, i = .ctDiv8 j) ∨ (∃ j, i = .ctShl j) ∨
        (∃ j, i = .ctNarrow j) ∨ (∃ p v, i = .ctQuad p v) →
      exec i s = .next t → t.cursor = s.cursor ∧ t.ad = s.ad ∧ t.sym = s.sym) ∧
    (∀ (i : Instr) (s t : State),
      i ∈ [Instr.bcLoad, .bcFetch1, .arInit, .arSeed, .arUnary, .arEsc, .arRem, .arMap, .arUpdN] ∨
        (∃ n, i = .bcFetchN n) ∨ (∃ c, i = .arK c) ∨ (∃ c, i = .arUpdA c) ∨ (∃ c, i = .arSym c) →
      exec i s = .next t →
      t.dpcm = s.dpcm ∧ t.colour = s.colour ∧ t.resbuf = s.resbuf ∧ t.valbuf = s.valbuf)

/-! ### The colour transform -/

/-- O37. `CT.SUM`, `CT.DIV8`, `CT.SHL` and `CT.NARROW` (R190, R191, R193, R194): the four sums; the floor of the eighth; the
product with the power of two; the low PIXEL_W bits. -/
def Obligations.ColourArithmetic : Prop :=
  ∀ s : State,
    (∀ v : Quad Half, ∃ x : Bayer Int,
      exec (.ctSum v) s = .next { s with colour := { s.colour with sums := x } } ∧
        x.gr = 2 * v.y.toInt + 2 * v.cd.toInt + 4 * v.cm.toInt + 2 * v.co.toInt ∧
        x.r = 2 * v.y.toInt + 2 * v.cd.toInt - 4 * v.cm.toInt + 2 * v.co.toInt ∧
        x.b = 2 * v.y.toInt + 2 * v.cd.toInt - 4 * v.cm.toInt - 6 * v.co.toInt ∧
        x.gb = 2 * v.y.toInt - 6 * v.cd.toInt + 4 * v.cm.toInt + 2 * v.co.toInt) ∧
    (∀ i : SubPixel, ∃ x : Int,
      exec (.ctDiv8 i) s = .next { s with colour := { s.colour with quots := s.colour.quots.set i x } } ∧
        8 * x ≤ s.colour.sums.get i ∧ s.colour.sums.get i < 8 * x + 8) ∧
    (∀ i : SubPixel,
      exec (.ctShl i) s =
        .next { s with
          colour :=
            { s.colour with
              shifted := s.colour.shifted.set i (s.colour.quots.get i * 2 ^ s.cfg.lossyBits.toNat) } }) ∧
    (∀ i : SubPixel, ∃ x : BitVec 16,
      exec (.ctNarrow i) s = .next { s with colour := { s.colour with outs := s.colour.outs.set i x } } ∧
        (x.toNat : Int) = s.colour.shifted.get i % 2 ^ s.pixelW.bits)

/-- O38. `CT.STRICT` (R192): with STRICT_CT = 1 and S_GR not a multiple of 8 it raises `DivisionError`; else it does
nothing. -/
def Obligations.CtStrict : Prop :=
  ∀ s : State,
    (s.cfg.ctrl.getLsbD 1 = true ∧ s.colour.sums.gr % 8 ≠ 0 →
      ∃ t, exec .ctStrict s = .next t ∧ s.stoppedBy t .divisionError) ∧
    (s.cfg.ctrl.getLsbD 1 = false ∨ s.colour.sums.gr % 8 = 0 → exec .ctStrict s = .next s)

/-- O39. `CT.QUAD(p, Y, Cd, Cm, Co)` (R66, R195): the four elements of pixel p take the narrowed, shifted eighths of the four
sums, no other element changes, and besides the colour registers nothing else changes; where the strict check fails,
`DivisionError` is raised, and nothing but the sums, STATUS and the end of the run has changed outside output memory, of
which nothing is said (R192, R252). -/
def Obligations.CtQuad : Prop :=
  ∀ (p : BitVec 32) (v : Quad Half) (s : State) (r c w : Nat), p.toNat < npix s.cfg →
    s.cfg.outLen.toNat = 4 * npix s.cfg →
    r = p.toNat / halfWidth s.cfg → c = p.toNat % halfWidth s.cfg → w = 2 * halfWidth s.cfg →
    (isStrict s.cfg = false ∨ (colourSums v).gr % 8 = 0 →
      ∃ col m, exec (.ctQuad p v) s = .next { s with colour := col, out := m } ∧
        (∀ i j, (i, j) ∈ [(SubPixel.gb, 2 * r * w + 2 * c), (.b, 2 * r * w + 2 * c + 1),
            (.r, (2 * r + 1) * w + 2 * c), (.gr, (2 * r + 1) * w + 2 * c + 1)] →
          Mem.find m j = some (narrow s.pixelW ((colourSums v).get i / 8 * 2 ^ s.cfg.lossyBits.toNat))) ∧
        (∀ j, j ∉ [2 * r * w + 2 * c, 2 * r * w + 2 * c + 1, (2 * r + 1) * w + 2 * c, (2 * r + 1) * w + 2 * c + 1] →
          Mem.find m j = Mem.find s.out j)) ∧
    (isStrict s.cfg = true ∧ (colourSums v).gr % 8 ≠ 0 →
      ∃ t, exec (.ctQuad p v) s = .next t ∧
        State.stoppedBy { s with colour := { s.colour with sums := colourSums v } } t .divisionError)

/-- O40. The four sums of a pixel (R196): congruent modulo 8; divisible exactly when Y + Cd + 2*Cm + Co is a multiple of 4;
and the differences of the quotients. -/
def Obligations.SumsAreCongruent : Prop :=
  ∀ v : Quad Half,
    (∀ i j, (colourSums v).get i % 8 = (colourSums v).get j % 8) ∧
    (∀ i, (colourSums v).get i % 8 = 0 ↔ (v.y.toInt + v.cd.toInt + 2 * v.cm.toInt + v.co.toInt) % 4 = 0) ∧
    div8 (colourSums v).gr - div8 (colourSums v).r = v.cm.toInt ∧
    div8 (colourSums v).r - div8 (colourSums v).b = v.co.toInt ∧
    div8 (colourSums v).gr - div8 (colourSums v).gb = v.cd.toInt

/-- O41. The forward transform (R197): for four sub-pixel values, the quadruple that `CT.SUM` and `CT.DIV8` bring back to them
with no remainder is the one of the rule, and no other. -/
def Obligations.ForwardTransform : Prop :=
  ∀ (v : Quad Half) (o : Bayer Int),
    (∀ i, (colourSums v).get i = 8 * o.get i) ↔
      v.y.toInt = o.gr + o.gb + o.r + o.b ∧ v.cd.toInt = o.gr - o.gb ∧ v.cm.toInt = o.gr - o.r ∧
        v.co.toInt = o.r - o.b

/-- O42. The output index map (R66): every element of an image of HW by HH quads belongs to exactly one sub-pixel of exactly
one pixel, and every sub-pixel's element lies in the image. -/
def Obligations.OutputIndexMap : Prop :=
  ∀ hw hh : Nat, 0 < hw →
    (∀ p i, p < hw * hh → quadIndex hw p i < 4 * (hw * hh)) ∧
    (∀ j, j < 4 * (hw * hh) → ∃! x : Nat × SubPixel, x.1 < hw * hh ∧ quadIndex hw x.1 x.2 = j)

/-- O43. The pixels of phase C may be transformed in any order (R75): two pixels transformed in either order leave the same
output memory. -/
def Obligations.PixelsInAnyOrder : Prop :=
  ∀ (s t u : State) (p q : BitVec 32) (v w : Quad Half), p ≠ q → p.toNat < npix s.cfg → q.toNat < npix s.cfg →
    s.cfg.outLen.toNat = 4 * npix s.cfg → s.memWF = true → isStrict s.cfg = false →
    exec (.ctQuad p v) s = .next t → exec (.ctQuad q w) s = .next u →
    ∃ t' u', exec (.ctQuad q w) t = .next t' ∧ exec (.ctQuad p v) u = .next u' ∧ t'.out = u'.out

/-! ### The host and the sequencer -/

/-- O44. `HOST.CFGWRITE` and `HOST.CFGREAD` (R23, R210): a write while BUSY is 0 stores the value truncated to the register's
width and changes no other register; a write while BUSY is 1 is dropped; a read is answered at any time and changes nothing
(the register that holds the answer is the model's, log entry 11). -/
def Obligations.HostCfgAccess : Prop :=
  ∀ (s : State) (r : CfgReg) (v : BitVec 32),
    (s.status.busy = false → ∃ c, exec (.hostCfgWrite (.write r v)) s = .next { s with cfg := c } ∧
      (cfgRead c r).toNat = v.toNat % 2 ^ cfgBits r ∧ ∀ r', r' ≠ r → cfgRead c r' = cfgRead s.cfg r') ∧
    (s.status.busy = true → exec (.hostCfgWrite (.write r v)) s = .next s) ∧
    exec (.hostCfgWrite (.read r)) s = .next { s with hostData := cfgRead s.cfg r }

/-- O45. `HOST.START` and `HOST.STATUSREAD` (R28, R211, R212): a start of an idle block sets BUSY, clears DONE, keeps CODE and
makes `SEQ.CHECK` the next operation; a start while BUSY is 1 has no effect; a status read gives CODE in bits 2 to 0, BUSY in
bit 3 and DONE in bit 4 and changes nothing (log entries 8 and 11). -/
def Obligations.HostStartAndStatusRead : Prop :=
  ∀ s : State,
    (s.status.busy = false →
      exec .hostStart s = .next { s with status := ⟨s.status.code, true, false⟩, seq := .check }) ∧
    (s.status.busy = true → exec .hostStart s = .next s) ∧
    ∃ x : BitVec 32, exec .hostStatusRead s = .next { s with hostData := x } ∧
      x.toNat % 8 = statusNumber s.status.code ∧ x.getLsbD 3 = s.status.busy ∧ x.getLsbD 4 = s.status.done ∧
      x.toNat < 32

/-- O46. The host and the memories (R60, R73, R273): between runs a host write changes one byte of stream memory and a host
read gives the element of output memory, and changes nothing; during a run both are refused (the model's form of the
rule, log entry 10); a read at or beyond CFG.OUT_LEN is the model's fault (log entry 18). -/
def Obligations.HostMemoryAccess : Prop :=
  ∀ (s : State) (a j : BitVec 32) (b : Byte),
    (s.status.busy = false → ∃ m, hostMove (.streamWrite a b) s = .next { s with stream := m } ∧
      Mem.find m a.toNat = some b ∧ ∀ i, i ≠ a.toNat → Mem.find m i = Mem.find s.stream i) ∧
    (s.status.busy = false → j.toNat < s.cfg.outLen.toNat → ∀ v, Mem.find s.out j.toNat = some v →
      hostMove (.outRead j) s = .next { s with hostData := v.setWidth 32 }) ∧
    (s.status.busy = false → s.cfg.outLen.toNat ≤ j.toNat → hostMove (.outRead j) s = .fault .outReadOutOfRange) ∧
    (s.status.busy = true →
      hostMove (.streamWrite a b) s = .refused .streamWriteDuringRun ∧
        hostMove (.outRead j) s = .refused .outReadDuringRun)

/-- O47. `SEQ.CHECK` (R9, R213, R241 to R243, R249): a configuration that fails the test of the header ends with
`InvalidHeader`; any other one outside `CfgWF` is refused, but that Staged at a depth other than 8 with the right size and
registers in `CfgWF` ends with `UnsupportedBitDepth` at either PIXEL_W (this placing of the refusal is the model's reading of
R9, log entry 7); inside `CfgWF` the tests of the size and of the depth follow in this order; when none fails nothing
changes. Nothing is said of output memory after a raise (R252). -/
def Obligations.SeqCheck : Prop :=
  ∀ s : State,
    (badGeometry s.cfg → ∃ t, exec .seqCheck s = .next t ∧ s.stoppedBy t .invalidHeader) ∧
    (¬badGeometry s.cfg ∧ registersWF s.cfg = false → exec .seqCheck s = .refused .outsideCfgWF) ∧
    (¬badGeometry s.cfg ∧ s.cfgWF = false ∧ (badSize s.cfg ∨ ¬badDepth s.cfg) →
      exec .seqCheck s = .refused .outsideCfgWF) ∧
    (¬badGeometry s.cfg ∧ s.cfgWF = true ∧ badSize s.cfg →
      ∃ t, exec .seqCheck s = .next t ∧ s.stoppedBy t .bufferSizeMismatch) ∧
    (¬badGeometry s.cfg ∧ registersWF s.cfg = true ∧ ¬badSize s.cfg ∧ badDepth s.cfg →
      ∃ t, exec .seqCheck s = .next t ∧ s.stoppedBy t .unsupportedBitDepth) ∧
    (¬badGeometry s.cfg ∧ s.cfgWF = true ∧ ¬badSize s.cfg ∧ ¬badDepth s.cfg → exec .seqCheck s = .next s)

/-- O48. `SEQ.DONE` and `SEQ.FAIL` (R216, R217, R250): the code, BUSY 0, DONE 1, an idle block; every other register and
stream memory stay as they are, and after `SEQ.DONE` so does output memory. -/
def Obligations.SeqDoneAndFail : Prop :=
  ∀ s : State,
    exec .seqDone s = .next { s with status := ⟨.success, false, true⟩, seq := .idle } ∧
    ∀ c, ∃ t, exec (.seqFail c) s = .next t ∧ s.stoppedBy t (raisedStatus c)

/-- O49. After a failure every element of output memory reads as a free value (R252, U1; the form of the free value is the
model's, log entry 4): the host's read below CFG.OUT_LEN gives the free value of that failure, narrowed to PIXEL_W bits, and nothing is known of
it. -/
def Obligations.OutputAfterFailureIsFree : Prop :=
  ∀ (c : RaiseCode) (s t : State) (j : BitVec 32), j.toNat < s.cfg.outLen.toNat → exec (.seqFail c) s = .next t →
    hostMove (.outRead j) t =
      .next { t with
        hostData := (narrow s.pixelW (Config.unspecifiedOut (s.outEpoch + 1) j.toNat).toNat).setWidth 32 }

/-- O50. Both strategies perform the operations of R214 and R215 in the order of those rules, as `exec` performs each
alone, from every state in `CfgWF` up to the first raise or stop; where CFG.STRATEGY does not name the strategy, that it is
performed all the same is the model's choice (log entry 16). And both complete (R71): from a ready state without the
strict check, `SEQ.RUN_SEQ` and `SEQ.RUN_STAGED` give a next state in which every element of output memory is known, no element outside the image has
changed, and status, configuration, stream and sequencer are as before. -/
def Obligations.RunsComplete : Prop :=
  (∀ s : State, s.cfgWF = true →
      exec .seqRunSeq s = inOrder (sequentialItems (npix s.cfg)) s ∧
        exec .seqRunStaged s = inOrder (stagedItems (npix s.cfg) (halfHeight s.cfg)) s) ∧
    ∀ (s : State) (i : Instr), i = .seqRunSeq ∨ i = .seqRunStaged → s.ready → isStrict s.cfg = false →
      ∃ t, exec i s = .next t ∧ t.status = s.status ∧ t.seq = s.seq ∧ t.cfg = s.cfg ∧ t.stream = s.stream ∧
        t.pixelW = s.pixelW ∧ t.host = s.host ∧ t.outEpoch = s.outEpoch ∧
        (∀ j < s.cfg.outLen.toNat, Mem.find t.out j ≠ none) ∧
        (∀ j, s.cfg.outLen.toNat ≤ j → Mem.find t.out j = Mem.find s.out j)

/-- O51. How a strategy can end (R9, R78, R244, R245): outside `CfgWF` it is refused; under a configuration that has passed
`SEQ.CHECK` it completes, or raises `AllBitsConsumed`, or under the strict check `DivisionError`, or meets a payload byte that
nothing has written (log entry 2); it never leaves output memory. Where CFG.STRATEGY does not name the strategy, that `CfgWF`
alone, as R9 writes it, decides is the model's choice (log entry 16). -/
def Obligations.HowRunsEnd : Prop :=
  ∀ (s : State) (i : Instr), i = .seqRunSeq ∨ i = .seqRunStaged →
    (s.cfgWF = false → exec i s = .refused .outsideCfgWF) ∧
    (s.cfgWF = true → checkFailure s.cfg = none →
      match exec i s with
      | .next t =>
        (t.status = s.status ∧ t.seq = s.seq ∧ t.outEpoch = s.outEpoch) ∨
          (t.status = ⟨.allBitsConsumed, false, true⟩ ∧ t.seq = .idle ∧ t.outEpoch = s.outEpoch + 1) ∨
          (isStrict s.cfg = true ∧ t.status = ⟨.divisionError, false, true⟩ ∧ t.seq = .idle ∧
            t.outEpoch = s.outEpoch + 1)
      | .fault e => e = .streamUnwritten ∧ ¬s.streamFilled
      | .refused _ => False)

/-- O52. Reconstruction identity (R176, R249): a run in the Sequential strategy and one in the Staged strategy, otherwise from
the same state, that both end with Success leave the same output memory, cursor and adaptive state, the last PREV is the
last entry of VALBUF, and every element of the output is the narrowed, shifted eighth of its sum of the entry of VALBUF of
its pixel (R195); and without the strict check, where both pass `SEQ.CHECK`, they end with the same code. -/
def Obligations.StrategiesAgree : Prop :=
  ∀ s t u : State, s.memWF = true → wholeRun (s.withStrategy false) = .next t →
    wholeRun (s.withStrategy true) = .next u →
    (t.status.code = .success → u.status.code = .success →
      t.out = u.out ∧ t.cursor = u.cursor ∧ t.ad = u.ad ∧ t.dpcm.prev = bufQuad u.valbuf (npix s.cfg - 1) ∧
        ∀ p < npix s.cfg, ∀ i, Mem.find u.out (quadIndex (halfWidth s.cfg) p i) =
          some (narrow s.pixelW ((colourSums (bufQuad u.valbuf p)).get i / 8 * 2 ^ s.cfg.lossyBits.toNat))) ∧
    (isStrict s.cfg = false → checkFailure (s.withStrategy true).cfg = none → t.status.code = u.status.code)

/-- O53. The steps of a run compute the run (R211, R214, R215; the steps are the model's, log entry 8): stepping from an
accepted start reaches the outcome that the whole pseudocode gives, the same state on Success, and on a failure the same
state but for CH (log entry 14). -/
def Obligations.StepsComputeTheRun : Prop :=
  ∀ s : State, s.host = [] →
    match wholeRun s with
    | .next t => ∃ n u, runSteps n s.begin = .next u ∧ { u with ch := t.ch } = t ∧
        (t.status.code = .success → u = t)
    | .fault e => ∃ n, runSteps n s.begin = .fault e
    | .refused e => ∃ n, runSteps n s.begin = .refused e

/-- O54. Every run ends (R219): from every state whose host is silent, some number of steps brings the block to idle, or to a
stop of the model. -/
def Obligations.EveryRunEnds : Prop :=
  ∀ s : State, s.host = [] →
    ∃ n, match runSteps n s with
      | .next t => t.seq = .idle
      | .fault _ => True
      | .refused _ => True

/-- O55. The block is a function of its inputs (R42, R271): two runs with the same configuration, PIXEL_W and payload bytes end
with the same code and, on Success, the same output, whatever the two states held otherwise. -/
def Obligations.RunDependsOnInputsOnly : Prop :=
  ∀ s s' t : State, s.memWF = true → s'.memWF = true → s'.cfg = s.cfg → s'.pixelW = s.pixelW →
    (∀ i, s.cfg.payloadOffset.toNat ≤ i → i < s.cfg.streamLen.toNat → Mem.find s'.stream i = Mem.find s.stream i) →
    wholeRun s = .next t →
    ∃ t', wholeRun s' = .next t' ∧ t'.status = t.status ∧
      (t.status.code = .success → ∀ j < s.cfg.outLen.toNat, Mem.find t'.out j = Mem.find t.out j)

/-! ### Reset and invariants -/

/-- O56. Reset (R40, R270): STATUS is 0 in all its fields, the block is idle, both memories list nothing; and the state after
reset satisfies every invariant stated below. -/
def Obligations.ResetState : Prop :=
  State.reset.status = ⟨.success, false, false⟩ ∧ State.reset.seq = .idle ∧ State.reset.stream = [] ∧
    State.reset.out = [] ∧ State.reset.memWF = true ∧ State.reset.statusOk ∧ State.reset.codeOk ∧
    State.reset.floorOk ∧ State.reset.runCursorOk ∧ State.reset.geometryOk

/-- O57. Every step keeps the four memories in canonical form (an invariant of the model's representation, log entries 2 to
4). -/
def Obligations.StepKeepsMemories : Prop :=
  ∀ s t : State, s.memWF = true → step s = .next t → t.memWF = true

/-- O58. Every step keeps STATUS in agreement with the run (R28) and CODE among the codes the block produces, never
`GeneralError` or `HeaderMisaligned` (R246, R247). -/
def Obligations.StepKeepsStatus : Prop :=
  ∀ s t : State, s.statusOk → s.codeOk → step s = .next t → t.statusOk ∧ t.codeOk

/-- O59. Every step keeps the accumulators at or above CFG.A_MIN once the run has initialised them (R34). -/
def Obligations.StepKeepsFloor : Prop :=
  ∀ s t : State, s.statusOk → s.floorOk → step s = .next t → t.floorOk

/-- O60. Every step of a run stays inside the two memories (R29, R30, R31, R43, R76, R78, R276): the cursor stays in the payload
and agrees with it, no element beyond CFG.OUT_LEN is written, and while BUSY is 1 the configuration and the stream do not
change. -/
def Obligations.StepStaysInBounds : Prop :=
  ∀ s : State, s.statusOk → s.runCursorOk → s.geometryOk →
    step s ≠ .fault .outOfRange ∧
      ∀ t, step s = .next t → t.runCursorOk ∧ t.geometryOk ∧
        (s.status.busy = true → t.cfg = s.cfg ∧ t.stream = s.stream ∧ t.pixelW = s.pixelW)
end

