-- ==== Sys2Proof/Laws/Data.lean ====
section
/-! SUPPORT. Reading and writing the elements of a register array and of an output quad. -/

namespace Sys2Proof

@[simp] theorem Quad.get_set_same {α : Type} (x : Quad α) (c : Channel) (v : α) : (x.set c v).get c = v := by
  cases c <;> rfl

theorem Quad.get_set_other {α : Type} (x : Quad α) {c d : Channel} (v : α) (h : d ≠ c) :
    (x.set c v).get d = x.get d := by
  cases c <;> cases d <;> first | rfl | exact absurd rfl h

theorem Quad.get_set {α : Type} (x : Quad α) (c d : Channel) (v : α) :
    (x.set c v).get d = if d = c then v else x.get d := by
  by_cases h : d = c
  · subst h; simp
  · rw [if_neg h, Quad.get_set_other x v h]

@[simp] theorem Quad.get_map {α β : Type} (f : α → β) (x : Quad α) (c : Channel) :
    (x.map f).get c = f (x.get c) := by
  cases c <;> rfl

@[simp] theorem Quad.get_fill {α : Type} (v : α) (c : Channel) : (Quad.fill v).get c = v := by
  cases c <;> rfl

theorem Quad.ext_get {α : Type} {x y : Quad α} (h : ∀ c, x.get c = y.get c) : x = y := by
  obtain ⟨a, b, c, d⟩ := x
  obtain ⟨a', b', c', d'⟩ := y
  have h1 := h .y
  have h2 := h .cd
  have h3 := h .cm
  have h4 := h .co
  simp only [Quad.get] at h1 h2 h3 h4
  rw [h1, h2, h3, h4]

@[simp] theorem Bayer.get_set_same {α : Type} (x : Bayer α) (i : SubPixel) (v : α) : (x.set i v).get i = v := by
  cases i <;> rfl

theorem Bayer.get_set_other {α : Type} (x : Bayer α) {i j : SubPixel} (v : α) (h : j ≠ i) :
    (x.set i v).get j = x.get j := by
  cases i <;> cases j <;> first | rfl | exact absurd rfl h

@[simp] theorem Bayer.get_fill {α : Type} (v : α) (i : SubPixel) : (Bayer.fill v).get i = v := by
  cases i <;> rfl

theorem Channel.index_lt (c : Channel) : c.index < 4 := by cases c <;> decide

theorem Channel.index_inj {c d : Channel} (h : c.index = d.index) : c = d := by
  cases c <;> cases d <;> first | rfl | exact absurd h (by decide)

end Sys2Proof
end

