-- ==== Sys2Proof/Laws/Memory.lean ====
section
/-! SUPPORT. The laws of the sparse memories: what a read gives after a write, that every write keeps the canonical
form, and that two canonical memories that read alike are equal. -/

namespace Sys2Proof.Machine

variable {w : Nat}

/-- Raising the lower bound of a canonical memory is only weakening when lowered again. -/
theorem Mem.wfFrom_cons {dflt : Option (BitVec w)} {lo : Option Nat} {a : Nat} {v : BitVec w} {m : Mem w} :
    Mem.wfFrom dflt lo ((a, v) :: m) = true ↔
      (∀ b, lo = some b → b < a) ∧ dflt ≠ some v ∧ Mem.wfFrom dflt (some a) m = true := by
  cases lo <;> simp [Mem.wfFrom, and_assoc]

theorem Mem.wfFrom_weaken {dflt : Option (BitVec w)} {lo : Option Nat} {b : Nat} {m : Mem w}
    (h : Mem.wfFrom dflt (some b) m = true) (hlo : ∀ c, lo = some c → c ≤ b) :
    Mem.wfFrom dflt lo m = true := by
  cases m with
  | nil => cases lo <;> rfl
  | cons e m =>
    obtain ⟨a, v⟩ := e
    rw [Mem.wfFrom_cons] at h ⊢
    exact ⟨fun c hc => lt_of_le_of_lt (hlo c hc) (h.1 b rfl), h.2⟩

/-- A canonical memory lists nothing at or below its lower bound. -/
theorem Mem.find_below {dflt : Option (BitVec w)} {b i : Nat} {m : Mem w}
    (h : Mem.wfFrom dflt (some b) m = true) (hi : i ≤ b) : Mem.find m i = none := by
  induction m generalizing b with
  | nil => rfl
  | cons e m ih =>
    obtain ⟨a, v⟩ := e
    rw [Mem.wfFrom_cons] at h
    have hb := h.1 b rfl
    rw [Mem.find, if_neg (by omega)]
    exact ih h.2.2 (by omega)

/-- What is listed after listing a value: that value at its index, the rest as before. -/
theorem Mem.find_put (m : Mem w) (i j : Nat) (v : BitVec w) :
    Mem.find (Mem.put m i v) j = if i = j then some v else Mem.find m j := by
  induction m with
  | nil => simp [Mem.put, Mem.find]
  | cons e m ih =>
    obtain ⟨a, u⟩ := e
    simp only [Mem.put]
    split
    · by_cases hij : i = j <;> simp [Mem.find, hij]
    · split
      · rename_i _ hia
        subst hia
        by_cases hij : i = j <;> simp [Mem.find, hij]
      · rename_i _ hia
        by_cases haj : a = j
        · subst haj
          simp [Mem.find, hia]
        · simp [Mem.find, haj, ih]

/-- What is listed after removing an index from a canonical memory. -/
theorem Mem.find_drop {dflt : Option (BitVec w)} {lo : Option Nat} {m : Mem w}
    (h : Mem.wfFrom dflt lo m = true) (i j : Nat) :
    Mem.find (Mem.drop m i) j = if i = j then none else Mem.find m j := by
  induction m generalizing lo with
  | nil => simp [Mem.drop, Mem.find]
  | cons e m ih =>
    obtain ⟨a, u⟩ := e
    rw [Mem.wfFrom_cons] at h
    by_cases hai : a = i
    · subst hai
      by_cases hij : a = j
      · subst hij
        simp [Mem.drop, Mem.find_below h.2.2 (le_refl a)]
      · simp [Mem.drop, Mem.find, hij]
    · by_cases haj : a = j
      · subst haj
        simp [Mem.drop, hai, Mem.find, Ne.symm hai]
      · simp [Mem.drop, hai, Mem.find, haj, ih h.2.2]

/-- The read law: a canonical memory reads a written value back, and everything else as before. -/
theorem Mem.read_write {dflt : Option (BitVec w)} {m : Mem w} (h : Mem.wf dflt m = true) (i j : Nat)
    (v : BitVec w) :
    Mem.read dflt (Mem.write dflt m i v) j = if i = j then some v else Mem.read dflt m j := by
  unfold Mem.write
  by_cases hd : dflt = some v
  · rw [if_pos hd]
    simp only [Mem.read, Mem.find_drop h]
    by_cases hij : i = j <;> simp [hij, hd]
  · rw [if_neg hd]
    simp only [Mem.read, Mem.find_put]
    by_cases hij : i = j <;> simp [hij]

theorem Mem.put_wfFrom {dflt : Option (BitVec w)} {lo : Option Nat} {m : Mem w} {i : Nat} {v : BitVec w}
    (h : Mem.wfFrom dflt lo m = true) (hi : ∀ b, lo = some b → b < i) (hv : dflt ≠ some v) :
    Mem.wfFrom dflt lo (Mem.put m i v) = true := by
  induction m generalizing lo with
  | nil =>
    simp only [Mem.put]
    exact Mem.wfFrom_cons.mpr ⟨hi, hv, rfl⟩
  | cons e m ih =>
    obtain ⟨a, u⟩ := e
    rw [Mem.wfFrom_cons] at h
    simp only [Mem.put]
    split
    · rename_i hia
      refine Mem.wfFrom_cons.mpr ⟨hi, hv, Mem.wfFrom_cons.mpr ⟨?_, h.2⟩⟩
      intro b hb
      cases hb
      exact hia
    · split
      · rename_i _ hia
        subst hia
        exact Mem.wfFrom_cons.mpr ⟨h.1, hv, h.2.2⟩
      · rename_i hlt hne
        refine Mem.wfFrom_cons.mpr ⟨h.1, h.2.1, ih h.2.2 ?_⟩
        intro b hb
        cases hb
        omega

theorem Mem.drop_wfFrom {dflt : Option (BitVec w)} {lo : Option Nat} {m : Mem w}
    (h : Mem.wfFrom dflt lo m = true) (i : Nat) : Mem.wfFrom dflt lo (Mem.drop m i) = true := by
  induction m generalizing lo with
  | nil => cases lo <;> rfl
  | cons e m ih =>
    obtain ⟨a, u⟩ := e
    rw [Mem.wfFrom_cons] at h
    simp only [Mem.drop]
    split
    · exact Mem.wfFrom_weaken h.2.2 fun c hc => le_of_lt (h.1 c hc)
    · exact Mem.wfFrom_cons.mpr ⟨h.1, h.2.1, ih h.2.2⟩

/-- A write keeps the canonical form. -/
theorem Mem.write_wf {dflt : Option (BitVec w)} {m : Mem w} (h : Mem.wf dflt m = true) (i : Nat)
    (v : BitVec w) : Mem.wf dflt (Mem.write dflt m i v) = true := by
  unfold Mem.write
  split
  · exact Mem.drop_wfFrom h i
  · rename_i hd
    exact Mem.put_wfFrom h (fun b hb => by cases hb) hd

/-- The empty memory is canonical. -/
@[simp] theorem Mem.nil_wf (dflt : Option (BitVec w)) : Mem.wf dflt ([] : Mem w) = true := rfl

/-- Two canonical memories that list the same are equal. -/
theorem Mem.ext_find {dflt : Option (BitVec w)} {lo : Option Nat} {m n : Mem w}
    (hm : Mem.wfFrom dflt lo m = true) (hn : Mem.wfFrom dflt lo n = true)
    (h : ∀ i, Mem.find m i = Mem.find n i) : m = n := by
  induction m generalizing lo n with
  | nil =>
    cases n with
    | nil => rfl
    | cons e n =>
      have := h e.1
      simp [Mem.find] at this
  | cons e m ih =>
    obtain ⟨a, u⟩ := e
    cases n with
    | nil =>
      have := h a
      simp [Mem.find] at this
    | cons f n =>
      obtain ⟨b, v⟩ := f
      rw [Mem.wfFrom_cons] at hm hn
      have hab : a = b := by
        rcases lt_trichotomy a b with hlt | heq | hgt
        · have := h a
          rw [Mem.find, if_pos rfl, Mem.find, if_neg (by omega), Mem.find_below hn.2.2 (by omega)] at this
          cases this
        · exact heq
        · have := h b
          rw [Mem.find, if_neg (by omega), Mem.find_below hm.2.2 (by omega), Mem.find, if_pos rfl] at this
          cases this
      subst hab
      have huv : u = v := by
        have := h a
        simpa [Mem.find] using this
      subst huv
      have hmn : m = n := by
        refine ih hm.2.2 hn.2.2 fun i => ?_
        by_cases hi : a = i
        · subst hi
          rw [Mem.find_below hm.2.2 (le_refl a), Mem.find_below hn.2.2 (le_refl a)]
        · have := h i
          simpa [Mem.find, hi] using this
      rw [hmn]

/-- A canonical memory lists no entry that reads as an unlisted index does. -/
theorem Mem.find_ne_default {dflt : Option (BitVec w)} {lo : Option Nat} {m : Mem w}
    (h : Mem.wfFrom dflt lo m = true) (i : Nat) {v : BitVec w} (hv : Mem.find m i = some v) :
    dflt ≠ some v := by
  induction m generalizing lo with
  | nil => simp [Mem.find] at hv
  | cons e m ih =>
    obtain ⟨a, u⟩ := e
    rw [Mem.wfFrom_cons] at h
    rw [Mem.find] at hv
    split at hv
    · cases hv
      exact h.2.1
    · exact ih h.2.2 hv

/-- Two canonical memories that read alike are equal. -/
theorem Mem.ext_read {dflt : Option (BitVec w)} {m n : Mem w} (hm : Mem.wf dflt m = true)
    (hn : Mem.wf dflt n = true) (h : ∀ i, Mem.read dflt m i = Mem.read dflt n i) : m = n := by
  refine Mem.ext_find hm hn fun i => ?_
  have hi := h i
  unfold Mem.read at hi
  cases hmi : Mem.find m i with
  | none =>
    cases hni : Mem.find n i with
    | none => rfl
    | some v =>
      rw [hmi, hni] at hi
      exact absurd hi (Mem.find_ne_default hn i hni)
  | some u =>
    cases hni : Mem.find n i with
    | none =>
      rw [hmi, hni] at hi
      exact absurd hi.symm (Mem.find_ne_default hm i hmi)
    | some v =>
      rw [hmi, hni] at hi
      exact hi

/-- Writes to different indices of a canonical memory commute. -/
theorem Mem.write_comm {dflt : Option (BitVec w)} {m : Mem w} (h : Mem.wf dflt m = true) {i j : Nat}
    (hij : i ≠ j) (u v : BitVec w) :
    Mem.write dflt (Mem.write dflt m i u) j v = Mem.write dflt (Mem.write dflt m j v) i u := by
  refine Mem.ext_read (Mem.write_wf (Mem.write_wf h _ _) _ _) (Mem.write_wf (Mem.write_wf h _ _) _ _) fun k => ?_
  simp only [Mem.read_write (Mem.write_wf h _ _), Mem.read_write h]
  by_cases hi : i = k
  · subst hi
    simp [Ne.symm hij]
  · simp [hi]

/-! ### The buffers RESBUF and VALBUF -/

/-- Different entries of a buffer have different indices. -/
theorem bufIndex_inj {p q : Nat} {c d : Channel} (h : bufIndex p c = bufIndex q d) : p = q ∧ c = d := by
  have hc := c.index_lt
  have hd := d.index_lt
  unfold bufIndex at h
  have hpq : p = q := by omega
  refine ⟨hpq, Channel.index_inj ?_⟩
  omega

/-- A buffer reads a written entry back, and every other entry as before. -/
theorem bufRead_bufWrite {m : Mem 16} (h : Mem.wf bufDefault m = true) (p q : Nat) (c d : Channel) (v : Half) :
    bufRead (bufWrite m p c v) q d = if p = q ∧ c = d then v else bufRead m q d := by
  unfold bufRead bufWrite
  rw [Mem.read_write h]
  by_cases hpq : p = q ∧ c = d
  · obtain ⟨rfl, rfl⟩ := hpq
    simp
  · rw [if_neg hpq, if_neg fun hi => hpq (bufIndex_inj hi)]

theorem bufWrite_wf {m : Mem 16} (h : Mem.wf bufDefault m = true) (p : Nat) (c : Channel) (v : Half) :
    Mem.wf bufDefault (bufWrite m p c v) = true :=
  Mem.write_wf h _ _

/-- Writes to different entries of a buffer commute. -/
theorem bufWrite_comm {m : Mem 16} (h : Mem.wf bufDefault m = true) {p q : Nat} {c d : Channel}
    (hne : ¬(p = q ∧ c = d)) (u v : Half) :
    bufWrite (bufWrite m p c u) q d v = bufWrite (bufWrite m q d v) p c u :=
  Mem.write_comm h (fun hi => hne (bufIndex_inj hi)) u v

/-- A state's four memories are canonical exactly when each is. -/
theorem State.memWF_iff (s : State) :
    s.memWF = true ↔ Mem.wf streamDefault s.stream = true ∧ Mem.wf outDefault s.out = true ∧
      Mem.wf bufDefault s.resbuf = true ∧ Mem.wf bufDefault s.valbuf = true := by
  simp [State.memWF, and_assoc]

end Sys2Proof.Machine
end

