-- ==== Sys2Proof/Laws/State.lean ====
section
/-! SUPPORT. One lemma per field of State and per named update: what the field is after it. -/

namespace Sys2Proof.Machine

/-! ### fail -/

@[simp] theorem fail_pixelW (s : State) (c : RaiseCode) : (s.fail c).pixelW = s.pixelW := rfl
@[simp] theorem fail_cfg (s : State) (c : RaiseCode) : (s.fail c).cfg = s.cfg := rfl
@[simp] theorem fail_status (s : State) (c : RaiseCode) : (s.fail c).status = statusEnd (raisedStatus c) := rfl
@[simp] theorem fail_cursor (s : State) (c : RaiseCode) : (s.fail c).cursor = s.cursor := rfl
@[simp] theorem fail_p (s : State) (c : RaiseCode) : (s.fail c).p = s.p := rfl
@[simp] theorem fail_ch (s : State) (c : RaiseCode) : (s.fail c).ch = s.ch := rfl
@[simp] theorem fail_ad (s : State) (c : RaiseCode) : (s.fail c).ad = s.ad := rfl
@[simp] theorem fail_sym (s : State) (c : RaiseCode) : (s.fail c).sym = s.sym := rfl
@[simp] theorem fail_dpcm (s : State) (c : RaiseCode) : (s.fail c).dpcm = s.dpcm := rfl
@[simp] theorem fail_colour (s : State) (c : RaiseCode) : (s.fail c).colour = s.colour := rfl
@[simp] theorem fail_resbuf (s : State) (c : RaiseCode) : (s.fail c).resbuf = s.resbuf := rfl
@[simp] theorem fail_valbuf (s : State) (c : RaiseCode) : (s.fail c).valbuf = s.valbuf := rfl
@[simp] theorem fail_stream (s : State) (c : RaiseCode) : (s.fail c).stream = s.stream := rfl
@[simp] theorem fail_out (s : State) (c : RaiseCode) : (s.fail c).out = [] := rfl
@[simp] theorem fail_seedVal (s : State) (c : RaiseCode) : (s.fail c).seedVal = s.seedVal := rfl
@[simp] theorem fail_fetched (s : State) (c : RaiseCode) : (s.fail c).fetched = s.fetched := rfl
@[simp] theorem fail_seq (s : State) (c : RaiseCode) : (s.fail c).seq = .idle := rfl
@[simp] theorem fail_host (s : State) (c : RaiseCode) : (s.fail c).host = s.host := rfl
@[simp] theorem fail_hostData (s : State) (c : RaiseCode) : (s.fail c).hostData = s.hostData := rfl
@[simp] theorem fail_outEpoch (s : State) (c : RaiseCode) : (s.fail c).outEpoch = s.outEpoch + 1 := rfl

/-! ### succeed -/

@[simp] theorem succeed_pixelW (s : State) : (s.succeed).pixelW = s.pixelW := rfl
@[simp] theorem succeed_cfg (s : State) : (s.succeed).cfg = s.cfg := rfl
@[simp] theorem succeed_status (s : State) : (s.succeed).status = statusEnd .success := rfl
@[simp] theorem succeed_cursor (s : State) : (s.succeed).cursor = s.cursor := rfl
@[simp] theorem succeed_p (s : State) : (s.succeed).p = s.p := rfl
@[simp] theorem succeed_ch (s : State) : (s.succeed).ch = s.ch := rfl
@[simp] theorem succeed_ad (s : State) : (s.succeed).ad = s.ad := rfl
@[simp] theorem succeed_sym (s : State) : (s.succeed).sym = s.sym := rfl
@[simp] theorem succeed_dpcm (s : State) : (s.succeed).dpcm = s.dpcm := rfl
@[simp] theorem succeed_colour (s : State) : (s.succeed).colour = s.colour := rfl
@[simp] theorem succeed_resbuf (s : State) : (s.succeed).resbuf = s.resbuf := rfl
@[simp] theorem succeed_valbuf (s : State) : (s.succeed).valbuf = s.valbuf := rfl
@[simp] theorem succeed_stream (s : State) : (s.succeed).stream = s.stream := rfl
@[simp] theorem succeed_out (s : State) : (s.succeed).out = s.out := rfl
@[simp] theorem succeed_seedVal (s : State) : (s.succeed).seedVal = s.seedVal := rfl
@[simp] theorem succeed_fetched (s : State) : (s.succeed).fetched = s.fetched := rfl
@[simp] theorem succeed_seq (s : State) : (s.succeed).seq = .idle := rfl
@[simp] theorem succeed_host (s : State) : (s.succeed).host = s.host := rfl
@[simp] theorem succeed_hostData (s : State) : (s.succeed).hostData = s.hostData := rfl
@[simp] theorem succeed_outEpoch (s : State) : (s.succeed).outEpoch = s.outEpoch := rfl

/-! ### begin -/

@[simp] theorem begin_pixelW (s : State) : (s.begin).pixelW = s.pixelW := rfl
@[simp] theorem begin_cfg (s : State) : (s.begin).cfg = s.cfg := rfl
@[simp] theorem begin_status (s : State) : (s.begin).status = statusStart s.status := rfl
@[simp] theorem begin_cursor (s : State) : (s.begin).cursor = s.cursor := rfl
@[simp] theorem begin_p (s : State) : (s.begin).p = s.p := rfl
@[simp] theorem begin_ch (s : State) : (s.begin).ch = s.ch := rfl
@[simp] theorem begin_ad (s : State) : (s.begin).ad = s.ad := rfl
@[simp] theorem begin_sym (s : State) : (s.begin).sym = s.sym := rfl
@[simp] theorem begin_dpcm (s : State) : (s.begin).dpcm = s.dpcm := rfl
@[simp] theorem begin_colour (s : State) : (s.begin).colour = s.colour := rfl
@[simp] theorem begin_resbuf (s : State) : (s.begin).resbuf = s.resbuf := rfl
@[simp] theorem begin_valbuf (s : State) : (s.begin).valbuf = s.valbuf := rfl
@[simp] theorem begin_stream (s : State) : (s.begin).stream = s.stream := rfl
@[simp] theorem begin_out (s : State) : (s.begin).out = s.out := rfl
@[simp] theorem begin_seedVal (s : State) : (s.begin).seedVal = s.seedVal := rfl
@[simp] theorem begin_fetched (s : State) : (s.begin).fetched = s.fetched := rfl
@[simp] theorem begin_seq (s : State) : (s.begin).seq = .check := rfl
@[simp] theorem begin_host (s : State) : (s.begin).host = s.host := rfl
@[simp] theorem begin_hostData (s : State) : (s.begin).hostData = s.hostData := rfl
@[simp] theorem begin_outEpoch (s : State) : (s.begin).outEpoch = s.outEpoch := rfl

/-! ### initAdaptive -/

@[simp] theorem initAdaptive_pixelW (s : State) : (initAdaptive s).pixelW = s.pixelW := rfl
@[simp] theorem initAdaptive_cfg (s : State) : (initAdaptive s).cfg = s.cfg := rfl
@[simp] theorem initAdaptive_status (s : State) : (initAdaptive s).status = s.status := rfl
@[simp] theorem initAdaptive_cursor (s : State) : (initAdaptive s).cursor = s.cursor := rfl
@[simp] theorem initAdaptive_p (s : State) : (initAdaptive s).p = s.p := rfl
@[simp] theorem initAdaptive_ch (s : State) : (initAdaptive s).ch = s.ch := rfl
@[simp] theorem initAdaptive_ad (s : State) : (initAdaptive s).ad = ⟨s.cfg.nStart, Quad.fill s.cfg.aInit.toNat⟩ := rfl
@[simp] theorem initAdaptive_sym (s : State) : (initAdaptive s).sym = s.sym := rfl
@[simp] theorem initAdaptive_dpcm (s : State) : (initAdaptive s).dpcm = s.dpcm := rfl
@[simp] theorem initAdaptive_colour (s : State) : (initAdaptive s).colour = s.colour := rfl
@[simp] theorem initAdaptive_resbuf (s : State) : (initAdaptive s).resbuf = s.resbuf := rfl
@[simp] theorem initAdaptive_valbuf (s : State) : (initAdaptive s).valbuf = s.valbuf := rfl
@[simp] theorem initAdaptive_stream (s : State) : (initAdaptive s).stream = s.stream := rfl
@[simp] theorem initAdaptive_out (s : State) : (initAdaptive s).out = s.out := rfl
@[simp] theorem initAdaptive_seedVal (s : State) : (initAdaptive s).seedVal = s.seedVal := rfl
@[simp] theorem initAdaptive_fetched (s : State) : (initAdaptive s).fetched = s.fetched := rfl
@[simp] theorem initAdaptive_seq (s : State) : (initAdaptive s).seq = s.seq := rfl
@[simp] theorem initAdaptive_host (s : State) : (initAdaptive s).host = s.host := rfl
@[simp] theorem initAdaptive_hostData (s : State) : (initAdaptive s).hostData = s.hostData := rfl
@[simp] theorem initAdaptive_outEpoch (s : State) : (initAdaptive s).outEpoch = s.outEpoch := rfl

/-! ### accumulate -/

@[simp] theorem accumulate_pixelW (c : Channel) (x : Int) (s : State) : (accumulate c x s).pixelW = s.pixelW := rfl
@[simp] theorem accumulate_cfg (c : Channel) (x : Int) (s : State) : (accumulate c x s).cfg = s.cfg := rfl
@[simp] theorem accumulate_status (c : Channel) (x : Int) (s : State) : (accumulate c x s).status = s.status := rfl
@[simp] theorem accumulate_cursor (c : Channel) (x : Int) (s : State) : (accumulate c x s).cursor = s.cursor := rfl
@[simp] theorem accumulate_p (c : Channel) (x : Int) (s : State) : (accumulate c x s).p = s.p := rfl
@[simp] theorem accumulate_ch (c : Channel) (x : Int) (s : State) : (accumulate c x s).ch = s.ch := rfl
@[simp] theorem accumulate_ad (c : Channel) (x : Int) (s : State) : (accumulate c x s).ad = ⟨s.ad.n, s.ad.a.set c (s.ad.a.get c + x.natAbs)⟩ := rfl
@[simp] theorem accumulate_sym (c : Channel) (x : Int) (s : State) : (accumulate c x s).sym = s.sym := rfl
@[simp] theorem accumulate_dpcm (c : Channel) (x : Int) (s : State) : (accumulate c x s).dpcm = s.dpcm := rfl
@[simp] theorem accumulate_colour (c : Channel) (x : Int) (s : State) : (accumulate c x s).colour = s.colour := rfl
@[simp] theorem accumulate_resbuf (c : Channel) (x : Int) (s : State) : (accumulate c x s).resbuf = s.resbuf := rfl
@[simp] theorem accumulate_valbuf (c : Channel) (x : Int) (s : State) : (accumulate c x s).valbuf = s.valbuf := rfl
@[simp] theorem accumulate_stream (c : Channel) (x : Int) (s : State) : (accumulate c x s).stream = s.stream := rfl
@[simp] theorem accumulate_out (c : Channel) (x : Int) (s : State) : (accumulate c x s).out = s.out := rfl
@[simp] theorem accumulate_seedVal (c : Channel) (x : Int) (s : State) : (accumulate c x s).seedVal = s.seedVal := rfl
@[simp] theorem accumulate_fetched (c : Channel) (x : Int) (s : State) : (accumulate c x s).fetched = s.fetched := rfl
@[simp] theorem accumulate_seq (c : Channel) (x : Int) (s : State) : (accumulate c x s).seq = s.seq := rfl
@[simp] theorem accumulate_host (c : Channel) (x : Int) (s : State) : (accumulate c x s).host = s.host := rfl
@[simp] theorem accumulate_hostData (c : Channel) (x : Int) (s : State) : (accumulate c x s).hostData = s.hostData := rfl
@[simp] theorem accumulate_outEpoch (c : Channel) (x : Int) (s : State) : (accumulate c x s).outEpoch = s.outEpoch := rfl

/-! ### seedEffect -/

@[simp] theorem seedEffect_pixelW (c : Channel) (v : Nat) (s : State) : (seedEffect c v s).pixelW = s.pixelW := rfl
@[simp] theorem seedEffect_cfg (c : Channel) (v : Nat) (s : State) : (seedEffect c v s).cfg = s.cfg := rfl
@[simp] theorem seedEffect_status (c : Channel) (v : Nat) (s : State) : (seedEffect c v s).status = s.status := rfl
@[simp] theorem seedEffect_cursor (c : Channel) (v : Nat) (s : State) : (seedEffect c v s).cursor = s.cursor := rfl
@[simp] theorem seedEffect_p (c : Channel) (v : Nat) (s : State) : (seedEffect c v s).p = s.p := rfl
@[simp] theorem seedEffect_ch (c : Channel) (v : Nat) (s : State) : (seedEffect c v s).ch = s.ch := rfl
@[simp] theorem seedEffect_ad (c : Channel) (v : Nat) (s : State) : (seedEffect c v s).ad = ⟨s.ad.n, s.ad.a.set c (s.ad.a.get c + (fromAbs v).natAbs)⟩ := rfl
@[simp] theorem seedEffect_sym (c : Channel) (v : Nat) (s : State) : (seedEffect c v s).sym = { s.sym with v := v } := rfl
@[simp] theorem seedEffect_dpcm (c : Channel) (v : Nat) (s : State) : (seedEffect c v s).dpcm = s.dpcm := rfl
@[simp] theorem seedEffect_colour (c : Channel) (v : Nat) (s : State) : (seedEffect c v s).colour = s.colour := rfl
@[simp] theorem seedEffect_resbuf (c : Channel) (v : Nat) (s : State) : (seedEffect c v s).resbuf = s.resbuf := rfl
@[simp] theorem seedEffect_valbuf (c : Channel) (v : Nat) (s : State) : (seedEffect c v s).valbuf = s.valbuf := rfl
@[simp] theorem seedEffect_stream (c : Channel) (v : Nat) (s : State) : (seedEffect c v s).stream = s.stream := rfl
@[simp] theorem seedEffect_out (c : Channel) (v : Nat) (s : State) : (seedEffect c v s).out = s.out := rfl
@[simp] theorem seedEffect_seedVal (c : Channel) (v : Nat) (s : State) : (seedEffect c v s).seedVal = s.seedVal.set c (fromAbs v) := rfl
@[simp] theorem seedEffect_fetched (c : Channel) (v : Nat) (s : State) : (seedEffect c v s).fetched = s.fetched := rfl
@[simp] theorem seedEffect_seq (c : Channel) (v : Nat) (s : State) : (seedEffect c v s).seq = s.seq := rfl
@[simp] theorem seedEffect_host (c : Channel) (v : Nat) (s : State) : (seedEffect c v s).host = s.host := rfl
@[simp] theorem seedEffect_hostData (c : Channel) (v : Nat) (s : State) : (seedEffect c v s).hostData = s.hostData := rfl
@[simp] theorem seedEffect_outEpoch (c : Channel) (v : Nat) (s : State) : (seedEffect c v s).outEpoch = s.outEpoch := rfl

/-! ### recomputeK -/

@[simp] theorem recomputeK_pixelW (c : Channel) (s : State) : (recomputeK c s).pixelW = s.pixelW := rfl
@[simp] theorem recomputeK_cfg (c : Channel) (s : State) : (recomputeK c s).cfg = s.cfg := rfl
@[simp] theorem recomputeK_status (c : Channel) (s : State) : (recomputeK c s).status = s.status := rfl
@[simp] theorem recomputeK_cursor (c : Channel) (s : State) : (recomputeK c s).cursor = s.cursor := rfl
@[simp] theorem recomputeK_p (c : Channel) (s : State) : (recomputeK c s).p = s.p := rfl
@[simp] theorem recomputeK_ch (c : Channel) (s : State) : (recomputeK c s).ch = s.ch := rfl
@[simp] theorem recomputeK_ad (c : Channel) (s : State) : (recomputeK c s).ad = s.ad := rfl
@[simp] theorem recomputeK_sym (c : Channel) (s : State) : (recomputeK c s).sym = { s.sym with k := riceParam s.ad.n.toNat (s.ad.a.get c) (bppEff s.cfg) } := rfl
@[simp] theorem recomputeK_dpcm (c : Channel) (s : State) : (recomputeK c s).dpcm = s.dpcm := rfl
@[simp] theorem recomputeK_colour (c : Channel) (s : State) : (recomputeK c s).colour = s.colour := rfl
@[simp] theorem recomputeK_resbuf (c : Channel) (s : State) : (recomputeK c s).resbuf = s.resbuf := rfl
@[simp] theorem recomputeK_valbuf (c : Channel) (s : State) : (recomputeK c s).valbuf = s.valbuf := rfl
@[simp] theorem recomputeK_stream (c : Channel) (s : State) : (recomputeK c s).stream = s.stream := rfl
@[simp] theorem recomputeK_out (c : Channel) (s : State) : (recomputeK c s).out = s.out := rfl
@[simp] theorem recomputeK_seedVal (c : Channel) (s : State) : (recomputeK c s).seedVal = s.seedVal := rfl
@[simp] theorem recomputeK_fetched (c : Channel) (s : State) : (recomputeK c s).fetched = s.fetched := rfl
@[simp] theorem recomputeK_seq (c : Channel) (s : State) : (recomputeK c s).seq = s.seq := rfl
@[simp] theorem recomputeK_host (c : Channel) (s : State) : (recomputeK c s).host = s.host := rfl
@[simp] theorem recomputeK_hostData (c : Channel) (s : State) : (recomputeK c s).hostData = s.hostData := rfl
@[simp] theorem recomputeK_outEpoch (c : Channel) (s : State) : (recomputeK c s).outEpoch = s.outEpoch := rfl

/-! ### mapResidual -/

@[simp] theorem mapResidual_pixelW (s : State) : (mapResidual s).pixelW = s.pixelW := rfl
@[simp] theorem mapResidual_cfg (s : State) : (mapResidual s).cfg = s.cfg := rfl
@[simp] theorem mapResidual_status (s : State) : (mapResidual s).status = s.status := rfl
@[simp] theorem mapResidual_cursor (s : State) : (mapResidual s).cursor = s.cursor := rfl
@[simp] theorem mapResidual_p (s : State) : (mapResidual s).p = s.p := rfl
@[simp] theorem mapResidual_ch (s : State) : (mapResidual s).ch = s.ch := rfl
@[simp] theorem mapResidual_ad (s : State) : (mapResidual s).ad = s.ad := rfl
@[simp] theorem mapResidual_sym (s : State) : (mapResidual s).sym = { s.sym with resid := fromAbs s.sym.v } := rfl
@[simp] theorem mapResidual_dpcm (s : State) : (mapResidual s).dpcm = s.dpcm := rfl
@[simp] theorem mapResidual_colour (s : State) : (mapResidual s).colour = s.colour := rfl
@[simp] theorem mapResidual_resbuf (s : State) : (mapResidual s).resbuf = s.resbuf := rfl
@[simp] theorem mapResidual_valbuf (s : State) : (mapResidual s).valbuf = s.valbuf := rfl
@[simp] theorem mapResidual_stream (s : State) : (mapResidual s).stream = s.stream := rfl
@[simp] theorem mapResidual_out (s : State) : (mapResidual s).out = s.out := rfl
@[simp] theorem mapResidual_seedVal (s : State) : (mapResidual s).seedVal = s.seedVal := rfl
@[simp] theorem mapResidual_fetched (s : State) : (mapResidual s).fetched = s.fetched := rfl
@[simp] theorem mapResidual_seq (s : State) : (mapResidual s).seq = s.seq := rfl
@[simp] theorem mapResidual_host (s : State) : (mapResidual s).host = s.host := rfl
@[simp] theorem mapResidual_hostData (s : State) : (mapResidual s).hostData = s.hostData := rfl
@[simp] theorem mapResidual_outEpoch (s : State) : (mapResidual s).outEpoch = s.outEpoch := rfl

/-! ### updateA -/

@[simp] theorem updateA_pixelW (c : Channel) (s : State) : (updateA c s).pixelW = s.pixelW := rfl
@[simp] theorem updateA_cfg (c : Channel) (s : State) : (updateA c s).cfg = s.cfg := rfl
@[simp] theorem updateA_status (c : Channel) (s : State) : (updateA c s).status = s.status := rfl
@[simp] theorem updateA_cursor (c : Channel) (s : State) : (updateA c s).cursor = s.cursor := rfl
@[simp] theorem updateA_p (c : Channel) (s : State) : (updateA c s).p = s.p := rfl
@[simp] theorem updateA_ch (c : Channel) (s : State) : (updateA c s).ch = s.ch := rfl
@[simp] theorem updateA_ad (c : Channel) (s : State) : (updateA c s).ad = ⟨s.ad.n, s.ad.a.set c (s.ad.a.get c + s.sym.resid.natAbs)⟩ := rfl
@[simp] theorem updateA_sym (c : Channel) (s : State) : (updateA c s).sym = s.sym := rfl
@[simp] theorem updateA_dpcm (c : Channel) (s : State) : (updateA c s).dpcm = s.dpcm := rfl
@[simp] theorem updateA_colour (c : Channel) (s : State) : (updateA c s).colour = s.colour := rfl
@[simp] theorem updateA_resbuf (c : Channel) (s : State) : (updateA c s).resbuf = s.resbuf := rfl
@[simp] theorem updateA_valbuf (c : Channel) (s : State) : (updateA c s).valbuf = s.valbuf := rfl
@[simp] theorem updateA_stream (c : Channel) (s : State) : (updateA c s).stream = s.stream := rfl
@[simp] theorem updateA_out (c : Channel) (s : State) : (updateA c s).out = s.out := rfl
@[simp] theorem updateA_seedVal (c : Channel) (s : State) : (updateA c s).seedVal = s.seedVal := rfl
@[simp] theorem updateA_fetched (c : Channel) (s : State) : (updateA c s).fetched = s.fetched := rfl
@[simp] theorem updateA_seq (c : Channel) (s : State) : (updateA c s).seq = s.seq := rfl
@[simp] theorem updateA_host (c : Channel) (s : State) : (updateA c s).host = s.host := rfl
@[simp] theorem updateA_hostData (c : Channel) (s : State) : (updateA c s).hostData = s.hostData := rfl
@[simp] theorem updateA_outEpoch (c : Channel) (s : State) : (updateA c s).outEpoch = s.outEpoch := rfl

/-! ### updateN -/

@[simp] theorem updateN_pixelW (s : State) : (updateN s).pixelW = s.pixelW := rfl
@[simp] theorem updateN_cfg (s : State) : (updateN s).cfg = s.cfg := rfl
@[simp] theorem updateN_status (s : State) : (updateN s).status = s.status := rfl
@[simp] theorem updateN_cursor (s : State) : (updateN s).cursor = s.cursor := rfl
@[simp] theorem updateN_p (s : State) : (updateN s).p = s.p := rfl
@[simp] theorem updateN_ch (s : State) : (updateN s).ch = s.ch := rfl
@[simp] theorem updateN_ad (s : State) : (updateN s).ad = updatedN s.cfg s.ad := rfl
@[simp] theorem updateN_sym (s : State) : (updateN s).sym = s.sym := rfl
@[simp] theorem updateN_dpcm (s : State) : (updateN s).dpcm = s.dpcm := rfl
@[simp] theorem updateN_colour (s : State) : (updateN s).colour = s.colour := rfl
@[simp] theorem updateN_resbuf (s : State) : (updateN s).resbuf = s.resbuf := rfl
@[simp] theorem updateN_valbuf (s : State) : (updateN s).valbuf = s.valbuf := rfl
@[simp] theorem updateN_stream (s : State) : (updateN s).stream = s.stream := rfl
@[simp] theorem updateN_out (s : State) : (updateN s).out = s.out := rfl
@[simp] theorem updateN_seedVal (s : State) : (updateN s).seedVal = s.seedVal := rfl
@[simp] theorem updateN_fetched (s : State) : (updateN s).fetched = s.fetched := rfl
@[simp] theorem updateN_seq (s : State) : (updateN s).seq = s.seq := rfl
@[simp] theorem updateN_host (s : State) : (updateN s).host = s.host := rfl
@[simp] theorem updateN_hostData (s : State) : (updateN s).hostData = s.hostData := rfl
@[simp] theorem updateN_outEpoch (s : State) : (updateN s).outEpoch = s.outEpoch := rfl

/-! ### installSeed -/

@[simp] theorem installSeed_pixelW (s : State) : (installSeed s).pixelW = s.pixelW := rfl
@[simp] theorem installSeed_cfg (s : State) : (installSeed s).cfg = s.cfg := rfl
@[simp] theorem installSeed_status (s : State) : (installSeed s).status = s.status := rfl
@[simp] theorem installSeed_cursor (s : State) : (installSeed s).cursor = s.cursor := rfl
@[simp] theorem installSeed_p (s : State) : (installSeed s).p = s.p := rfl
@[simp] theorem installSeed_ch (s : State) : (installSeed s).ch = s.ch := rfl
@[simp] theorem installSeed_ad (s : State) : (installSeed s).ad = s.ad := rfl
@[simp] theorem installSeed_sym (s : State) : (installSeed s).sym = s.sym := rfl
@[simp] theorem installSeed_dpcm (s : State) : (installSeed s).dpcm = ⟨s.seedVal.map wrap16, s.seedVal.map wrap16⟩ := rfl
@[simp] theorem installSeed_colour (s : State) : (installSeed s).colour = s.colour := rfl
@[simp] theorem installSeed_resbuf (s : State) : (installSeed s).resbuf = s.resbuf := rfl
@[simp] theorem installSeed_valbuf (s : State) : (installSeed s).valbuf = s.valbuf := rfl
@[simp] theorem installSeed_stream (s : State) : (installSeed s).stream = s.stream := rfl
@[simp] theorem installSeed_out (s : State) : (installSeed s).out = s.out := rfl
@[simp] theorem installSeed_seedVal (s : State) : (installSeed s).seedVal = s.seedVal := rfl
@[simp] theorem installSeed_fetched (s : State) : (installSeed s).fetched = s.fetched := rfl
@[simp] theorem installSeed_seq (s : State) : (installSeed s).seq = s.seq := rfl
@[simp] theorem installSeed_host (s : State) : (installSeed s).host = s.host := rfl
@[simp] theorem installSeed_hostData (s : State) : (installSeed s).hostData = s.hostData := rfl
@[simp] theorem installSeed_outEpoch (s : State) : (installSeed s).outEpoch = s.outEpoch := rfl

/-! ### reconstruct -/

@[simp] theorem reconstruct_pixelW (c : Channel) (s : State) : (reconstruct c s).pixelW = s.pixelW := rfl
@[simp] theorem reconstruct_cfg (c : Channel) (s : State) : (reconstruct c s).cfg = s.cfg := rfl
@[simp] theorem reconstruct_status (c : Channel) (s : State) : (reconstruct c s).status = s.status := rfl
@[simp] theorem reconstruct_cursor (c : Channel) (s : State) : (reconstruct c s).cursor = s.cursor := rfl
@[simp] theorem reconstruct_p (c : Channel) (s : State) : (reconstruct c s).p = s.p := rfl
@[simp] theorem reconstruct_ch (c : Channel) (s : State) : (reconstruct c s).ch = s.ch := rfl
@[simp] theorem reconstruct_ad (c : Channel) (s : State) : (reconstruct c s).ad = s.ad := rfl
@[simp] theorem reconstruct_sym (c : Channel) (s : State) : (reconstruct c s).sym = s.sym := rfl
@[simp] theorem reconstruct_colour (c : Channel) (s : State) : (reconstruct c s).colour = s.colour := rfl
@[simp] theorem reconstruct_resbuf (c : Channel) (s : State) : (reconstruct c s).resbuf = s.resbuf := rfl
@[simp] theorem reconstruct_valbuf (c : Channel) (s : State) : (reconstruct c s).valbuf = s.valbuf := rfl
@[simp] theorem reconstruct_stream (c : Channel) (s : State) : (reconstruct c s).stream = s.stream := rfl
@[simp] theorem reconstruct_out (c : Channel) (s : State) : (reconstruct c s).out = s.out := rfl
@[simp] theorem reconstruct_seedVal (c : Channel) (s : State) : (reconstruct c s).seedVal = s.seedVal := rfl
@[simp] theorem reconstruct_fetched (c : Channel) (s : State) : (reconstruct c s).fetched = s.fetched := rfl
@[simp] theorem reconstruct_seq (c : Channel) (s : State) : (reconstruct c s).seq = s.seq := rfl
@[simp] theorem reconstruct_host (c : Channel) (s : State) : (reconstruct c s).host = s.host := rfl
@[simp] theorem reconstruct_hostData (c : Channel) (s : State) : (reconstruct c s).hostData = s.hostData := rfl
@[simp] theorem reconstruct_outEpoch (c : Channel) (s : State) : (reconstruct c s).outEpoch = s.outEpoch := rfl

/-! ### storeResidual -/

@[simp] theorem storeResidual_pixelW (p : Nat) (c : Channel) (x : Int) (s : State) : (storeResidual p c x s).pixelW = s.pixelW := rfl
@[simp] theorem storeResidual_cfg (p : Nat) (c : Channel) (x : Int) (s : State) : (storeResidual p c x s).cfg = s.cfg := rfl
@[simp] theorem storeResidual_status (p : Nat) (c : Channel) (x : Int) (s : State) : (storeResidual p c x s).status = s.status := rfl
@[simp] theorem storeResidual_cursor (p : Nat) (c : Channel) (x : Int) (s : State) : (storeResidual p c x s).cursor = s.cursor := rfl
@[simp] theorem storeResidual_p (p : Nat) (c : Channel) (x : Int) (s : State) : (storeResidual p c x s).p = s.p := rfl
@[simp] theorem storeResidual_ch (p : Nat) (c : Channel) (x : Int) (s : State) : (storeResidual p c x s).ch = s.ch := rfl
@[simp] theorem storeResidual_ad (p : Nat) (c : Channel) (x : Int) (s : State) : (storeResidual p c x s).ad = s.ad := rfl
@[simp] theorem storeResidual_sym (p : Nat) (c : Channel) (x : Int) (s : State) : (storeResidual p c x s).sym = s.sym := rfl
@[simp] theorem storeResidual_dpcm (p : Nat) (c : Channel) (x : Int) (s : State) : (storeResidual p c x s).dpcm = s.dpcm := rfl
@[simp] theorem storeResidual_colour (p : Nat) (c : Channel) (x : Int) (s : State) : (storeResidual p c x s).colour = s.colour := rfl
@[simp] theorem storeResidual_resbuf (p : Nat) (c : Channel) (x : Int) (s : State) : (storeResidual p c x s).resbuf = bufWrite s.resbuf p c (wrap16 x) := rfl
@[simp] theorem storeResidual_valbuf (p : Nat) (c : Channel) (x : Int) (s : State) : (storeResidual p c x s).valbuf = s.valbuf := rfl
@[simp] theorem storeResidual_stream (p : Nat) (c : Channel) (x : Int) (s : State) : (storeResidual p c x s).stream = s.stream := rfl
@[simp] theorem storeResidual_out (p : Nat) (c : Channel) (x : Int) (s : State) : (storeResidual p c x s).out = s.out := rfl
@[simp] theorem storeResidual_seedVal (p : Nat) (c : Channel) (x : Int) (s : State) : (storeResidual p c x s).seedVal = s.seedVal := rfl
@[simp] theorem storeResidual_fetched (p : Nat) (c : Channel) (x : Int) (s : State) : (storeResidual p c x s).fetched = s.fetched := rfl
@[simp] theorem storeResidual_seq (p : Nat) (c : Channel) (x : Int) (s : State) : (storeResidual p c x s).seq = s.seq := rfl
@[simp] theorem storeResidual_host (p : Nat) (c : Channel) (x : Int) (s : State) : (storeResidual p c x s).host = s.host := rfl
@[simp] theorem storeResidual_hostData (p : Nat) (c : Channel) (x : Int) (s : State) : (storeResidual p c x s).hostData = s.hostData := rfl
@[simp] theorem storeResidual_outEpoch (p : Nat) (c : Channel) (x : Int) (s : State) : (storeResidual p c x s).outEpoch = s.outEpoch := rfl

/-! ### reconstructCol0 -/

@[simp] theorem reconstructCol0_pixelW (s : State) : (reconstructCol0 s).pixelW = s.pixelW := rfl
@[simp] theorem reconstructCol0_cfg (s : State) : (reconstructCol0 s).cfg = s.cfg := rfl
@[simp] theorem reconstructCol0_status (s : State) : (reconstructCol0 s).status = s.status := rfl
@[simp] theorem reconstructCol0_cursor (s : State) : (reconstructCol0 s).cursor = s.cursor := rfl
@[simp] theorem reconstructCol0_p (s : State) : (reconstructCol0 s).p = s.p := rfl
@[simp] theorem reconstructCol0_ch (s : State) : (reconstructCol0 s).ch = s.ch := rfl
@[simp] theorem reconstructCol0_ad (s : State) : (reconstructCol0 s).ad = s.ad := rfl
@[simp] theorem reconstructCol0_sym (s : State) : (reconstructCol0 s).sym = s.sym := rfl
@[simp] theorem reconstructCol0_dpcm (s : State) : (reconstructCol0 s).dpcm = s.dpcm := rfl
@[simp] theorem reconstructCol0_colour (s : State) : (reconstructCol0 s).colour = s.colour := rfl
@[simp] theorem reconstructCol0_resbuf (s : State) : (reconstructCol0 s).resbuf = s.resbuf := rfl
@[simp] theorem reconstructCol0_valbuf (s : State) : (reconstructCol0 s).valbuf = col0Rows (halfWidth s.cfg) s.resbuf (halfHeight s.cfg - 1) (copyPixel0 s.resbuf s.valbuf) := rfl
@[simp] theorem reconstructCol0_stream (s : State) : (reconstructCol0 s).stream = s.stream := rfl
@[simp] theorem reconstructCol0_out (s : State) : (reconstructCol0 s).out = s.out := rfl
@[simp] theorem reconstructCol0_seedVal (s : State) : (reconstructCol0 s).seedVal = s.seedVal := rfl
@[simp] theorem reconstructCol0_fetched (s : State) : (reconstructCol0 s).fetched = s.fetched := rfl
@[simp] theorem reconstructCol0_seq (s : State) : (reconstructCol0 s).seq = s.seq := rfl
@[simp] theorem reconstructCol0_host (s : State) : (reconstructCol0 s).host = s.host := rfl
@[simp] theorem reconstructCol0_hostData (s : State) : (reconstructCol0 s).hostData = s.hostData := rfl
@[simp] theorem reconstructCol0_outEpoch (s : State) : (reconstructCol0 s).outEpoch = s.outEpoch := rfl

/-! ### reconstructRow -/

@[simp] theorem reconstructRow_pixelW (r : Nat) (s : State) : (reconstructRow r s).pixelW = s.pixelW := rfl
@[simp] theorem reconstructRow_cfg (r : Nat) (s : State) : (reconstructRow r s).cfg = s.cfg := rfl
@[simp] theorem reconstructRow_status (r : Nat) (s : State) : (reconstructRow r s).status = s.status := rfl
@[simp] theorem reconstructRow_cursor (r : Nat) (s : State) : (reconstructRow r s).cursor = s.cursor := rfl
@[simp] theorem reconstructRow_p (r : Nat) (s : State) : (reconstructRow r s).p = s.p := rfl
@[simp] theorem reconstructRow_ch (r : Nat) (s : State) : (reconstructRow r s).ch = s.ch := rfl
@[simp] theorem reconstructRow_ad (r : Nat) (s : State) : (reconstructRow r s).ad = s.ad := rfl
@[simp] theorem reconstructRow_sym (r : Nat) (s : State) : (reconstructRow r s).sym = s.sym := rfl
@[simp] theorem reconstructRow_dpcm (r : Nat) (s : State) : (reconstructRow r s).dpcm = s.dpcm := rfl
@[simp] theorem reconstructRow_colour (r : Nat) (s : State) : (reconstructRow r s).colour = s.colour := rfl
@[simp] theorem reconstructRow_resbuf (r : Nat) (s : State) : (reconstructRow r s).resbuf = s.resbuf := rfl
@[simp] theorem reconstructRow_valbuf (r : Nat) (s : State) : (reconstructRow r s).valbuf = rowCols (halfWidth s.cfg) r s.resbuf (halfWidth s.cfg - 1) s.valbuf := rfl
@[simp] theorem reconstructRow_stream (r : Nat) (s : State) : (reconstructRow r s).stream = s.stream := rfl
@[simp] theorem reconstructRow_out (r : Nat) (s : State) : (reconstructRow r s).out = s.out := rfl
@[simp] theorem reconstructRow_seedVal (r : Nat) (s : State) : (reconstructRow r s).seedVal = s.seedVal := rfl
@[simp] theorem reconstructRow_fetched (r : Nat) (s : State) : (reconstructRow r s).fetched = s.fetched := rfl
@[simp] theorem reconstructRow_seq (r : Nat) (s : State) : (reconstructRow r s).seq = s.seq := rfl
@[simp] theorem reconstructRow_host (r : Nat) (s : State) : (reconstructRow r s).host = s.host := rfl
@[simp] theorem reconstructRow_hostData (r : Nat) (s : State) : (reconstructRow r s).hostData = s.hostData := rfl
@[simp] theorem reconstructRow_outEpoch (r : Nat) (s : State) : (reconstructRow r s).outEpoch = s.outEpoch := rfl

/-! ### takeSums -/

@[simp] theorem takeSums_pixelW (val : Quad Half) (s : State) : (takeSums val s).pixelW = s.pixelW := rfl
@[simp] theorem takeSums_cfg (val : Quad Half) (s : State) : (takeSums val s).cfg = s.cfg := rfl
@[simp] theorem takeSums_status (val : Quad Half) (s : State) : (takeSums val s).status = s.status := rfl
@[simp] theorem takeSums_cursor (val : Quad Half) (s : State) : (takeSums val s).cursor = s.cursor := rfl
@[simp] theorem takeSums_p (val : Quad Half) (s : State) : (takeSums val s).p = s.p := rfl
@[simp] theorem takeSums_ch (val : Quad Half) (s : State) : (takeSums val s).ch = s.ch := rfl
@[simp] theorem takeSums_ad (val : Quad Half) (s : State) : (takeSums val s).ad = s.ad := rfl
@[simp] theorem takeSums_sym (val : Quad Half) (s : State) : (takeSums val s).sym = s.sym := rfl
@[simp] theorem takeSums_dpcm (val : Quad Half) (s : State) : (takeSums val s).dpcm = s.dpcm := rfl
@[simp] theorem takeSums_colour (val : Quad Half) (s : State) : (takeSums val s).colour = { s.colour with sums := colourSums val } := rfl
@[simp] theorem takeSums_resbuf (val : Quad Half) (s : State) : (takeSums val s).resbuf = s.resbuf := rfl
@[simp] theorem takeSums_valbuf (val : Quad Half) (s : State) : (takeSums val s).valbuf = s.valbuf := rfl
@[simp] theorem takeSums_stream (val : Quad Half) (s : State) : (takeSums val s).stream = s.stream := rfl
@[simp] theorem takeSums_out (val : Quad Half) (s : State) : (takeSums val s).out = s.out := rfl
@[simp] theorem takeSums_seedVal (val : Quad Half) (s : State) : (takeSums val s).seedVal = s.seedVal := rfl
@[simp] theorem takeSums_fetched (val : Quad Half) (s : State) : (takeSums val s).fetched = s.fetched := rfl
@[simp] theorem takeSums_seq (val : Quad Half) (s : State) : (takeSums val s).seq = s.seq := rfl
@[simp] theorem takeSums_host (val : Quad Half) (s : State) : (takeSums val s).host = s.host := rfl
@[simp] theorem takeSums_hostData (val : Quad Half) (s : State) : (takeSums val s).hostData = s.hostData := rfl
@[simp] theorem takeSums_outEpoch (val : Quad Half) (s : State) : (takeSums val s).outEpoch = s.outEpoch := rfl

/-! ### divideSum -/

@[simp] theorem divideSum_pixelW (i : SubPixel) (s : State) : (divideSum i s).pixelW = s.pixelW := rfl
@[simp] theorem divideSum_cfg (i : SubPixel) (s : State) : (divideSum i s).cfg = s.cfg := rfl
@[simp] theorem divideSum_status (i : SubPixel) (s : State) : (divideSum i s).status = s.status := rfl
@[simp] theorem divideSum_cursor (i : SubPixel) (s : State) : (divideSum i s).cursor = s.cursor := rfl
@[simp] theorem divideSum_p (i : SubPixel) (s : State) : (divideSum i s).p = s.p := rfl
@[simp] theorem divideSum_ch (i : SubPixel) (s : State) : (divideSum i s).ch = s.ch := rfl
@[simp] theorem divideSum_ad (i : SubPixel) (s : State) : (divideSum i s).ad = s.ad := rfl
@[simp] theorem divideSum_sym (i : SubPixel) (s : State) : (divideSum i s).sym = s.sym := rfl
@[simp] theorem divideSum_dpcm (i : SubPixel) (s : State) : (divideSum i s).dpcm = s.dpcm := rfl
@[simp] theorem divideSum_colour (i : SubPixel) (s : State) : (divideSum i s).colour = { s.colour with quots := s.colour.quots.set i (div8 (s.colour.sums.get i)) } := rfl
@[simp] theorem divideSum_resbuf (i : SubPixel) (s : State) : (divideSum i s).resbuf = s.resbuf := rfl
@[simp] theorem divideSum_valbuf (i : SubPixel) (s : State) : (divideSum i s).valbuf = s.valbuf := rfl
@[simp] theorem divideSum_stream (i : SubPixel) (s : State) : (divideSum i s).stream = s.stream := rfl
@[simp] theorem divideSum_out (i : SubPixel) (s : State) : (divideSum i s).out = s.out := rfl
@[simp] theorem divideSum_seedVal (i : SubPixel) (s : State) : (divideSum i s).seedVal = s.seedVal := rfl
@[simp] theorem divideSum_fetched (i : SubPixel) (s : State) : (divideSum i s).fetched = s.fetched := rfl
@[simp] theorem divideSum_seq (i : SubPixel) (s : State) : (divideSum i s).seq = s.seq := rfl
@[simp] theorem divideSum_host (i : SubPixel) (s : State) : (divideSum i s).host = s.host := rfl
@[simp] theorem divideSum_hostData (i : SubPixel) (s : State) : (divideSum i s).hostData = s.hostData := rfl
@[simp] theorem divideSum_outEpoch (i : SubPixel) (s : State) : (divideSum i s).outEpoch = s.outEpoch := rfl

/-! ### shiftQuotient -/

@[simp] theorem shiftQuotient_pixelW (i : SubPixel) (s : State) : (shiftQuotient i s).pixelW = s.pixelW := rfl
@[simp] theorem shiftQuotient_cfg (i : SubPixel) (s : State) : (shiftQuotient i s).cfg = s.cfg := rfl
@[simp] theorem shiftQuotient_status (i : SubPixel) (s : State) : (shiftQuotient i s).status = s.status := rfl
@[simp] theorem shiftQuotient_cursor (i : SubPixel) (s : State) : (shiftQuotient i s).cursor = s.cursor := rfl
@[simp] theorem shiftQuotient_p (i : SubPixel) (s : State) : (shiftQuotient i s).p = s.p := rfl
@[simp] theorem shiftQuotient_ch (i : SubPixel) (s : State) : (shiftQuotient i s).ch = s.ch := rfl
@[simp] theorem shiftQuotient_ad (i : SubPixel) (s : State) : (shiftQuotient i s).ad = s.ad := rfl
@[simp] theorem shiftQuotient_sym (i : SubPixel) (s : State) : (shiftQuotient i s).sym = s.sym := rfl
@[simp] theorem shiftQuotient_dpcm (i : SubPixel) (s : State) : (shiftQuotient i s).dpcm = s.dpcm := rfl
@[simp] theorem shiftQuotient_colour (i : SubPixel) (s : State) : (shiftQuotient i s).colour = { s.colour with shifted := s.colour.shifted.set i (shiftLossy s.cfg (s.colour.quots.get i)) } := rfl
@[simp] theorem shiftQuotient_resbuf (i : SubPixel) (s : State) : (shiftQuotient i s).resbuf = s.resbuf := rfl
@[simp] theorem shiftQuotient_valbuf (i : SubPixel) (s : State) : (shiftQuotient i s).valbuf = s.valbuf := rfl
@[simp] theorem shiftQuotient_stream (i : SubPixel) (s : State) : (shiftQuotient i s).stream = s.stream := rfl
@[simp] theorem shiftQuotient_out (i : SubPixel) (s : State) : (shiftQuotient i s).out = s.out := rfl
@[simp] theorem shiftQuotient_seedVal (i : SubPixel) (s : State) : (shiftQuotient i s).seedVal = s.seedVal := rfl
@[simp] theorem shiftQuotient_fetched (i : SubPixel) (s : State) : (shiftQuotient i s).fetched = s.fetched := rfl
@[simp] theorem shiftQuotient_seq (i : SubPixel) (s : State) : (shiftQuotient i s).seq = s.seq := rfl
@[simp] theorem shiftQuotient_host (i : SubPixel) (s : State) : (shiftQuotient i s).host = s.host := rfl
@[simp] theorem shiftQuotient_hostData (i : SubPixel) (s : State) : (shiftQuotient i s).hostData = s.hostData := rfl
@[simp] theorem shiftQuotient_outEpoch (i : SubPixel) (s : State) : (shiftQuotient i s).outEpoch = s.outEpoch := rfl

/-! ### narrowShifted -/

@[simp] theorem narrowShifted_pixelW (i : SubPixel) (s : State) : (narrowShifted i s).pixelW = s.pixelW := rfl
@[simp] theorem narrowShifted_cfg (i : SubPixel) (s : State) : (narrowShifted i s).cfg = s.cfg := rfl
@[simp] theorem narrowShifted_status (i : SubPixel) (s : State) : (narrowShifted i s).status = s.status := rfl
@[simp] theorem narrowShifted_cursor (i : SubPixel) (s : State) : (narrowShifted i s).cursor = s.cursor := rfl
@[simp] theorem narrowShifted_p (i : SubPixel) (s : State) : (narrowShifted i s).p = s.p := rfl
@[simp] theorem narrowShifted_ch (i : SubPixel) (s : State) : (narrowShifted i s).ch = s.ch := rfl
@[simp] theorem narrowShifted_ad (i : SubPixel) (s : State) : (narrowShifted i s).ad = s.ad := rfl
@[simp] theorem narrowShifted_sym (i : SubPixel) (s : State) : (narrowShifted i s).sym = s.sym := rfl
@[simp] theorem narrowShifted_dpcm (i : SubPixel) (s : State) : (narrowShifted i s).dpcm = s.dpcm := rfl
@[simp] theorem narrowShifted_colour (i : SubPixel) (s : State) : (narrowShifted i s).colour = { s.colour with outs := s.colour.outs.set i (narrow s.pixelW (s.colour.shifted.get i)) } := rfl
@[simp] theorem narrowShifted_resbuf (i : SubPixel) (s : State) : (narrowShifted i s).resbuf = s.resbuf := rfl
@[simp] theorem narrowShifted_valbuf (i : SubPixel) (s : State) : (narrowShifted i s).valbuf = s.valbuf := rfl
@[simp] theorem narrowShifted_stream (i : SubPixel) (s : State) : (narrowShifted i s).stream = s.stream := rfl
@[simp] theorem narrowShifted_out (i : SubPixel) (s : State) : (narrowShifted i s).out = s.out := rfl
@[simp] theorem narrowShifted_seedVal (i : SubPixel) (s : State) : (narrowShifted i s).seedVal = s.seedVal := rfl
@[simp] theorem narrowShifted_fetched (i : SubPixel) (s : State) : (narrowShifted i s).fetched = s.fetched := rfl
@[simp] theorem narrowShifted_seq (i : SubPixel) (s : State) : (narrowShifted i s).seq = s.seq := rfl
@[simp] theorem narrowShifted_host (i : SubPixel) (s : State) : (narrowShifted i s).host = s.host := rfl
@[simp] theorem narrowShifted_hostData (i : SubPixel) (s : State) : (narrowShifted i s).hostData = s.hostData := rfl
@[simp] theorem narrowShifted_outEpoch (i : SubPixel) (s : State) : (narrowShifted i s).outEpoch = s.outEpoch := rfl

/-! ### firstPixel -/

@[simp] theorem firstPixel_pixelW (s : State) : (firstPixel s).pixelW = s.pixelW := rfl
@[simp] theorem firstPixel_cfg (s : State) : (firstPixel s).cfg = s.cfg := rfl
@[simp] theorem firstPixel_status (s : State) : (firstPixel s).status = s.status := rfl
@[simp] theorem firstPixel_cursor (s : State) : (firstPixel s).cursor = s.cursor := rfl
@[simp] theorem firstPixel_p (s : State) : (firstPixel s).p = 0 := rfl
@[simp] theorem firstPixel_ch (s : State) : (firstPixel s).ch = .y := rfl
@[simp] theorem firstPixel_ad (s : State) : (firstPixel s).ad = s.ad := rfl
@[simp] theorem firstPixel_sym (s : State) : (firstPixel s).sym = s.sym := rfl
@[simp] theorem firstPixel_dpcm (s : State) : (firstPixel s).dpcm = s.dpcm := rfl
@[simp] theorem firstPixel_colour (s : State) : (firstPixel s).colour = s.colour := rfl
@[simp] theorem firstPixel_resbuf (s : State) : (firstPixel s).resbuf = s.resbuf := rfl
@[simp] theorem firstPixel_valbuf (s : State) : (firstPixel s).valbuf = s.valbuf := rfl
@[simp] theorem firstPixel_stream (s : State) : (firstPixel s).stream = s.stream := rfl
@[simp] theorem firstPixel_out (s : State) : (firstPixel s).out = s.out := rfl
@[simp] theorem firstPixel_seedVal (s : State) : (firstPixel s).seedVal = s.seedVal := rfl
@[simp] theorem firstPixel_fetched (s : State) : (firstPixel s).fetched = s.fetched := rfl
@[simp] theorem firstPixel_seq (s : State) : (firstPixel s).seq = s.seq := rfl
@[simp] theorem firstPixel_host (s : State) : (firstPixel s).host = s.host := rfl
@[simp] theorem firstPixel_hostData (s : State) : (firstPixel s).hostData = s.hostData := rfl
@[simp] theorem firstPixel_outEpoch (s : State) : (firstPixel s).outEpoch = s.outEpoch := rfl

/-! ### symbolEffect -/

@[simp] theorem symbolEffect_pixelW (q : BitVec 8) (v : Nat) (s : State) : (symbolEffect q v s).pixelW = s.pixelW := rfl
@[simp] theorem symbolEffect_cfg (q : BitVec 8) (v : Nat) (s : State) : (symbolEffect q v s).cfg = s.cfg := rfl
@[simp] theorem symbolEffect_status (q : BitVec 8) (v : Nat) (s : State) : (symbolEffect q v s).status = s.status := rfl
@[simp] theorem symbolEffect_cursor (q : BitVec 8) (v : Nat) (s : State) : (symbolEffect q v s).cursor = s.cursor := rfl
@[simp] theorem symbolEffect_p (q : BitVec 8) (v : Nat) (s : State) : (symbolEffect q v s).p = s.p := rfl
@[simp] theorem symbolEffect_ch (q : BitVec 8) (v : Nat) (s : State) : (symbolEffect q v s).ch = s.ch := rfl
@[simp] theorem symbolEffect_ad (q : BitVec 8) (v : Nat) (s : State) : (symbolEffect q v s).ad = ⟨s.ad.n, s.ad.a.set s.ch (s.ad.a.get s.ch + (fromAbs v).natAbs)⟩ := rfl
@[simp] theorem symbolEffect_sym (q : BitVec 8) (v : Nat) (s : State) : (symbolEffect q v s).sym = ⟨s.sym.k, q, v, fromAbs v⟩ := rfl
@[simp] theorem symbolEffect_dpcm (q : BitVec 8) (v : Nat) (s : State) : (symbolEffect q v s).dpcm = s.dpcm := rfl
@[simp] theorem symbolEffect_colour (q : BitVec 8) (v : Nat) (s : State) : (symbolEffect q v s).colour = s.colour := rfl
@[simp] theorem symbolEffect_resbuf (q : BitVec 8) (v : Nat) (s : State) : (symbolEffect q v s).resbuf = s.resbuf := rfl
@[simp] theorem symbolEffect_valbuf (q : BitVec 8) (v : Nat) (s : State) : (symbolEffect q v s).valbuf = s.valbuf := rfl
@[simp] theorem symbolEffect_stream (q : BitVec 8) (v : Nat) (s : State) : (symbolEffect q v s).stream = s.stream := rfl
@[simp] theorem symbolEffect_out (q : BitVec 8) (v : Nat) (s : State) : (symbolEffect q v s).out = s.out := rfl
@[simp] theorem symbolEffect_seedVal (q : BitVec 8) (v : Nat) (s : State) : (symbolEffect q v s).seedVal = s.seedVal := rfl
@[simp] theorem symbolEffect_fetched (q : BitVec 8) (v : Nat) (s : State) : (symbolEffect q v s).fetched = s.fetched := rfl
@[simp] theorem symbolEffect_seq (q : BitVec 8) (v : Nat) (s : State) : (symbolEffect q v s).seq = s.seq := rfl
@[simp] theorem symbolEffect_host (q : BitVec 8) (v : Nat) (s : State) : (symbolEffect q v s).host = s.host := rfl
@[simp] theorem symbolEffect_hostData (q : BitVec 8) (v : Nat) (s : State) : (symbolEffect q v s).hostData = s.hostData := rfl
@[simp] theorem symbolEffect_outEpoch (q : BitVec 8) (v : Nat) (s : State) : (symbolEffect q v s).outEpoch = s.outEpoch := rfl

/-! ### riceEffect -/

@[simp] theorem riceEffect_pixelW (q r : Nat) (s : State) : (riceEffect q r s).pixelW = s.pixelW := rfl
@[simp] theorem riceEffect_cfg (q r : Nat) (s : State) : (riceEffect q r s).cfg = s.cfg := rfl
@[simp] theorem riceEffect_status (q r : Nat) (s : State) : (riceEffect q r s).status = s.status := rfl
@[simp] theorem riceEffect_cursor (q r : Nat) (s : State) : (riceEffect q r s).cursor = s.cursor := rfl
@[simp] theorem riceEffect_p (q r : Nat) (s : State) : (riceEffect q r s).p = s.p := rfl
@[simp] theorem riceEffect_ch (q r : Nat) (s : State) : (riceEffect q r s).ch = s.ch := rfl
@[simp] theorem riceEffect_dpcm (q r : Nat) (s : State) : (riceEffect q r s).dpcm = s.dpcm := rfl
@[simp] theorem riceEffect_colour (q r : Nat) (s : State) : (riceEffect q r s).colour = s.colour := rfl
@[simp] theorem riceEffect_resbuf (q r : Nat) (s : State) : (riceEffect q r s).resbuf = s.resbuf := rfl
@[simp] theorem riceEffect_valbuf (q r : Nat) (s : State) : (riceEffect q r s).valbuf = s.valbuf := rfl
@[simp] theorem riceEffect_stream (q r : Nat) (s : State) : (riceEffect q r s).stream = s.stream := rfl
@[simp] theorem riceEffect_out (q r : Nat) (s : State) : (riceEffect q r s).out = s.out := rfl
@[simp] theorem riceEffect_seedVal (q r : Nat) (s : State) : (riceEffect q r s).seedVal = s.seedVal := rfl
@[simp] theorem riceEffect_fetched (q r : Nat) (s : State) : (riceEffect q r s).fetched = s.fetched := rfl
@[simp] theorem riceEffect_seq (q r : Nat) (s : State) : (riceEffect q r s).seq = s.seq := rfl
@[simp] theorem riceEffect_host (q r : Nat) (s : State) : (riceEffect q r s).host = s.host := rfl
@[simp] theorem riceEffect_hostData (q r : Nat) (s : State) : (riceEffect q r s).hostData = s.hostData := rfl
@[simp] theorem riceEffect_outEpoch (q r : Nat) (s : State) : (riceEffect q r s).outEpoch = s.outEpoch := rfl

/-! ### escEffect -/

@[simp] theorem escEffect_pixelW (v : Nat) (s : State) : (escEffect v s).pixelW = s.pixelW := rfl
@[simp] theorem escEffect_cfg (v : Nat) (s : State) : (escEffect v s).cfg = s.cfg := rfl
@[simp] theorem escEffect_status (v : Nat) (s : State) : (escEffect v s).status = s.status := rfl
@[simp] theorem escEffect_cursor (v : Nat) (s : State) : (escEffect v s).cursor = s.cursor := rfl
@[simp] theorem escEffect_p (v : Nat) (s : State) : (escEffect v s).p = s.p := rfl
@[simp] theorem escEffect_ch (v : Nat) (s : State) : (escEffect v s).ch = s.ch := rfl
@[simp] theorem escEffect_dpcm (v : Nat) (s : State) : (escEffect v s).dpcm = s.dpcm := rfl
@[simp] theorem escEffect_colour (v : Nat) (s : State) : (escEffect v s).colour = s.colour := rfl
@[simp] theorem escEffect_resbuf (v : Nat) (s : State) : (escEffect v s).resbuf = s.resbuf := rfl
@[simp] theorem escEffect_valbuf (v : Nat) (s : State) : (escEffect v s).valbuf = s.valbuf := rfl
@[simp] theorem escEffect_stream (v : Nat) (s : State) : (escEffect v s).stream = s.stream := rfl
@[simp] theorem escEffect_out (v : Nat) (s : State) : (escEffect v s).out = s.out := rfl
@[simp] theorem escEffect_seedVal (v : Nat) (s : State) : (escEffect v s).seedVal = s.seedVal := rfl
@[simp] theorem escEffect_fetched (v : Nat) (s : State) : (escEffect v s).fetched = s.fetched := rfl
@[simp] theorem escEffect_seq (v : Nat) (s : State) : (escEffect v s).seq = s.seq := rfl
@[simp] theorem escEffect_host (v : Nat) (s : State) : (escEffect v s).host = s.host := rfl
@[simp] theorem escEffect_hostData (v : Nat) (s : State) : (escEffect v s).hostData = s.hostData := rfl
@[simp] theorem escEffect_outEpoch (v : Nat) (s : State) : (escEffect v s).outEpoch = s.outEpoch := rfl

/-! ### storeSeed -/

@[simp] theorem storeSeed_pixelW (s : State) : (storeSeed s).pixelW = s.pixelW := rfl
@[simp] theorem storeSeed_cfg (s : State) : (storeSeed s).cfg = s.cfg := rfl
@[simp] theorem storeSeed_status (s : State) : (storeSeed s).status = s.status := rfl
@[simp] theorem storeSeed_cursor (s : State) : (storeSeed s).cursor = s.cursor := rfl
@[simp] theorem storeSeed_p (s : State) : (storeSeed s).p = s.p := rfl
@[simp] theorem storeSeed_ch (s : State) : (storeSeed s).ch = .co := rfl
@[simp] theorem storeSeed_ad (s : State) : (storeSeed s).ad = s.ad := rfl
@[simp] theorem storeSeed_sym (s : State) : (storeSeed s).sym = s.sym := rfl
@[simp] theorem storeSeed_dpcm (s : State) : (storeSeed s).dpcm = s.dpcm := rfl
@[simp] theorem storeSeed_colour (s : State) : (storeSeed s).colour = s.colour := rfl
@[simp] theorem storeSeed_valbuf (s : State) : (storeSeed s).valbuf = s.valbuf := rfl
@[simp] theorem storeSeed_stream (s : State) : (storeSeed s).stream = s.stream := rfl
@[simp] theorem storeSeed_out (s : State) : (storeSeed s).out = s.out := rfl
@[simp] theorem storeSeed_seedVal (s : State) : (storeSeed s).seedVal = s.seedVal := rfl
@[simp] theorem storeSeed_fetched (s : State) : (storeSeed s).fetched = s.fetched := rfl
@[simp] theorem storeSeed_seq (s : State) : (storeSeed s).seq = s.seq := rfl
@[simp] theorem storeSeed_host (s : State) : (storeSeed s).host = s.host := rfl
@[simp] theorem storeSeed_hostData (s : State) : (storeSeed s).hostData = s.hostData := rfl
@[simp] theorem storeSeed_outEpoch (s : State) : (storeSeed s).outEpoch = s.outEpoch := rfl

end Sys2Proof.Machine
end

