-- ==== Sys2Proof/Laws/Ops.lean ====
section
/-! SUPPORT. What each shared operation can do, said once: the laws of sequencing and of outcomes, and for each operation
what its answer says about the state after it. -/

namespace Sys2Proof.Machine

/-! ### Sequencing and outcomes -/

@[simp] theorem Run.bind_ok {α β : Type} (a : α) (s : State) (f : α → State → Run β) :
    (Run.ok a s).bind f = f a s := rfl

@[simp] theorem Run.bind_raised {α β : Type} (c : RaiseCode) (s : State) (f : α → State → Run β) :
    (Run.raised c s : Run α).bind f = .raised c s := rfl

@[simp] theorem Run.bind_fault {α β : Type} (e : Fault) (f : α → State → Run β) :
    (Run.fault e : Run α).bind f = .fault e := rfl

@[simp] theorem Run.bind_refused {α β : Type} (e : Refusal) (f : α → State → Run β) :
    (Run.refused e : Run α).bind f = .refused e := rfl

@[simp] theorem Run.outcome_ok {α : Type} (a : α) (s : State) : (Run.ok a s).outcome = .next s := rfl

@[simp] theorem Run.outcome_raised {α : Type} (c : RaiseCode) (s : State) :
    (Run.raised c s : Run α).outcome = .next (s.fail c) := rfl

@[simp] theorem Run.outcome_fault {α : Type} (e : Fault) : (Run.fault e : Run α).outcome = .fault e := rfl

@[simp] theorem Run.outcome_refused {α : Type} (e : Refusal) : (Run.refused e : Run α).outcome = .refused e := rfl

theorem Run.bind_assoc {α β γ : Type} (x : Run α) (f : α → State → Run β) (g : β → State → Run γ) :
    (x.bind f).bind g = x.bind fun a s => (f a s).bind g := by
  cases x <;> rfl

theorem Run.bind_eq_ok {α β : Type} {x : Run α} {f : α → State → Run β} {b : β} {t : State} :
    x.bind f = .ok b t ↔ ∃ a s, x = .ok a s ∧ f a s = .ok b t := by
  cases x <;> simp

theorem Run.bind_eq_raised {α β : Type} {x : Run α} {f : α → State → Run β} {c : RaiseCode} {t : State} :
    x.bind f = .raised c t ↔ x = .raised c t ∨ ∃ a s, x = .ok a s ∧ f a s = .raised c t := by
  cases x <;> simp

/-- An operation's outcome is a next state in two ways: it completed, or it raised and the raise was taken. -/
theorem Run.outcome_eq_next {α : Type} {x : Run α} {t : State} :
    x.outcome = .next t ↔ (∃ a, x = .ok a t) ∨ ∃ c s, x = .raised c s ∧ s.fail c = t := by
  cases x <;> simp

/-! ### The bit cursor -/

/-- Everything a successful `BC.FETCH1` can have done (R121): it delivered a bit of the current byte, or, when the byte
was used up, the first bit of the next one. -/
theorem fetchBit_ok {s t : State} {b : Bool} (h : fetchBit s = .ok b t) :
    (s.cursor.cnt ≠ 8 ∧ b = s.cursor.cur.getLsbD (7 - s.cursor.cnt.toNat) ∧
      t = { s with cursor := ⟨s.cursor.idx, s.cursor.cnt + 1, s.cursor.cur⟩ }) ∨
    (s.cursor.cnt = 8 ∧ s.cursor.idx.toNat + 1 < s.cfg.streamLen.toNat ∧
      ∃ x, Mem.find s.stream (s.cursor.idx.toNat + 1) = some x ∧ b = x.getLsbD 7 ∧
        t = { s with cursor := ⟨s.cursor.idx + 1, 1, x⟩ }) := by
  unfold fetchBit at h
  split at h
  · rename_i h8
    split at h
    · cases h
    · rename_i hlt
      cases hf : Mem.find s.stream (s.cursor.idx.toNat + 1) with
      | none => simp [streamRead, Mem.read, hf, streamDefault] at h
      | some x =>
        simp only [streamRead, Mem.read, hf, Run.bind_ok, deliverBit] at h
        cases h
        exact .inr ⟨h8, by omega, x, rfl, rfl, rfl⟩
  · rename_i h8
    cases h
    exact .inl ⟨h8, rfl, rfl⟩

/-- When `BC.FETCH1` raises (R121): every bit of the last byte has been delivered, and nothing has changed. -/
theorem fetchBit_raised {s t : State} {c : RaiseCode} (h : fetchBit s = .raised c t) :
    c = .allBitsConsumed ∧ t = s ∧ s.cursor.cnt = 8 ∧ s.cfg.streamLen.toNat ≤ s.cursor.idx.toNat + 1 := by
  unfold fetchBit at h
  split at h
  · rename_i h8
    split at h
    · rename_i hle
      cases h
      exact ⟨rfl, rfl, h8, hle⟩
    · cases hf : Mem.find s.stream (s.cursor.idx.toNat + 1) <;>
        simp [streamRead, Mem.read, hf, streamDefault, deliverBit] at h
  · cases h

/-- A fetch changes the cursor only. -/
theorem fetchBit_frame {s t : State} {b : Bool} (h : fetchBit s = .ok b t) : ∃ c, t = { s with cursor := c } := by
  rcases fetchBit_ok h with ⟨_, _, rfl⟩ | ⟨_, _, x, _, _, rfl⟩
  · exact ⟨_, rfl⟩
  · exact ⟨_, rfl⟩

/-- Fetching `n` bits gives `n` bits and changes the cursor only. -/
theorem fetchBits_ok {n : Nat} {s t : State} {bs : List Bool} (h : fetchBits n s = .ok bs t) :
    bs.length = n ∧ ∃ c, t = { s with cursor := c } := by
  induction n generalizing s bs with
  | zero => cases h; exact ⟨rfl, t.cursor, rfl⟩
  | succ n ih =>
    simp only [fetchBits, Run.bind_eq_ok] at h
    obtain ⟨b, u, hb, bs', v, hbs, heq⟩ := h
    cases heq
    obtain ⟨c, rfl⟩ := fetchBit_frame hb
    obtain ⟨hl, c', rfl⟩ := ih hbs
    exact ⟨by simp [hl], c', rfl⟩

/-- Fetching `n` bits raises `AllBitsConsumed` only; the bits fetched before stay consumed (R122). -/
theorem fetchBits_raised {n : Nat} {s t : State} {c : RaiseCode} (h : fetchBits n s = .raised c t) :
    c = .allBitsConsumed ∧ ∃ x, t = { s with cursor := x } := by
  induction n generalizing s with
  | zero => cases h
  | succ n ih =>
    simp only [fetchBits, Run.bind_eq_raised] at h
    rcases h with hb | ⟨b, u, hb, hbs | ⟨bs, v, _, hv⟩⟩
    · obtain ⟨rfl, rfl, _⟩ := fetchBit_raised hb
      exact ⟨rfl, t.cursor, rfl⟩
    · obtain ⟨x, rfl⟩ := fetchBit_frame hb
      obtain ⟨rfl, y, rfl⟩ := ih hbs
      exact ⟨rfl, y, rfl⟩
    · cases hv

/-- A field is read by fetching its bits. -/
theorem fetchField_ok {n v : Nat} {s t : State} :
    fetchField n s = .ok v t ↔ ∃ bs, fetchBits n s = .ok bs t ∧ v = fieldValue bs := by
  simp only [fetchField, Run.bind_eq_ok]
  constructor
  · rintro ⟨bs, u, h, heq⟩
    cases heq
    exact ⟨bs, h, rfl⟩
  · rintro ⟨bs, h, rfl⟩
    exact ⟨bs, t, h, rfl⟩

theorem fetchField_raised {n : Nat} {s t : State} {c : RaiseCode} (h : fetchField n s = .raised c t) :
    c = .allBitsConsumed ∧ ∃ x, t = { s with cursor := x } := by
  simp only [fetchField, Run.bind_eq_raised] at h
  rcases h with h | ⟨_, _, _, h⟩
  · exact fetchBits_raised h
  · cases h

theorem fetchField_frame {n v : Nat} {s t : State} (h : fetchField n s = .ok v t) :
    ∃ c, t = { s with cursor := c } := by
  obtain ⟨bs, hbs, _⟩ := fetchField_ok.mp h
  exact (fetchBits_ok hbs).2

/-- Everything a successful `BC.LOAD` can have done (R120). -/
theorem loadCursor_ok {s t : State} (h : loadCursor s = .ok () t) :
    s.cfg.payloadOffset.toNat < s.cfg.streamLen.toNat ∧
      ∃ x, Mem.find s.stream s.cfg.payloadOffset.toNat = some x ∧
        t = { s with cursor := ⟨s.cfg.payloadOffset, 0, x⟩ } := by
  unfold loadCursor at h
  split at h
  · cases h
  · rename_i hlt
    cases hf : Mem.find s.stream s.cfg.payloadOffset.toNat with
    | none => simp [streamRead, Mem.read, hf, streamDefault] at h
    | some x =>
      simp only [streamRead, Mem.read, hf, Run.bind_ok] at h
      cases h
      exact ⟨by omega, x, rfl, rfl⟩

/-- When `BC.LOAD` raises (R120). -/
theorem loadCursor_raised {s t : State} {c : RaiseCode} (h : loadCursor s = .raised c t) :
    c = .allBitsConsumed ∧ t = s ∧ s.cfg.streamLen.toNat ≤ s.cfg.payloadOffset.toNat := by
  unfold loadCursor at h
  split at h
  · rename_i hle
    cases h
    exact ⟨rfl, rfl, hle⟩
  · cases hf : Mem.find s.stream s.cfg.payloadOffset.toNat <;>
      simp [streamRead, Mem.read, hf, streamDefault] at h

/-! ### The adaptive Rice decoder -/

/-- The unary loop changes the cursor and Q only, and never refuses. -/
theorem unaryLoop_ok {n : Nat} {s t : State} (h : unaryLoop n s = .ok () t) :
    ∃ c q, t = { s with cursor := c, sym := { s.sym with q := q } } := by
  induction n generalizing s with
  | zero => cases h; exact ⟨t.cursor, t.sym.q, rfl⟩
  | succ n ih =>
    simp only [unaryLoop, Run.bind_eq_ok] at h
    obtain ⟨b, u, hb, h⟩ := h
    obtain ⟨c, rfl⟩ := fetchBit_frame hb
    split at h
    · obtain ⟨c', q, rfl⟩ := ih h
      exact ⟨c', q, rfl⟩
    · cases h
      exact ⟨c, s.sym.q, rfl⟩

theorem unaryLoop_raised {n : Nat} {s t : State} {x : RaiseCode} (h : unaryLoop n s = .raised x t) :
    x = .allBitsConsumed ∧ ∃ c q, t = { s with cursor := c, sym := { s.sym with q := q } } := by
  induction n generalizing s with
  | zero => cases h
  | succ n ih =>
    simp only [unaryLoop, Run.bind_eq_raised] at h
    rcases h with hb | ⟨b, u, hb, h⟩
    · obtain ⟨rfl, rfl, _⟩ := fetchBit_raised hb
      exact ⟨rfl, t.cursor, t.sym.q, rfl⟩
    · obtain ⟨c, rfl⟩ := fetchBit_frame hb
      split at h
      · obtain ⟨hx, c', q, rfl⟩ := ih h
        exact ⟨hx, c', q, rfl⟩
      · cases h

/-- `AR.UNARY` changes the cursor and Q only (R143). -/
theorem readUnary_ok {s t : State} (h : readUnary s = .ok () t) :
    s.cfg.unaryCap ≠ 0 ∧ ∃ c q, t = { s with cursor := c, sym := { s.sym with q := q } } := by
  unfold readUnary at h
  split at h
  · cases h
  · rename_i hcap
    obtain ⟨c, q, rfl⟩ := unaryLoop_ok h
    exact ⟨hcap, c, q, rfl⟩

theorem readUnary_raised {s t : State} {x : RaiseCode} (h : readUnary s = .raised x t) :
    x = .allBitsConsumed ∧ ∃ c q, t = { s with cursor := c, sym := { s.sym with q := q } } := by
  unfold readUnary at h
  split at h
  · cases h
  · obtain ⟨hx, c, q, rfl⟩ := unaryLoop_raised h
    exact ⟨hx, c, q, rfl⟩

/-- `AR.ESC` changes the cursor and V only (R144). -/
theorem readEscape_ok {s t : State} (h : readEscape s = .ok () t) :
    ∃ c v, t = { s with cursor := c, sym := { s.sym with v := v } } := by
  simp only [readEscape, Run.bind_eq_ok] at h
  obtain ⟨v, u, hv, h⟩ := h
  obtain ⟨c, rfl⟩ := fetchField_frame hv
  cases h
  exact ⟨c, v, rfl⟩

theorem readEscape_raised {s t : State} {x : RaiseCode} (h : readEscape s = .raised x t) :
    x = .allBitsConsumed ∧ ∃ c, t = { s with cursor := c } := by
  simp only [readEscape, Run.bind_eq_raised] at h
  rcases h with h | ⟨_, _, _, h⟩
  · exact fetchField_raised h
  · cases h

/-- `AR.REM` changes the cursor and V only (R145). -/
theorem readRemainder_ok {s t : State} (h : readRemainder s = .ok () t) :
    ∃ c v, t = { s with cursor := c, sym := { s.sym with v := v } } := by
  simp only [readRemainder, Run.bind_eq_ok] at h
  obtain ⟨v, u, hv, h⟩ := h
  obtain ⟨c, rfl⟩ := fetchField_frame hv
  cases h
  exact ⟨c, _, rfl⟩

theorem readRemainder_raised {s t : State} {x : RaiseCode} (h : readRemainder s = .raised x t) :
    x = .allBitsConsumed ∧ ∃ c, t = { s with cursor := c } := by
  simp only [readRemainder, Run.bind_eq_raised] at h
  rcases h with h | ⟨_, _, _, h⟩
  · exact fetchField_raised h
  · cases h

/-- A completed `AR.SYM(c)` has changed the cursor, the symbol registers and accumulator `c`, which grew by the
magnitude of the residual (R147, R149). -/
theorem decodeOne_ok {c : Channel} {s t : State} (h : decodeOne c s = .ok () t) :
    ∃ cur sym, t = { s with
      cursor := cur
      sym := sym
      ad := ⟨s.ad.n, s.ad.a.set c (s.ad.a.get c + sym.resid.natAbs)⟩ } := by
  simp only [decodeOne, Run.bind_eq_ok] at h
  obtain ⟨_, u, hu, _, v, hv, h⟩ := h
  obtain ⟨_, cu, q, rfl⟩ := readUnary_ok hu
  cases h
  split at hv
  · obtain ⟨cu', v, rfl⟩ := readEscape_ok hv
    exact ⟨cu', _, rfl⟩
  · obtain ⟨cu', v, rfl⟩ := readRemainder_ok hv
    exact ⟨cu', _, rfl⟩

/-- A raise out of `AR.SYM(c)` is `AllBitsConsumed`, and the accumulators are untouched (R149). -/
theorem decodeOne_raised {c : Channel} {s t : State} {x : RaiseCode} (h : decodeOne c s = .raised x t) :
    x = .allBitsConsumed ∧ ∃ cur sym, t = { s with cursor := cur, sym := sym } := by
  simp only [decodeOne, Run.bind_eq_raised] at h
  rcases h with h | ⟨_, u, hu, h | ⟨_, v, hv, h⟩⟩
  · obtain ⟨hx, cu, q, rfl⟩ := readUnary_raised h
    exact ⟨hx, cu, _, rfl⟩
  · obtain ⟨_, cu, q, rfl⟩ := readUnary_ok hu
    split at h
    · obtain ⟨hx, cu', rfl⟩ := readEscape_raised h
      exact ⟨hx, cu', _, rfl⟩
    · obtain ⟨hx, cu', rfl⟩ := readRemainder_raised h
      exact ⟨hx, cu', _, rfl⟩
  · cases h

/-- A completed channel of `AR.SEED` has read some value and taken its effect (R141). -/
theorem seedChannel_ok {c : Channel} {s t : State} (h : seedChannel c s = .ok () t) :
    ∃ cur v, t = seedEffect c v { s with cursor := cur } := by
  simp only [seedChannel, Run.bind_eq_ok] at h
  obtain ⟨b, u, hb, v, w, hv, h⟩ := h
  obtain ⟨c1, rfl⟩ := fetchBit_frame hb
  obtain ⟨c2, rfl⟩ := fetchField_frame hv
  cases h
  exact ⟨c2, v, rfl⟩

theorem seedChannel_raised {c : Channel} {s t : State} {x : RaiseCode} (h : seedChannel c s = .raised x t) :
    x = .allBitsConsumed ∧ ∃ cur, t = { s with cursor := cur } := by
  simp only [seedChannel, Run.bind_eq_raised] at h
  rcases h with h | ⟨b, u, hb, h | ⟨_, _, _, h⟩⟩
  · obtain ⟨rfl, rfl, _⟩ := fetchBit_raised h
    exact ⟨rfl, t.cursor, rfl⟩
  · obtain ⟨c1, rfl⟩ := fetchBit_frame hb
    obtain ⟨hx, c2, rfl⟩ := fetchField_raised h
    exact ⟨hx, c2, rfl⟩
  · cases h

/-- A completed `AR.SEED` has changed the cursor, V, the seed values and the accumulators (R141). -/
theorem seedPixel_ok {s t : State} (h : seedPixel s = .ok () t) :
    ∃ cur v sv a, t = { s with cursor := cur, sym := { s.sym with v := v }, seedVal := sv, ad := ⟨s.ad.n, a⟩ } := by
  simp only [seedPixel, Run.bind_eq_ok] at h
  obtain ⟨_, s1, h1, _, s2, h2, _, s3, h3, h4⟩ := h
  obtain ⟨c1, v1, rfl⟩ := seedChannel_ok h1
  obtain ⟨c2, v2, rfl⟩ := seedChannel_ok h2
  obtain ⟨c3, v3, rfl⟩ := seedChannel_ok h3
  obtain ⟨c4, v4, rfl⟩ := seedChannel_ok h4
  exact ⟨c4, v4, _, _, rfl⟩

theorem seedPixel_raised {s t : State} {x : RaiseCode} (h : seedPixel s = .raised x t) :
    x = .allBitsConsumed ∧
      ∃ cur v sv a, t = { s with cursor := cur, sym := { s.sym with v := v }, seedVal := sv, ad := ⟨s.ad.n, a⟩ } := by
  simp only [seedPixel, Run.bind_eq_raised] at h
  rcases h with h | ⟨_, s1, h1, h | ⟨_, s2, h2, h | ⟨_, s3, h3, h⟩⟩⟩
  · obtain ⟨hx, c, rfl⟩ := seedChannel_raised h
    exact ⟨hx, c, s.sym.v, s.seedVal, s.ad.a, rfl⟩
  · obtain ⟨c1, v1, rfl⟩ := seedChannel_ok h1
    obtain ⟨hx, c, rfl⟩ := seedChannel_raised h
    exact ⟨hx, c, v1, _, _, rfl⟩
  · obtain ⟨c1, v1, rfl⟩ := seedChannel_ok h1
    obtain ⟨c2, v2, rfl⟩ := seedChannel_ok h2
    obtain ⟨hx, c, rfl⟩ := seedChannel_raised h
    exact ⟨hx, c, v2, _, _, rfl⟩
  · obtain ⟨c1, v1, rfl⟩ := seedChannel_ok h1
    obtain ⟨c2, v2, rfl⟩ := seedChannel_ok h2
    obtain ⟨c3, v3, rfl⟩ := seedChannel_ok h3
    obtain ⟨hx, c, rfl⟩ := seedChannel_raised h
    exact ⟨hx, c, v3, _, _, rfl⟩

/-! ### Output memory and the colour transform -/

/-- Everything a successful `OutWrite` can have done (R65). -/
theorem outWrite_ok {j : Nat} {v : BitVec 16} {s t : State} (h : outWrite j v s = .ok () t) :
    j < s.cfg.outLen.toNat ∧ t = { s with out := Mem.write outDefault s.out j v } := by
  unfold outWrite at h
  split at h
  · rename_i hj
    cases h
    exact ⟨hj, rfl⟩
  · cases h

theorem outWrite_not_raised {j : Nat} {v : BitVec 16} {s t : State} {c : RaiseCode} :
    outWrite j v s ≠ .raised c t := by
  unfold outWrite
  split <;> simp

/-- One element of `CT.QUAD` writes the narrowed, shifted eighth of its sum at its index (R195). -/
theorem writeElement_ok {p : Nat} {i : SubPixel} {s t : State} (h : writeElement p i s = .ok () t) :
    quadIndex (halfWidth s.cfg) p i < s.cfg.outLen.toNat ∧
      ∃ col, col.sums = s.colour.sums ∧
        t = { s with
          colour := col
          out := Mem.write outDefault s.out (quadIndex (halfWidth s.cfg) p i)
            (narrow s.pixelW (shiftLossy s.cfg (div8 (s.colour.sums.get i)))) } := by
  obtain ⟨hj, rfl⟩ := outWrite_ok h
  refine ⟨hj, (narrowShifted i (shiftQuotient i (divideSum i s))).colour, rfl, ?_⟩
  simp only [narrowShifted, shiftQuotient, divideSum, Bayer.get_set_same]

theorem writeElement_not_raised {p : Nat} {i : SubPixel} {s t : State} {c : RaiseCode} :
    writeElement p i s ≠ .raised c t :=
  outWrite_not_raised

/-- A completed `CT.QUAD` has changed the colour registers and output memory only. -/
theorem transformQuad_ok {p : Nat} {val : Quad Half} {s t : State} (h : transformQuad p val s = .ok () t) :
    ∃ col out, t = { s with colour := col, out := out } := by
  simp only [transformQuad, Run.bind_eq_ok] at h
  obtain ⟨_, s0, h0, _, s1, h1, _, s2, h2, _, s3, h3, h4⟩ := h
  have e0 : s0 = takeSums val s := by
    unfold strictCheck at h0
    split at h0
    · cases h0
    · cases h0; rfl
  subst e0
  obtain ⟨_, c1, _, rfl⟩ := writeElement_ok h1
  obtain ⟨_, c2, _, rfl⟩ := writeElement_ok h2
  obtain ⟨_, c3, _, rfl⟩ := writeElement_ok h3
  obtain ⟨_, c4, _, rfl⟩ := writeElement_ok h4
  exact ⟨c4, _, rfl⟩

/-- A raise out of `CT.QUAD` is `DivisionError` under the strict check, before any element is written (R192, R195). -/
theorem transformQuad_raised {p : Nat} {val : Quad Half} {s t : State} {x : RaiseCode}
    (h : transformQuad p val s = .raised x t) :
    x = .divisionError ∧ isStrict s.cfg = true ∧ (colourSums val).gr % 8 ≠ 0 ∧ t = takeSums val s := by
  simp only [transformQuad, Run.bind_eq_raised] at h
  rcases h with h | ⟨_, _, _, h | ⟨_, _, _, h | ⟨_, _, _, h | ⟨_, _, _, h⟩⟩⟩⟩
  · unfold strictCheck at h
    split at h
    · rename_i hc
      cases h
      exact ⟨rfl, hc.1, hc.2, rfl⟩
    · cases h
  all_goals exact absurd h writeElement_not_raised

end Sys2Proof.Machine
end

