-- ==== Sys2Proof/Laws/Buffers.lean ====
section
/-! SUPPORT. Every operation on a memory keeps its canonical form, and what the passes of phase B leave in VALBUF. -/

namespace Sys2Proof.Machine

variable {hw r : Nat} {res val : Mem 16}

theorem sumEntry_wf (h : Mem.wf bufDefault val = true) (ref p : Nat) (c : Channel) :
    Mem.wf bufDefault (sumEntry res ref p c val) = true := bufWrite_wf h p c _

theorem sumPixel_wf (h : Mem.wf bufDefault val = true) (ref p : Nat) :
    Mem.wf bufDefault (sumPixel res ref p val) = true :=
  sumEntry_wf (sumEntry_wf (sumEntry_wf (sumEntry_wf h ref p .y) ref p .cd) ref p .cm) ref p .co

theorem copyPixel0_wf (h : Mem.wf bufDefault val = true) : Mem.wf bufDefault (copyPixel0 res val) = true :=
  bufWrite_wf (bufWrite_wf (bufWrite_wf (bufWrite_wf h 0 .y _) 0 .cd _) 0 .cm _) 0 .co _

theorem col0Rows_wf (h : Mem.wf bufDefault val = true) (n : Nat) :
    Mem.wf bufDefault (col0Rows hw res n val) = true := by
  induction n with
  | zero => exact h
  | succ n ih => exact sumPixel_wf ih _ _

theorem rowCols_wf (h : Mem.wf bufDefault val = true) (n : Nat) :
    Mem.wf bufDefault (rowCols hw r res n val) = true := by
  induction n with
  | zero => exact h
  | succ n ih => exact sumPixel_wf ih _ _

/-- One pixel of phase B takes the value at `ref` plus its residual; the other pixels keep theirs. -/
theorem bufRead_sumPixel (h : Mem.wf bufDefault val = true) (ref p q : Nat) (c : Channel) :
    bufRead (sumPixel res ref p val) q c =
      if q = p then wrap16 ((bufRead val ref c).toInt + (bufRead res p c).toInt) else bufRead val q c := by
  have h1 := sumEntry_wf (res := res) h ref p .y
  have h2 := sumEntry_wf (res := res) h1 ref p .cd
  have h3 := sumEntry_wf (res := res) h2 ref p .cm
  unfold sumPixel
  rw [sumEntry, bufRead_bufWrite h3, sumEntry, bufRead_bufWrite h2, bufRead_bufWrite h2, sumEntry, bufRead_bufWrite h1,
    bufRead_bufWrite h1, bufRead_bufWrite h1, sumEntry, bufRead_bufWrite h, bufRead_bufWrite h, bufRead_bufWrite h,
    bufRead_bufWrite h]
  by_cases hq : q = p
  · subst hq
    cases c <;> simp
  · simp [Ne.symm hq, hq]

/-- A byte list written into stream memory keeps its form. -/
theorem loadBytes_wf {m : Mem 8} (h : Mem.wf streamDefault m = true) (i : Nat) (bs : List Byte) :
    Mem.wf streamDefault (loadBytes m i bs) = true := by
  induction bs generalizing m i with
  | nil => exact h
  | cons b bs ih => exact ih (Mem.write_wf h i b) (i + 1)

/-- What keeps OUT, RESBUF, VALBUF and STREAM canonical keeps the state's memories canonical. -/
theorem memWF_of {s t : State} (h : s.memWF = true) (hs : t.stream = s.stream)
    (ho : Mem.wf outDefault s.out = true → Mem.wf outDefault t.out = true)
    (hr : Mem.wf bufDefault s.resbuf = true → Mem.wf bufDefault t.resbuf = true)
    (hv : Mem.wf bufDefault s.valbuf = true → Mem.wf bufDefault t.valbuf = true) : t.memWF = true := by
  rw [State.memWF_iff] at h ⊢
  obtain ⟨h1, h2, h3, h4⟩ := h
  exact ⟨by rw [hs]; exact h1, ho h2, hr h3, hv h4⟩

theorem writeElement_wf {p : Nat} {i : SubPixel} {s t : State} (h : writeElement p i s = .ok () t)
    (hw : Mem.wf outDefault s.out = true) : Mem.wf outDefault t.out = true := by
  obtain ⟨_, col, _, rfl⟩ := writeElement_ok h
  exact Mem.write_wf hw _ _

end Sys2Proof.Machine
end

