-- ==== Sys2Proof/Laws/Encoding.lean ====
section
/-! SUPPORT. Fields, bytes and prefixes of bit strings: lengths and values, and how the decoder's two readers act on what the
encoder writes. -/

namespace Sys2Proof

@[simp] theorem fieldBits_length (n v : Nat) : (fieldBits n v).length = n := by
  induction n generalizing v with
  | zero => rfl
  | succ n ih => simp [fieldBits, ih]

@[simp] theorem byteBits_length (b : Byte) : (byteBits b).length = 8 := rfl

@[simp] theorem streamBits_length (bs : List Byte) : (streamBits bs).length = 8 * bs.length := by
  induction bs with
  | nil => rfl
  | cons b bs ih => simp [streamBits, ih]; omega

/-- A field of `n` bits has a value below `2 ^ n` (R95). -/
theorem fieldValue_lt (bs : List Bool) : fieldValue bs < 2 ^ bs.length := by
  induction bs with
  | nil => simp [fieldValue]
  | cons b bs ih =>
    have hb : b.toNat ≤ 1 := Bool.toNat_le b
    simp only [fieldValue, List.length_cons, pow_succ]
    omega

/-- Reading back a written field (R95). -/
theorem fieldValue_fieldBits (n v : Nat) : fieldValue (fieldBits n v) = v % 2 ^ n := by
  induction n generalizing v with
  | zero => simp [fieldBits, fieldValue, Nat.mod_one]
  | succ n ih =>
    simp only [fieldBits, fieldValue, ih, Nat.testBit_zero]
    rw [pow_succ, mul_comm (2 ^ n) 2, Nat.mod_mul]
    rcases Nat.mod_two_eq_zero_or_one v with h | h <;> simp [h]

/-- Writing back a read field (R95). -/
theorem fieldBits_fieldValue (bs : List Bool) : fieldBits bs.length (fieldValue bs) = bs := by
  induction bs with
  | nil => rfl
  | cons b bs ih =>
    have h1 : (b.toNat + 2 * fieldValue bs) / 2 = fieldValue bs := by
      have := Bool.toNat_le b
      omega
    have h2 : Nat.testBit (b.toNat + 2 * fieldValue bs) 0 = b := by
      rw [Nat.testBit_zero]; cases b <;> simp
    simp only [List.length_cons, fieldBits, fieldValue, h1, h2, ih]

/-- The value of a field as the sum of R95. -/
theorem fieldValue_append (as bs : List Bool) :
    fieldValue (as ++ bs) = fieldValue as + 2 ^ as.length * fieldValue bs := by
  induction as with
  | nil => simp [fieldValue]
  | cons a as ih => simp only [List.cons_append, fieldValue, ih, List.length_cons, pow_succ]; ring

theorem takeField_append (as bs : List Bool) : takeField as.length (as ++ bs) = some (fieldValue as, bs) := by
  simp [takeField]

theorem takeField_eq_some {n v : Nat} {bs rest : List Bool} :
    takeField n bs = some (v, rest) ↔ ∃ fs, fs.length = n ∧ bs = fs ++ rest ∧ v = fieldValue fs := by
  constructor
  · intro h
    unfold takeField at h
    split at h
    · rename_i hn
      simp only [Option.some.injEq, Prod.mk.injEq] at h
      obtain ⟨rfl, rfl⟩ := h
      exact ⟨bs.take n, by simp [hn], by simp, rfl⟩
    · cases h
  · rintro ⟨fs, rfl, rfl, rfl⟩
    exact takeField_append fs rest

theorem takeField_eq_none {n : Nat} {bs : List Bool} : takeField n bs = none ↔ bs.length < n := by
  simp [takeField]

/-- A quotient below the cap is read from its ones and the zero after them (R92, R94). -/
theorem takeUnary_zero {q cap : Nat} (h : q < cap) (bs : List Bool) :
    takeUnary cap (List.replicate q true ++ false :: bs) = some (q, bs) := by
  induction q generalizing cap with
  | zero => cases cap with
    | zero => omega
    | succ c => rfl
  | succ q ih => cases cap with
    | zero => omega
    | succ c => simp [List.replicate_succ, takeUnary, ih (Nat.lt_of_succ_lt_succ h)]

/-- The cap's ones are read with nothing after them (R93, R94). -/
theorem takeUnary_cap (cap : Nat) (bs : List Bool) :
    takeUnary cap (List.replicate cap true ++ bs) = some (cap, bs) := by
  induction cap with
  | zero => rfl
  | succ c ih => simp [List.replicate_succ, takeUnary, ih]

/-- Everything a successful unary read can have done (R94). -/
theorem takeUnary_eq_some {cap q : Nat} {bs rest : List Bool} (h : takeUnary cap bs = some (q, rest)) :
    (q < cap ∧ bs = List.replicate q true ++ false :: rest) ∨ (q = cap ∧ bs = List.replicate cap true ++ rest) := by
  induction cap generalizing q bs with
  | zero =>
    simp only [takeUnary, Option.some.injEq, Prod.mk.injEq] at h
    exact .inr ⟨h.1.symm, by simp [h.2]⟩
  | succ c ih =>
    match bs with
    | [] => simp [takeUnary] at h
    | false :: bs =>
      simp only [takeUnary, Option.some.injEq, Prod.mk.injEq] at h
      obtain ⟨rfl, rfl⟩ := h
      exact .inl ⟨by omega, rfl⟩
    | true :: bs =>
      simp only [takeUnary, Option.map_eq_some_iff] at h
      obtain ⟨⟨q', r'⟩, h', heq⟩ := h
      simp only [Prod.mk.injEq] at heq
      obtain ⟨rfl, rfl⟩ := heq
      rcases ih h' with ⟨hq, rfl⟩ | ⟨rfl, rfl⟩
      · exact .inl ⟨by omega, by simp [List.replicate_succ]⟩
      · exact .inr ⟨rfl, by simp [List.replicate_succ]⟩

/-- A unary read fails only where the bits are ones and fewer than the cap (R94). -/
theorem takeUnary_eq_none {cap : Nat} {bs : List Bool} (h : takeUnary cap bs = none) :
    bs.length < cap ∧ bs = List.replicate bs.length true := by
  induction cap generalizing bs with
  | zero => simp [takeUnary] at h
  | succ c ih =>
    match bs with
    | [] => exact ⟨by simp, rfl⟩
    | false :: bs => simp [takeUnary] at h
    | true :: bs =>
      simp only [takeUnary, Option.map_eq_none_iff] at h
      obtain ⟨hl, he⟩ := ih h
      refine ⟨by simp only [List.length_cons]; omega, ?_⟩
      rw [List.length_cons, List.replicate_succ, ← he]

end Sys2Proof
end

