-- ==== Sys2Proof/Laws/Cursor.lean ====
section
/-! SUPPORT. The bit cursor against the bits of the stream as R123 numbers them: what fetching does where the bits are there,
and where the payload ends. -/

namespace Sys2Proof.Machine

/-- `bitAt` and `bitsFrom` read the configuration and stream memory only. -/
theorem bitAt_congr {s t : State} (hc : t.cfg = s.cfg) (hs : t.stream = s.stream) (pos : Nat) :
    t.bitAt pos = s.bitAt pos := by
  simp only [State.bitAt, hc, hs]

theorem bitsFrom_congr {s t : State} (hc : t.cfg = s.cfg) (hs : t.stream = s.stream) (pos n : Nat) :
    t.bitsFrom pos n = s.bitsFrom pos n := by
  induction n generalizing pos with
  | zero => rfl
  | succ n ih => simp only [State.bitsFrom, bitAt_congr hc hs, ih]

theorem bitsFrom_length {s : State} {pos n : Nat} {bs : List Bool} (h : s.bitsFrom pos n = some bs) :
    bs.length = n := by
  induction n generalizing pos bs with
  | zero => simp only [State.bitsFrom, Option.some.injEq] at h; simp [← h]
  | succ n ih =>
    simp only [State.bitsFrom] at h
    split at h
    · rename_i b bs' _ h'
      simp only [Option.some.injEq] at h
      simp [← h, ih h']
    · cases h

theorem bitsFrom_succ {s : State} {pos n : Nat} {b : Bool} {bs : List Bool} :
    s.bitsFrom pos (n + 1) = some (b :: bs) ↔ s.bitAt pos = some b ∧ s.bitsFrom (pos + 1) n = some bs := by
  simp only [State.bitsFrom]
  cases s.bitAt pos <;> cases s.bitsFrom (pos + 1) n <;> simp

theorem bitsFrom_append {s : State} {pos m n : Nat} {as bs : List Bool} (ha : as.length = m) :
    s.bitsFrom pos (m + n) = some (as ++ bs) ↔
      s.bitsFrom pos m = some as ∧ s.bitsFrom (pos + m) n = some bs := by
  induction as generalizing pos m with
  | nil => subst ha; simp [State.bitsFrom]
  | cons a as ih =>
    subst ha
    rw [List.length_cons, show as.length + 1 + n = (as.length + n) + 1 by omega, List.cons_append, bitsFrom_succ,
      bitsFrom_succ, ih rfl, and_assoc, show pos + 1 + as.length = pos + (as.length + 1) by omega]

/-- A fetch at a position whose bit is there delivers it and moves one position on (R123). -/
theorem fetchBit_of_bitAt {s : State} {b : Bool} (hc : s.cursorOk) (h : s.bitAt s.position = some b) :
    ∃ c, s.movedBy 1 c ∧ fetchBit s = .ok b { s with cursor := c } := by
  obtain ⟨hlo, hlt, hcnt, hcur⟩ := hc
  unfold State.bitAt at h
  split at h
  · rename_i hin
    by_cases h8 : s.cursor.cnt = 8
    · have e8 : s.cursor.cnt.toNat = 8 := by rw [h8]; rfl
      have ei : s.cfg.payloadOffset.toNat + s.position / 8 = s.cursor.idx.toNat + 1 := by
        simp only [State.position]; omega
      have em : s.position % 8 = 0 := by simp only [State.position]; omega
      rw [ei] at hin h
      rw [em] at h
      rw [Option.map_eq_some_iff] at h
      obtain ⟨x, hx, hb⟩ := h
      have hlen := s.cfg.streamLen.isLt
      have et : (s.cursor.idx + 1).toNat = s.cursor.idx.toNat + 1 := by
        rw [BitVec.toNat_add, show (1 : BitVec 32).toNat = 1 from rfl]; omega
      refine ⟨⟨s.cursor.idx + 1, 1, x⟩, ⟨⟨?_, ?_, ?_, ?_⟩, ?_, ?_, ?_⟩, ?_⟩
      · simp only [et]; omega
      · simp only [et]; omega
      · show (1 : BitVec 4).toNat ≤ 8
        decide
      · simp only [et]; exact hx
      · simp only [State.position, et, e8]
        have : (1 : BitVec 4).toNat = 1 := rfl
        omega
      · intro h0; omega
      · intro _
        show 1 ≤ (1 : BitVec 4).toNat
        decide
      · have hn : ¬ s.cfg.streamLen.toNat ≤ s.cursor.idx.toNat + 1 := by omega
        unfold fetchBit
        rw [if_pos h8, if_neg hn]
        simp only [streamRead, Mem.read, hx, Run.bind_ok, deliverBit]
        rw [← hb]
        rfl
    · have hc7 : s.cursor.cnt.toNat < 8 := by
        have : s.cursor.cnt.toNat ≠ 8 := fun e => h8 (BitVec.eq_of_toNat_eq (by rw [e]; rfl))
        omega
      have ei : s.cfg.payloadOffset.toNat + s.position / 8 = s.cursor.idx.toNat := by
        simp only [State.position]; omega
      have em : s.position % 8 = s.cursor.cnt.toNat := by simp only [State.position]; omega
      rw [ei, em, hcur] at h
      simp only [Option.map_some, Option.some.injEq] at h
      have et : (s.cursor.cnt + 1).toNat = s.cursor.cnt.toNat + 1 := by
        rw [BitVec.toNat_add, show (1 : BitVec 4).toNat = 1 from rfl]; omega
      refine ⟨⟨s.cursor.idx, s.cursor.cnt + 1, s.cursor.cur⟩, ⟨⟨hlo, hlt, ?_, hcur⟩, ?_, ?_, ?_⟩, ?_⟩
      · simp only [et]; omega
      · simp only [State.position, et]; omega
      · intro h0; omega
      · intro _; simp only [et]; omega
      · unfold fetchBit
        rw [if_neg h8, ← h]
        rfl
  · cases h

/-- Fetching where the bits are there delivers them in order and moves past them (R122, R123). -/
theorem fetchBits_of_bitsFrom {n : Nat} {s : State} {bs : List Bool} (hc : s.cursorOk)
    (h : s.bitsFrom s.position n = some bs) :
    ∃ c, s.movedBy n c ∧ fetchBits n s = .ok bs { s with cursor := c } := by
  induction n generalizing s bs with
  | zero =>
    simp only [State.bitsFrom, Option.some.injEq] at h
    subst h
    exact ⟨s.cursor, ⟨hc, rfl, fun _ => rfl, fun h => by omega⟩, rfl⟩
  | succ n ih =>
    match bs with
    | [] => exact absurd (bitsFrom_length h) (by simp)
    | b :: bs =>
      obtain ⟨h1, h2⟩ := bitsFrom_succ.mp h
      obtain ⟨c, ⟨hok, hpos, _, hge⟩, hf⟩ := fetchBit_of_bitAt hc h1
      obtain ⟨c', ⟨hok', hpos', heq', hge'⟩, hf'⟩ :=
        ih (s := { s with cursor := c }) (bs := bs) hok (by
          rw [hpos]
          exact (bitsFrom_congr (s := s) (t := { s with cursor := c }) rfl rfl _ _).trans h2)
      refine ⟨c', ⟨hok', ?_, fun h => by omega, fun _ => ?_⟩, ?_⟩
      · have e : ({ s with cursor := c' } : State).position = ({ s with cursor := c } : State).position + n := hpos'
        omega
      · by_cases hn : n = 0
        · rw [heq' hn]; exact hge (by omega)
        · exact hge' (by omega)
      · simp only [fetchBits, hf, Run.bind_ok, hf']

/-- A fetch past the last bit of the payload raises and changes nothing (R121, R123). -/
theorem fetchBit_at_end {s : State} (hc : s.cursorOk) (h : s.payloadBits ≤ s.position) :
    fetchBit s = .raised .allBitsConsumed s := by
  obtain ⟨hlo, hlt, hcnt, _⟩ := hc
  simp only [State.payloadBits, State.position] at h
  have h8 : s.cursor.cnt = 8 := BitVec.eq_of_toNat_eq (by
    rw [show (8 : BitVec 4).toNat = 8 from rfl]; omega)
  have hle : s.cfg.streamLen.toNat ≤ s.cursor.idx.toNat + 1 := by omega
  unfold fetchBit
  rw [if_pos h8, if_pos hle]

/-- A cursor in the payload has delivered no more bits than the payload has. -/
theorem position_le {s : State} (hc : s.cursorOk) : s.position ≤ s.payloadBits := by
  obtain ⟨hlo, hlt, hcnt, _⟩ := hc
  simp only [State.payloadBits, State.position]
  omega

/-- Where every payload byte is known, every position before the end has a bit (R123). -/
theorem bitAt_of_filled {s : State} (hf : s.streamFilled) {pos : Nat} (h : pos < s.payloadBits) :
    ∃ b, s.bitAt pos = some b := by
  simp only [State.payloadBits] at h
  have hin : s.cfg.payloadOffset.toNat + pos / 8 < s.cfg.streamLen.toNat := by omega
  simp only [State.bitAt, if_pos hin]
  cases hx : Mem.find s.stream (s.cfg.payloadOffset.toNat + pos / 8) with
  | none => exact absurd hx (hf _ hin (by omega))
  | some x => exact ⟨_, rfl⟩

theorem bitsFrom_of_filled {s : State} (hf : s.streamFilled) {pos n : Nat} (h : pos + n ≤ s.payloadBits) :
    ∃ bs, s.bitsFrom pos n = some bs := by
  induction n generalizing pos with
  | zero => exact ⟨[], rfl⟩
  | succ n ih =>
    obtain ⟨b, hb⟩ := bitAt_of_filled hf (pos := pos) (by omega)
    obtain ⟨bs, hbs⟩ := ih (pos := pos + 1) (by omega)
    exact ⟨b :: bs, bitsFrom_succ.mpr ⟨hb, hbs⟩⟩

/-- Fetching more bits than the payload has left consumes what is left and raises (R122, R123). -/
theorem fetchBits_past_end {n : Nat} {s : State} (hc : s.cursorOk) (hf : s.streamFilled)
    (h : s.payloadBits < s.position + n) :
    ∃ c, s.movedBy (s.payloadBits - s.position) c ∧
      fetchBits n s = .raised .allBitsConsumed { s with cursor := c } := by
  induction n generalizing s with
  | zero => exact absurd (position_le hc) (by omega)
  | succ n ih =>
    by_cases hend : s.payloadBits ≤ s.position
    · refine ⟨s.cursor, ⟨hc, by rw [Nat.sub_eq_zero_of_le hend]; rfl, fun _ => rfl, fun h => by omega⟩, ?_⟩
      simp only [fetchBits, fetchBit_at_end hc hend, Run.bind_raised]
    · obtain ⟨b, hb⟩ := bitAt_of_filled hf (pos := s.position) (by omega)
      obtain ⟨c, ⟨hok, hpos, _, hge⟩, hfb⟩ := fetchBit_of_bitAt hc hb
      obtain ⟨c', ⟨hok', hpos', heq', hge'⟩, hfb'⟩ :=
        ih (s := { s with cursor := c }) hok hf (by
          have e : ({ s with cursor := c } : State).payloadBits = s.payloadBits := rfl
          omega)
      have e : ({ s with cursor := c } : State).payloadBits = s.payloadBits := rfl
      have e' : ({ s with cursor := c' } : State).position =
        ({ s with cursor := c } : State).position + (s.payloadBits - ({ s with cursor := c } : State).position) := hpos'
      refine ⟨c', ⟨hok', by omega, fun h => by omega, fun _ => ?_⟩, ?_⟩
      · by_cases hn : s.payloadBits - ({ s with cursor := c } : State).position = 0
        · rw [heq' hn]; exact hge (by omega)
        · exact hge' (by omega)
      · simp only [fetchBits, hfb, Run.bind_ok, hfb', Run.bind_raised]

end Sys2Proof.Machine
end

