-- ==== Sys2Proof/Laws/PerInstr.lean ====
section
/-! SUPPORT. Statements about every instruction, one lemma per constructor: the encoder writes as many bits as R99 says. -/

namespace Sys2Proof.Laws.EncodeLength

/-- A well-formed instruction's encoding has the length R99 gives its format; an operation has no bits (R103). -/
def Statement (i : Instr) : Prop :=
  ∀ x : Ctx, i.wellFormed x = true → (encode x i).length = codewordLength x i

theorem seed8 (d : Bool) (v : Nat) : Statement (.seed8 d v) := by
  intro x _
  simp [encode, codewordLength]

theorem seed10 (d : Bool) (v : Nat) : Statement (.seed10 d v) := by
  intro x _
  simp [encode, codewordLength]

theorem seed12 (d : Bool) (v : Nat) : Statement (.seed12 d v) := by
  intro x _
  simp [encode, codewordLength]

theorem rice (q r : Nat) : Statement (.rice q r) := by
  intro x _
  simp [encode, codewordLength]
  omega

theorem esc (v : Nat) : Statement (.esc v) := by
  intro x _
  simp [encode, codewordLength]
  omega

theorem bcLoad : Statement (.bcLoad) := fun _ _ => rfl

theorem bcFetch1 : Statement (.bcFetch1) := fun _ _ => rfl

theorem bcFetchN (n : Nat) : Statement (.bcFetchN n) := fun _ _ => rfl

theorem arInit : Statement (.arInit) := fun _ _ => rfl

theorem arSeed : Statement (.arSeed) := fun _ _ => rfl

theorem arK (c : Channel) : Statement (.arK c) := fun _ _ => rfl

theorem arUnary : Statement (.arUnary) := fun _ _ => rfl

theorem arEsc : Statement (.arEsc) := fun _ _ => rfl

theorem arRem : Statement (.arRem) := fun _ _ => rfl

theorem arMap : Statement (.arMap) := fun _ _ => rfl

theorem arUpdA (c : Channel) : Statement (.arUpdA c) := fun _ _ => rfl

theorem arUpdN : Statement (.arUpdN) := fun _ _ => rfl

theorem arSym (c : Channel) : Statement (.arSym c) := fun _ _ => rfl

theorem dpSeed : Statement (.dpSeed) := fun _ _ => rfl

theorem dpSeq (c : Channel) : Statement (.dpSeq c) := fun _ _ => rfl

theorem dpStore (p : BitVec 32) (c : Channel) (x : Int) : Statement (.dpStore p c x) := fun _ _ => rfl

theorem dpCol0 : Statement (.dpCol0) := fun _ _ => rfl

theorem dpRow (r : Nat) : Statement (.dpRow r) := fun _ _ => rfl

theorem ctSum (v : Quad Half) : Statement (.ctSum v) := fun _ _ => rfl

theorem ctDiv8 (i : SubPixel) : Statement (.ctDiv8 i) := fun _ _ => rfl

theorem ctStrict : Statement (.ctStrict) := fun _ _ => rfl

theorem ctShl (i : SubPixel) : Statement (.ctShl i) := fun _ _ => rfl

theorem ctNarrow (i : SubPixel) : Statement (.ctNarrow i) := fun _ _ => rfl

theorem ctQuad (p : BitVec 32) (v : Quad Half) : Statement (.ctQuad p v) := fun _ _ => rfl

theorem hostCfgWrite (a : CfgAccess) : Statement (.hostCfgWrite a) := fun _ _ => rfl

theorem hostStart : Statement (.hostStart) := fun _ _ => rfl

theorem hostStatusRead : Statement (.hostStatusRead) := fun _ _ => rfl

theorem seqCheck : Statement (.seqCheck) := fun _ _ => rfl

theorem seqRunSeq : Statement (.seqRunSeq) := fun _ _ => rfl

theorem seqRunStaged : Statement (.seqRunStaged) := fun _ _ => rfl

theorem seqDone : Statement (.seqDone) := fun _ _ => rfl

theorem seqFail (c : RaiseCode) : Statement (.seqFail c) := fun _ _ => rfl

end Sys2Proof.Laws.EncodeLength
end

