-- ==== Sys2Proof/Laws/Sequencer.lean ====
section
/-! SUPPORT. What the sequencer's composed operations and its moves can do, said once: which registers each can change,
which codes each can raise, how a list of operations runs, and the cases of a step. -/

namespace Sys2Proof.Machine

/-! ### `CfgWF` and `SEQ.CHECK` -/

theorem requireCfgWF_eq_ok {a : Unit} {s t : State} : requireCfgWF s = .ok a t ↔ s.cfgWF = true ∧ s = t := by
  unfold requireCfgWF
  split <;> simp_all

theorem requireCfgWF_ne_raised {s t : State} {c : RaiseCode} : requireCfgWF s ≠ .raised c t := by
  unfold requireCfgWF
  split <;> simp

theorem registersWF_of_cfgWF {s : State} (h : s.cfgWF = true) : registersWF s.cfg = true := by
  simp only [State.cfgWF, Bool.and_eq_true] at h
  exact h.1

/-- `SEQ.CHECK` passes exactly a configuration in `CfgWF` that fails no test, and changes nothing. -/
theorem checkConfig_eq_ok {a : Unit} {s t : State} :
    checkConfig s = .ok a t ↔ checkFailure s.cfg = none ∧ s.cfgWF = true ∧ s = t := by
  unfold checkConfig requireCfgWF
  split <;> (try split) <;> simp_all

/-- What `SEQ.CHECK` raises is the first test that fails; after the header's tests only in `CfgWF`, whose clause on
PIXEL_W does not keep back the code of the depth. -/
theorem checkConfig_eq_raised {s t : State} {c : RaiseCode} :
    checkConfig s = .raised c t ↔
      checkFailure s.cfg = some c ∧
        (c = .invalidHeader ∨ c = .unsupportedBitDepth ∧ registersWF s.cfg = true ∨ s.cfgWF = true) ∧ s = t := by
  unfold checkConfig requireCfgWF
  split <;> (try split) <;> grind [Run.bind, registersWF_of_cfgWF]

/-- `SEQ.CHECK` refuses exactly where no test of the header fails and the configuration is outside `CfgWF`, but for a
depth that Staged does not support. -/
theorem checkConfig_eq_refused {s : State} {e : Refusal} :
    checkConfig s = .refused e ↔
      checkFailure s.cfg ≠ some .invalidHeader ∧ s.cfgWF = false ∧
        (checkFailure s.cfg = some .unsupportedBitDepth → registersWF s.cfg = false) ∧ e = .outsideCfgWF := by
  unfold checkConfig requireCfgWF
  split <;> (try split) <;> grind [Run.bind, registersWF_of_cfgWF]

/-! ### Lists of operations -/

/-- An item that raises ends the list. -/
theorem inOrder_cons_raised {f : Item} {fs : List Item} {s t : State} {c : RaiseCode} (hf : f s = .next (t.fail c))
    (ht : t.outEpoch = s.outEpoch) : inOrder (f :: fs) s = .next (t.fail c) := by
  simp [inOrder, hf, ht]

/-- An item that completes, which leaves `outEpoch`, hands on to the next. -/
theorem inOrder_cons_next {f : Item} {fs : List Item} {s t : State} (hf : f s = .next t) (ht : t.outEpoch = s.outEpoch) :
    inOrder (f :: fs) s = inOrder fs t := by
  simp [inOrder, hf, ht]

/-- Two lists one after the other: the second goes on where the first completed. -/
theorem inOrder_append (fs gs : List Item) (s : State) :
    inOrder (fs ++ gs) s =
      match inOrder fs s with
      | .next t => if t.outEpoch = s.outEpoch then inOrder gs t else .next t
      | .fault e => .fault e
      | .refused e => .refused e := by
  induction fs generalizing s with
  | nil => simp [inOrder]
  | cons f fs ih =>
    rw [List.cons_append, inOrder, inOrder]
    rcases f s with t | e | e
    · by_cases h : t.outEpoch = s.outEpoch
      · simp only [h, if_true, ih]
      · simp only [h, if_false]
    · rfl
    · rfl

/-! ### The two strategies' loops -/

theorem stagedRows_frame (n : Nat) (s : State) : ∃ m, stagedRows n s = { s with valbuf := m } := by
  induction n with
  | zero => exact ⟨s.valbuf, rfl⟩
  | succ n ih =>
    obtain ⟨m, hm⟩ := ih
    exact ⟨_, by rw [stagedRows, hm]; rfl⟩

/-- A completed start of a run: the configuration is in `CfgWF`, and the cursor, the position, V, the seed values and the
adaptive state have been written (R42, R214, R215). -/
theorem openRun_ok {s t : State} (h : openRun s = .ok () t) :
    s.cfgWF = true ∧ ∃ cur v sv a, t = { s with
      cursor := cur, p := 0, ch := .y, sym := { s.sym with v := v }, seedVal := sv, ad := ⟨s.cfg.nStart, a⟩ } := by
  simp only [openRun, Run.bind_eq_ok] at h
  obtain ⟨_, u, hu, _, v, hv, h⟩ := h
  obtain ⟨hwf, rfl⟩ := requireCfgWF_eq_ok.mp hu
  obtain ⟨_, x, _, rfl⟩ := loadCursor_ok hv
  obtain ⟨cur, w, sv, a, rfl⟩ := seedPixel_ok h
  exact ⟨hwf, cur, w, sv, a, rfl⟩

theorem openRun_raised {s t : State} {x : RaiseCode} (h : openRun s = .raised x t) :
    x = .allBitsConsumed ∧ s.cfgWF = true ∧ ∃ cur p ch v sv ad, t = { s with
      cursor := cur, p := p, ch := ch, sym := { s.sym with v := v }, seedVal := sv, ad := ad } := by
  simp only [openRun, Run.bind_eq_raised] at h
  rcases h with h | ⟨_, u, hu, h⟩
  · exact absurd h requireCfgWF_ne_raised
  · obtain ⟨hwf, rfl⟩ := requireCfgWF_eq_ok.mp hu
    rcases h with h | ⟨_, v, hv, h⟩
    · obtain ⟨rfl, rfl, _⟩ := loadCursor_raised h
      exact ⟨rfl, hwf, t.cursor, t.p, t.ch, t.sym.v, t.seedVal, t.ad, rfl⟩
    · obtain ⟨_, y, _, rfl⟩ := loadCursor_ok hv
      obtain ⟨hx, cur, w, sv, a, rfl⟩ := seedPixel_raised h
      exact ⟨hx, hwf, cur, _, _, w, sv, _, rfl⟩

theorem seqChannel_ok {c : Channel} {s t : State} (h : seqChannel c s = .ok () t) :
    ∃ cur sym ad d, t = { s with cursor := cur, ch := c, sym := sym, ad := ad, dpcm := d } := by
  simp only [seqChannel, Run.bind_eq_ok] at h
  obtain ⟨_, u, hu, h⟩ := h
  obtain ⟨cur, sym, rfl⟩ := decodeOne_ok hu
  cases h
  exact ⟨cur, sym, _, _, rfl⟩

theorem seqChannel_raised {c : Channel} {s t : State} {x : RaiseCode} (h : seqChannel c s = .raised x t) :
    x = .allBitsConsumed ∧ ∃ cur sym, t = { s with cursor := cur, ch := c, sym := sym } := by
  simp only [seqChannel, Run.bind_eq_raised] at h
  rcases h with h | ⟨_, _, _, h⟩
  · obtain ⟨hx, cur, sym, rfl⟩ := decodeOne_raised h
    exact ⟨hx, cur, sym, rfl⟩
  · cases h

/-- A completed pixel of the Sequential strategy (R214). -/
theorem seqPixel_ok {s t : State} (h : seqPixel s = .ok () t) :
    ∃ cur ch sym ad d col out, t = { s with
      cursor := cur, ch := ch, sym := sym, ad := ad, dpcm := d, colour := col, out := out } := by
  simp only [seqPixel, Run.bind_eq_ok] at h
  obtain ⟨_, s1, h1, _, s2, h2, _, s3, h3, _, s4, h4, h5⟩ := h
  obtain ⟨_, _, _, _, rfl⟩ := seqChannel_ok h1
  obtain ⟨_, _, _, _, rfl⟩ := seqChannel_ok h2
  obtain ⟨_, _, _, _, rfl⟩ := seqChannel_ok h3
  obtain ⟨_, _, _, _, rfl⟩ := seqChannel_ok h4
  obtain ⟨_, _, rfl⟩ := transformQuad_ok h5
  exact ⟨_, _, _, _, _, _, _, rfl⟩

theorem seqPixel_raised {s t : State} {x : RaiseCode} (h : seqPixel s = .raised x t) :
    (x = .allBitsConsumed ∨ x = .divisionError ∧ isStrict s.cfg = true) ∧
      ∃ cur ch sym ad d col, t = { s with
        cursor := cur, ch := ch, sym := sym, ad := ad, dpcm := d, colour := col } := by
  simp only [seqPixel, Run.bind_eq_raised] at h
  rcases h with h | ⟨_, s1, h1, h | ⟨_, s2, h2, h | ⟨_, s3, h3, h | ⟨_, s4, h4, h⟩⟩⟩⟩
  · obtain ⟨hx, cur, sym, rfl⟩ := seqChannel_raised h
    exact ⟨.inl hx, cur, _, sym, s.ad, s.dpcm, s.colour, rfl⟩
  · obtain ⟨_, _, ad, d, rfl⟩ := seqChannel_ok h1
    obtain ⟨hx, cur, sym, rfl⟩ := seqChannel_raised h
    exact ⟨.inl hx, cur, _, sym, ad, d, s.colour, rfl⟩
  · obtain ⟨_, _, _, _, rfl⟩ := seqChannel_ok h1
    obtain ⟨_, _, ad, d, rfl⟩ := seqChannel_ok h2
    obtain ⟨hx, cur, sym, rfl⟩ := seqChannel_raised h
    exact ⟨.inl hx, cur, _, sym, ad, d, s.colour, rfl⟩
  · obtain ⟨_, _, _, _, rfl⟩ := seqChannel_ok h1
    obtain ⟨_, _, _, _, rfl⟩ := seqChannel_ok h2
    obtain ⟨_, _, ad, d, rfl⟩ := seqChannel_ok h3
    obtain ⟨hx, cur, sym, rfl⟩ := seqChannel_raised h
    exact ⟨.inl hx, cur, _, sym, ad, d, s.colour, rfl⟩
  · obtain ⟨_, _, _, _, rfl⟩ := seqChannel_ok h1
    obtain ⟨_, _, _, _, rfl⟩ := seqChannel_ok h2
    obtain ⟨_, _, _, _, rfl⟩ := seqChannel_ok h3
    obtain ⟨_, _, _, _, rfl⟩ := seqChannel_ok h4
    obtain ⟨rfl, hs, _, rfl⟩ := transformQuad_raised h
    exact ⟨.inr ⟨rfl, hs⟩, _, _, _, _, _, _, rfl⟩

/-- The completed loop over the later pixels of the Sequential strategy (R214). -/
theorem seqPixels_ok {n : Nat} {s t : State} (h : seqPixels n s = .ok () t) :
    ∃ cur p ch sym ad d col out, t = { s with
      cursor := cur, p := p, ch := ch, sym := sym, ad := ad, dpcm := d, colour := col, out := out } := by
  induction n generalizing s with
  | zero => cases h; exact ⟨t.cursor, t.p, t.ch, t.sym, t.ad, t.dpcm, t.colour, t.out, rfl⟩
  | succ n ih =>
    simp only [seqPixels, Run.bind_eq_ok] at h
    obtain ⟨_, u, hu, h⟩ := h
    obtain ⟨_, _, _, _, _, _, _, rfl⟩ := seqPixel_ok hu
    obtain ⟨_, _, _, _, _, _, _, _, rfl⟩ := ih h
    exact ⟨_, _, _, _, _, _, _, _, rfl⟩

theorem seqPixels_raised {n : Nat} {s t : State} {x : RaiseCode} (h : seqPixels n s = .raised x t) :
    (x = .allBitsConsumed ∨ x = .divisionError ∧ isStrict s.cfg = true) ∧
      ∃ cur p ch sym ad d col out, t = { s with
        cursor := cur, p := p, ch := ch, sym := sym, ad := ad, dpcm := d, colour := col, out := out } := by
  induction n generalizing s with
  | zero => cases h
  | succ n ih =>
    simp only [seqPixels, Run.bind_eq_raised] at h
    rcases h with h | ⟨_, u, hu, h⟩
    · obtain ⟨hx, _, _, _, _, _, _, rfl⟩ := seqPixel_raised h
      exact ⟨hx, _, _, _, _, _, _, _, s.out, rfl⟩
    · obtain ⟨_, _, _, _, _, _, _, rfl⟩ := seqPixel_ok hu
      obtain ⟨hx, _, _, _, _, _, _, _, _, rfl⟩ := ih h
      exact ⟨hx, _, _, _, _, _, _, _, _, rfl⟩

theorem stagedChannel_ok {c : Channel} {s t : State} (h : stagedChannel c s = .ok () t) :
    ∃ cur sym ad m, t = { s with cursor := cur, ch := c, sym := sym, ad := ad, resbuf := m } := by
  simp only [stagedChannel, Run.bind_eq_ok] at h
  obtain ⟨_, u, hu, h⟩ := h
  obtain ⟨cur, sym, rfl⟩ := decodeOne_ok hu
  cases h
  exact ⟨cur, sym, _, _, rfl⟩

theorem stagedChannel_raised {c : Channel} {s t : State} {x : RaiseCode} (h : stagedChannel c s = .raised x t) :
    x = .allBitsConsumed ∧ ∃ cur sym, t = { s with cursor := cur, ch := c, sym := sym } := by
  simp only [stagedChannel, Run.bind_eq_raised] at h
  rcases h with h | ⟨_, _, _, h⟩
  · obtain ⟨hx, cur, sym, rfl⟩ := decodeOne_raised h
    exact ⟨hx, cur, sym, rfl⟩
  · cases h

/-- A completed pixel of phase A (R215). -/
theorem stagedPixel_ok {s t : State} (h : stagedPixel s = .ok () t) :
    ∃ cur ch sym ad m, t = { s with cursor := cur, ch := ch, sym := sym, ad := ad, resbuf := m } := by
  simp only [stagedPixel, Run.bind_eq_ok] at h
  obtain ⟨_, s1, h1, _, s2, h2, _, s3, h3, _, s4, h4, h5⟩ := h
  obtain ⟨_, _, _, _, rfl⟩ := stagedChannel_ok h1
  obtain ⟨_, _, _, _, rfl⟩ := stagedChannel_ok h2
  obtain ⟨_, _, _, _, rfl⟩ := stagedChannel_ok h3
  obtain ⟨_, _, _, _, rfl⟩ := stagedChannel_ok h4
  cases h5
  exact ⟨_, _, _, _, _, rfl⟩

theorem stagedPixel_raised {s t : State} {x : RaiseCode} (h : stagedPixel s = .raised x t) :
    x = .allBitsConsumed ∧
      ∃ cur ch sym ad m, t = { s with cursor := cur, ch := ch, sym := sym, ad := ad, resbuf := m } := by
  simp only [stagedPixel, Run.bind_eq_raised] at h
  rcases h with h | ⟨_, s1, h1, h | ⟨_, s2, h2, h | ⟨_, s3, h3, h | ⟨_, s4, h4, h⟩⟩⟩⟩
  · obtain ⟨hx, cur, sym, rfl⟩ := stagedChannel_raised h
    exact ⟨hx, cur, _, sym, s.ad, s.resbuf, rfl⟩
  · obtain ⟨_, _, ad, m, rfl⟩ := stagedChannel_ok h1
    obtain ⟨hx, cur, sym, rfl⟩ := stagedChannel_raised h
    exact ⟨hx, cur, _, sym, ad, m, rfl⟩
  · obtain ⟨_, _, _, _, rfl⟩ := stagedChannel_ok h1
    obtain ⟨_, _, ad, m, rfl⟩ := stagedChannel_ok h2
    obtain ⟨hx, cur, sym, rfl⟩ := stagedChannel_raised h
    exact ⟨hx, cur, _, sym, ad, m, rfl⟩
  · obtain ⟨_, _, _, _, rfl⟩ := stagedChannel_ok h1
    obtain ⟨_, _, _, _, rfl⟩ := stagedChannel_ok h2
    obtain ⟨_, _, ad, m, rfl⟩ := stagedChannel_ok h3
    obtain ⟨hx, cur, sym, rfl⟩ := stagedChannel_raised h
    exact ⟨hx, cur, _, sym, ad, m, rfl⟩
  · cases h

/-- The completed loop of phase A (R215). -/
theorem stagedPixels_ok {n : Nat} {s t : State} (h : stagedPixels n s = .ok () t) :
    ∃ cur p ch sym ad m, t = { s with cursor := cur, p := p, ch := ch, sym := sym, ad := ad, resbuf := m } := by
  induction n generalizing s with
  | zero => cases h; exact ⟨t.cursor, t.p, t.ch, t.sym, t.ad, t.resbuf, rfl⟩
  | succ n ih =>
    simp only [stagedPixels, Run.bind_eq_ok] at h
    obtain ⟨_, u, hu, h⟩ := h
    obtain ⟨_, _, _, _, _, rfl⟩ := stagedPixel_ok hu
    obtain ⟨_, _, _, _, _, _, rfl⟩ := ih h
    exact ⟨_, _, _, _, _, _, rfl⟩

theorem stagedPixels_raised {n : Nat} {s t : State} {x : RaiseCode} (h : stagedPixels n s = .raised x t) :
    x = .allBitsConsumed ∧
      ∃ cur p ch sym ad m, t = { s with cursor := cur, p := p, ch := ch, sym := sym, ad := ad, resbuf := m } := by
  induction n generalizing s with
  | zero => cases h
  | succ n ih =>
    simp only [stagedPixels, Run.bind_eq_raised] at h
    rcases h with h | ⟨_, u, hu, h⟩
    · obtain ⟨hx, _, _, _, _, _, rfl⟩ := stagedPixel_raised h
      exact ⟨hx, _, _, _, _, _, _, rfl⟩
    · obtain ⟨_, _, _, _, _, rfl⟩ := stagedPixel_ok hu
      obtain ⟨hx, _, _, _, _, _, _, rfl⟩ := ih h
      exact ⟨hx, _, _, _, _, _, _, rfl⟩

/-- The completed phase C (R215). -/
theorem stagedQuads_ok {p n : Nat} {s t : State} (h : stagedQuads p n s = .ok () t) :
    ∃ col out, t = { s with colour := col, out := out } := by
  induction n generalizing p s with
  | zero => cases h; exact ⟨t.colour, t.out, rfl⟩
  | succ n ih =>
    simp only [stagedQuads, Run.bind_eq_ok] at h
    obtain ⟨_, u, hu, h⟩ := h
    obtain ⟨_, _, rfl⟩ := transformQuad_ok hu
    obtain ⟨_, _, rfl⟩ := ih h
    exact ⟨_, _, rfl⟩

theorem stagedQuads_raised {p n : Nat} {s t : State} {x : RaiseCode} (h : stagedQuads p n s = .raised x t) :
    x = .divisionError ∧ isStrict s.cfg = true ∧ ∃ col out, t = { s with colour := col, out := out } := by
  induction n generalizing p s with
  | zero => cases h
  | succ n ih =>
    simp only [stagedQuads, Run.bind_eq_raised] at h
    rcases h with h | ⟨_, u, hu, h⟩
    · obtain ⟨rfl, hs, _, rfl⟩ := transformQuad_raised h
      exact ⟨rfl, hs, _, s.out, rfl⟩
    · obtain ⟨_, _, rfl⟩ := transformQuad_ok hu
      obtain ⟨hx, hs, _, _, rfl⟩ := ih h
      exact ⟨hx, hs, _, _, rfl⟩

/-! ### The moves and the step -/

/-- The sequencer's advance changes the position and its own place only. -/
theorem advance_frame (s : State) : ∃ p ch q, advance s = { s with p := p, ch := ch, seq := q } := by
  have key (s : State) (p : BitVec 32) (ch : Channel) (q : SeqPoint) :
      ∃ p' ch' q', { s with p := p, ch := ch, seq := q } = { s with p := p', ch := ch', seq := q' } := ⟨p, ch, q, rfl⟩
  have pixel (a : SeqPoint) (s : State) : ∃ p ch q, nextPixel a s = { s with p := p, ch := ch, seq := q } := by
    unfold nextPixel; split <;> exact key _ _ _ _
  have channel (here : SeqPoint) (f : State → State)
      (hf : ∀ s : State, ∃ p ch q, f s = { s with p := p, ch := ch, seq := q }) (s : State) :
      ∃ p ch q, nextChannel here f s = { s with p := p, ch := ch, seq := q } := by
    unfold nextChannel; split
    · exact key _ _ _ _
    · exact hf s
  cases hs : s.seq <;> simp only [advance, hs]
  case idle => exact ⟨s.p, s.ch, s.seq, rfl⟩
  case codeword =>
    split
    · exact channel _ _ (fun s => key _ _ _ _) s
    · exact key _ _ _ _
  case dpSeq => exact channel _ _ (fun s => key _ _ _ _) s
  case store =>
    split
    · exact channel _ _ (pixel _) s
    · exact channel _ _ (fun s => key _ _ _ _) s
  case updN =>
    split
    · exact pixel _ s
    · exact key _ _ _ _
  case quad => exact pixel _ s
  all_goals exact key _ _ _ _

theorem advance_idle {s : State} (h : s.seq = .idle) : advance s = s := by simp [advance, h]

theorem advanced_eq_next {o : Host.Outcome State Fault Refusal} {t : State} :
    advanced o = .next t ↔ ∃ u, o = .next u ∧ advance u = t := by
  cases o <;> simp [advanced]

/-- The step in the decoder's turn is one move of the decoder. -/
theorem step_of_turn {s u : State} (h : s.decoderTurn = some u) : step s = decoderMove u := by
  unfold State.decoderTurn at h
  unfold step
  split at h <;> simp_all

/-- The step in the host's turn serves the first request. -/
theorem step_of_host {s : State} {e : HostEvent} {rest : List HostRequest} (h : s.host = ⟨0, e⟩ :: rest) :
    step s = hostMove e { s with host := rest } := by
  simp [step, h]

/-- It is the decoder's turn or the host's. -/
theorem turn_cases (s : State) :
    (∃ l, s.decoderTurn = some { s with host := l }) ∨ ∃ e rest, s.host = ⟨0, e⟩ :: rest := by
  rcases hh : s.host with _ | ⟨⟨_ | n, e⟩, rest⟩
  · exact .inl ⟨[], by simp only [State.decoderTurn, hh]; rw [← hh]⟩
  · exact .inr ⟨e, rest, rfl⟩
  · exact .inl ⟨⟨n, e⟩ :: rest, by simp only [State.decoderTurn, hh]⟩

/-- Everything a completed move of the decoder can have been. -/
theorem decoderMove_next {s t : State} (h : decoderMove s = .next t) :
    (∃ i u, selectedOp s = some i ∧ exec i s = .next u ∧ t = advance u) ∨
    (s.seq = .codeword ∧ ∃ u, codewordMove s = .next u ∧ t = advance u) ∨
    (s.seq = .select ∧ s.cfgWF = true ∧ t = { s with seq := .load }) ∨
    (s.seq = .idle ∧ t = s) := by
  unfold decoderMove at h
  split at h
  · rename_i i hi
    obtain ⟨u, hu, rfl⟩ := advanced_eq_next.mp h
    exact .inl ⟨i, u, hi, hu, rfl⟩
  · rename_i hn
    split at h
    · rename_i hs
      obtain ⟨u, hu, rfl⟩ := advanced_eq_next.mp h
      exact .inr (.inl ⟨hs, u, hu, rfl⟩)
    · rename_i hs
      obtain ⟨u, hu, rfl⟩ := advanced_eq_next.mp h
      rcases Run.outcome_eq_next.mp hu with ⟨_, hu⟩ | ⟨c, v, hu, _⟩
      · obtain ⟨hwf, rfl⟩ := requireCfgWF_eq_ok.mp hu
        exact .inr (.inr (.inl ⟨hs, hwf, by simp [advance, hs]⟩))
      · exact absurd hu requireCfgWF_ne_raised
    · rename_i h1 h2
      cases h
      refine .inr (.inr (.inr ⟨?_, rfl⟩))
      cases hs : s.seq <;> simp_all [selectedOp]

/-- Everything a completed codeword move can have been: the codeword was fetched and executed, or its bits end and the
operation that reads it bit by bit was performed instead. -/
theorem codewordMove_next {s t : State} (h : codewordMove s = .next t) :
    (∃ i n bs c, codewordAhead s = some (i, n) ∧ fetchBits n s = .ok bs { s with cursor := c } ∧
      exec i { s with cursor := c } = .next t) ∨
    (∃ c, t = ({ s with cursor := c } : State).fail .allBitsConsumed) ∨
    (codewordAhead s = none ∧ s.p = 0 ∧ (seedChannel s.ch s).outcome = .next t) ∨
    (codewordAhead s = none ∧ s.p ≠ 0 ∧ exec (.arSym s.ch) s = .next t) := by
  unfold codewordMove at h
  split at h
  · rename_i i n hi
    split at h
    · rename_i bs u hf
      obtain ⟨_, c, rfl⟩ := fetchBits_ok hf
      exact .inl ⟨i, n, bs, c, hi, hf, h⟩
    · rename_i x u hf
      obtain ⟨rfl, c, rfl⟩ := fetchBits_raised hf
      cases h
      exact .inr (.inl ⟨c, rfl⟩)
    · cases h
    · cases h
  · rename_i hn
    split at h
    · rename_i hp
      exact .inr (.inr (.inl ⟨hn, hp, h⟩))
    · rename_i hp
      exact .inr (.inr (.inr ⟨hn, hp, h⟩))

/-- The codeword at the cursor is one of the five formats. -/
theorem decode_isCodeword {x : Ctx} {bs rest : List Bool} {i : Instr} (h : decode x bs = .ok (i, rest)) :
    i.isCodeword = true := by
  unfold decode at h
  split at h; · cases h
  split at h; · cases h
  split at h; · cases h
  split at h
  · unfold decodeSeed at h
    split at h; · cases h
    split at h; · cases h
    split at h
    · cases h; rfl
    · split at h <;> · cases h; rfl
  · unfold decodeSymbol at h
    split at h; · cases h
    split at h
    · split at h
      · cases h
      · cases h; rfl
    · split at h
      · cases h
      · cases h; rfl

theorem codewordAhead_isCodeword {s : State} {i : Instr} {n : Nat} (h : codewordAhead s = some (i, n)) :
    i.isCodeword = true := by
  unfold codewordAhead at h
  split at h
  · rename_i j rest hd
    cases h
    exact decode_isCodeword hd
  · cases h

end Sys2Proof.Machine
end

