-- ==== Sys2Proof/Tests/Slice0.lean ====
section
/-! SUPPORT. Tests. The expected results are the rows of spec/95_test_vectors.md (named V-...), the worked examples of the
rules, or hand calculation from a rule. The witnesses at the end show that the hypotheses of each statement can be met. -/

namespace Sys2Proof.Tests

open Sys2Proof Sys2Proof.Machine

/-! ### Helpers -/

/-- A bit string written as digits. -/
def bits (l : List Nat) : List Bool := l.map fun d => d == 1

/-- The next state of an outcome satisfies a test. -/
def after (o : Host.Outcome State Fault Refusal) (f : State → Bool) : Bool :=
  match o with
  | .next s => f s
  | .fault _ => false
  | .refused _ => false

theorem next_of_after {o : Host.Outcome State Fault Refusal} {f : State → Bool} (h : after o f = true) :
    ∃ t, o = .next t ∧ f t = true := by
  cases o with
  | next s => exact ⟨s, rfl, h⟩
  | fault e => cases h
  | refused e => cases h

/-- The outcome is a stop of the model with the given reason. -/
def faults (o : Host.Outcome State Fault Refusal) (e : Fault) : Bool :=
  match o with
  | .fault x => x == e
  | .next _ => false
  | .refused _ => false

def refuses (o : Host.Outcome State Fault Refusal) (e : Refusal) : Bool :=
  match o with
  | .refused x => x == e
  | .next _ => false
  | .fault _ => false

/-- A 16 by 16 image, bpp 8, cap 6, in a run at pixel 1, with the given stream bytes and the cursor at the first. -/
def onBytes (l : List Nat) : State :=
  { State.reset with
    cfg :=
      { State.reset.cfg with
        width := 16, height := 16, unaryCap := 6, bpp := 8, outLen := 256, streamLen := BitVec.ofNat 32 l.length }
    stream := l.zipIdx.map fun x => (x.2, BitVec.ofNat 8 x.1)
    cursor := ⟨0, 0, BitVec.ofNat 8 (l.headD 0)⟩
    status := ⟨.success, true, false⟩
    p := 1
    seq := .codeword }

/-- The same on a bit string packed into bytes (R102). -/
def onBits (l : List Nat) : State :=
  onBytes ((packBytes ((l.length + 7) / 8) (bits l)).map fun b => b.toNat)

/-- The adaptive state N, A[c] = a for every channel. -/
def adapted (s : State) (n : BitVec 8) (a : Nat) : State := { s with ad := ⟨n, Quad.fill a⟩ }

def quad (a b c d : Int) : Quad Half := ⟨BitVec.ofInt 16 a, BitVec.ofInt 16 b, BitVec.ofInt 16 c, BitVec.ofInt 16 d⟩

/-! ### Well-formedness: one ill-formed term for each check -/

theorem test_wf_depth : (Instr.esc 0).wellFormed ⟨false, 9, 6, 0⟩ = false := by decide
theorem test_wf_cap_zero : (Instr.esc 0).wellFormed ⟨false, 8, 0, 0⟩ = false := by decide
theorem test_wf_cap_large : (Instr.esc 0).wellFormed ⟨false, 8, 256, 0⟩ = false := by decide
theorem test_wf_parameter : (Instr.rice 0 0).wellFormed ⟨false, 8, 6, 11⟩ = false := by decide
theorem test_wf_seed_value : (Instr.seed8 false 2048).wellFormed ⟨true, 8, 6, 0⟩ = false := by decide
theorem test_wf_seed_depth : (Instr.seed10 false 0).wellFormed ⟨true, 8, 6, 0⟩ = false := by decide
theorem test_wf_seed_place : (Instr.seed8 false 0).wellFormed ⟨false, 8, 6, 0⟩ = false := by decide
theorem test_wf_rice_place : (Instr.rice 0 0).wellFormed ⟨true, 8, 6, 0⟩ = false := by decide
theorem test_wf_rice_quotient : (Instr.rice 6 0).wellFormed ⟨false, 8, 6, 0⟩ = false := by decide
theorem test_wf_rice_remainder : (Instr.rice 0 8).wellFormed ⟨false, 8, 6, 3⟩ = false := by decide
theorem test_wf_esc_place : (Instr.esc 0).wellFormed ⟨true, 8, 6, 0⟩ = false := by decide
theorem test_wf_esc_value : (Instr.esc 2048).wellFormed ⟨false, 8, 6, 0⟩ = false := by decide
theorem test_wf_fetch : (Instr.bcFetchN 16).wellFormed ⟨false, 8, 6, 0⟩ = false := by decide
theorem test_wf_store_low : (Instr.dpStore 0 .y (-4194305)).wellFormed ⟨false, 8, 6, 0⟩ = false := by decide
theorem test_wf_store_high : (Instr.dpStore 0 .y 4194304).wellFormed ⟨false, 8, 6, 0⟩ = false := by decide
theorem test_wf_row : (Instr.dpRow 32768).wellFormed ⟨false, 8, 6, 0⟩ = false := by decide

/-! ### Decoding: words written out bit by bit (V-CW) -/

theorem test_decode_seed8 : decode ⟨true, 8, 6, 0⟩ (bits [0, 0,0,0,1,1,1,1,1,0,1,0]) = .ok (.seed8 false 760, []) := by
  rfl
theorem test_decode_seed8_delimiter :
    decode ⟨true, 8, 6, 0⟩ (bits [1, 0,0,0,1,1,1,1,1,0,1,0]) = .ok (.seed8 true 760, []) := by rfl
theorem test_decode_seed10 :
    decode ⟨true, 10, 6, 0⟩ (bits [0, 0,0,0,0,0,0,0,0,0,0,0,0,1, 1]) = .ok (.seed10 false 4096, [true]) := by rfl
theorem test_decode_seed12 :
    decode ⟨true, 12, 6, 0⟩ (bits [0, 0,0,0,1,1,1,1,1,1,1,1,1,1,1,1]) = .ok (.seed12 false 32760, []) := by rfl
theorem test_decode_rice : decode ⟨false, 8, 6, 6⟩ (bits [1,1,1,1,0, 0,0,1,1,1,1]) = .ok (.rice 4 60, []) := by rfl
theorem test_decode_rice_k0 : decode ⟨false, 8, 6, 0⟩ (bits [1,0, 1]) = .ok (.rice 1 0, [true]) := by rfl
theorem test_decode_esc :
    decode ⟨false, 8, 6, 3⟩ (bits [1,1,1,1,1,1, 0,1,1,0,0,0,1,1,1,0,0]) = .ok (.esc 454, []) := by rfl
theorem test_decode_esc_cap1 :
    decode ⟨false, 12, 1, 14⟩ (bits [1, 1,1,1,0,1,1,1,1,1,1,1,1,1,1,1]) = .ok (.esc 32759, []) := by rfl
theorem test_encode_seed12 :
    encode ⟨true, 12, 6, 0⟩ (.seed12 false 32760) = bits [0, 0,0,0,1,1,1,1,1,1,1,1,1,1,1,1] := by rfl
theorem test_encode_esc :
    encode ⟨false, 8, 6, 2⟩ (.esc 25) = bits [1,1,1,1,1,1, 1,0,0,1,1,0,0,0,0,0,0] := by rfl
theorem test_decode_cut : decode ⟨false, 8, 6, 6⟩ (bits [1,1,1,1,0, 0,0,1]) = .error .bitsEnd := by rfl
theorem test_decode_depth : decode ⟨false, 9, 6, 0⟩ (bits [0]) = .error .noSuchDepth := by rfl
theorem test_decode_cap : decode ⟨false, 8, 0, 0⟩ (bits [0]) = .error .capOutOfRange := by rfl
theorem test_decode_parameter : decode ⟨false, 8, 6, 11⟩ (bits [0]) = .error .kOutOfRange := by rfl
/-- The 48 bits of the four seed codewords of V-CW regroup into these six bytes. -/
theorem test_packing :
    packBytes 6 (encode ⟨true, 8, 6, 0⟩ (.seed8 false 760) ++ encode ⟨true, 8, 6, 0⟩ (.seed8 false 20) ++
      encode ⟨true, 8, 6, 0⟩ (.seed8 false 60) ++ encode ⟨true, 8, 6, 0⟩ (.seed8 false 60)) =
      [0x0F, 0xA1, 0x40, 0x1E, 0x01, 0xE0] := by decide
theorem test_table_word_seed : decodeTableWord 16 65520 = some (.seed12 false 32760) := by decide +kernel
theorem test_table_word_seed_whole_bytes : decodeTableWord 16 1520 = some (.seed8 false 760) := by decide +kernel
theorem test_table_word_rice : decodeTableWord 5 15 = some (.rice 4 0) := by decide +kernel
theorem test_table_word_esc : decodeTableWord 17 (63 + 64 * 454) = some (.esc 454) := by decide +kernel
/-- A table word placed after reset is fetched and run by the very next step: SEEDVAL[Y] = 380, CNT and IDX past it. -/
theorem test_runs_table_word :
    after (step (State.reset.withFetchWord 12 1520)) (fun t =>
      decide (t.seedVal.y = 380 ∧ t.ad.a.y = 380 ∧ t.ch = .cd ∧ t.cursor.idx = 1 ∧ t.cursor.cnt = 4)) = true := by
  decide +kernel
theorem test_runs_table_word_rice :
    after (step (State.reset.withFetchWord 5 15)) (fun t =>
      decide (t.sym.q = 4 ∧ t.sym.v = 4 ∧ t.sym.resid = 2 ∧ t.cursor.cnt = 5)) = true := by decide +kernel

/-! ### The operations the sequencer selects (R211, R214, R215) -/

theorem test_select_check : selectedOp { onBytes [] with seq := .check } = some .seqCheck := by rfl
theorem test_select_load : selectedOp { onBytes [] with seq := .load } = some .bcLoad := by rfl
theorem test_select_init : selectedOp { onBytes [] with seq := .init } = some .arInit := by rfl
theorem test_select_updN : selectedOp { onBytes [] with seq := .updN } = some .arUpdN := by rfl
theorem test_select_dpSeed : selectedOp { onBytes [] with seq := .dpSeed } = some .dpSeed := by rfl
theorem test_select_dpSeq : selectedOp { onBytes [] with seq := .dpSeq, ch := .cm } = some (.dpSeq .cm) := by rfl
theorem test_select_store :
    selectedOp { onBytes [] with seq := .store, ch := .co, sym := ⟨0, 0, 0, -30⟩ } = some (.dpStore 1 .co (-30)) := by
  rfl
theorem test_select_quad :
    selectedOp { onBytes [] with seq := .quad, dpcm := ⟨quad 1 2 3 4, quad 0 0 0 0⟩ } = some (.ctQuad 1 (quad 1 2 3 4)) := by
  rfl
theorem test_select_col0 : selectedOp { onBytes [] with seq := .col0 } = some .dpCol0 := by rfl
theorem test_select_row : selectedOp { onBytes [] with seq := .row 2 } = some (.dpRow 2) := by rfl
theorem test_select_done : selectedOp { onBytes [] with seq := .finish } = some .seqDone := by rfl

/-! ### The bit cursor (V-BC) -/

theorem test_bcLoad :
    after (exec .bcLoad { onBytes [1, 2, 0x0F] with cfg := { (onBytes [1, 2, 3]).cfg with payloadOffset := 2 } })
      (fun t => decide (t.cursor = ⟨2, 0, 0x0F⟩)) = true := by decide
theorem test_bcLoad_empty :
    after (exec .bcLoad (onBytes [])) (fun t => decide (t.status = ⟨.allBitsConsumed, false, true⟩ ∧ t.seq = .idle)) =
      true := by decide
theorem test_bcFetch1 :
    after (exec .bcFetch1 { onBytes [0, 0, 0, 0xA5, 0x3C] with cursor := ⟨3, 8, 0xA5⟩ })
      (fun t => decide (t.fetched = 0 ∧ t.cursor = ⟨4, 1, 0x3C⟩)) = true := by decide
theorem test_bcFetch1_end :
    after (exec .bcFetch1 { onBytes [0xA5] with cursor := ⟨0, 8, 0xA5⟩ })
      (fun t => decide (t.status.code = .allBitsConsumed ∧ t.cursor = ⟨0, 8, 0xA5⟩)) = true := by decide
/-- V-BC row 5: a 15-bit field over two byte boundaries. -/
theorem test_bcFetchN :
    after (exec (.bcFetchN 15) { onBytes [3, 0xFF, 0x80] with cursor := ⟨0, 6, 3⟩ })
      (fun t => decide (t.fetched = 2047 ∧ t.cursor.idx = 2 ∧ t.cursor.cnt = 5)) = true := by decide
/-- V-BC row 8: the first of the two fetches stays consumed, the second raises. -/
theorem test_bcFetchN_end :
    after (exec (.bcFetchN 2) { onBytes [0xFF, 1] with cursor := ⟨1, 7, 1⟩ })
      (fun t => decide (t.status.code = .allBitsConsumed ∧ t.cursor = ⟨1, 8, 1⟩)) = true := by decide

/-! ### The adaptive Rice decoder (V-MAP, V-K, V-UNARY, V-SYM, V-SEED, V-UPDN) -/

theorem test_fromAbs : [0, 1, 2, 3, 316, 454, 59, 2047, 32767, 4194303].map fromAbs =
    [0, -1, 1, -2, 158, 227, -30, -1024, -16384, -2097152] := by decide
theorem test_toAbs : [0, -1, 1, 158, -30, -1024, 16380].map toAbs = [0, 1, 2, 316, 59, 2047, 32760] := by decide
theorem test_arInit :
    after (exec .arInit (onBytes [])) (fun t => decide (t.ad = ⟨1, Quad.fill 32⟩)) = true := by decide
theorem test_arSeed :
    after (exec .arSeed (adapted (onBytes [0x8F, 0xA9, 0x40, 0x9E, 0x09, 0xE0]) 1 32))
      (fun t => decide (t.seedVal = ⟨380, 10, 30, 30⟩ ∧ t.ad = ⟨1, ⟨412, 42, 62, 62⟩⟩ ∧ t.cursor.idx = 5)) = true := by
  decide
theorem test_arK :
    ([(1, 412, 8), (7, 206, 8), (4, 206, 8), (1, 1025, 8), (1, 16385, 12), (255, 65535, 12), (0, 5, 8), (0, 0, 8)]
      |>.map fun (x : Nat × Nat × Nat) => riceParam x.1 x.2.1 x.2.2) = [9, 5, 6, 10, 14, 9, 10, 0] := by decide
theorem test_arUnary :
    after (exec .arUnary (onBits [1,1,1,1,1,0,0,0])) (fun t => decide (t.sym.q = 5 ∧ t.cursor.cnt = 6)) = true := by
  decide
theorem test_arUnary_cap :
    after (exec .arUnary (onBits [1,1,1,1,1,1,1,0])) (fun t => decide (t.sym.q = 6 ∧ t.cursor.cnt = 6)) = true := by
  decide
theorem test_arEsc :
    after (exec .arEsc (onBits [0,1,1,0,0,0,1,1,1,0,0])) (fun t => decide (t.sym.v = 454 ∧ t.cursor.cnt = 3)) = true := by
  decide
theorem test_arRem :
    after (exec .arRem { onBits [0,0,1,1,1,1] with sym := ⟨6, 4, 0, 0⟩ })
      (fun t => decide (t.sym = ⟨6, 4, 316, 0⟩ ∧ t.cursor.cnt = 6)) = true := by decide
theorem test_arMap :
    after (exec .arMap { onBytes [] with sym := ⟨0, 0, 59, 0⟩ }) (fun t => decide (t.sym.resid = -30)) = true := by
  decide
theorem test_arUpdA :
    after (exec (.arUpdA .cd) { onBytes [] with sym := ⟨0, 0, 0, -2⟩, ad := ⟨7, ⟨226, 17, 43, 38⟩⟩ })
      (fun t => decide (t.ad = ⟨7, ⟨226, 19, 43, 38⟩⟩)) = true := by decide
theorem test_arUpdN_halves :
    after (exec .arUpdN { onBytes [] with ad := ⟨7, ⟨384, 19, 1, 68⟩⟩ })
      (fun t => decide (t.ad = ⟨4, ⟨192, 9, 1, 34⟩⟩)) = true := by decide
theorem test_arUpdN_counts :
    after (exec .arUpdN { onBytes [] with ad := ⟨3, ⟨51, 5, 7, 7⟩⟩ })
      (fun t => decide (t.ad = ⟨4, ⟨51, 5, 7, 7⟩⟩)) = true := by decide
theorem test_arSym_rice :
    after (exec (.arSym .y) { onBits [1,1,1,1,0, 0,0,1,1,1,1] with ad := ⟨7, ⟨226, 17, 43, 38⟩⟩ })
      (fun t => decide (t.sym = ⟨6, 4, 316, 158⟩ ∧ t.ad.a = ⟨384, 17, 43, 38⟩)) = true := by decide
theorem test_arSym_escape :
    after (exec (.arSym .cm) { onBits [1,1,1,1,1,1, 0,1,1,0,0,0,1,1,1,0,0] with ad := ⟨7, ⟨226, 17, 43, 38⟩⟩ })
      (fun t => decide (t.sym = ⟨3, 6, 454, 227⟩ ∧ t.ad.a = ⟨226, 17, 270, 38⟩)) = true := by decide
theorem test_rice_codeword :
    after (exec (.rice 4 60) { onBytes [] with ad := ⟨7, ⟨226, 17, 43, 38⟩⟩ })
      (fun t => decide (t.sym = ⟨6, 4, 316, 158⟩ ∧ t.ad.a.y = 384)) = true := by decide
theorem test_esc_codeword :
    after (exec (.esc 59) { onBytes [] with ch := .co, ad := ⟨7, ⟨226, 17, 43, 38⟩⟩ })
      (fun t => decide (t.sym = ⟨3, 6, 59, -30⟩ ∧ t.ad.a.co = 68)) = true := by decide

/-! ### DPCM (V-DP, V-STAGED) -/

theorem test_dpSeed :
    after (exec .dpSeed { onBytes [] with seedVal := ⟨332, 2, 22, 30⟩ })
      (fun t => decide (t.dpcm = ⟨quad 332 2 22 30, quad 332 2 22 30⟩)) = true := by decide
theorem test_dpSeq_column0 :
    after (exec (.dpSeq .y)
      { onBytes [] with p := 8, sym := ⟨0, 0, 0, 6⟩, dpcm := ⟨quad 381 2 43 23, quad 332 2 22 30⟩ })
      (fun t => decide (t.dpcm = ⟨quad 338 2 43 23, quad 338 2 22 30⟩)) = true := by decide
theorem test_dpSeq_wraps :
    after (exec (.dpSeq .cd)
      { onBytes [] with p := 7, sym := ⟨0, 0, 0, 16383⟩, dpcm := ⟨quad 0 32000 0 0, quad 1 2 3 4⟩ })
      (fun t => decide (t.dpcm = ⟨quad 0 (-17153) 0 0, quad 1 2 3 4⟩)) = true := by decide
theorem test_dpStore :
    after (exec (.dpStore 11 .cm (-3008)) (onBytes []))
      (fun t => decide (t.resbuf = [(46, BitVec.ofInt 16 (-3008))])) = true := by decide
theorem test_dpCol0 :
    after (exec .dpCol0 { onBytes [] with resbuf := [(0, 332), (32, 6), (64, 6)] })
      (fun t => decide (bufRead t.valbuf 0 .y = 332 ∧ bufRead t.valbuf 8 .y = 338 ∧ bufRead t.valbuf 16 .y = 344)) =
      true := by decide +kernel
theorem test_dpRow :
    after (exec (.dpRow 1)
      { onBytes [] with valbuf := [(32, 338)], resbuf := [(36, 7), (40, 7), (44, 158), (48, BitVec.ofInt 16 (-144))] })
      (fun t => decide (bufRead t.valbuf 9 .y = 345 ∧ bufRead t.valbuf 11 .y = 510 ∧ bufRead t.valbuf 12 .y = 366)) =
      true := by decide +kernel

/-! ### The colour transform (V-CT, V-IDX) -/

theorem test_ctSum :
    after (exec (.ctSum (quad 32767 32767 32767 32767)) (onBytes []))
      (fun t => decide (t.colour.sums = ⟨65534, -196602, 65534, 327670⟩)) = true := by decide
theorem test_ctDiv8 :
    after (exec (.ctDiv8 .r) { onBytes [] with colour := { (onBytes []).colour with sums := Bayer.fill (-1) } })
      (fun t => decide (t.colour.quots = ⟨0, 0, -1, 0⟩)) = true := by decide
theorem test_ctStrict :
    after (exec .ctStrict
      { onBytes [] with
        cfg := { (onBytes []).cfg with ctrl := 2 }, colour := { (onBytes []).colour with sums := Bayer.fill 940 } })
      (fun t => decide (t.status = ⟨.divisionError, false, true⟩)) = true := by decide
theorem test_ctShl :
    after (exec (.ctShl .gr)
      { onBytes [] with
        cfg := { (onBytes []).cfg with lossyBits := 2 }, colour := { (onBytes []).colour with quots := Bayer.fill 127 } })
      (fun t => decide (t.colour.shifted = ⟨0, 0, 0, 508⟩)) = true := by decide
theorem test_ctNarrow8 :
    after (exec (.ctNarrow .b) { onBytes [] with colour := { (onBytes []).colour with shifted := Bayer.fill (-2) } })
      (fun t => decide (t.colour.outs = ⟨0, 254, 0, 0⟩)) = true := by decide
theorem test_ctNarrow16 :
    after (exec (.ctNarrow .b)
      { onBytes [] with pixelW := .w16, colour := { (onBytes []).colour with shifted := Bayer.fill (-2) } })
      (fun t => decide (t.colour.outs = ⟨0, 65534, 0, 0⟩)) = true := by decide
theorem test_ctQuad :
    after (exec (.ctQuad 11 (quad 380 10 30 30)) (onBytes []))
      (fun t => decide (t.out = [(38, 110), (39, 60), (54, 90), (55, 120)])) = true := by decide
theorem test_ctQuad_wide :
    [SubPixel.gb, .b, .r, .gr].map (quadIndex 16 127) = [478, 479, 510, 511] := by decide

/-! ### The host and the sequencer (V-HOST, V-CHECK) -/

theorem test_cfgWrite_ctrl :
    after (exec (.hostCfgWrite (.write .ctrl 0xFF)) State.reset) (fun t => decide (cfgRead t.cfg .ctrl = 3)) = true := by
  decide
theorem test_cfgWrite_busy :
    after (exec (.hostCfgWrite (.write .width 32)) (onBytes [])) (fun t => decide (t.cfg.width = 16)) = true := by
  decide
theorem test_hostStart :
    after (exec .hostStart { State.reset with status := ⟨.invalidHeader, false, true⟩ })
      (fun t => decide (t.status = ⟨.invalidHeader, true, false⟩ ∧ t.seq = .check)) = true := by decide
theorem test_hostStatusRead :
    after (exec .hostStatusRead { State.reset with status := ⟨.unsupportedBitDepth, false, true⟩ })
      (fun t => decide (t.hostData = 0x17)) = true := by decide
theorem test_seqCheck_header :
    after (exec .seqCheck { onBytes [] with cfg := { (onBytes []).cfg with width := 15, outLen := 240 } })
      (fun t => decide (statusWord t.status = 0x16)) = true := by decide
theorem test_seqCheck_size_first :
    after (exec .seqCheck { onBytes [] with cfg := { (onBytes []).cfg with bpp := 10, outLen := 255, ctrl := 1 } })
      (fun t => decide (statusWord t.status = 0x14)) = true := by decide
theorem test_seqDone :
    after (exec .seqDone (onBytes [])) (fun t => decide (statusWord t.status = 0x10 ∧ t.seq = .idle)) = true := by
  decide
theorem test_seqFail :
    after (exec (.seqFail .unsupportedBitDepth) (onBytes []))
      (fun t => decide (statusWord t.status = 0x17 ∧ t.seq = .idle)) = true := by decide
theorem test_host_refused :
    refuses (step { onBytes [0] with host := [⟨0, .streamWrite 0 1⟩] }) .streamWriteDuringRun = true := by
  decide
/-- The Staged variant of program P4: PIXEL_W 16, bpp 10. -/
theorem test_seqCheck_depth :
    after (exec .seqCheck { onBytes [] with pixelW := .w16, cfg := { (onBytes []).cfg with bpp := 10, ctrl := 1 } })
      (fun t => decide (statusWord t.status = 0x17)) = true := by decide
/-- U4: Staged at bpp 8 with PIXEL_W 16 is refused, also where the size of the output memory is wrong. -/
theorem test_seqCheck_pixel16 :
    refuses (exec .seqCheck { onBytes [] with pixelW := .w16, cfg := { (onBytes []).cfg with ctrl := 1, outLen := 255 } })
      .outsideCfgWF = true := by decide
theorem test_staged_pixel16 :
    refuses (exec .seqRunStaged { onBytes [0] with pixelW := .w16, cfg := { (onBytes [0]).cfg with ctrl := 1 } })
      .outsideCfgWF = true := by decide
/-- U2 and U3: refused whatever the size of the output memory; a width of 15 keeps its outcome (V-CHECK row 1). -/
theorem test_seqCheck_cap_zero :
    refuses (exec .seqCheck { onBytes [] with cfg := { (onBytes []).cfg with unaryCap := 0, outLen := 255 } })
      .outsideCfgWF = true := by decide
theorem test_seqCheck_width_zero :
    refuses (exec .seqCheck { onBytes [] with cfg := { (onBytes []).cfg with width := 0 } }) .outsideCfgWF = true := by
  decide
theorem test_run_narrow :
    refuses (exec .seqRunSeq { onBytes [0] with cfg := { (onBytes [0]).cfg with width := 15 } }) .outsideCfgWF =
      true := by decide
theorem test_outRead_beyond :
    faults (step { State.reset with host := [⟨0, .outRead 0⟩] }) .outReadOutOfRange = true := by decide
theorem test_run_outside_CfgWF :
    refuses (exec .seqRunSeq { onBytes [0] with cfg := { (onBytes [0]).cfg with unaryCap := 0 } }) .outsideCfgWF =
      true := by decide

/-! ### Witnesses: the hypotheses of each statement can be met, each clause at a boundary of its range -/

/-- The bits of `RICE[6](5, 63)`, the largest quotient below cap 6 and the largest remainder, behind a byte already used up. -/
def riceAhead : State :=
  { adapted (onBits [0,0,0,0,0,0,0,0, 1,1,1,1,1,0, 1,1,1,1,1,1]) 1 33 with cursor := ⟨0, 8, 0⟩ }

/-- The bits of `ESC(2047)`, the largest escape value, with nothing after them. -/
def escAhead : State := { onBits [1,1,1,1,1,1, 1,1,1,1,1,1,1,1,1,1,1, 0,0,0,0,0,0,0] with ch := .co }

/-- Four `SEED` codewords and no bit more. -/
def seedAhead : State := { onBytes [0x0F, 0xA1, 0x40, 0x1E, 0x01, 0xE0] with p := 0 }

/-- One bit too few for four `SEED` codewords. -/
def seedCut : State := { onBytes [0x0F, 0xA1, 0x40, 0x1E, 0x01, 0xE0] with p := 0, cursor := ⟨0, 1, 0x0F⟩ }

/-- Every bit of a one-byte payload has been delivered. -/
def usedUp : State := { onBytes [0xFF] with cursor := ⟨0, 8, 0xFF⟩ }

/-- A 16 by 16 image whose payload is zeros, long enough for any run: cap 1, A_INIT 1, so every later codeword is one 0. -/
def zeros (n : Nat) : State :=
  { State.reset with
    cfg :=
      { State.reset.cfg with
        width := 16, height := 16, unaryCap := 1, bpp := 8, outLen := 256, streamLen := BitVec.ofNat 32 n, aInit := 1 }
    stream := (List.range n).map fun i => (i, 0) }

theorem witness_DecodeOfEncode :
    (Instr.rice 5 63).isCodeword = true ∧ (Instr.rice 5 63).wellFormed ⟨false, 8, 6, 6⟩ = true ∧
      (Instr.esc 32767).wellFormed ⟨false, 12, 255, 14⟩ = true ∧ (Instr.seed8 true 2047).wellFormed ⟨true, 8, 1, 0⟩ = true ∧
      (Instr.seed10 true 8191).wellFormed ⟨true, 10, 1, 12⟩ = true ∧ (Instr.seed12 true 32767).wellFormed ⟨true, 12, 1, 14⟩ = true := by
  decide

theorem witness_EveryBitStringParses :
    Ctx.wf ⟨false, 8, 6, 6⟩ = true ∧ decode ⟨false, 8, 6, 6⟩ (bits [1,1,1,1,1,0, 1,1,1,1,1,1]) = .ok (.rice 5 63, []) ∧
      decode ⟨false, 8, 6, 6⟩ (bits [1,1,1,1,1,0, 1,1,1,1,1]) = .error .bitsEnd := by
  exact ⟨rfl, rfl, rfl⟩

theorem witness_CodewordLengths :
    (Instr.esc 32767).wellFormed ⟨false, 12, 255, 14⟩ = true ∧ (Instr.rice 254 16383).wellFormed ⟨false, 12, 255, 14⟩ = true ∧
      (Instr.rice 0 0).wellFormed ⟨false, 12, 255, 0⟩ = true ∧ (Instr.seed8 true 2047).wellFormed ⟨true, 8, 1, 0⟩ = true := by
  decide

theorem witness_ResidualMapping : 0 % 2 = 0 ∧ 1 % 2 = 1 ∧ (0 : Int) ≤ 0 ∧ (-1 : Int) < 0 := by decide

theorem witness_StepRunsSelectedOperation :
    State.decoderTurn { usedUp with seq := .init } = some { usedUp with seq := .init } ∧
      selectedOp { usedUp with seq := .init } = some .arInit := by
  exact ⟨rfl, rfl⟩

theorem witness_StepRunsDecodedCodeword_rice :
    riceAhead.decoderTurn = some riceAhead ∧ riceAhead.seq = .codeword ∧ riceAhead.cursorOk ∧ riceAhead.ctx.wf = true ∧
      (Instr.rice 5 63).wellFormed riceAhead.ctx = true ∧
      riceAhead.bitsFrom riceAhead.position 12 = some (encode riceAhead.ctx (.rice 5 63)) := by
  decide +kernel

theorem witness_StepRunsDecodedCodeword_seed :
    seedAhead.seq = .codeword ∧ seedAhead.cursorOk ∧ seedAhead.ctx.wf = true ∧
      (Instr.seed8 false 760).wellFormed seedAhead.ctx = true ∧
      seedAhead.bitsFrom seedAhead.position 12 = some (encode seedAhead.ctx (.seed8 false 760)) := by
  decide +kernel

/-- No codeword fits where no bit is left: every encoding has a first bit. -/
theorem witness_CutCodewordEndsTheRun :
    usedUp.decoderTurn = some usedUp ∧ usedUp.seq = .codeword ∧ usedUp.cursorOk ∧ usedUp.streamFilled ∧
      usedUp.ctx.wf = true ∧ ∀ i, i.isCodeword = true → i.wellFormed usedUp.ctx = true →
        usedUp.bitsFrom usedUp.position (encode usedUp.ctx i).length ≠ some (encode usedUp.ctx i) := by
  refine ⟨rfl, rfl, by decide, by decide, by decide, fun i hi _ h => ?_⟩
  have hn : usedUp.bitAt usedUp.position = none := by decide
  have key : ∀ n bs, usedUp.bitsFrom usedUp.position (n + 1) ≠ some bs := by
    intro n bs h
    simp only [State.bitsFrom, hn] at h
    cases h
  obtain ⟨n, hl⟩ : ∃ n, (encode usedUp.ctx i).length = n + 1 := by
    cases i <;> cases hi
    case seed8 d v => exact ⟨_, rfl⟩
    case seed10 d v => exact ⟨_, rfl⟩
    case seed12 d v => exact ⟨_, rfl⟩
    all_goals exact Nat.exists_eq_succ_of_ne_zero (by simp [encode])
  rw [hl] at h
  exact key n _ h

theorem witness_CodewordMoveIsBitByBit :
    usedUp.cursor.cnt.toNat ≤ 8 ∧ usedUp.p ≠ 0 ∧ seedAhead.cursor.cnt.toNat ≤ 8 ∧ seedAhead.p = 0 := by decide

theorem witness_StepServesTheHost :
    State.host { usedUp with host := [⟨0, .start⟩] } = ⟨0, .start⟩ :: [] ∧
      State.decoderTurn { State.reset with host := [⟨1, .start⟩] } = some { State.reset with host := [⟨0, .start⟩] } ∧
      State.reset.seq = .idle := by
  exact ⟨rfl, rfl, rfl⟩

theorem witness_BcLoad :
    (onBytes []).cfg.streamLen.toNat ≤ (onBytes []).cfg.payloadOffset.toNat ∧
      (onBytes [7]).cfg.payloadOffset.toNat < (onBytes [7]).cfg.streamLen.toNat ∧
      Mem.find (onBytes [7]).stream (onBytes [7]).cfg.payloadOffset.toNat = some 7 := by decide

theorem witness_BcFetch1 :
    (onBytes [7]).cursor.cnt.toNat < 8 ∧ riceAhead.cursor.cnt = 8 ∧
      riceAhead.cursor.idx.toNat + 1 < riceAhead.cfg.streamLen.toNat ∧
      Mem.find riceAhead.stream (riceAhead.cursor.idx.toNat + 1) = some 0xFB ∧ usedUp.cursor.cnt = 8 ∧
      usedUp.cfg.streamLen.toNat ≤ usedUp.cursor.idx.toNat + 1 := by decide

theorem witness_BcFetchN :
    riceAhead.cursorOk ∧ riceAhead.bitsFrom riceAhead.position 15 ≠ none ∧ riceAhead.bitsFrom riceAhead.position 0 = some [] ∧
      usedUp.cursorOk ∧ usedUp.streamFilled ∧ usedUp.payloadBits < usedUp.position + 1 := by decide +kernel

theorem witness_UnwrittenStreamByteFaults :
    faults (exec .bcLoad { usedUp with stream := [] }) .streamUnwritten = true ∧
      faults (exec .bcFetch1 { riceAhead with stream := [(0, 0)] }) .streamUnwritten = true := by decide

theorem witness_CursorIsForward : ∃ t, exec .bcFetch1 riceAhead = .next t := ⟨_, rfl⟩

theorem witness_ArSeed :
    seedAhead.cursorOk ∧ seedAhead.bitsFrom seedAhead.position 48 =
        some (false :: fieldBits 11 760 ++ false :: fieldBits 11 20 ++ false :: fieldBits 11 60 ++ false :: fieldBits 11 60) ∧
      usedUp.cursorOk ∧ usedUp.streamFilled ∧ usedUp.payloadBits < usedUp.position + 4 * (bppEff usedUp.cfg + 4) ∧
      seedCut.cursorOk ∧ seedCut.streamFilled ∧ seedCut.payloadBits = seedCut.position + 47 ∧
      (seedCut.payloadBits - seedCut.position) / (bppEff seedCut.cfg + 4) = 3 := by
  decide +kernel

theorem witness_ArUnary :
    State.cursorOk { usedUp with cfg := { usedUp.cfg with unaryCap := 0 } } ∧
      escAhead.cursorOk ∧ escAhead.bitsFrom escAhead.position 6 = some (List.replicate 6 true) ∧
      riceAhead.bitsFrom riceAhead.position 6 = some (List.replicate 5 true ++ [false]) ∧
      (onBits [0]).bitsFrom (onBits [0]).position 1 = some (List.replicate 0 true ++ [false]) ∧
      usedUp.position + 0 = usedUp.payloadBits ∧
      State.cursorOk { usedUp with cursor := ⟨0, 3, 0xFF⟩ } ∧
      State.position { usedUp with cursor := ⟨0, 3, 0xFF⟩ } + 5 = usedUp.payloadBits ∧
      State.bitsFrom { usedUp with cursor := ⟨0, 3, 0xFF⟩ } 3 5 = some (List.replicate 5 true) := by decide +kernel

theorem witness_ArEsc :
    (onBits [1,1,1,1,1,1,1,1,1,1,1]).cursorOk ∧
      (onBits [1,1,1,1,1,1,1,1,1,1,1]).bitsFrom 0 11 = some (fieldBits 11 2047) ∧ 2047 < 2 ^ (bppEff usedUp.cfg + 3) ∧
      usedUp.payloadBits < usedUp.position + (bppEff usedUp.cfg + 3) := by decide +kernel

theorem witness_ArRem :
    State.bitsFrom { onBits [1,1,1] with sym := ⟨3, 5, 0, 0⟩ } 0 3 = some (fieldBits 3 7) ∧ 7 < 2 ^ 3 ∧
      usedUp.bitsFrom usedUp.position usedUp.sym.k = some (fieldBits 0 0) ∧ usedUp.sym.k = 0 ∧
      State.cursorOk { usedUp with sym := ⟨14, 5, 0, 0⟩ } ∧ State.streamFilled { usedUp with sym := ⟨14, 5, 0, 0⟩ } ∧
      State.payloadBits { usedUp with sym := ⟨14, 5, 0, 0⟩ } <
        State.position { usedUp with sym := ⟨14, 5, 0, 0⟩ } + (State.sym { usedUp with sym := ⟨14, 5, 0, 0⟩ }).k ∧
      State.cursorOk { usedUp with sym := ⟨1, 5, 0, 0⟩ } ∧
      State.payloadBits { usedUp with sym := ⟨1, 5, 0, 0⟩ } <
        State.position { usedUp with sym := ⟨1, 5, 0, 0⟩ } + (State.sym { usedUp with sym := ⟨1, 5, 0, 0⟩ }).k := by
  decide

theorem witness_ArUpdN :
    (adapted usedUp 6 1).ad.n.toNat + 1 < usedUp.cfg.nThreshold.toNat ∧
      usedUp.cfg.nThreshold.toNat ≤ (adapted usedUp 7 1).ad.n.toNat + 1 := by decide

theorem witness_ArSym :
    riceAhead.cursorOk ∧ 6 = riceParam riceAhead.ad.n.toNat (riceAhead.ad.a.get .y) (bppEff riceAhead.cfg) ∧
      riceAhead.bitsFrom riceAhead.position (5 + 1 + 6) = some (List.replicate 5 true ++ false :: fieldBits 6 63) ∧
      escAhead.cursorOk ∧ escAhead.bitsFrom escAhead.position (6 + (8 + 3)) =
        some (List.replicate 6 true ++ fieldBits (8 + 3) 2047) := by decide +kernel

theorem witness_SymbolRanges :
    after (exec (.arSym .y) riceAhead) (fun t => decide (t.seq = riceAhead.seq ∧ t.sym.q ≠ riceAhead.cfg.unaryCap)) = true ∧
      after (exec (.arSym .co) escAhead) (fun t => decide (t.seq = escAhead.seq ∧ t.sym.q = escAhead.cfg.unaryCap)) = true ∧
      bppEff riceAhead.cfg = 8 ∧ riceAhead.seq ≠ .idle := by decide +kernel

theorem witness_DpSeq :
    0 < halfWidth usedUp.cfg ∧ (State.p { usedUp with p := 8 }).toNat % halfWidth usedUp.cfg = 0 ∧
      (State.p { usedUp with p := 7 }).toNat % halfWidth usedUp.cfg ≠ 0 := by decide

theorem witness_DpStore : usedUp.memWF = true ∧ (0, Channel.y) ≠ (1, Channel.y) := by decide

/-- The last row above another, and a pixel outside column 0. -/
theorem witness_DpCol0 : 0 < halfWidth usedUp.cfg ∧ usedUp.memWF = true ∧ 6 + 1 < halfHeight usedUp.cfg ∧ 9 ≠ 0 ∧
    ∀ r < halfHeight usedUp.cfg, 9 ≠ r * halfWidth usedUp.cfg := by decide

/-- The last column with another on its left, and the pixel of column 0. -/
theorem witness_DpRow : usedUp.memWF = true ∧ 6 + 1 < halfWidth usedUp.cfg ∧
    ∀ j < halfWidth usedUp.cfg, j + 1 < halfWidth usedUp.cfg → 8 ≠ 1 * halfWidth usedUp.cfg + (j + 1) := by decide

theorem witness_PhaseBClosedForm : usedUp.memWF = true ∧ 7 < halfHeight usedUp.cfg ∧ 7 < halfWidth usedUp.cfg := by
  decide

theorem witness_RowsInAnyOrder : usedUp.memWF = true ∧
    (List.range (halfHeight usedUp.cfg)).reverse.Perm (List.range (halfHeight usedUp.cfg)) :=
  ⟨by decide, List.reverse_perm _⟩

theorem witness_StagesAreApart : (∃ t, exec .dpSeed usedUp = .next t) ∧ ∃ t, exec .arInit usedUp = .next t :=
  ⟨⟨_, rfl⟩, ⟨_, rfl⟩⟩

theorem witness_CtStrict :
    (2 : BitVec 2).getLsbD 1 = true ∧ (940 : Int) % 8 ≠ 0 ∧ usedUp.cfg.ctrl.getLsbD 1 = false := by decide

theorem witness_CtQuad :
    (63 : BitVec 32).toNat < npix usedUp.cfg ∧ usedUp.cfg.outLen.toNat = 4 * npix usedUp.cfg ∧
      isStrict usedUp.cfg = false ∧ (colourSums (quad 380 10 30 30)).gr % 8 = 0 ∧
      isStrict { usedUp.cfg with ctrl := 2 } = true ∧ (colourSums (quad 410 (-10) 20 30)).gr % 8 ≠ 0 := by decide

theorem witness_OutputIndexMap : 0 < 8 ∧ 63 < 8 * 8 ∧ quadIndex 8 63 .gr = 255 ∧ 255 < 4 * (8 * 8) := by decide

theorem witness_PixelsInAnyOrder :
    (0 : BitVec 32) ≠ 63 ∧ usedUp.memWF = true ∧ (∃ t, exec (.ctQuad 0 (quad 1 2 3 4)) usedUp = .next t) ∧
      ∃ u, exec (.ctQuad 63 (quad 5 6 7 8)) usedUp = .next u := by
  have h1 : after (exec (.ctQuad 0 (quad 1 2 3 4)) usedUp) (fun _ => true) = true := by decide +kernel
  have h2 : after (exec (.ctQuad 63 (quad 5 6 7 8)) usedUp) (fun _ => true) = true := by decide +kernel
  obtain ⟨t, ht, _⟩ := next_of_after h1
  obtain ⟨u, hu, _⟩ := next_of_after h2
  exact ⟨by decide, by decide, ⟨t, ht⟩, ⟨u, hu⟩⟩

/-- An idle block with an output memory of six elements, the last one known. -/
def sixOut : State := { State.reset with cfg := { State.reset.cfg with outLen := 6 }, out := [(5, 9)] }

/-- For the three statements about the host's accesses: an idle block, a busy one, a known element, an index beyond. -/
theorem witness_host : sixOut.status.busy = false ∧ usedUp.status.busy = true ∧ CfgReg.width ≠ .height ∧
    Mem.find sixOut.out (5 : BitVec 32).toNat = some 9 ∧ (5 : BitVec 32).toNat < sixOut.cfg.outLen.toNat ∧
    sixOut.cfg.outLen.toNat ≤ (6 : BitVec 32).toNat := by decide

/-- `usedUp` with another configuration and PIXEL_W. -/
def configured (w : PixelWidth) (c : Cfg) : State := { usedUp with pixelW := w, cfg := c }

/-- The header; the registers outside `CfgWF`; PIXEL_W 16 with the size wrong, and with nothing else wrong; the size; the depth
at both values of PIXEL_W; nothing wrong. -/
theorem witness_SeqCheck :
    badGeometry { usedUp.cfg with width := 15 } ∧
      (¬badGeometry { usedUp.cfg with width := 0, outLen := 1 } ∧
        registersWF { usedUp.cfg with width := 0, outLen := 1 } = false) ∧
      (¬badGeometry { usedUp.cfg with ctrl := 1, outLen := 255 } ∧
        (configured .w16 { usedUp.cfg with ctrl := 1, outLen := 255 }).cfgWF = false ∧
        badSize { usedUp.cfg with ctrl := 1, outLen := 255 }) ∧
      ((configured .w16 { usedUp.cfg with ctrl := 1 }).cfgWF = false ∧ ¬badDepth { usedUp.cfg with ctrl := 1 }) ∧
      (¬badGeometry { usedUp.cfg with outLen := 255 } ∧
        (configured .w8 { usedUp.cfg with outLen := 255 }).cfgWF = true ∧ badSize { usedUp.cfg with outLen := 255 }) ∧
      (¬badGeometry { usedUp.cfg with bpp := 10, ctrl := 1 } ∧
        registersWF { usedUp.cfg with bpp := 10, ctrl := 1 } = true ∧
        ¬badSize { usedUp.cfg with bpp := 10, ctrl := 1 } ∧ badDepth { usedUp.cfg with bpp := 10, ctrl := 1 } ∧
        (configured .w16 { usedUp.cfg with bpp := 10, ctrl := 1 }).cfgWF = false) ∧
      ¬badGeometry usedUp.cfg ∧ usedUp.cfgWF = true ∧ ¬badSize usedUp.cfg ∧ ¬badDepth usedUp.cfg := by
  refine ⟨?_, ?_, ?_, ?_, ?_, ?_, ?_⟩ <;> decide

theorem witness_OutputAfterFailureIsFree : (255 : BitVec 32).toNat < usedUp.cfg.outLen.toNat ∧
    ∃ t, exec (.seqFail .divisionError) usedUp = .next t := ⟨by decide, _, rfl⟩

/-- The payload has exactly the most bits a run can read: 48 + 4 * 63 * 12 = 3072 bits, 384 bytes. -/
theorem witness_RunsComplete : (zeros 384).ready ∧ isStrict (zeros 384).cfg = false ∧
    mostBits (zeros 384).cfg = (zeros 384).payloadBits := by decide +kernel

theorem witness_HowRunsEnd : State.cfgWF { usedUp with cfg := { usedUp.cfg with unaryCap := 0 } } = false ∧
    usedUp.cfgWF = true ∧ checkFailure usedUp.cfg = none := by decide

/-- 48 + 252 bits are read, 38 bytes hold them: both strategies end with Success. -/
theorem witness_sequential_run :
    after (wholeRun ((zeros 38).withStrategy false)) (fun t => decide (t.status.code = .success)) = true := by
  decide +kernel

theorem witness_staged_run :
    after (wholeRun ((zeros 38).withStrategy true)) (fun t => decide (t.status.code = .success)) = true := by
  decide +kernel

theorem witness_StrategiesAgree : ∃ t u, (zeros 38).memWF = true ∧ wholeRun ((zeros 38).withStrategy false) = .next t ∧
    wholeRun ((zeros 38).withStrategy true) = .next u ∧ t.status.code = .success ∧ u.status.code = .success ∧
    isStrict (zeros 38).cfg = false ∧ checkFailure ((zeros 38).withStrategy true).cfg = none := by
  obtain ⟨t, ht, hts⟩ := next_of_after witness_sequential_run
  obtain ⟨u, hu, hus⟩ := next_of_after witness_staged_run
  exact ⟨t, u, by decide +kernel, ht, hu, of_decide_eq_true hts, of_decide_eq_true hus, by decide, by decide⟩

theorem witness_StepsComputeTheRun : ((zeros 38).withStrategy false).host = [] ∧
    ∃ t, wholeRun ((zeros 38).withStrategy false) = .next t ∧ t.status.code = .success := by
  obtain ⟨t, ht, hts⟩ := next_of_after witness_sequential_run
  exact ⟨rfl, t, ht, of_decide_eq_true hts⟩

/-- A second state with the same inputs and other register contents. -/
theorem witness_RunDependsOnInputsOnly :
    ∃ s s' t : State, s ≠ s' ∧ s.memWF = true ∧ s'.memWF = true ∧ s'.cfg = s.cfg ∧ s'.pixelW = s.pixelW ∧
      s'.stream = s.stream ∧ wholeRun s = .next t ∧ t.status.code = .success := by
  obtain ⟨t, ht, hts⟩ := next_of_after witness_sequential_run
  refine ⟨(zeros 38).withStrategy false, { (zeros 38).withStrategy false with valbuf := [(0, 1)], p := 9 }, t, ?_,
    by decide +kernel, by decide +kernel, rfl, rfl, rfl, ht, of_decide_eq_true hts⟩
  intro h
  have hp := congrArg State.p h
  exact absurd hp (by decide)

/-- For the statements about the invariants that every step keeps: a state in a run that meets them all, and steps. -/
theorem witness_invariants :
    riceAhead.memWF = true ∧ riceAhead.statusOk ∧ riceAhead.codeOk ∧ riceAhead.runCursorOk ∧ riceAhead.geometryOk ∧
      riceAhead.floorOk ∧ ∃ t, step riceAhead = .next t := by
  have h : after (step riceAhead) (fun _ => true) = true := by decide +kernel
  obtain ⟨t, ht, _⟩ := next_of_after h
  refine ⟨by decide, by decide, by decide, fun _ => by decide +kernel, ⟨fun _ => by decide, fun _ => by decide,
    fun p hp => by cases hp⟩, ⟨fun _ => by decide, fun _ c => by cases c <;> decide⟩, t, ht⟩

end Sys2Proof.Tests
end

section
/-! `wrap16` by congruence (R14), whose turn a step is, and `SEQ.CHECK` in the words of R241 to R243. -/

namespace Sys2Proof.Machine

/-! ### Arithmetic on 16 bits -/

/-- `wrap16` is the 16-bit value congruent to its argument (R14). -/
theorem wrap16_eq_iff (x : Int) (y : Half) : wrap16 x = y ↔ y.toInt % 65536 = x % 65536 := by
  have hy : y.toInt.bmod 65536 = y.toInt := by simpa using y.toInt_bmod_cancel
  rw [wrap16, ← BitVec.toInt_inj, BitVec.toInt_ofInt]
  constructor
  · intro h
    rw [← h]
    exact Int.bmod_emod
  · intro h
    calc x.bmod 65536 = (x % 65536).bmod 65536 := (Int.emod_bmod x 65536).symm
      _ = (y.toInt % 65536).bmod 65536 := by rw [h]
      _ = y.toInt.bmod 65536 := Int.emod_bmod _ 65536
      _ = y.toInt := hy

/-! ### Turns -/

/-- The decoder's turn differs from the state before it in the host's list only. -/
theorem decoderTurn_frame {s u : State} (h : s.decoderTurn = some u) : ∃ l, u = { s with host := l } := by
  rcases turn_cases s with ⟨l, hl⟩ | ⟨e, rest, hh⟩
  · exact ⟨l, Option.some.inj (h.symm.trans hl)⟩
  · simp [State.decoderTurn, hh] at h

/-- An idle block does not move (R250). -/
theorem decoderMove_idle {s : State} (h : s.seq = .idle) : decoderMove s = .next s := by
  simp [decoderMove, selectedOp, h]

/-! ### The tests of `SEQ.CHECK` -/

theorem bppEff_eq_eight {c : Cfg} : bppEff c = 8 ↔ c.bpp.toNat = 0 ∨ c.bpp.toNat = 8 := by
  unfold bppEff
  split <;> simp_all [BitVec.toNat_eq]

theorem bppEff_eq_iff {c : Cfg} {n : Nat} (h8 : n ≠ 8) (h0 : n ≠ 0) : bppEff c = n ↔ c.bpp.toNat = n := by
  unfold bppEff
  split <;> simp_all [BitVec.toNat_eq]; omega

/-- The first failing test, with the tests as R241 to R243 write them. -/
theorem checkFailure_eq (c : Cfg) :
    checkFailure c =
      if badGeometry c then some .invalidHeader
      else if badSize c then some .bufferSizeMismatch
      else if badDepth c then some .unsupportedBitDepth
      else none := by
  simp only [checkFailure, isStaged, ne_eq, bppEff_eq_eight, bppEff_eq_iff (n := 10), bppEff_eq_iff (n := 12),
    Nat.reduceEqDiff, not_false_eq_true, or_assoc]

theorem checkFailure_eq_invalidHeader {c : Cfg} : checkFailure c = some .invalidHeader ↔ badGeometry c := by
  rw [checkFailure_eq]
  split_ifs <;> grind

theorem checkFailure_eq_bufferSizeMismatch {c : Cfg} :
    checkFailure c = some .bufferSizeMismatch ↔ ¬badGeometry c ∧ badSize c := by
  rw [checkFailure_eq]
  split_ifs <;> grind

theorem checkFailure_eq_unsupportedBitDepth {c : Cfg} :
    checkFailure c = some .unsupportedBitDepth ↔ ¬badGeometry c ∧ ¬badSize c ∧ badDepth c := by
  rw [checkFailure_eq]
  split_ifs <;> grind

theorem checkFailure_eq_none {c : Cfg} :
    checkFailure c = none ↔ ¬badGeometry c ∧ ¬badSize c ∧ ¬badDepth c := by
  rw [checkFailure_eq]
  split_ifs <;> grind

/-! ### What `SEQ.CHECK` answers -/

/-- A raise is taken as R217 says. -/
theorem stoppedBy_fail (s : State) (c : RaiseCode) : s.stoppedBy (s.fail c) (raisedStatus c) := rfl

theorem exec_seqCheck (s : State) : exec .seqCheck s = (checkConfig s).outcome := rfl

theorem exec_seqCheck_raised {s : State} {c : RaiseCode} (hf : checkFailure s.cfg = some c)
    (hc : c = .invalidHeader ∨ c = .unsupportedBitDepth ∧ registersWF s.cfg = true ∨ s.cfgWF = true) :
    ∃ t, exec .seqCheck s = .next t ∧ s.stoppedBy t (raisedStatus c) := by
  rw [exec_seqCheck, checkConfig_eq_raised.mpr ⟨hf, hc, rfl⟩]
  exact ⟨_, rfl, stoppedBy_fail s c⟩

theorem exec_seqCheck_refused {s : State} (hg : ¬badGeometry s.cfg) (hwf : s.cfgWF = false)
    (hd : checkFailure s.cfg = some .unsupportedBitDepth → registersWF s.cfg = false) :
    exec .seqCheck s = .refused .outsideCfgWF := by
  rw [exec_seqCheck, checkConfig_eq_refused.mpr ⟨mt checkFailure_eq_invalidHeader.mp hg, hwf, hd, rfl⟩]
  rfl

theorem cfgWF_of_registersWF {s : State} (h : registersWF s.cfg = false) : s.cfgWF = false := by
  simp [State.cfgWF, h]

end Sys2Proof.Machine
end

section
/-! How the operations of a run can stop the model: at a payload byte that nothing has written, and nowhere else (R78). -/

namespace Sys2Proof.Machine

/-! ### What `SEQ.CHECK` and `CfgWF` give -/

theorem checkFailure_none_geometry {c : Cfg} (h : checkFailure c = none) :
    c.width.toNat % 16 = 0 ∧ c.height.toNat % 16 = 0 ∧ c.outLen.toNat = c.width.toNat * c.height.toNat := by
  obtain ⟨hg, hs, _⟩ := checkFailure_eq_none.mp h
  simp only [badGeometry, badSize] at hg hs
  omega

theorem cfgWF_bounds {s : State} (h : s.cfgWF = true) :
    s.cfg.unaryCap ≠ 0 ∧ 16 ≤ s.cfg.width.toNat ∧ 16 ≤ s.cfg.height.toNat := by
  have hr := registersWF_of_cfgWF h
  simp only [registersWF, Bool.and_eq_true, decide_eq_true_eq] at hr
  obtain ⟨⟨⟨⟨hcap, hw⟩, hh⟩, _⟩, _⟩ := hr
  exact ⟨hcap, hw, hh⟩

/-- An image in `CfgWF` has a pixel. -/
theorem npix_pos {s : State} (h : s.cfgWF = true) : 0 < npix s.cfg := by
  obtain ⟨_, hw, hh⟩ := cfgWF_bounds h
  exact Nat.mul_pos (by unfold halfWidth; omega) (by unfold halfHeight; omega)

/-- Every pixel's number fits the register P (R32). -/
theorem npix_lt (c : Cfg) : npix c < 2 ^ 32 := by
  have hw : halfWidth c < 2 ^ 16 := by unfold halfWidth; omega
  have hh : halfHeight c < 2 ^ 16 := by unfold halfHeight; omega
  exact (Nat.mul_lt_mul'' hw hh).trans_eq (by norm_num)

/-! ### The places a run reads -/

/-- `t` is a state of a run that works on the configuration and the payload of `s`, after `BC.LOAD`: the cursor stands at
or beyond the payload's first byte (R29, R43, R76). -/
structure SameRun (s t : State) : Prop where
  cfg : t.cfg = s.cfg
  stream : t.stream = s.stream
  forward : s.cfg.payloadOffset.toNat ≤ t.cursor.idx.toNat

/-- How an operation of a run on the inputs of `s` may answer: it completes inside the run, it raises, or it stops at a
payload byte that nothing has written. -/
def Run.StaysIn {α : Type} (s : State) : Run α → Prop
  | .ok _ t => SameRun s t
  | .raised _ _ => True
  | .fault e => e = .streamUnwritten ∧ ¬s.streamFilled
  | .refused _ => False

/-- Two operations one after the other stay in the run when each does. -/
theorem Run.StaysIn.bind {α β : Type} {s : State} {x : Run α} {f : α → State → Run β} (hx : x.StaysIn s)
    (hf : ∀ a t, x = .ok a t → SameRun s t → (f a t).StaysIn s) : (x.bind f).StaysIn s := by
  cases x with
  | ok a t => exact hf a t rfl hx
  | raised c t => trivial
  | fault e => exact hx
  | refused e => exact hx

/-- An update that leaves CFG, stream memory and the cursor stays in the run. -/
theorem SameRun.update {s t u : State} (h : SameRun s t) (hc : u.cfg = t.cfg) (hs : u.stream = t.stream)
    (hcur : u.cursor = t.cursor) : SameRun s u :=
  ⟨hc.trans h.cfg, hs.trans h.stream, hcur ▸ h.forward⟩

theorem streamRead_of_find {s : State} {i : Nat} {b : Byte} (h : Mem.find s.stream i = some b) :
    streamRead s i = .ok b s := by
  simp [streamRead, Mem.read, h]

theorem streamRead_of_unwritten {s : State} {i : Nat} (h : Mem.find s.stream i = none) :
    streamRead s i = .fault .streamUnwritten := by
  simp [streamRead, Mem.read, h, streamDefault]

/-- A read of the payload stops the model only where nothing has written the byte (log entry 2). -/
theorem streamRead_bind_staysIn {β : Type} {s t : State} {i : Nat} {f : Byte → State → Run β}
    (hstream : t.stream = s.stream) (hlo : s.cfg.payloadOffset.toNat ≤ i) (hhi : i < s.cfg.streamLen.toNat)
    (hf : ∀ b, (f b t).StaysIn s) : ((streamRead t i).bind f).StaysIn s := by
  cases hb : Mem.find t.stream i with
  | none =>
    rw [streamRead_of_unwritten hb]
    exact ⟨rfl, fun hfilled => hfilled i hhi hlo (hstream ▸ hb)⟩
  | some b =>
    rw [streamRead_of_find hb]
    exact hf b

/-! ### The bit cursor and the adaptive Rice decoder -/

section
variable {s t : State}

/-- `BC.FETCH1` reads the payload only, and the cursor never goes back (R121). -/
theorem fetchBit_staysIn (h : SameRun s t) : (fetchBit t).StaysIn s := by
  unfold fetchBit
  split
  · split
    · trivial
    · rename_i hlt
      have hlo := h.forward
      have hlen : t.cursor.idx.toNat + 1 < s.cfg.streamLen.toNat := by rw [← h.cfg]; omega
      have hidx : s.cfg.payloadOffset.toNat ≤ (t.cursor.idx + 1).toNat := by bv_omega
      exact streamRead_bind_staysIn h.stream (by omega) hlen fun _ => ⟨h.cfg, h.stream, hidx⟩
  · exact ⟨h.cfg, h.stream, h.forward⟩

theorem fetchBits_staysIn (n : Nat) (h : SameRun s t) : (fetchBits n t).StaysIn s := by
  induction n generalizing t with
  | zero => exact h
  | succ n ih =>
    exact (fetchBit_staysIn h).bind fun _ u _ hu => (ih hu).bind fun _ v _ hv => hv

theorem fetchField_staysIn (n : Nat) (h : SameRun s t) : (fetchField n t).StaysIn s :=
  (fetchBits_staysIn n h).bind fun _ _ _ hu => hu

theorem unaryLoop_staysIn (n : Nat) (h : SameRun s t) : (unaryLoop n t).StaysIn s := by
  induction n generalizing t with
  | zero => exact h
  | succ n ih =>
    refine (fetchBit_staysIn h).bind fun b u _ hu => ?_
    cases b with
    | true => exact ih (hu.update rfl rfl rfl)
    | false => exact hu

/-- `AR.UNARY` is not refused where the cap is not 0 (R143). -/
theorem readUnary_staysIn (hcap : s.cfg.unaryCap ≠ 0) (h : SameRun s t) : (readUnary t).StaysIn s := by
  rw [readUnary, if_neg (by rw [h.cfg]; exact hcap)]
  exact unaryLoop_staysIn _ (h.update rfl rfl rfl)

theorem readEscape_staysIn (h : SameRun s t) : (readEscape t).StaysIn s :=
  (fetchField_staysIn _ h).bind fun _ _ _ hu => hu.update rfl rfl rfl

theorem readRemainder_staysIn (h : SameRun s t) : (readRemainder t).StaysIn s :=
  (fetchField_staysIn _ h).bind fun _ _ _ hu => hu.update rfl rfl rfl

theorem decodeOne_staysIn (hcap : s.cfg.unaryCap ≠ 0) (c : Channel) (h : SameRun s t) :
    (decodeOne c t).StaysIn s := by
  have hk : SameRun s (recomputeK c t) := h.update rfl rfl rfl
  refine (readUnary_staysIn hcap hk).bind fun _ u _ hu => Run.StaysIn.bind ?_ ?_
  · split
    · exact readEscape_staysIn hu
    · exact readRemainder_staysIn hu
  · exact fun _ _ _ hv => hv.update rfl rfl rfl

theorem seedChannel_staysIn (c : Channel) (h : SameRun s t) : (seedChannel c t).StaysIn s :=
  (fetchBit_staysIn h).bind fun _ _ _ hu => (fetchField_staysIn _ hu).bind fun _ _ _ hv => hv.update rfl rfl rfl

theorem seedPixel_staysIn (h : SameRun s t) : (seedPixel t).StaysIn s :=
  (seedChannel_staysIn .y h).bind fun _ _ _ h1 => (seedChannel_staysIn .cd h1).bind fun _ _ _ h2 =>
    (seedChannel_staysIn .cm h2).bind fun _ _ _ h3 => seedChannel_staysIn .co h3

/-- `BC.LOAD` puts the cursor at the payload's first byte (R120). -/
theorem loadCursor_staysIn (s : State) : (loadCursor s).StaysIn s := by
  unfold loadCursor
  split
  · trivial
  · exact streamRead_bind_staysIn rfl le_rfl (by omega) fun _ => ⟨rfl, rfl, le_rfl⟩

theorem openRun_staysIn (hwf : s.cfgWF = true) : (openRun s).StaysIn s := by
  rw [openRun, (requireCfgWF_eq_ok (a := ())).mpr ⟨hwf, rfl⟩]
  exact (loadCursor_staysIn s).bind fun _ _ _ hu => seedPixel_staysIn (hu.update rfl rfl rfl)

end

/-! ### Output memory -/

/-- The elements of a pixel of the image lie inside output memory (R66, R78). -/
theorem quadIndex_lt {hw hh p : Nat} (hp : p < hw * hh) (i : SubPixel) :
    quadIndex hw p i < 2 * hw * (2 * hh) := by
  have hrow : p / hw < hh := Nat.div_lt_of_lt_mul hp
  have hcol : p % hw < hw := Nat.mod_lt _ (Nat.pos_of_ne_zero (by rintro rfl; simp at hp))
  have hrows : (p / hw + 1) * (4 * hw) ≤ hh * (4 * hw) := Nat.mul_le_mul_right _ hrow
  cases i <;> simp only [quadIndex] <;> nlinarith

/-- A pixel below NPIX has its elements below CFG.OUT_LEN once `SEQ.CHECK` has passed (R78). -/
theorem quadIndex_lt_outLen {c : Cfg} (hc : checkFailure c = none) {p : Nat} (hp : p < npix c) (i : SubPixel) :
    quadIndex (halfWidth c) p i < c.outLen.toNat := by
  obtain ⟨hw, hh, hsize⟩ := checkFailure_none_geometry hc
  have hw2 : 2 * halfWidth c = c.width.toNat := by unfold halfWidth; omega
  have hh2 : 2 * halfHeight c = c.height.toNat := by unfold halfHeight; omega
  rw [hsize, ← hw2, ← hh2]
  exact quadIndex_lt hp i

section
variable {s t : State}

theorem outWrite_staysIn {j : Nat} (hj : j < s.cfg.outLen.toNat) (v : BitVec 16) (h : SameRun s t) :
    (outWrite j v t).StaysIn s := by
  rw [outWrite, if_pos (by rwa [h.cfg])]
  exact h.update rfl rfl rfl

theorem writeElement_staysIn (hc : checkFailure s.cfg = none) {p : Nat} (hp : p < npix s.cfg) (i : SubPixel)
    (h : SameRun s t) : (writeElement p i t).StaysIn s := by
  have helem : SameRun s (narrowShifted i (shiftQuotient i (divideSum i t))) := h.update rfl rfl rfl
  refine outWrite_staysIn ?_ _ helem
  rw [helem.cfg]
  exact quadIndex_lt_outLen hc hp i

theorem transformQuad_staysIn (hc : checkFailure s.cfg = none) {p : Nat} (hp : p < npix s.cfg) (val : Quad Half)
    (h : SameRun s t) : (transformQuad p val t).StaysIn s := by
  have hstrict : (strictCheck (takeSums val t)).StaysIn s := by
    unfold strictCheck
    split
    · trivial
    · exact h.update rfl rfl rfl
  exact hstrict.bind fun _ _ _ h0 => (writeElement_staysIn hc hp .gb h0).bind fun _ _ _ h1 =>
    (writeElement_staysIn hc hp .b h1).bind fun _ _ _ h2 => (writeElement_staysIn hc hp .r h2).bind fun _ _ _ h3 =>
      writeElement_staysIn hc hp .gr h3

end

/-! ### The two strategies -/

section
variable {s t : State}

theorem seqChannel_staysIn (hcap : s.cfg.unaryCap ≠ 0) (c : Channel) (h : SameRun s t) :
    (seqChannel c t).StaysIn s := by
  have hch : SameRun s { t with ch := c } := h.update rfl rfl rfl
  exact (decodeOne_staysIn hcap c hch).bind fun _ _ _ hu => hu.update rfl rfl rfl

theorem seqChannel_p {c : Channel} (h : seqChannel c s = .ok () t) : t.p = s.p := by
  obtain ⟨_, _, _, _, rfl⟩ := seqChannel_ok h
  rfl

theorem seqPixel_p (h : seqPixel s = .ok () t) : t.p = s.p := by
  obtain ⟨_, _, _, _, _, _, _, rfl⟩ := seqPixel_ok h
  rfl

theorem stagedChannel_staysIn (hcap : s.cfg.unaryCap ≠ 0) (c : Channel) (h : SameRun s t) :
    (stagedChannel c t).StaysIn s := by
  have hch : SameRun s { t with ch := c } := h.update rfl rfl rfl
  exact (decodeOne_staysIn hcap c hch).bind fun _ _ _ hu => hu.update rfl rfl rfl

theorem stagedPixel_staysIn (hcap : s.cfg.unaryCap ≠ 0) (h : SameRun s t) : (stagedPixel t).StaysIn s :=
  (stagedChannel_staysIn hcap .y h).bind fun _ _ _ h1 => (stagedChannel_staysIn hcap .cd h1).bind fun _ _ _ h2 =>
    (stagedChannel_staysIn hcap .cm h2).bind fun _ _ _ h3 => (stagedChannel_staysIn hcap .co h3).bind fun _ _ _ h4 =>
      h4.update rfl rfl rfl

theorem stagedPixels_staysIn (hcap : s.cfg.unaryCap ≠ 0) (n : Nat) (h : SameRun s t) :
    (stagedPixels n t).StaysIn s := by
  induction n generalizing t with
  | zero => exact h
  | succ n ih =>
    have hpixel : SameRun s { t with p := t.p + 1 } := h.update rfl rfl rfl
    exact (stagedPixel_staysIn hcap hpixel).bind fun _ _ _ hu => ih hu

theorem seqPixel_staysIn (hcap : s.cfg.unaryCap ≠ 0) (hc : checkFailure s.cfg = none)
    (hp : t.p.toNat < npix s.cfg) (h : SameRun s t) : (seqPixel t).StaysIn s := by
  refine (seqChannel_staysIn hcap .y h).bind fun _ t1 e1 h1 => (seqChannel_staysIn hcap .cd h1).bind fun _ t2 e2 h2 =>
    (seqChannel_staysIn hcap .cm h2).bind fun _ t3 e3 h3 => (seqChannel_staysIn hcap .co h3).bind fun _ t4 e4 h4 => ?_
  have hp4 : t4.p = t.p :=
    ((seqChannel_p e4).trans (seqChannel_p e3)).trans ((seqChannel_p e2).trans (seqChannel_p e1))
  have hn : SameRun s (updateN t4) := h4.update rfl rfl rfl
  exact transformQuad_staysIn hc (by rwa [updateN_p, hp4]) _ hn

/-- The later pixels stay below NPIX: the loop counts what is left of them. -/
theorem seqPixels_staysIn (hcap : s.cfg.unaryCap ≠ 0) (hc : checkFailure s.cfg = none) (n : Nat)
    (hp : t.p.toNat + n < npix s.cfg) (h : SameRun s t) : (seqPixels n t).StaysIn s := by
  induction n generalizing t with
  | zero => exact h
  | succ n ih =>
    have hnpix := npix_lt s.cfg
    have hnext : (t.p + 1).toNat = t.p.toNat + 1 := by bv_omega
    have hpixel : SameRun s { t with p := t.p + 1 } := h.update rfl rfl rfl
    have hbelow : (t.p + 1).toNat < npix s.cfg := by omega
    refine (seqPixel_staysIn hcap hc hbelow hpixel).bind fun _ u hu hsame => ih ?_ hsame
    have hp' : u.p = t.p + 1 := seqPixel_p hu
    rw [hp']
    omega

theorem stagedQuads_staysIn (hc : checkFailure s.cfg = none) (n p : Nat) (hp : p + n ≤ npix s.cfg)
    (h : SameRun s t) : (stagedQuads p n t).StaysIn s := by
  induction n generalizing p t with
  | zero => exact h
  | succ n ih =>
    exact (transformQuad_staysIn hc (by omega) _ h).bind fun _ _ _ hu => ih (p + 1) (by omega) hu

theorem runSequential_staysIn (hwf : s.cfgWF = true) (hc : checkFailure s.cfg = none) :
    (runSequential s).StaysIn s := by
  have hpos := npix_pos hwf
  refine (openRun_staysIn hwf).bind fun _ t ht hopen => ?_
  have hp : t.p = 0 := by
    obtain ⟨_, _, _, _, _, rfl⟩ := openRun_ok ht
    rfl
  have hseed : SameRun s (installSeed t) := hopen.update rfl rfl rfl
  refine (transformQuad_staysIn hc hpos _ hseed).bind fun _ u hu hquad => ?_
  have hpu : u.p.toNat = 0 := by
    obtain ⟨_, _, rfl⟩ := transformQuad_ok hu
    exact congrArg BitVec.toNat hp
  refine seqPixels_staysIn (cfgWF_bounds hwf).1 hc _ ?_ hquad
  rw [hpu, hquad.cfg]
  omega

theorem runStaged_staysIn (hwf : s.cfgWF = true) (hc : checkFailure s.cfg = none) :
    (runStaged s).StaysIn s := by
  refine (openRun_staysIn hwf).bind fun _ t _ hopen => ?_
  have hseed : SameRun s (storeSeed t) := hopen.update rfl rfl rfl
  refine (stagedPixels_staysIn (cfgWF_bounds hwf).1 _ hseed).bind fun _ u _ hu => ?_
  obtain ⟨m, hm⟩ := stagedRows_frame (halfHeight u.cfg) (reconstructCol0 u)
  rw [hm]
  exact stagedQuads_staysIn hc _ 0 (by simp [hu.cfg]) (hu.update rfl rfl rfl)

/-! ### How each strategy ends -/

/-- A completed `SEQ.RUN_SEQ` has written the working registers and output memory only (R214). -/
theorem runSequential_ok (h : runSequential s = .ok () t) :
    ∃ cur p ch sym sv ad d col out, t = { s with
      cursor := cur, p := p, ch := ch, sym := sym, seedVal := sv, ad := ad, dpcm := d, colour := col, out := out } := by
  simp only [runSequential, Run.bind_eq_ok] at h
  obtain ⟨_, u, hu, _, v, hv, h⟩ := h
  obtain ⟨_, _, _, _, _, rfl⟩ := openRun_ok hu
  obtain ⟨_, _, rfl⟩ := transformQuad_ok hv
  obtain ⟨_, _, _, _, _, _, _, _, rfl⟩ := seqPixels_ok h
  exact ⟨_, _, _, _, _, _, _, _, _, rfl⟩

theorem runSequential_raised {x : RaiseCode} (h : runSequential s = .raised x t) :
    (x = .allBitsConsumed ∨ x = .divisionError ∧ isStrict s.cfg = true) ∧
      ∃ cur p ch sym sv ad d col out, t = { s with
        cursor := cur, p := p, ch := ch, sym := sym, seedVal := sv, ad := ad, dpcm := d, colour := col,
        out := out } := by
  simp only [runSequential, Run.bind_eq_raised] at h
  rcases h with h | ⟨_, u, hu, h⟩
  · obtain ⟨hx, _, _, _, _, _, _, _, rfl⟩ := openRun_raised h
    exact ⟨.inl hx, _, _, _, _, _, _, s.dpcm, s.colour, s.out, rfl⟩
  · obtain ⟨_, _, _, _, _, rfl⟩ := openRun_ok hu
    rcases h with h | ⟨_, v, hv, h⟩
    · obtain ⟨hx, hs, _, rfl⟩ := transformQuad_raised h
      exact ⟨.inr ⟨hx, hs⟩, _, _, _, _, _, _, _, _, s.out, rfl⟩
    · obtain ⟨_, _, rfl⟩ := transformQuad_ok hv
      obtain ⟨hx, _, _, _, _, _, _, _, _, rfl⟩ := seqPixels_raised h
      exact ⟨hx, _, _, _, _, _, _, _, _, _, rfl⟩

/-- A completed `SEQ.RUN_STAGED` has written the working registers, the buffers and output memory only (R215). -/
theorem runStaged_ok (h : runStaged s = .ok () t) :
    ∃ cur p ch sym sv ad res val col out, t = { s with
      cursor := cur, p := p, ch := ch, sym := sym, seedVal := sv, ad := ad, resbuf := res, valbuf := val, colour := col,
      out := out } := by
  simp only [runStaged, Run.bind_eq_ok] at h
  obtain ⟨_, u, hu, _, v, hv, h⟩ := h
  obtain ⟨_, _, _, _, _, rfl⟩ := openRun_ok hu
  obtain ⟨_, _, _, _, _, _, rfl⟩ := stagedPixels_ok hv
  obtain ⟨m, hm⟩ := stagedRows_frame (halfHeight s.cfg) (reconstructCol0 _)
  obtain ⟨_, _, rfl⟩ := stagedQuads_ok (hm ▸ h)
  exact ⟨_, _, _, _, _, _, _, _, _, _, rfl⟩

theorem runStaged_raised {x : RaiseCode} (h : runStaged s = .raised x t) :
    (x = .allBitsConsumed ∨ x = .divisionError ∧ isStrict s.cfg = true) ∧
      ∃ cur p ch sym sv ad res val col out, t = { s with
        cursor := cur, p := p, ch := ch, sym := sym, seedVal := sv, ad := ad, resbuf := res, valbuf := val,
        colour := col, out := out } := by
  simp only [runStaged, Run.bind_eq_raised] at h
  rcases h with h | ⟨_, u, hu, h⟩
  · obtain ⟨hx, _, _, _, _, _, _, _, rfl⟩ := openRun_raised h
    exact ⟨.inl hx, _, _, _, _, _, _, s.resbuf, s.valbuf, s.colour, s.out, rfl⟩
  · obtain ⟨_, _, _, _, _, rfl⟩ := openRun_ok hu
    rcases h with h | ⟨_, v, hv, h⟩
    · obtain ⟨hx, _, _, _, _, _, _, rfl⟩ := stagedPixels_raised h
      exact ⟨.inl hx, _, _, _, _, _, _, _, s.valbuf, s.colour, s.out, rfl⟩
    · obtain ⟨_, _, _, _, _, _, rfl⟩ := stagedPixels_ok hv
      obtain ⟨m, hm⟩ := stagedRows_frame (halfHeight s.cfg) (reconstructCol0 _)
      obtain ⟨hx, hs, _, _, rfl⟩ := stagedQuads_raised (hm ▸ h)
      exact ⟨.inr ⟨hx, hs⟩, _, _, _, _, _, _, _, _, _, _, rfl⟩

theorem openRun_refused (h : s.cfgWF = false) : openRun s = .refused .outsideCfgWF := by
  simp [openRun, requireCfgWF, h]

/-- Either strategy is an operation that is refused outside `CfgWF`, leaves STATUS and the sequencer, and raises
`AllBitsConsumed`, or `DivisionError` under the strict check. -/
theorem strategy_run {i : Instr} (hi : i = .seqRunSeq ∨ i = .seqRunStaged) (s : State) :
    ∃ x : Run Unit, exec i s = x.outcome ∧ (s.cfgWF = false → x = .refused .outsideCfgWF) ∧
      (s.cfgWF = true → checkFailure s.cfg = none → x.StaysIn s) ∧
      (∀ t, x = .ok () t → t.status = s.status ∧ t.seq = s.seq ∧ t.outEpoch = s.outEpoch) ∧
      (∀ c t, x = .raised c t →
        (c = .allBitsConsumed ∨ c = .divisionError ∧ isStrict s.cfg = true) ∧ t.outEpoch = s.outEpoch) := by
  rcases hi with rfl | rfl
  · refine ⟨runSequential s, rfl, fun h => by rw [runSequential, openRun_refused h]; rfl, runSequential_staysIn,
      fun t h => ?_, fun c t h => ?_⟩
    · obtain ⟨_, _, _, _, _, _, _, _, _, rfl⟩ := runSequential_ok h
      exact ⟨rfl, rfl, rfl⟩
    · obtain ⟨hc, _, _, _, _, _, _, _, _, _, rfl⟩ := runSequential_raised h
      exact ⟨hc, rfl⟩
  · refine ⟨runStaged s, rfl, fun h => by rw [runStaged, openRun_refused h]; rfl, runStaged_staysIn,
      fun t h => ?_, fun c t h => ?_⟩
    · obtain ⟨_, _, _, _, _, _, _, _, _, _, rfl⟩ := runStaged_ok h
      exact ⟨rfl, rfl, rfl⟩
    · obtain ⟨hc, _, _, _, _, _, _, _, _, _, _, rfl⟩ := runStaged_raised h
      exact ⟨hc, rfl⟩

end

end Sys2Proof.Machine
end

section
/-! The statements about the scope, settled. -/

namespace Sys2Proof.Machine

/-- Settles O10, by the two cases of whose turn the step is. -/
theorem stepServesTheHost : Obligations.StepServesTheHost := by
  refine ⟨fun s e rest h => step_of_host h, fun s u hu hs => ?_⟩
  obtain ⟨l, rfl⟩ := decoderTurn_frame hu
  exact (step_of_turn hu).trans (decoderMove_idle hs)

/-- Settles O28, by the signed remainder of x by 65536. -/
theorem wrapSixteen : Obligations.WrapSixteen := wrap16_eq_iff

/-- Settles O47: each clause says which test fails first and whether `CfgWF` holds. -/
theorem seqCheck : Obligations.SeqCheck := by
  intro s
  refine ⟨fun hg => ?header, fun ⟨hg, hr⟩ => ?registers, fun ⟨hg, hwf, hsd⟩ => ?build, fun ⟨hg, hwf, hs⟩ => ?size,
    fun ⟨hg, hr, hs, hd⟩ => ?depth, fun ⟨hg, hwf, hs, hd⟩ => ?passes⟩
  case header => exact exec_seqCheck_raised (checkFailure_eq_invalidHeader.mpr hg) (.inl rfl)
  case registers => exact exec_seqCheck_refused hg (cfgWF_of_registersWF hr) fun _ => hr
  case build =>
    refine exec_seqCheck_refused hg hwf fun hf => ?_
    obtain ⟨_, hs, hd⟩ := checkFailure_eq_unsupportedBitDepth.mp hf
    exact absurd hsd (not_or.mpr ⟨hs, not_not_intro hd⟩)
  case size =>
    exact exec_seqCheck_raised (checkFailure_eq_bufferSizeMismatch.mpr ⟨hg, hs⟩) (.inr (.inr hwf))
  case depth =>
    exact exec_seqCheck_raised (checkFailure_eq_unsupportedBitDepth.mpr ⟨hg, hs, hd⟩) (.inr (.inl ⟨rfl, hr⟩))
  case passes =>
    rw [exec_seqCheck, (checkConfig_eq_ok (a := ())).mpr ⟨checkFailure_eq_none.mpr ⟨hg, hs, hd⟩, hwf, rfl⟩]
    rfl

/-- Settles O51: a strategy reads only bytes of the payload and writes only elements of the image, so that an unwritten
payload byte is all that can stop the model. -/
theorem howRunsEnd : Obligations.HowRunsEnd := by
  intro s i hi
  obtain ⟨x, hx, hrefused, hstays, hok, hraised⟩ := strategy_run hi s
  rw [hx]
  refine ⟨fun hwf => by rw [hrefused hwf]; rfl, fun hwf hc => ?_⟩
  have hstays := hstays hwf hc
  cases x with
  | ok a t => exact .inl (hok t rfl)
  | raised c t =>
    obtain ⟨rfl | ⟨rfl, hstrict⟩, hepoch⟩ := hraised c t rfl
    · exact .inr (.inl ⟨rfl, rfl, congrArg (· + 1) hepoch⟩)
    · exact .inr (.inr ⟨hstrict, rfl, rfl, congrArg (· + 1) hepoch⟩)
  | fault e => exact hstays
  | refused e => exact hstays

end Sys2Proof.Machine
end

section
/-! What one operation of the block can change, and with it what a step of the decoder keeps. -/

namespace Sys2Proof.Machine

/-! ### What the operations between `BC.LOAD` and `SEQ.DONE` leave -/

/-- Every accumulator is at or above CFG.A_MIN (R34). -/
def State.aboveFloor (s : State) : Prop := ∀ c, s.cfg.aMin.toNat ≤ s.ad.a.get c

/-- `t` is what work on a pixel can make of `s`: the configuration, STATUS, stream memory and the place of the run are as they
were, and the cursor and the accumulators keep what R29 to R31 and R34 ask of them. -/
structure Works (s t : State) : Prop where
  cfg : t.cfg = s.cfg
  pixelW : t.pixelW = s.pixelW
  status : t.status = s.status
  p : t.p = s.p
  stream : t.stream = s.stream
  seq : t.seq = s.seq
  forward : s.cursor.idx.toNat ≤ t.cursor.idx.toNat
  cursorOk : s.cursorOk → t.cursorOk
  aboveFloor : s.aboveFloor → t.aboveFloor

/-- How an operation that only works on a pixel answers: it completes, or raises, in a state that work can reach. -/
def Run.Works {α : Type} (s : State) : Run α → Prop
  | .ok _ t => Machine.Works s t
  | .raised _ t => Machine.Works s t
  | .fault _ => True
  | .refused _ => True

section
variable {s t u : State}

theorem Works.refl (s : State) : Works s s :=
  ⟨rfl, rfl, rfl, rfl, rfl, rfl, le_rfl, id, id⟩

theorem Works.trans (h : Works s t) (h' : Works t u) : Works s u :=
  ⟨h'.cfg.trans h.cfg, h'.pixelW.trans h.pixelW, h'.status.trans h.status, h'.p.trans h.p, h'.stream.trans h.stream,
    h'.seq.trans h.seq, h.forward.trans h'.forward, h'.cursorOk ∘ h.cursorOk, h'.aboveFloor ∘ h.aboveFloor⟩

/-- An update of the adaptive state that keeps the floor. -/
theorem Works.adapt (hcfg : t.cfg = s.cfg) (hw : t.pixelW = s.pixelW) (hst : t.status = s.status) (hp : t.p = s.p)
    (hstream : t.stream = s.stream) (hseq : t.seq = s.seq) (hcur : t.cursor = s.cursor)
    (had : s.aboveFloor → t.aboveFloor) : Works s t :=
  ⟨hcfg, hw, hst, hp, hstream, hseq, by rw [hcur],
    fun h => by unfold State.cursorOk; rw [hcfg, hcur, hstream]; exact h, had⟩

/-- An update of the registers and memories that neither the cursor nor the adaptive state nor the sequencer owns. -/
theorem Works.update (hcfg : t.cfg = s.cfg) (hw : t.pixelW = s.pixelW) (hst : t.status = s.status) (hp : t.p = s.p)
    (hstream : t.stream = s.stream) (hseq : t.seq = s.seq) (hcur : t.cursor = s.cursor) (had : t.ad = s.ad) :
    Works s t :=
  .adapt hcfg hw hst hp hstream hseq hcur fun h => by unfold State.aboveFloor; rw [hcfg, had]; exact h

theorem Run.Works.trans {α : Type} {x : Run α} (h : Machine.Works s t) (hx : x.Works t) : x.Works s := by
  cases x with
  | ok a u => exact Machine.Works.trans h hx
  | raised c u => exact Machine.Works.trans h hx
  | fault e => trivial
  | refused e => trivial

theorem Run.Works.bind {α β : Type} {x : Run α} {f : α → State → Run β} (hx : x.Works s)
    (hf : ∀ a t, (f a t).Works t) : (x.bind f).Works s := by
  cases x with
  | ok a t => exact .trans hx (hf a t)
  | raised c t => exact hx
  | fault e => trivial
  | refused e => trivial

end

/-! ### The bit cursor -/

/-- A fetch moves the cursor inside the payload, and forward (R121). -/
theorem fetchBit_works (s : State) : (fetchBit s).Works s := by
  cases h : fetchBit s with
  | ok b t =>
    rcases fetchBit_ok h with ⟨hcnt, _, rfl⟩ | ⟨_, hlt, x, hx, _, rfl⟩
    · refine ⟨rfl, rfl, rfl, rfl, rfl, rfl, le_rfl, fun ⟨hlo, hhi, h8, hcur⟩ => ⟨hlo, hhi, ?_, hcur⟩, id⟩
      show (s.cursor.cnt + 1).toNat ≤ 8
      bv_omega
    · have hidx : (s.cursor.idx + 1).toNat = s.cursor.idx.toNat + 1 := by bv_omega
      refine ⟨rfl, rfl, rfl, rfl, rfl, rfl, by simp only [hidx]; omega, fun ⟨hlo, hhi, h8, hcur⟩ => ?_, id⟩
      exact ⟨by simp only [hidx]; omega, by simp only [hidx]; omega, (by decide : (1 : BitVec 4).toNat ≤ 8), by simp only [hidx]; exact hx⟩
  | raised c t =>
    obtain ⟨_, rfl, _⟩ := fetchBit_raised h
    exact .refl t
  | fault e => trivial
  | refused e => trivial

theorem fetchBits_works (n : Nat) (s : State) : (fetchBits n s).Works s := by
  induction n generalizing s with
  | zero => exact .refl s
  | succ n ih => exact (fetchBit_works s).bind fun _ t => (ih t).bind fun _ u => .refl u

theorem fetchField_works (n : Nat) (s : State) : (fetchField n s).Works s :=
  (fetchBits_works n s).bind fun _ t => .refl t

/-! ### The adaptive Rice decoder -/

/-- Accumulators only grow with the residuals (R141, R147). -/
theorem accumulate_works (c : Channel) (x : Int) (s : State) : Works s (accumulate c x s) := by
  refine .adapt rfl rfl rfl rfl rfl rfl rfl fun h d => ?_
  show s.cfg.aMin.toNat ≤ (s.ad.a.set c (s.ad.a.get c + x.natAbs)).get d
  have hd := h d
  rw [Quad.get_set]
  split
  · rename_i hdc
    subst hdc
    omega
  · exact hd

/-- `AR.UPD_N` holds each accumulator at the floor (R148). -/
theorem updateN_works (s : State) : Works s (updateN s) := by
  refine .adapt rfl rfl rfl rfl rfl rfl rfl fun _ d => ?_
  simp [updatedN]

theorem seedEffect_works (c : Channel) (v : Nat) (s : State) : Works s (seedEffect c v s) := by
  have hregs : Works s { s with sym := { s.sym with v := v }, seedVal := s.seedVal.set c (fromAbs v) } :=
    .update rfl rfl rfl rfl rfl rfl rfl rfl
  exact hregs.trans (accumulate_works c (fromAbs v) _)

theorem symbolEffect_works (q : BitVec 8) (v : Nat) (s : State) : Works s (symbolEffect q v s) := by
  have hregs : Works s (mapResidual { s with sym := { s.sym with q := q, v := v } }) :=
    .update rfl rfl rfl rfl rfl rfl rfl rfl
  exact hregs.trans (accumulate_works s.ch (fromAbs v) _)

theorem setSym_works (x : SymbolRegs) (s : State) : Works s { s with sym := x } :=
  .update rfl rfl rfl rfl rfl rfl rfl rfl

theorem recomputeK_works (c : Channel) (s : State) : Works s (recomputeK c s) := setSym_works _ s

theorem mapResidual_works (s : State) : Works s (mapResidual s) := setSym_works _ s

theorem seedChannel_works (c : Channel) (s : State) : (seedChannel c s).Works s :=
  (fetchBit_works s).bind fun _ t => (fetchField_works _ t).bind fun v u => seedEffect_works c v u

theorem seedPixel_works (s : State) : (seedPixel s).Works s :=
  (seedChannel_works .y s).bind fun _ t => (seedChannel_works .cd t).bind fun _ u =>
    (seedChannel_works .cm u).bind fun _ v => seedChannel_works .co v

theorem unaryLoop_works (n : Nat) (s : State) : (unaryLoop n s).Works s := by
  induction n generalizing s with
  | zero => exact .refl s
  | succ n ih =>
    refine (fetchBit_works s).bind fun b t => ?_
    cases b with
    | true => exact .trans (setSym_works _ t) (ih _)
    | false => exact .refl t

theorem readUnary_works (s : State) : (readUnary s).Works s := by
  unfold readUnary
  split
  · trivial
  · exact .trans (setSym_works _ s) (unaryLoop_works _ _)

theorem readEscape_works (s : State) : (readEscape s).Works s :=
  (fetchField_works _ s).bind fun _ _ => setSym_works _ _

theorem readRemainder_works (s : State) : (readRemainder s).Works s :=
  (fetchField_works _ s).bind fun _ _ => setSym_works _ _

theorem decodeOne_works (c : Channel) (s : State) : (decodeOne c s).Works s := by
  refine .trans (recomputeK_works c s) ((readUnary_works _).bind fun _ u => .bind ?_ fun _ v => ?update)
  case update => exact (mapResidual_works v).trans (accumulate_works c _ _)
  split
  · exact readEscape_works u
  · exact readRemainder_works u

/-! ### The colour transform and `SEQ.CHECK` -/

theorem strictCheck_works (s : State) : (strictCheck s).Works s := by
  unfold strictCheck
  split <;> exact .refl s

theorem transformQuad_works (p : Nat) (val : Quad Half) (s : State) : (transformQuad p val s).Works s := by
  cases h : transformQuad p val s with
  | ok a t =>
    obtain ⟨_, _, rfl⟩ := transformQuad_ok h
    exact .update rfl rfl rfl rfl rfl rfl rfl rfl
  | raised c t =>
    obtain ⟨_, _, _, rfl⟩ := transformQuad_raised h
    exact .update rfl rfl rfl rfl rfl rfl rfl rfl
  | fault e => trivial
  | refused e => trivial

theorem checkConfig_works (s : State) : (checkConfig s).Works s := by
  cases h : checkConfig s with
  | ok a t =>
    obtain ⟨_, _, rfl⟩ := checkConfig_eq_ok.mp h
    exact .refl s
  | raised c t =>
    obtain ⟨_, _, rfl⟩ := checkConfig_eq_raised.mp h
    exact .refl s
  | fault e => trivial
  | refused e => trivial

/-! ### Every operation -/

/-- The operations that are not work on a pixel: the load of the cursor, the start of the adaptive state, the strategies, the
end of a run, and the host's configuration access and start. -/
def isControl : Instr → Bool
  | .bcLoad | .arInit | .seqRunSeq | .seqRunStaged | .seqDone | .hostCfgWrite _ | .hostStart => true
  | _ => false

/-- Every other operation works on a pixel, and then completes or raises. -/
theorem exec_works (i : Instr) (s : State) (hi : isControl i = false) :
    ∃ x : Run Unit, exec i s = x.outcome ∧ x.Works s := by
  have hupdate {t : State} (ht : Works s t) (he : exec i s = .next t) :
      ∃ x : Run Unit, exec i s = x.outcome ∧ x.Works s :=
    ⟨.ok () t, he, ht⟩
  cases i with
  | seed8 d v => exact hupdate (seedEffect_works s.ch v s) rfl
  | seed10 d v => exact hupdate (seedEffect_works s.ch v s) rfl
  | seed12 d v => exact hupdate (seedEffect_works s.ch v s) rfl
  | rice q r => exact hupdate ((recomputeK_works s.ch s).trans (symbolEffect_works _ _ _)) rfl
  | esc v => exact hupdate ((recomputeK_works s.ch s).trans (symbolEffect_works _ _ _)) rfl
  | bcFetch1 => exact ⟨_, rfl, (fetchBit_works s).bind fun _ _ => Works.update rfl rfl rfl rfl rfl rfl rfl rfl⟩
  | bcFetchN n => exact ⟨_, rfl, (fetchField_works n s).bind fun _ _ => Works.update rfl rfl rfl rfl rfl rfl rfl rfl⟩
  | arSeed => exact ⟨_, rfl, seedPixel_works s⟩
  | arK c => exact hupdate (recomputeK_works c s) rfl
  | arUnary => exact ⟨_, rfl, readUnary_works s⟩
  | arEsc => exact ⟨_, rfl, readEscape_works s⟩
  | arRem => exact ⟨_, rfl, readRemainder_works s⟩
  | arMap => exact hupdate (mapResidual_works s) rfl
  | arUpdA c => exact hupdate (accumulate_works c s.sym.resid s) rfl
  | arUpdN => exact hupdate (updateN_works s) rfl
  | arSym c => exact ⟨_, rfl, decodeOne_works c s⟩
  | ctStrict => exact ⟨_, rfl, strictCheck_works s⟩
  | ctQuad p val => exact ⟨_, rfl, transformQuad_works p.toNat val s⟩
  | seqCheck => exact ⟨_, rfl, checkConfig_works s⟩
  | seqFail c => exact ⟨.raised c s, rfl, .refl s⟩
  | dpSeed | dpSeq | dpStore | dpCol0 | dpRow | ctSum | ctDiv8 | ctShl | ctNarrow | hostStatusRead =>
    refine hupdate ?_ (by rfl)
    exact .update rfl rfl rfl rfl rfl rfl rfl rfl
  | bcLoad | arInit | seqRunSeq | seqRunStaged | seqDone | hostCfgWrite | hostStart => cases hi

theorem exec_works_next {i : Instr} {s t : State} (hi : isControl i = false) (h : exec i s = .next t) :
    Works s t ∨ ∃ c u, Works s u ∧ t = u.fail c := by
  obtain ⟨x, hx, hworks⟩ := exec_works i s hi
  rw [hx] at h
  rcases Run.outcome_eq_next.mp h with ⟨a, rfl⟩ | ⟨c, u, rfl, rfl⟩
  · exact .inl hworks
  · exact .inr ⟨c, u, hworks, rfl⟩

/-! ### Host operations -/

theorem cfgAccess_frame (acc : CfgAccess) (s : State) :
    ∃ c d, cfgAccess acc s = { s with cfg := c, hostData := d } ∧ (s.status.busy = true → c = s.cfg) := by
  cases acc with
  | read r => exact ⟨s.cfg, _, rfl, fun _ => rfl⟩
  | write r v =>
    by_cases hb : s.status.busy = true
    · exact ⟨s.cfg, s.hostData, by simp [cfgAccess, hb], fun _ => rfl⟩
    · exact ⟨_, s.hostData, by simp only [cfgAccess, hb]; rfl, fun h => absurd h hb⟩

theorem exec_hostStart (s : State) : exec .hostStart s = .next (if s.status.busy then s else s.begin) := by
  show execHostStart s = _
  unfold execHostStart
  split <;> rfl

/-! ### The cursor only moves forward -/

/-- Settles O15: an operation that is no control operation works on a pixel, which moves the cursor forward; of the others
only the load and the runs write the cursor. -/
theorem cursorIsForward : Obligations.CursorIsForward := by
  intro i s t hload hseq hstaged h
  cases hi : isControl i with
  | false =>
    rcases exec_works_next hi h with hw | ⟨c, u, hw, rfl⟩
    · exact hw.forward
    · exact hw.forward
  | true =>
    cases i with
    | bcLoad => exact absurd rfl hload
    | seqRunSeq => exact absurd rfl hseq
    | seqRunStaged => exact absurd rfl hstaged
    | arInit => cases h; exact le_rfl
    | seqDone => cases h; exact le_rfl
    | hostCfgWrite acc =>
      obtain ⟨c, d, heq, _⟩ := cfgAccess_frame acc s
      cases h
      rw [heq]
    | hostStart =>
      rw [exec_hostStart] at h
      cases h
      split <;> exact le_rfl
    | _ => cases hi

end Sys2Proof.Machine
end

section
/-! What a step keeps: STATUS and CODE, the floor of the accumulators, and the bounds of the two memories. -/

namespace Sys2Proof.Machine

/-! ### How the sequencer advances -/

/-- The places that can come after a place of a run, other than its end (R211, R214, R215). -/
structure SeqPoint.Follows (q r : SeqPoint) : Prop where
  running : r ≠ .idle
  select : r = .select → q = .check
  opened : r.opened = true → q = .select ∨ q.opened = true
  loaded : r.loaded = true → q = .load ∨ q.loaded = true
  initialised : r.initialised = true → q = .init ∨ q.initialised = true

/-- The places inside the image lie after the load and the opening of the strategy. -/
theorem SeqPoint.of_initialised {q : SeqPoint} (h : q.initialised = true) :
    q.opened = true ∧ q.loaded = true ∧ q ≠ .idle ∧ q ≠ .select := by
  cases q with
  | idle | check | select | load | init => cases h
  | _ => exact ⟨rfl, rfl, nofun, nofun⟩

/-- Inside the image every place may come after every other. -/
theorem SeqPoint.Follows.of_initialised {q r : SeqPoint} (hq : q.initialised = true) (hr : r.initialised = true) :
    q.Follows r := by
  obtain ⟨hqo, hql, _, _⟩ := SeqPoint.of_initialised hq
  obtain ⟨_, _, hri, hrs⟩ := SeqPoint.of_initialised hr
  exact ⟨hri, fun h => absurd h hrs, fun _ => .inr hqo, fun _ => .inr hql, fun _ => .inr hq⟩

/-! The advance changes P, CH and the sequencer's place only. -/

@[simp] theorem advance_status (s : State) : (advance s).status = s.status := by
  obtain ⟨_, _, _, heq⟩ := advance_frame s
  rw [heq]

@[simp] theorem advance_cfg (s : State) : (advance s).cfg = s.cfg := by
  obtain ⟨_, _, _, heq⟩ := advance_frame s
  rw [heq]

@[simp] theorem advance_pixelW (s : State) : (advance s).pixelW = s.pixelW := by
  obtain ⟨_, _, _, heq⟩ := advance_frame s
  rw [heq]

@[simp] theorem advance_stream (s : State) : (advance s).stream = s.stream := by
  obtain ⟨_, _, _, heq⟩ := advance_frame s
  rw [heq]

@[simp] theorem advance_cursor (s : State) : (advance s).cursor = s.cursor := by
  obtain ⟨_, _, _, heq⟩ := advance_frame s
  rw [heq]

@[simp] theorem advance_ad (s : State) : (advance s).ad = s.ad := by
  obtain ⟨_, _, _, heq⟩ := advance_frame s
  rw [heq]

/-- Where the sequencer can go inside the image: on to the next pixel, if there is one, or on to another place at the same
pixel, which in phase C is a place of pixel 0 or of a pixel of the image (R214, R215). -/
def Advances (s t : State) : Prop :=
  s.p.toNat + 1 < npix s.cfg ∧ t = { s with p := s.p + 1, ch := .y, seq := .codeword } ∨
    ∃ ch q, q.initialised = true ∧ (∀ p, q = .stagedQuad p → p = 0 ∨ p < npix s.cfg) ∧ t = { s with ch := ch, seq := q }

section
variable {s : State}

theorem Advances.place {ch : Channel} {q : SeqPoint} (hq : q.initialised = true) (hp : ∀ p, q ≠ .stagedQuad p) :
    Advances s { s with ch := ch, seq := q } :=
  .inr ⟨ch, q, hq, fun p h => absurd h (hp p), rfl⟩

theorem nextPixel_advances {after : SeqPoint} (ha : after.initialised = true) (hp : ∀ p, after ≠ .stagedQuad p) :
    Advances s (nextPixel after s) := by
  unfold nextPixel
  split
  · rename_i hlt
    exact .inl ⟨hlt, rfl⟩
  · exact .place ha hp

theorem nextChannel_advances {here : SeqPoint} {after : State → State} (hh : here.initialised = true)
    (hp : ∀ p, here ≠ .stagedQuad p) (ha : Advances s (after s)) : Advances s (nextChannel here after s) := by
  unfold nextChannel
  split
  · exact .place hh hp
  · exact ha

theorem advance_advances (h : s.seq.initialised = true) (hf : s.seq ≠ .finish) :
    Advances s (advance s) := by
  cases hs : s.seq <;> simp only [advance, hs]
  case idle | check | select | load | init => rw [hs] at h; cases h
  case finish => exact absurd hs hf
  case codeword =>
    split
    · refine nextChannel_advances rfl nofun ?_
      cases isStaged s.cfg <;> exact .place rfl nofun
    · cases isStaged s.cfg <;> exact .place rfl nofun
  case dpSeed => exact .place rfl nofun
  case dpSeq => exact nextChannel_advances rfl nofun (.place rfl nofun)
  case store =>
    split
    · exact nextChannel_advances rfl nofun (nextPixel_advances rfl nofun)
    · exact nextChannel_advances rfl nofun (.place rfl nofun)
  case updN =>
    split
    · exact nextPixel_advances rfl nofun
    · exact .place rfl nofun
  case quad => exact nextPixel_advances rfl nofun
  case col0 => exact .place rfl nofun
  case row r =>
    split
    · exact .place rfl nofun
    · exact .inr ⟨s.ch, _, rfl, fun p hp => by cases hp; exact .inl rfl, rfl⟩
  case stagedQuad q =>
    split
    · rename_i hq
      exact .inr ⟨s.ch, _, rfl, fun p hp => by cases hp; exact .inr hq, rfl⟩
    · exact .place rfl nofun

theorem advance_follows (hi : s.seq ≠ .idle) (hf : s.seq ≠ .finish) :
    s.seq.Follows (advance s).seq := by
  cases h : s.seq.initialised with
  | true =>
    refine .of_initialised h ?_
    rcases advance_advances h hf with ⟨_, heq⟩ | ⟨_, _, hq, _, heq⟩
    · rw [heq]; rfl
    · rw [heq]; exact hq
  | false =>
    cases hs : s.seq <;> simp_all [advance, SeqPoint.initialised]
    all_goals constructor <;> simp [SeqPoint.opened, SeqPoint.loaded, SeqPoint.initialised]

end

/-! ### What a move of the decoder does -/

/-- `v` is what the completed operation at the sequencer's place has made of `s`, before the sequencer advances. -/
structure Completes (s v : State) : Prop where
  cfg : v.cfg = s.cfg
  pixelW : v.pixelW = s.pixelW
  status : v.status = s.status
  p : v.p = s.p
  stream : v.stream = s.stream
  seq : v.seq = s.seq
  passed : s.seq = .check → checkFailure s.cfg = none ∧ s.cfgWF = true
  opened : s.seq = .select → s.cfgWF = true
  loaded : s.seq = .load → v.cursorOk
  initialised : s.seq = .init → v.ad.a = Quad.fill s.cfg.aInit.toNat
  cursorOk : s.cursorOk → v.cursorOk
  aboveFloor : s.seq ≠ .init → s.aboveFloor → v.aboveFloor

/-- `t` is the state a raise leaves in a run on the inputs of `s` (R217, R250). -/
def Raises (s t : State) : Prop :=
  ∃ c u, u.cfg = s.cfg ∧ u.pixelW = s.pixelW ∧ u.stream = s.stream ∧ t = State.fail u c

/-- What a move of the decoder does: nothing, a raise, the end of the run, or an operation and the advance. -/
inductive Moves (s : State) : State → Prop
  | idle : s.seq = .idle → Moves s s
  | raised (t : State) : Raises s t → Moves s t
  | ended : s.seq = .finish → Moves s s.succeed
  | completed (v : State) : s.seq ≠ .idle → s.seq ≠ .finish → Completes s v → Moves s (advance v)

section
variable {s t v : State}

/-- Work on a pixel completes the operation at a place that asks for nothing more. -/
theorem Works.completes (h : Works s v) (hcheck : s.seq = .check → checkFailure s.cfg = none ∧ s.cfgWF = true)
    (hselect : s.seq = .select → s.cfgWF = true) (hload : s.seq ≠ .load) (hinit : s.seq ≠ .init) : Completes s v :=
  ⟨h.cfg, h.pixelW, h.status, h.p, h.stream, h.seq, hcheck, hselect, fun hl => absurd hl hload,
    fun hi => absurd hi hinit, h.cursorOk, fun _ => h.aboveFloor⟩

/-- Work on a pixel and then, possibly, a raise. -/
def WorksOrRaises (s t : State) : Prop := Works s t ∨ Raises s t

theorem Works.fail (h : Works s v) (c : RaiseCode) : Raises s (v.fail c) := ⟨c, v, h.cfg, h.pixelW, h.stream, rfl⟩

theorem Raises.seq_idle (h : Raises s t) : t.seq = .idle := by
  obtain ⟨c, u, _, _, _, rfl⟩ := h
  exact fail_seq u c

theorem outcome_works {x : Run Unit} (hx : x.Works s) (h : x.outcome = .next t) : WorksOrRaises s t := by
  rcases Run.outcome_eq_next.mp h with ⟨a, rfl⟩ | ⟨c, u, rfl, rfl⟩
  · exact .inl hx
  · exact .inr (Works.fail hx c)

/-- A codeword is no control operation. -/
theorem isControl_of_isCodeword {i : Instr} (h : i.isCodeword = true) : isControl i = false := by
  cases i with
  | seed8 | seed10 | seed12 | rice | esc => rfl
  | _ => cases h

theorem codewordMove_works (h : codewordMove s = .next t) : WorksOrRaises s t := by
  rcases codewordMove_next h with ⟨i, n, bs, c, hi, hf, he⟩ | ⟨c, rfl⟩ | ⟨_, _, ho⟩ | ⟨_, _, ho⟩
  · have hcur : Works s { s with cursor := c } := by
      have hfetch := fetchBits_works n s
      rwa [hf] at hfetch
    rcases exec_works_next (isControl_of_isCodeword (codewordAhead_isCodeword hi)) he with hw | ⟨d, u, hw, rfl⟩
    · exact .inl (hcur.trans hw)
    · exact .inr ((hcur.trans hw).fail d)
  · exact .inr ⟨.allBitsConsumed, { s with cursor := c }, rfl, rfl, rfl, rfl⟩
  · exact outcome_works (seedChannel_works s.ch s) ho
  · exact outcome_works (decodeOne_works s.ch s) ho

/-- Work at a place inside the image, and the advance after it. -/
theorem moves_of_works (hs : s.seq.initialised = true) (hf : s.seq ≠ .finish) (h : WorksOrRaises s v) :
    Moves s (advance v) := by
  rcases h with hw | hr
  · have hne {q : SeqPoint} (hq : q.initialised = false) : s.seq ≠ q := by
      rintro rfl
      rw [hs] at hq
      cases hq
    exact .completed v (hne rfl) hf (hw.completes (fun h => absurd h (hne rfl)) (fun h => absurd h (hne rfl)) (hne rfl)
      (hne rfl))
  · rw [advance_idle hr.seq_idle]
    exact .raised v hr

/-- The sequencer selects a control operation only for the load, the start of the adaptive state and the end. -/
theorem selectedOp_isControl {i : Instr} (h : selectedOp s = some i) (hc : isControl i = true) :
    s.seq = .load ∧ i = .bcLoad ∨ s.seq = .init ∧ i = .arInit ∨ s.seq = .finish ∧ i = .seqDone := by
  unfold selectedOp at h
  cases hs : s.seq <;> simp only [hs, Option.some.injEq, reduceCtorEq] at h <;> subst h
  case load => exact .inl ⟨rfl, rfl⟩
  case init => exact .inr (.inl ⟨rfl, rfl⟩)
  case finish => exact .inr (.inr ⟨rfl, rfl⟩)
  all_goals cases hc

/-- `SEQ.CHECK` lets the run go on only under a configuration in `CfgWF` that passes its tests (R213). -/
theorem moves_seqCheck (hs : s.seq = .check) (h : exec .seqCheck s = .next v) : Moves s (advance v) := by
  rcases Run.outcome_eq_next.mp (exec_seqCheck s ▸ h) with ⟨a, hx⟩ | ⟨c, u, hx, rfl⟩
  · obtain ⟨hf, hwf, rfl⟩ := checkConfig_eq_ok.mp hx
    exact .completed s (by simp [hs]) (by simp [hs])
      ((Works.refl s).completes (fun _ => ⟨hf, hwf⟩) (by simp [hs]) (by simp [hs]) (by simp [hs]))
  · obtain ⟨_, _, rfl⟩ := checkConfig_eq_raised.mp hx
    rw [advance_idle (fail_seq s c)]
    exact .raised _ ((Works.refl s).fail c)

/-- `BC.LOAD` puts the cursor at the payload's first byte (R120). -/
theorem moves_bcLoad (hs : s.seq = .load) (h : exec .bcLoad s = .next v) : Moves s (advance v) := by
  rcases Run.outcome_eq_next.mp (show (loadCursor s).outcome = .next v from h) with ⟨a, hx⟩ | ⟨c, u, hx, rfl⟩
  · obtain ⟨hlt, x, hfind, rfl⟩ := loadCursor_ok hx
    have hok : ({ s with cursor := ⟨s.cfg.payloadOffset, 0, x⟩ } : State).cursorOk :=
      ⟨le_rfl, hlt, (by decide : (0 : BitVec 4).toNat ≤ 8), hfind⟩
    exact .completed _ (by simp [hs]) (by simp [hs])
      ⟨rfl, rfl, rfl, rfl, rfl, rfl, by simp [hs], by simp [hs], fun _ => hok, by simp [hs], fun _ => hok, fun _ => id⟩
  · obtain ⟨_, rfl, _⟩ := loadCursor_raised hx
    rw [advance_idle (fail_seq u c)]
    exact .raised _ ((Works.refl u).fail c)

theorem moves_arInit (hs : s.seq = .init) (h : exec .arInit s = .next v) : Moves s (advance v) := by
  cases h
  exact .completed _ (by simp [hs]) (by simp [hs])
    ⟨rfl, rfl, rfl, rfl, rfl, rfl, by simp [hs], by simp [hs], by simp [hs], fun _ => rfl, id, fun h => absurd hs h⟩

/-- The places where an operation other than `SEQ.CHECK` and the control operations is selected lie inside the image. -/
theorem selectedOp_initialised {i : Instr} (h : selectedOp s = some i) (hc : isControl i = false) :
    s.seq = .check ∧ i = .seqCheck ∨ s.seq.initialised = true ∧ s.seq ≠ .finish := by
  unfold selectedOp at h
  cases hs : s.seq <;> simp only [hs, Option.some.injEq, reduceCtorEq] at h <;> subst h
  case check => exact .inl ⟨rfl, rfl⟩
  case load | init | finish => cases hc
  all_goals exact .inr ⟨rfl, nofun⟩

theorem decoderMove_moves (h : decoderMove s = .next t) : Moves s t := by
  rcases decoderMove_next h with ⟨i, u, hi, he, rfl⟩ | ⟨hs, u, hu, rfl⟩ | ⟨hs, hwf, rfl⟩ | ⟨hs, rfl⟩
  · cases hc : isControl i with
    | true =>
      rcases selectedOp_isControl hi hc with ⟨hs, rfl⟩ | ⟨hs, rfl⟩ | ⟨hs, rfl⟩
      · exact moves_bcLoad hs he
      · exact moves_arInit hs he
      · cases he
        rw [advance_idle (succeed_seq s)]
        exact .ended hs
    | false =>
      rcases selectedOp_initialised hi hc with ⟨hs, rfl⟩ | ⟨hs, hf⟩
      · exact moves_seqCheck hs he
      · refine moves_of_works hs hf ((exec_works_next hc he).imp_right ?_)
        rintro ⟨c, v, hw, rfl⟩
        exact hw.fail c
  · exact moves_of_works (by rw [hs]; rfl) (by simp [hs]) (codewordMove_works hu)
  · have hadv : ({ s with seq := .load } : State) = advance s := by simp [advance, hs]
    rw [hadv]
    exact .completed s (by simp [hs]) (by simp [hs])
      ((Works.refl s).completes (by simp [hs]) (fun _ => hwf) (by simp [hs]) (by simp [hs]))
  · exact .idle hs

/-! ### What a step does -/

/-- What a request of the host does: during a run it only gives an answer; otherwise it may also begin a run or write the
configuration and stream memory (R73, R210, R211, R272). -/
inductive Serves (s : State) : State → Prop
  | answer (d : BitVec 32) : Serves s { s with hostData := d }
  | start : s.status.busy = false → Serves s s.begin
  | write (c : Cfg) (m : Mem 8) : s.status.busy = false → Serves s { s with cfg := c, stream := m }

theorem hostMove_serves {e : HostEvent} (h : hostMove e s = .next t) : Serves s t := by
  cases e with
  | cfg acc =>
    cases h
    cases acc with
    | read r => exact .answer _
    | write r v =>
      cases hb : s.status.busy with
      | true =>
        rw [cfgAccess, if_pos hb]
        exact .answer s.hostData
      | false =>
        rw [cfgAccess, if_neg (by simp [hb])]
        exact .write _ s.stream hb
  | start =>
    cases (exec_hostStart s).symm.trans h
    cases hb : s.status.busy with
    | true => exact .answer s.hostData
    | false => exact .start hb
  | statusRead =>
    cases h
    exact .answer _
  | streamWrite addr b =>
    simp only [hostMove] at h
    split at h
    · cases h
    · rename_i hb
      cases h
      exact .write s.cfg _ (by simpa using hb)
  | outRead j =>
    simp only [hostMove] at h
    split at h
    · cases h
    · split at h
      · cases h
        exact .answer _
      · cases h

/-- A step is a move of the decoder or serves the host (R19, R72). -/
theorem step_next (h : step s = .next t) :
    ∃ l, Moves { s with host := l } t ∨ Serves { s with host := l } t := by
  rcases turn_cases s with ⟨l, hl⟩ | ⟨e, rest, hh⟩
  · exact ⟨l, .inl (decoderMove_moves (step_of_turn hl ▸ h))⟩
  · exact ⟨rest, .inr (hostMove_serves (step_of_host hh ▸ h))⟩

/-! ### STATUS and CODE -/

/-- An ended run has STATUS with BUSY 0 and DONE 1, and an idle block. -/
theorem statusOk_of_end {c : Status} (hst : t.status = statusEnd c) (hseq : t.seq = .idle) : t.statusOk := by
  simp [State.statusOk, hst, hseq, statusEnd]

theorem codeOk_of_raised {c : RaiseCode} (hst : t.status = statusEnd (raisedStatus c)) : t.codeOk := by
  simp only [State.codeOk, hst]
  cases c <;> exact ⟨nofun, nofun⟩

theorem Completes.seq_follows (h : Completes s v) (hi : s.seq ≠ .idle) (hf : s.seq ≠ .finish) :
    s.seq.Follows (advance v).seq :=
  h.seq ▸ advance_follows (h.seq ▸ hi) (h.seq ▸ hf)

theorem Moves.statusOk_codeOk (hm : Moves s t) (hs : s.statusOk) (hc : s.codeOk) : t.statusOk ∧ t.codeOk := by
  cases hm with
  | idle _ => exact ⟨hs, hc⟩
  | raised _ hr =>
    obtain ⟨c, u, _, _, _, rfl⟩ := hr
    exact ⟨statusOk_of_end (fail_status u c) (fail_seq u c), codeOk_of_raised (fail_status u c)⟩
  | ended _ => exact ⟨statusOk_of_end (succeed_status s) (succeed_seq s), nofun, nofun⟩
  | completed v hi hf hv =>
    have hst : (advance v).status = s.status := (advance_status v).trans hv.status
    obtain ⟨hbusy, hexcl⟩ := hs
    simp only [State.statusOk, State.codeOk, hst]
    exact ⟨⟨iff_of_true (hbusy.mpr hi) (hv.seq_follows hi hf).running, hexcl⟩, hc⟩

theorem Serves.statusOk_codeOk (hv : Serves s t) (hs : s.statusOk) (hc : s.codeOk) : t.statusOk ∧ t.codeOk := by
  cases hv with
  | answer d => exact ⟨hs, hc⟩
  | start hb => exact ⟨by simp [State.statusOk, statusStart], hc⟩
  | write c m hb => exact ⟨hs, hc⟩

/-! ### The floor of the accumulators -/

theorem cfgWF_floor (h : s.cfgWF = true) : s.cfg.aMin.toNat ≤ s.cfg.aInit.toNat := by
  have hr := registersWF_of_cfgWF h
  simp only [registersWF, Bool.and_eq_true, decide_eq_true_eq] at hr
  omega

/-- An idle block is at no place of a run. -/
theorem not_opened_of_idle (h : s.seq = .idle) :
    s.seq.opened ≠ true ∧ s.seq.loaded ≠ true ∧ s.seq.initialised ≠ true := by
  simp [h, SeqPoint.opened, SeqPoint.loaded, SeqPoint.initialised]

theorem floorOk_of_idle (h : t.seq = .idle) : t.floorOk := by
  obtain ⟨ho, _, hi⟩ := not_opened_of_idle h
  exact ⟨fun h => absurd h ho, fun h => absurd h hi⟩

theorem Moves.floorOk (hm : Moves s t) (hs : s.floorOk) : t.floorOk := by
  cases hm with
  | idle _ => exact hs
  | raised _ hr => exact floorOk_of_idle hr.seq_idle
  | ended _ => exact floorOk_of_idle (succeed_seq s)
  | completed v hi hf hv =>
    have hnext := hv.seq_follows hi hf
    have hcfg : (advance v).cfg = s.cfg := (advance_cfg v).trans hv.cfg
    obtain ⟨hopened, hfloor⟩ := hs
    have hlow : s.seq = .select ∨ s.seq.opened = true → s.cfg.aMin.toNat ≤ s.cfg.aInit.toNat :=
      fun h => h.elim (fun hsel => cfgWF_floor (hv.opened hsel)) hopened
    refine ⟨fun h => hcfg ▸ hlow (hnext.opened h), fun h => ?_⟩
    rw [advance_cfg, advance_ad]
    rcases hnext.initialised h with hinit | hinit
    · intro c
      rw [hv.initialised hinit, hv.cfg, Quad.get_fill]
      exact hlow (.inr (by rw [hinit]; rfl))
    · exact hv.aboveFloor (by rintro heq; rw [heq] at hinit; cases hinit) (hfloor hinit)

/-- An idle block is what the host may begin a run on or write. -/
theorem idle_of_not_busy (hs : s.statusOk) (hb : s.status.busy = false) : s.seq = .idle := by
  by_contra hi
  exact absurd (hs.1.mpr hi) (by simp [hb])

theorem Serves.floorOk (hv : Serves s t) (hst : s.statusOk) (hs : s.floorOk) : t.floorOk := by
  cases hv with
  | answer d => exact hs
  | start hb => exact ⟨nofun, nofun⟩
  | write c m hb => exact floorOk_of_idle (idle_of_not_busy hst hb)

/-! ### The bounds of the two memories -/

theorem geometryOk_of_idle (h : t.seq = .idle) : t.geometryOk := by
  obtain ⟨ho, _, hi⟩ := not_opened_of_idle h
  exact ⟨fun hs => absurd hs (by simp [h, SeqPoint.opened]), fun hp => absurd hp hi, fun p hp => by simp [h] at hp⟩

theorem runCursorOk_of_idle (h : t.seq = .idle) : t.runCursorOk := fun hl => absurd hl (not_opened_of_idle h).2.1

/-- The configuration and the stream are the run's inputs: no operation of a run writes them (R43, R76). -/
theorem Moves.inputs (hm : Moves s t) : t.cfg = s.cfg ∧ t.stream = s.stream ∧ t.pixelW = s.pixelW := by
  cases hm with
  | idle _ => exact ⟨rfl, rfl, rfl⟩
  | raised _ hr =>
    obtain ⟨c, u, hcfg, hw, hstream, rfl⟩ := hr
    exact ⟨hcfg, hstream, hw⟩
  | ended _ => exact ⟨rfl, rfl, rfl⟩
  | completed v hi hf hv =>
    exact ⟨(advance_cfg v).trans hv.cfg, (advance_stream v).trans hv.stream, (advance_pixelW v).trans hv.pixelW⟩

theorem cursorOk_congr (hcfg : t.cfg = s.cfg) (hcur : t.cursor = s.cursor) (hstream : t.stream = s.stream) :
    t.cursorOk ↔ s.cursorOk := by
  simp only [State.cursorOk, hcfg, hcur, hstream]

theorem cfgWF_congr (hcfg : t.cfg = s.cfg) (hw : t.pixelW = s.pixelW) : t.cfgWF = s.cfgWF := by
  simp only [State.cfgWF, hcfg, hw]

theorem Moves.runCursorOk (hm : Moves s t) (hs : s.runCursorOk) : t.runCursorOk := by
  cases hm with
  | idle _ => exact hs
  | raised _ hr => exact runCursorOk_of_idle hr.seq_idle
  | ended _ => exact runCursorOk_of_idle (succeed_seq s)
  | completed v hi hf hv =>
    intro hl
    rw [cursorOk_congr (advance_cfg v) (advance_cursor v) (advance_stream v)]
    rcases (hv.seq_follows hi hf).loaded hl with hload | hload
    · exact hv.loaded hload
    · exact hv.cursorOk (hs hload)

/-- The sequencer's next place has a pixel of the image where it needs one (R32, R78). -/
theorem Completes.next_pixel (hv : Completes s v) (hf : s.seq ≠ .finish) (hwf : s.cfgWF = true)
    (hp : s.seq.initialised = true → s.p.toNat < npix s.cfg) (hinit : s.seq = .init ∨ s.seq.initialised = true) :
    (advance v).p.toNat < npix s.cfg ∧ ∀ p, (advance v).seq = .stagedQuad p → p < npix s.cfg := by
  have hpos := npix_pos hwf
  rcases hinit with hinit | hinit
  · have hadv : advance v = { firstPixel v with seq := .codeword } := by simp [advance, hv.seq, hinit]
    rw [hadv]
    exact ⟨hpos, nofun⟩
  · have hbelow := hp hinit
    rcases advance_advances (s := v) (hv.seq ▸ hinit) (hv.seq ▸ hf) with ⟨hlt, heq⟩ | ⟨ch, q, _, hq, heq⟩
    · rw [hv.cfg] at hlt
      have hnpix := npix_lt s.cfg
      rw [heq]
      refine ⟨?_, nofun⟩
      show (v.p + 1).toNat < npix s.cfg
      bv_omega
    · rw [heq]
      refine ⟨hv.p ▸ hbelow, fun p hpq => ?_⟩
      rcases hq p hpq with rfl | hlt
      · exact hpos
      · rwa [hv.cfg] at hlt

theorem Moves.geometryOk (hm : Moves s t) (hs : s.geometryOk) : t.geometryOk := by
  cases hm with
  | idle _ => exact hs
  | raised _ hr => exact geometryOk_of_idle hr.seq_idle
  | ended _ => exact geometryOk_of_idle (succeed_seq s)
  | completed v hi hf hv =>
    obtain ⟨hcheck, hp, _⟩ := hs
    have hnext := hv.seq_follows hi hf
    have hcfg : (advance v).cfg = s.cfg := (advance_cfg v).trans hv.cfg
    have hwf : (advance v).cfgWF = s.cfgWF := cfgWF_congr hcfg ((advance_pixelW v).trans hv.pixelW)
    have hopen (h : (advance v).seq.opened = true) := hcheck (hnext.opened h)
    have hpixel (h : (advance v).seq.initialised = true) :=
      hv.next_pixel hf (hopen (SeqPoint.of_initialised h).1).2 hp (hnext.initialised h)
    unfold State.geometryOk
    rw [hcfg, hwf]
    refine ⟨fun h => ?_, fun h => (hpixel h).1, fun p h => (hpixel (by rw [h]; rfl)).2 p h⟩
    rcases h with h | h
    · exact hv.passed (hnext.select h)
    · exact hopen h

/-- What an operation of a run can stop the model with is an unwritten byte of the payload. -/
theorem Run.StaysIn.outcome_ne {x : Run Unit} (hx : x.StaysIn s) : x.outcome ≠ .fault .outOfRange := by
  cases x with
  | ok a t => nofun
  | raised c t => nofun
  | refused e => nofun
  | fault e =>
    obtain ⟨rfl, _⟩ := hx
    nofun

/-- The tests of `SEQ.CHECK` read no memory. -/
theorem checkConfig_ne_fault (s : State) (e : Fault) : checkConfig s ≠ .fault e := by
  unfold checkConfig requireCfgWF
  split <;> (try split) <;> simp

theorem checkConfig_outcome_ne (s : State) (e : Fault) : (checkConfig s).outcome ≠ .fault e := by
  cases h : checkConfig s with
  | fault e' => exact absurd h (checkConfig_ne_fault s e')
  | ok a t => nofun
  | raised c t => nofun
  | refused r => nofun

theorem advanced_ne_fault {o : Host.Outcome State Fault Refusal} {e : Fault} (h : o ≠ .fault e) :
    advanced o ≠ .fault e := by
  cases o <;> simp_all [advanced]

theorem advanced_next_ne_fault (s : State) (e : Fault) : advanced (.next s) ≠ .fault e := nofun

/-- A codeword's meaning never stops the model. -/
theorem exec_isCodeword_next {i : Instr} (h : i.isCodeword = true) (s : State) : ∃ t, exec i s = .next t := by
  cases i with
  | seed8 | seed10 | seed12 | rice | esc => exact ⟨_, rfl⟩
  | _ => cases h

/-- Reading the codeword at the cursor writes no output element. -/
theorem codewordMove_ne_outOfRange (hcap : s.cfg.unaryCap ≠ 0) (hsame : SameRun s s) :
    codewordMove s ≠ .fault .outOfRange := by
  unfold codewordMove
  split
  · rename_i i n hi
    have hbits := fetchBits_staysIn n hsame
    split
    · obtain ⟨t, ht⟩ := exec_isCodeword_next (codewordAhead_isCodeword hi) ‹State›
      rw [ht]
      nofun
    · nofun
    · rename_i e he
      rw [he] at hbits
      obtain ⟨rfl, _⟩ := hbits
      nofun
    · nofun
  · split
    · exact (seedChannel_staysIn s.ch hsame).outcome_ne
    · exact (decodeOne_staysIn hcap s.ch hsame).outcome_ne

/-- Every element that a run writes lies below CFG.OUT_LEN (R78). -/
theorem decoderMove_ne_outOfRange (hcur : s.runCursorOk) (hg : s.geometryOk) :
    decoderMove s ≠ .fault .outOfRange := by
  obtain ⟨hcheck, hp, hquad⟩ := hg
  have hsame (h : s.seq.initialised = true) : SameRun s s :=
    ⟨rfl, rfl, (hcur (SeqPoint.of_initialised h).2.1).1⟩
  have hwf (h : s.seq.initialised = true) := hcheck (.inr (SeqPoint.of_initialised h).1)
  unfold decoderMove
  cases hs : s.seq <;> simp only [selectedOp, hs]
  case idle => nofun
  case check => exact advanced_ne_fault (checkConfig_outcome_ne s _)
  case select =>
    refine advanced_ne_fault ?_
    unfold requireCfgWF
    split <;> nofun
  case load => exact advanced_ne_fault (loadCursor_staysIn s).outcome_ne
  case codeword =>
    have hi : s.seq.initialised = true := by rw [hs]; rfl
    exact advanced_ne_fault (codewordMove_ne_outOfRange (cfgWF_bounds (hwf hi).2).1 (hsame hi))
  case quad =>
    have hi : s.seq.initialised = true := by rw [hs]; rfl
    exact advanced_ne_fault (transformQuad_staysIn (hwf hi).1 (hp hi) _ (hsame hi)).outcome_ne
  case stagedQuad p =>
    have hi : s.seq.initialised = true := by rw [hs]; rfl
    have hbelow := hquad p hs
    have hnat : (BitVec.ofNat 32 p).toNat < npix s.cfg := by
      rwa [BitVec.toNat_ofNat, Nat.mod_eq_of_lt (hbelow.trans (npix_lt s.cfg))]
    exact advanced_ne_fault (transformQuad_staysIn (hwf hi).1 hnat _ (hsame hi)).outcome_ne
  case init | dpSeed | dpSeq | store | updN | col0 | row | finish => exact advanced_next_ne_fault _ _

theorem hostMove_ne_outOfRange (e : HostEvent) (s : State) : hostMove e s ≠ .fault .outOfRange := by
  cases e with
  | cfg acc => nofun
  | start =>
    rw [show hostMove .start s = exec .hostStart s from rfl, exec_hostStart]
    nofun
  | statusRead => nofun
  | streamWrite addr b =>
    simp only [hostMove]
    split <;> nofun
  | outRead j =>
    simp only [hostMove]
    split
    · nofun
    · split <;> nofun

theorem Serves.inBounds (hv : Serves s t) (hst : s.statusOk) (hcur : s.runCursorOk) (hg : s.geometryOk) :
    t.runCursorOk ∧ t.geometryOk ∧
      (s.status.busy = true → t.cfg = s.cfg ∧ t.stream = s.stream ∧ t.pixelW = s.pixelW) := by
  cases hv with
  | answer d => exact ⟨hcur, hg, fun _ => ⟨rfl, rfl, rfl⟩⟩
  | start hb => exact ⟨nofun, ⟨nofun, nofun, nofun⟩, fun _ => ⟨rfl, rfl, rfl⟩⟩
  | write c m hb =>
    have hidle := idle_of_not_busy hst hb
    exact ⟨runCursorOk_of_idle hidle, geometryOk_of_idle hidle, fun h => absurd h (by simp [hb])⟩

end

/-! ### What every step keeps -/

/-- Settles O58, by the cases of a step: only a start, the end of a run and a raise write STATUS, and each sets the
sequencer's place with it. -/
theorem stepKeepsStatus : Obligations.StepKeepsStatus := by
  intro s t hs hc h
  obtain ⟨l, hm | hv⟩ := step_next h
  · exact hm.statusOk_codeOk hs hc
  · exact hv.statusOk_codeOk hs hc

/-- Settles O59, by the cases of a step: opening the strategy asks for CFG.A_MIN at most CFG.A_INIT, `AR.INIT` starts from
there, a symbol adds to an accumulator and `AR.UPD_N` clamps it. -/
theorem stepKeepsFloor : Obligations.StepKeepsFloor := by
  intro s t hst hs h
  obtain ⟨l, hm | hv⟩ := step_next h
  · exact hm.floorOk hs
  · exact hv.floorOk hst hs

/-- Settles O60: a fetch stays in the payload, the sequencer goes to a pixel of the image only, and an image that passed
`SEQ.CHECK` has its elements below CFG.OUT_LEN. -/
theorem stepStaysInBounds : Obligations.StepStaysInBounds := by
  intro s hst hcur hg
  constructor
  · rcases turn_cases s with ⟨l, hl⟩ | ⟨e, rest, hh⟩
    · rw [step_of_turn hl]
      exact decoderMove_ne_outOfRange hcur hg
    · rw [step_of_host hh]
      exact hostMove_ne_outOfRange e _
  · intro t h
    obtain ⟨l, hm | hv⟩ := step_next h
    · exact ⟨hm.runCursorOk hcur, hm.geometryOk hg, fun _ => hm.inputs⟩
    · exact hv.inBounds hst hcur hg

end Sys2Proof.Machine
end

section
/-! Two runs on the same inputs, operation by operation: what the block reads of its state it has written in the same run, so
that the two runs do the same (R42, R271). -/

namespace Sys2Proof.Machine

/-! ### Two operations that answer alike -/

/-- Two operations answer alike: both complete with the same value, in states that `R` relates, both raise the same code, or both
stop for the same reason. -/
inductive Run.Alike {α : Type} (R : State → State → Prop) : Run α → Run α → Prop
  | ok (a : α) (t t' : State) : R t t' → Alike R (.ok a t) (.ok a t')
  | raised (c : RaiseCode) (t t' : State) : Alike R (.raised c t) (.raised c t')
  | fault (e : Fault) : Alike R (.fault e) (.fault e)
  | refused (e : Refusal) : Alike R (.refused e) (.refused e)

theorem Run.Alike.bind {α β : Type} {R Q : State → State → Prop} {x y : Run α} {f g : α → State → Run β}
    (h : x.Alike R y) (hf : ∀ a t t', R t t' → (f a t).Alike Q (g a t')) : (x.bind f).Alike Q (y.bind g) := by
  cases h with
  | ok a t t' hr => exact hf a t t' hr
  | raised c t t' => exact .raised c t t'
  | fault e => exact .fault e
  | refused e => exact .refused e

theorem Run.Alike.mono {α : Type} {R Q : State → State → Prop} {x y : Run α} (h : x.Alike R y)
    (hq : ∀ t t', R t t' → Q t t') : x.Alike Q y := by
  cases h with
  | ok a t t' hr => exact .ok a t t' (hq t t' hr)
  | raised c t t' => exact .raised c t t'
  | fault e => exact .fault e
  | refused e => exact .refused e

/-- What each operation says of its own end holds besides. -/
theorem Run.Alike.and {α : Type} {R : State → State → Prop} {P Q : State → Prop} {x y : Run α} (h : x.Alike R y)
    (hp : ∀ a t, x = .ok a t → P t) (hq : ∀ a t, y = .ok a t → Q t) :
    x.Alike (fun t t' => R t t' ∧ P t ∧ Q t') y := by
  cases h with
  | ok a t t' hr => exact .ok a t t' ⟨hr, hp a t rfl, hq a t' rfl⟩
  | raised c t t' => exact .raised c t t'
  | fault e => exact .fault e
  | refused e => exact .refused e

/-! ### The bit cursor -/

/-- The two states have the same configuration and the same payload bytes (R42, R271). -/
structure SamePayload (s s' : State) : Prop where
  cfg : s'.cfg = s.cfg
  payload : ∀ i, s.cfg.payloadOffset.toNat ≤ i → i < s.cfg.streamLen.toNat →
    Mem.find s'.stream i = Mem.find s.stream i

/-- Besides, their cursors stand at the same bit, in the payload. -/
structure SameBits (s s' : State) : Prop extends SamePayload s s' where
  cursor : s'.cursor = s.cursor
  forward : s.cfg.payloadOffset.toNat ≤ s.cursor.idx.toNat

/-- The two operations have moved the cursors of `s` and `s'` to one bit of the payload and changed nothing else. -/
def CursorMoved (s s' t t' : State) : Prop :=
  ∃ cur, s.cfg.payloadOffset.toNat ≤ cur.idx.toNat ∧ t = { s with cursor := cur } ∧ t' = { s' with cursor := cur }

section
variable {s s' t t' : State}

/-- Updates that leave CFG and stream memory and put the cursors at one bit keep the two runs at the same bits. -/
theorem SameBits.update (h : SamePayload s s') (hcfg : t.cfg = s.cfg) (hcfg' : t'.cfg = s'.cfg)
    (hstream : t.stream = s.stream) (hstream' : t'.stream = s'.stream) (hcur : t'.cursor = t.cursor)
    (hfwd : s.cfg.payloadOffset.toNat ≤ t.cursor.idx.toNat) : SameBits t t' where
  cfg := by rw [hcfg, hcfg', h.cfg]
  payload := by rw [hcfg, hstream, hstream']; exact h.payload
  cursor := hcur
  forward := by rw [hcfg]; exact hfwd

/-- A byte of the payload is the same in both runs, or unwritten in both. -/
theorem streamRead_bind_alike {β : Type} {R : State → State → Prop} {f g : Byte → State → Run β}
    (h : SamePayload s s') {i : Nat} (hlo : s.cfg.payloadOffset.toNat ≤ i) (hhi : i < s.cfg.streamLen.toNat)
    (hf : ∀ b, (f b s).Alike R (g b s')) : ((streamRead s i).bind f).Alike R ((streamRead s' i).bind g) := by
  have hfind := h.payload i hlo hhi
  cases hb : Mem.find s.stream i with
  | none =>
    rw [streamRead_of_unwritten hb, streamRead_of_unwritten (hfind.trans hb)]
    exact .fault _
  | some b =>
    rw [streamRead_of_find hb, streamRead_of_find (hfind.trans hb)]
    exact hf b

theorem fetchBit_alike (h : SameBits s s') : (fetchBit s).Alike (CursorMoved s s') (fetchBit s') := by
  have hfwd := h.forward
  have hlen : s'.cfg.streamLen = s.cfg.streamLen := by rw [h.cfg]
  have hidx : s'.cursor.idx = s.cursor.idx := by rw [h.cursor]
  have hcnt : s'.cursor.cnt = s.cursor.cnt := by rw [h.cursor]
  have hcur : s'.cursor.cur = s.cursor.cur := by rw [h.cursor]
  simp only [fetchBit, deliverBit, hlen, hidx, hcnt, hcur]
  split
  · split
    · exact .raised _ _ _
    · rename_i hlt
      refine streamRead_bind_alike h.toSamePayload (by omega) (by omega) fun b =>
        .ok _ _ _ ⟨⟨s.cursor.idx + 1, 1, b⟩, ?_, rfl, by simp [hidx]⟩
      show _ ≤ (s.cursor.idx + 1).toNat
      bv_omega
  · exact .ok _ _ _ ⟨⟨s.cursor.idx, s.cursor.cnt + 1, s.cursor.cur⟩, hfwd, rfl, rfl⟩

theorem SameBits.moved (h : SameBits s s') (hm : CursorMoved s s' t t') : SameBits t t' := by
  obtain ⟨cur, hfwd, rfl, rfl⟩ := hm
  exact .update h.toSamePayload rfl rfl rfl rfl rfl hfwd

theorem CursorMoved.refl (h : SameBits s s') : CursorMoved s s' s s' :=
  ⟨s.cursor, h.forward, rfl, by rw [← h.cursor]⟩

theorem CursorMoved.trans {u u' : State} (h : CursorMoved s s' t t') (h' : CursorMoved t t' u u') :
    CursorMoved s s' u u' := by
  obtain ⟨_, _, rfl, rfl⟩ := h
  obtain ⟨cur, hfwd, rfl, rfl⟩ := h'
  exact ⟨cur, hfwd, rfl, rfl⟩

theorem fetchBits_alike (n : Nat) (h : SameBits s s') : (fetchBits n s).Alike (CursorMoved s s') (fetchBits n s') := by
  induction n generalizing s s' with
  | zero => exact .ok _ _ _ (.refl h)
  | succ n ih =>
    exact (fetchBit_alike h).bind fun _ _ _ ht => (ih (h.moved ht)).bind fun _ _ _ hu => .ok _ _ _ (ht.trans hu)

theorem fetchField_alike (n : Nat) (h : SameBits s s') :
    (fetchField n s).Alike (CursorMoved s s') (fetchField n s') :=
  (fetchBits_alike n h).bind fun _ _ _ ht => .ok _ _ _ ht

theorem loadCursor_alike (h : SamePayload s s') : (loadCursor s).Alike (CursorMoved s s') (loadCursor s') := by
  have hoff : s'.cfg.payloadOffset = s.cfg.payloadOffset := by rw [h.cfg]
  have hlen : s'.cfg.streamLen = s.cfg.streamLen := by rw [h.cfg]
  simp only [loadCursor, hoff, hlen]
  split
  · exact .raised _ _ _
  · exact streamRead_bind_alike h le_rfl (by omega) fun b =>
      .ok _ _ _ ⟨⟨s.cfg.payloadOffset, 0, b⟩, le_rfl, rfl, by simp [hoff]⟩

/-! ### The adaptive Rice decoder -/

/-- The two operations have moved the cursors alike and have written the same Q. -/
def QuotientRead (s s' t t' : State) : Prop :=
  ∃ cur q, s.cfg.payloadOffset.toNat ≤ cur.idx.toNat ∧ t = { s with cursor := cur, sym := { s.sym with q := q } } ∧
    t' = { s' with cursor := cur, sym := { s'.sym with q := q } }

/-- The two operations have moved the cursors alike and have written the same V. -/
def ValueRead (s s' t t' : State) : Prop :=
  ∃ cur v, s.cfg.payloadOffset.toNat ≤ cur.idx.toNat ∧ t = { s with cursor := cur, sym := { s.sym with v := v } } ∧
    t' = { s' with cursor := cur, sym := { s'.sym with v := v } }

/-- The two operations have decoded the same symbol: their cursors stand at one bit, and the symbol registers and the adaptive
state are equal. -/
def SymbolDecoded (s s' t t' : State) : Prop :=
  ∃ cur sym ad, s.cfg.payloadOffset.toNat ≤ cur.idx.toNat ∧ t = { s with cursor := cur, sym := sym, ad := ad } ∧
    t' = { s' with cursor := cur, sym := sym, ad := ad }

theorem unaryLoop_alike (n : Nat) (h : SameBits s s') (hq : s'.sym.q = s.sym.q) :
    (unaryLoop n s).Alike (QuotientRead s s') (unaryLoop n s') := by
  induction n generalizing s s' with
  | zero => exact .ok _ _ _ ⟨s.cursor, s.sym.q, h.forward, rfl, by rw [← h.cursor, ← hq]⟩
  | succ n ih =>
    refine (fetchBit_alike h).bind fun b t t' ht => ?_
    have hbits := h.moved ht
    obtain ⟨cur, hfwd, rfl, rfl⟩ := ht
    cases b with
    | true =>
      refine (ih (s := { s with cursor := cur, sym := { s.sym with q := s.sym.q + 1 } })
        (s' := { s' with cursor := cur, sym := { s'.sym with q := s'.sym.q + 1 } })
        (.update hbits.toSamePayload rfl rfl rfl rfl rfl hfwd) (congrArg (· + 1) hq)).mono ?_
      rintro u u' ⟨cur', q, hfwd', rfl, rfl⟩
      exact ⟨cur', q, hfwd', rfl, rfl⟩
    | false => exact .ok _ _ _ ⟨cur, s.sym.q, hfwd, rfl, by rw [← hq]⟩

theorem readUnary_alike (h : SameBits s s') : (readUnary s).Alike (QuotientRead s s') (readUnary s') := by
  have hcap : s'.cfg.unaryCap = s.cfg.unaryCap := by rw [h.cfg]
  simp only [readUnary, hcap]
  split
  · exact .refused _
  · refine (unaryLoop_alike (s := { s with sym := { s.sym with q := 0 } })
      (s' := { s' with sym := { s'.sym with q := 0 } }) _ (.update h.toSamePayload rfl rfl rfl rfl h.cursor h.forward)
      rfl).mono ?_
    rintro u u' ⟨cur, q, hfwd, rfl, rfl⟩
    exact ⟨cur, q, hfwd, rfl, rfl⟩

theorem readEscape_alike (h : SameBits s s') : (readEscape s).Alike (ValueRead s s') (readEscape s') := by
  unfold readEscape
  rw [h.cfg]
  refine (fetchField_alike _ h).bind ?_
  rintro v _ _ ⟨cur, hfwd, rfl, rfl⟩
  exact .ok _ _ _ ⟨cur, v, hfwd, rfl, rfl⟩

theorem readRemainder_alike (h : SameBits s s') (hk : s'.sym.k = s.sym.k) (hq : s'.sym.q = s.sym.q) :
    (readRemainder s).Alike (ValueRead s s') (readRemainder s') := by
  unfold readRemainder
  rw [hk]
  refine (fetchField_alike _ h).bind ?_
  rintro v _ _ ⟨cur, hfwd, rfl, rfl⟩
  exact .ok _ _ _ ⟨cur, s.sym.q.toNat * 2 ^ s.sym.k + v, hfwd, rfl, by simp only [hk, hq]⟩

/-- `AR.SYM` reads no symbol register that it has not written (R149). -/
theorem decodeOne_alike (c : Channel) (h : SameBits s s') (had : s'.ad = s.ad) :
    (decodeOne c s).Alike (SymbolDecoded s s') (decodeOne c s') := by
  have hk : (recomputeK c s').sym.k = (recomputeK c s).sym.k := by simp [had, h.cfg]
  have hbits : SameBits (recomputeK c s) (recomputeK c s') :=
    .update h.toSamePayload rfl rfl rfl rfl h.cursor h.forward
  refine (readUnary_alike hbits).bind fun _ t t' ht => Run.Alike.bind (R := ValueRead t t') ?_ ?_
  · obtain ⟨cur, q, hfwd, rfl, rfl⟩ := ht
    have hread : SameBits { recomputeK c s with cursor := cur, sym := { (recomputeK c s).sym with q := q } }
        { recomputeK c s' with cursor := cur, sym := { (recomputeK c s').sym with q := q } } :=
      .update hbits.toSamePayload rfl rfl rfl rfl rfl hfwd
    have hcap : s'.cfg.unaryCap = s.cfg.unaryCap := by rw [h.cfg]
    show Run.Alike _ (if q = s.cfg.unaryCap then _ else _) (if q = s'.cfg.unaryCap then _ else _)
    rw [hcap]
    split
    · exact readEscape_alike hread
    · exact readRemainder_alike hread hk rfl
  · obtain ⟨_, q, _, rfl, rfl⟩ := ht
    rintro _ _ _ ⟨cur, v, hfwd, rfl, rfl⟩
    refine .ok _ _ _ ⟨cur, ⟨(recomputeK c s).sym.k, q, v, fromAbs v⟩,
      ⟨s.ad.n, s.ad.a.set c (s.ad.a.get c + (fromAbs v).natAbs)⟩, hfwd, rfl, ?_⟩
    rw [← hk, ← had]
    rfl

/-- The two operations have read the same value of a seed codeword and taken its effect. -/
def SeedRead (c : Channel) (s s' t t' : State) : Prop :=
  ∃ cur v, s.cfg.payloadOffset.toNat ≤ cur.idx.toNat ∧ t = seedEffect c v { s with cursor := cur } ∧
    t' = seedEffect c v { s' with cursor := cur }

theorem seedChannel_alike (c : Channel) (h : SameBits s s') :
    (seedChannel c s).Alike (SeedRead c s s') (seedChannel c s') := by
  refine (fetchBit_alike h).bind fun _ t t' ht => ?_
  have hbits := h.moved ht
  obtain ⟨cur, _, rfl, rfl⟩ := ht
  rw [show bppEff ({ s' with cursor := cur } : State).cfg = bppEff s.cfg from congrArg bppEff h.cfg]
  refine (fetchField_alike _ hbits).bind ?_
  rintro v _ _ ⟨cur', hfwd', rfl, rfl⟩
  exact .ok _ _ _ ⟨cur', v, hfwd', rfl, rfl⟩

theorem SameBits.seedRead {c : Channel} (h : SameBits s s') (hm : SeedRead c s s' t t') : SameBits t t' := by
  obtain ⟨cur, v, hfwd, rfl, rfl⟩ := hm
  exact .update h.toSamePayload rfl rfl rfl rfl rfl hfwd

/-- The two operations have decoded the same seed pixel: cursor, V, seed values and adaptive state are written alike. -/
def SeedDecoded (s s' t t' : State) : Prop :=
  ∃ cur v sv ad, s.cfg.payloadOffset.toNat ≤ cur.idx.toNat ∧
    t = { s with cursor := cur, sym := { s.sym with v := v }, seedVal := sv, ad := ad } ∧
    t' = { s' with cursor := cur, sym := { s'.sym with v := v }, seedVal := sv, ad := ad }

/-- `AR.SEED` writes all four seed values (R141). -/
theorem seedPixel_alike (h : SameBits s s') (had : s'.ad = s.ad) :
    (seedPixel s).Alike (SeedDecoded s s') (seedPixel s') := by
  refine (seedChannel_alike .y h).bind fun _ _ _ h1 => (seedChannel_alike .cd (h.seedRead h1)).bind fun _ _ _ h2 =>
    (seedChannel_alike .cm ((h.seedRead h1).seedRead h2)).bind fun _ _ _ h3 =>
      (seedChannel_alike .co (((h.seedRead h1).seedRead h2).seedRead h3)).mono fun _ _ h4 => ?_
  obtain ⟨_, v1, _, rfl, rfl⟩ := h1
  obtain ⟨_, v2, _, rfl, rfl⟩ := h2
  obtain ⟨_, v3, _, rfl, rfl⟩ := h3
  obtain ⟨cur, v4, hfwd, rfl, rfl⟩ := h4
  refine ⟨cur, v4, ⟨fromAbs v1, fromAbs v2, fromAbs v3, fromAbs v4⟩, _, hfwd, rfl, ?_⟩
  simp only [seedEffect, accumulate, had]
  rfl

end

end Sys2Proof.Machine
end

section
/-! Two runs on the same inputs: the start of a run, the output elements and the Sequential strategy. -/

namespace Sys2Proof.Machine

/-! ### The start of a run -/

section
variable {s s' t t' : State}

/-- The two operations have opened a run alike: every register that decoding reads is written, with the same value (R42). -/
def RunOpened (s s' t t' : State) : Prop :=
  ∃ cur v sv ad, s.cfg.payloadOffset.toNat ≤ cur.idx.toNat ∧
    t = { s with cursor := cur, p := 0, ch := .y, sym := { s.sym with v := v }, seedVal := sv, ad := ad } ∧
    t' = { s' with cursor := cur, p := 0, ch := .y, sym := { s'.sym with v := v }, seedVal := sv, ad := ad }

theorem openRun_alike (h : SamePayload s s') (hw : s'.pixelW = s.pixelW) :
    (openRun s).Alike (RunOpened s s') (openRun s') := by
  cases hwf : s.cfgWF with
  | false =>
    rw [openRun_refused hwf, openRun_refused ((cfgWF_congr h.cfg hw).trans hwf)]
    exact .refused _
  | true =>
    have hwf' := (cfgWF_congr h.cfg hw).trans hwf
    rw [openRun, openRun, (requireCfgWF_eq_ok (a := ())).mpr ⟨hwf, rfl⟩, (requireCfgWF_eq_ok (a := ())).mpr ⟨hwf', rfl⟩]
    refine (loadCursor_alike h).bind fun _ t t' ht => ?_
    obtain ⟨cur, hfwd, rfl, rfl⟩ := ht
    have hbits : SameBits (firstPixel (initAdaptive { s with cursor := cur }))
        (firstPixel (initAdaptive { s' with cursor := cur })) :=
      .update h rfl rfl rfl rfl rfl hfwd
    refine (seedPixel_alike hbits (by simp [h.cfg])).mono ?_
    rintro _ _ ⟨cur', v, sv, ad, hfwd', rfl, rfl⟩
    exact ⟨cur', v, sv, ad, hfwd', rfl, rfl⟩

/-! ### Output memory -/

/-- Writing an element of output memory lists it and leaves the others. -/
theorem find_writeOut (m : Mem 16) (j k : Nat) (v : BitVec 16) :
    Mem.find (Mem.write outDefault m j v) k = if j = k then some v else Mem.find m k := by
  rw [Mem.write, if_neg (by simp [outDefault]), Mem.find_put]

/-- The two operations have changed the colour registers and output memory only; their sums are equal, and an element is the
same in both output memories if it was so before or belongs to one of the sub-pixels `done` of pixel `p`. -/
structure QuadWritten (s s' : State) (p : Nat) (done : List SubPixel) (t t' : State) : Prop where
  left : t = { s with colour := t.colour, out := t.out }
  right : t' = { s' with colour := t'.colour, out := t'.out }
  sums : t'.colour.sums = t.colour.sums
  out : ∀ k, (Mem.find s'.out k = Mem.find s.out k ∨ ∃ i ∈ done, k = quadIndex (halfWidth s.cfg) p i) →
    Mem.find t'.out k = Mem.find t.out k

/-- One element of `CT.QUAD`: where it is written, and what (R195). -/
theorem writeElement_eq (p : Nat) (i : SubPixel) (s : State) :
    writeElement p i s =
      if quadIndex (halfWidth s.cfg) p i < s.cfg.outLen.toNat then
        .ok () { narrowShifted i (shiftQuotient i (divideSum i s)) with
          out := Mem.write outDefault s.out (quadIndex (halfWidth s.cfg) p i)
            (narrow s.pixelW (shiftLossy s.cfg (div8 (s.colour.sums.get i)))) }
      else .fault .outOfRange := by
  simp [writeElement, outWrite]

/-- One element of `CT.QUAD`, whose value its sum, the configuration and PIXEL_W fix (R195). -/
theorem writeElement_alike {p : Nat} {done : List SubPixel} (hcfg : s'.cfg = s.cfg) (hw : s'.pixelW = s.pixelW)
    (i : SubPixel) (h : QuadWritten s s' p done t t') :
    (writeElement p i t).Alike (QuadWritten s s' p (i :: done)) (writeElement p i t') := by
  have hc : t.cfg = s.cfg := by rw [h.left]
  have hc' : t'.cfg = s.cfg := by rw [h.right, hcfg]
  have hp : t.pixelW = s.pixelW := by rw [h.left]
  have hp' : t'.pixelW = s.pixelW := by rw [h.right, hw]
  by_cases hj : quadIndex (halfWidth s.cfg) p i < s.cfg.outLen.toNat
  · rw [writeElement_eq, writeElement_eq, if_pos (by rwa [hc]), if_pos (by rwa [hc'])]
    refine .ok _ _ _ ⟨?_, ?_, h.sums, fun k hk => ?_⟩
    · rw [h.left]; rfl
    · rw [h.right]; rfl
    · simp only [find_writeOut, hc, hc', hp, hp', h.sums]
      split
      · rfl
      · rename_i hne
        refine h.out k (hk.imp_right ?_)
        rintro ⟨j, hj, rfl⟩
        rcases List.mem_cons.mp hj with rfl | hj
        · exact absurd rfl hne
        · exact ⟨j, hj, rfl⟩
  · rw [writeElement_eq, writeElement_eq, if_neg (by rwa [hc]), if_neg (by rwa [hc'])]
    exact .fault _

/-- `CT.QUAD` of the same values writes the same four elements (R66, R195). -/
theorem transformQuad_alike (hcfg : s'.cfg = s.cfg) (hw : s'.pixelW = s.pixelW) (p : Nat) (val : Quad Half) :
    (transformQuad p val s).Alike (QuadWritten s s' p [.gr, .r, .b, .gb]) (transformQuad p val s') := by
  have hstrict : (strictCheck (takeSums val s)).Alike (QuadWritten s s' p []) (strictCheck (takeSums val s')) := by
    have hs : isStrict (takeSums val s').cfg = isStrict (takeSums val s).cfg := congrArg isStrict hcfg
    have hsum : (takeSums val s').colour.sums = (takeSums val s).colour.sums := rfl
    simp only [strictCheck, hs, hsum]
    split
    · exact .raised _ _ _
    · exact .ok _ _ _ ⟨rfl, rfl, rfl, fun k hk => hk.elim id (by simp)⟩
  exact hstrict.bind fun _ _ _ h0 => (writeElement_alike hcfg hw .gb h0).bind fun _ _ _ h1 =>
    (writeElement_alike hcfg hw .b h1).bind fun _ _ _ h2 => (writeElement_alike hcfg hw .r h2).bind fun _ _ _ h3 =>
      writeElement_alike hcfg hw .gr h3

/-- The two output memories hold the same elements of the pixels below `n`. -/
def SameOut (n : Nat) (s s' : State) : Prop :=
  ∀ q < n, ∀ i, Mem.find s'.out (quadIndex (halfWidth s.cfg) q i) = Mem.find s.out (quadIndex (halfWidth s.cfg) q i)

theorem SameOut.quadWritten {n : Nat} (h : SameOut n s s') (hq : QuadWritten s s' n [.gr, .r, .b, .gb] t t') :
    SameOut (n + 1) t t' := by
  have hc : t.cfg = s.cfg := by rw [hq.left]
  intro q hlt i
  rw [hc]
  refine hq.out _ ?_
  rcases Nat.lt_succ_iff_lt_or_eq.mp hlt with hlt | rfl
  · exact .inl (h q hlt i)
  · exact .inr ⟨i, by cases i <;> simp, rfl⟩

/-- Every element of the image belongs to a pixel (R66). -/
theorem exists_quadIndex {hw hh j : Nat} (hj : j < 2 * hw * (2 * hh)) :
    ∃ p < hw * hh, ∃ i, j = quadIndex hw p i := by
  have hpos : 0 < hw := Nat.pos_of_ne_zero (by rintro rfl; simp at hj)
  have hrow : j / (2 * hw) < 2 * hh := Nat.div_lt_of_lt_mul hj
  have hcol : j % (2 * hw) < 2 * hw := Nat.mod_lt _ (by omega)
  have hsplit : 2 * hw * (j / (2 * hw)) + j % (2 * hw) = j := Nat.div_add_mod j (2 * hw)
  generalize j / (2 * hw) = r at *
  generalize j % (2 * hw) = c at *
  have hdiv : (hw * (r / 2) + c / 2) / hw = r / 2 := by
    rw [Nat.mul_add_div hpos, Nat.div_eq_of_lt (by omega : c / 2 < hw), add_zero]
  have hmod : (hw * (r / 2) + c / 2) % hw = c / 2 := by
    rw [Nat.mul_add_mod, Nat.mod_eq_of_lt (by omega : c / 2 < hw)]
  have hp : hw * (r / 2) + c / 2 < hw * hh := by
    calc hw * (r / 2) + c / 2 < hw * (r / 2) + hw := by omega
      _ = hw * (r / 2 + 1) := by ring
      _ ≤ hw * hh := Nat.mul_le_mul_left _ (by omega)
  refine ⟨hw * (r / 2) + c / 2, hp, ?_⟩
  obtain hr | hr : r = 2 * (r / 2) ∨ r = 2 * (r / 2) + 1 := by omega
  all_goals obtain hc | hc : c = 2 * (c / 2) ∨ c = 2 * (c / 2) + 1 := by omega
  · exact ⟨.gb, by simp only [quadIndex, hdiv, hmod]; rw [← hr, ← hc, ← hsplit]; ring⟩
  · exact ⟨.b, by simp only [quadIndex, hdiv, hmod]; rw [← hr, add_assoc, ← hc, ← hsplit]; ring⟩
  · exact ⟨.r, by simp only [quadIndex, hdiv, hmod]; rw [← hr, ← hc, ← hsplit]; ring⟩
  · exact ⟨.gr, by simp only [quadIndex, hdiv, hmod]; rw [← hr, add_assoc, ← hc, ← hsplit]; ring⟩

/-- Output memories that agree on every pixel of the image agree below CFG.OUT_LEN (R242). -/
theorem SameOut.find_eq (h : SameOut (npix s.cfg) s s') (hc : checkFailure s.cfg = none) {j : Nat}
    (hj : j < s.cfg.outLen.toNat) : Mem.find s'.out j = Mem.find s.out j := by
  obtain ⟨hw, hh, hsize⟩ := checkFailure_none_geometry hc
  have hw2 : 2 * halfWidth s.cfg = s.cfg.width.toNat := by unfold halfWidth; omega
  have hh2 : 2 * halfHeight s.cfg = s.cfg.height.toNat := by unfold halfHeight; omega
  rw [hsize, ← hw2, ← hh2] at hj
  obtain ⟨p, hp, i, rfl⟩ := exists_quadIndex hj
  exact h p hp i

/-! ### The Sequential strategy -/

/-- The two runs decode pixel `m` alike: their bits, the adaptive state and P are the same. -/
structure SameDecoding (m : Nat) (s s' : State) : Prop extends SameBits s s' where
  pixelW : s'.pixelW = s.pixelW
  ad : s'.ad = s.ad
  p : s.p.toNat = m
  p' : s'.p = s.p

theorem SameDecoding.update {m : Nat} (h : SameDecoding m s s') (hbits : SameBits t t') (hw : t.pixelW = s.pixelW)
    (hw' : t'.pixelW = s'.pixelW) (had : t'.ad = t.ad) (hp : t.p = s.p) (hp' : t'.p = s'.p) : SameDecoding m t t' :=
  ⟨hbits, by rw [hw, hw', h.pixelW], had, by rw [hp, h.p], by rw [hp, hp', h.p']⟩

/-- What the Sequential strategy reads at pixel `m` is the same in both runs, and so are the elements of the pixels below
`n`. -/
structure SameSeq (m n : Nat) (s s' : State) : Prop extends SameDecoding m s s' where
  dpcm : s'.dpcm = s.dpcm
  out : SameOut n s s'

/-- `DP.SEQ` reads P, the configuration, the references and RESID only (R171). -/
theorem reconstruct_dpcm_congr (c : Channel) (hcfg : t.cfg = s.cfg) (hp : t.p = s.p) (hd : t.dpcm = s.dpcm)
    (hr : t.sym.resid = s.sym.resid) : (reconstruct c t).dpcm = (reconstruct c s).dpcm := by
  have hcol : inColumn0 t = inColumn0 s := by simp only [inColumn0, hcfg, hp]
  simp only [reconstruct, dpValue, dpReference, hcol, hd, hr]

theorem seqChannel_alike {m n : Nat} (c : Channel) (h : SameSeq m n s s') :
    (seqChannel c s).Alike (SameSeq m n) (seqChannel c s') := by
  have hbits : SameBits { s with ch := c } { s' with ch := c } :=
    .update h.toSamePayload rfl rfl rfl rfl h.cursor h.forward
  refine (decodeOne_alike c hbits h.ad).bind ?_
  rintro _ _ _ ⟨cur, sym, ad, hfwd, rfl, rfl⟩
  refine .ok _ _ _ ⟨h.toSameDecoding.update (.update h.toSamePayload rfl rfl rfl rfl rfl hfwd) rfl rfl rfl rfl rfl,
    reconstruct_dpcm_congr c h.cfg h.p' h.dpcm rfl, h.out⟩

/-- `CT.QUAD` of pixel `m` makes its elements the same in both runs. -/
theorem SameSeq.quadWritten {m : Nat} (h : SameSeq m m s s') (hq : QuadWritten s s' m [.gr, .r, .b, .gb] t t') :
    SameSeq m (m + 1) t t' := by
  have hout := h.out.quadWritten hq
  rw [hq.left, hq.right] at hout ⊢
  exact ⟨h.toSameDecoding.update (.update h.toSamePayload rfl rfl rfl rfl h.cursor h.forward) rfl rfl h.ad rfl rfl,
    h.dpcm, hout⟩

theorem seqPixel_alike {m : Nat} (h : SameSeq m m s s') :
    (seqPixel s).Alike (SameSeq m (m + 1)) (seqPixel s') := by
  refine (seqChannel_alike .y h).bind fun _ _ _ h1 => (seqChannel_alike .cd h1).bind fun _ _ _ h2 =>
    (seqChannel_alike .cm h2).bind fun _ _ _ h3 => (seqChannel_alike .co h3).bind fun _ u u' h4 => ?_
  have hn : SameSeq m m (updateN u) (updateN u') :=
    ⟨h4.toSameDecoding.update (.update h4.toSamePayload rfl rfl rfl rfl h4.cursor h4.forward) rfl rfl
      (by simp [h4.cfg, h4.ad]) rfl rfl, h4.dpcm, h4.out⟩
  show Run.Alike _ (transformQuad u.p.toNat u.dpcm.prev (updateN u)) (transformQuad u'.p.toNat u'.dpcm.prev (updateN u'))
  rw [h4.p', h4.dpcm, h4.p]
  exact (transformQuad_alike hn.cfg hn.pixelW m u.dpcm.prev).mono fun _ _ ht => hn.quadWritten ht

/-- On to the next pixel, which the register P can number. -/
theorem SameDecoding.next {m : Nat} (h : SameDecoding m s s') (hm : m + 1 < 2 ^ 32) :
    SameDecoding (m + 1) { s with p := s.p + 1 } { s' with p := s'.p + 1 } := by
  have hp := h.p
  have hnext : (s.p + 1).toNat = m + 1 := by bv_omega
  exact ⟨.update h.toSamePayload rfl rfl rfl rfl h.cursor h.forward, h.pixelW, h.ad, hnext, congrArg (· + 1) h.p'⟩

theorem seqPixels_alike {m : Nat} (n : Nat) (h : SameSeq m (m + 1) s s') (hn : m + n < 2 ^ 32) :
    (seqPixels n s).Alike (SameSeq (m + n) (m + n + 1)) (seqPixels n s') := by
  induction n generalizing m s s' with
  | zero => exact .ok _ _ _ h
  | succ n ih =>
    refine (seqPixel_alike (m := m + 1) ⟨h.toSameDecoding.next (by omega), h.dpcm, h.out⟩).bind fun _ _ _ ht => ?_
    have hrest := ih ht (by omega)
    rwa [show m + 1 + n = m + (n + 1) by omega] at hrest

/-- The start of a run leaves the two runs at pixel 0, alike. -/
theorem RunOpened.sameDecoding (h : RunOpened s s' t t') (hs : SamePayload s s') (hw : s'.pixelW = s.pixelW) :
    SameDecoding 0 t t' := by
  obtain ⟨cur, v, sv, ad, hfwd, rfl, rfl⟩ := h
  exact ⟨.update hs rfl rfl rfl rfl rfl hfwd, hw, rfl, rfl, rfl⟩

theorem RunOpened.seedVal (h : RunOpened s s' t t') : t'.seedVal = t.seedVal := by
  obtain ⟨cur, v, sv, ad, hfwd, rfl, rfl⟩ := h
  rfl

theorem RunOpened.cfg (h : RunOpened s s' t t') : t.cfg = s.cfg := by
  obtain ⟨cur, v, sv, ad, hfwd, rfl, rfl⟩ := h
  rfl

/-- The whole image is the same in both output memories at the end of the Sequential strategy (R214). -/
theorem runSequential_alike (hs : SamePayload s s') (hw : s'.pixelW = s.pixelW) (hwf : s.cfgWF = true) :
    (runSequential s).Alike (SameOut (npix s.cfg)) (runSequential s') := by
  have hpos := npix_pos hwf
  have hlt := npix_lt s.cfg
  refine (openRun_alike hs hw).bind fun _ t t' ht => ?_
  have hdec := ht.sameDecoding hs hw
  have hseed : SameSeq 0 0 (installSeed t) (installSeed t') :=
    ⟨hdec.update (.update hdec.toSamePayload rfl rfl rfl rfl hdec.cursor hdec.forward) rfl rfl hdec.ad rfl rfl,
      by simp only [installSeed, ht.seedVal], nofun⟩
  rw [hseed.dpcm]
  refine (transformQuad_alike hseed.cfg hseed.pixelW 0 _).bind fun _ u u' hu => ?_
  have hfirst := hseed.quadWritten hu
  have hcfg : u.cfg = s.cfg := by
    rw [hu.left]
    exact ht.cfg
  rw [hfirst.cfg, hcfg]
  refine (seqPixels_alike _ hfirst (by omega)).mono fun _ _ h => ?_
  have hout := h.out
  rwa [show 0 + (npix s.cfg - 1) + 1 = npix s.cfg by omega] at hout

end

end Sys2Proof.Machine
end

section
/-! Two runs on the same inputs: the buffers, the Staged strategy and the whole run. -/

namespace Sys2Proof.Machine

/-! ### The buffers -/

/-- The two buffers are canonical and hold the same entries where `K` says so. -/
structure SameEntries (K : Nat → Channel → Prop) (m m' : Mem 16) : Prop where
  wf : Mem.wf bufDefault m = true
  wf' : Mem.wf bufDefault m' = true
  read : ∀ q c, K q c → bufRead m' q c = bufRead m q c

section
variable {K L : Nat → Channel → Prop} {m m' res res' : Mem 16}

theorem SameEntries.mono (h : SameEntries K m m') (hk : ∀ q c, L q c → K q c) : SameEntries L m m' :=
  ⟨h.wf, h.wf', fun q c hl => h.read q c (hk q c hl)⟩

/-- Writing the same value to the same entry of both makes that entry the same. -/
theorem SameEntries.bufWrite (h : SameEntries K m m') (p : Nat) (c : Channel) (v : Half) :
    SameEntries (fun q d => K q d ∨ q = p ∧ d = c) (bufWrite m p c v) (bufWrite m' p c v) := by
  refine ⟨bufWrite_wf h.wf p c v, bufWrite_wf h.wf' p c v, fun q d hk => ?_⟩
  rw [bufRead_bufWrite h.wf, bufRead_bufWrite h.wf']
  split
  · rfl
  · rename_i hne
    refine h.read q d (hk.resolve_right ?_)
    rintro ⟨rfl, rfl⟩
    exact hne ⟨rfl, rfl⟩

/-- The four entries of pixel `p` of a buffer written. -/
def writePixel (m : Mem 16) (p : Nat) (x : Quad Half) : Mem 16 :=
  Machine.bufWrite (Machine.bufWrite (Machine.bufWrite (Machine.bufWrite m p .y x.y) p .cd x.cd) p .cm x.cm) p .co x.co

theorem SameEntries.writePixel (h : SameEntries K m m') (p : Nat) (x : Quad Half) :
    SameEntries (fun q d => K q d ∨ q = p) (writePixel m p x) (writePixel m' p x) := by
  refine ((((h.bufWrite p .y x.y).bufWrite p .cd x.cd).bufWrite p .cm x.cm).bufWrite p .co x.co).mono fun q d hk => ?_
  rcases hk with hk | rfl
  · exact .inl (.inl (.inl (.inl hk)))
  · cases d <;> simp

theorem copyPixel0_eq (res val : Mem 16) : copyPixel0 res val = writePixel val 0 (bufQuad res 0) := rfl

theorem storeSeed_eq (s : State) :
    storeSeed s = { s with ch := .co, resbuf := writePixel s.resbuf 0 (s.seedVal.map wrap16) } := rfl

theorem SameEntries.bufQuad {p : Nat} (h : SameEntries K m m') (hk : ∀ c, K p c) : bufQuad m' p = bufQuad m p := by
  simp only [Machine.bufQuad, h.read p _ (hk _)]

/-- One pixel of phase B, computed from entries that are the same (R173, R174). -/
theorem SameEntries.sumPixel (h : SameEntries K m m') {ref p : Nat} (href : ∀ c, K ref c)
    (hres : ∀ c, bufRead res' p c = bufRead res p c) :
    SameEntries (fun q d => K q d ∨ q = p) (sumPixel res ref p m) (sumPixel res' ref p m') := by
  refine ⟨sumPixel_wf h.wf ref p, sumPixel_wf h.wf' ref p, fun q d hk => ?_⟩
  rw [bufRead_sumPixel h.wf, bufRead_sumPixel h.wf', h.read ref d (href d), hres d]
  split
  · rfl
  · rename_i hne
    exact h.read q d (hk.resolve_right hne)

/-- Column 0 (R173). -/
theorem SameEntries.col0Rows {hw : Nat} (h : SameEntries (fun q _ => q = 0) m m') (n : Nat)
    (hres : ∀ r ≤ n, ∀ c, bufRead res' (r * hw) c = bufRead res (r * hw) c) :
    SameEntries (fun q _ => ∃ r ≤ n, q = r * hw) (col0Rows hw res n m) (col0Rows hw res' n m') := by
  induction n with
  | zero => exact h.mono fun q _ ⟨r, hr, hq⟩ => by rw [hq, Nat.le_zero.mp hr, zero_mul]
  | succ n ih =>
    have hprev := ih fun r hr => hres r (hr.trans n.le_succ)
    refine (hprev.sumPixel (fun _ => ⟨n, le_rfl, rfl⟩) (hres (n + 1) le_rfl)).mono fun q _ ⟨r, hr, hq⟩ => ?_
    rcases Nat.le_succ_iff.mp hr with hle | rfl
    · exact .inl ⟨r, hle, hq⟩
    · exact .inr hq

/-- A row (R174). -/
theorem SameEntries.rowCols {hw r : Nat} (h : SameEntries K m m') (hk : ∀ c, K (r * hw) c) (n : Nat)
    (hres : ∀ j ≤ n, ∀ c, bufRead res' (r * hw + j) c = bufRead res (r * hw + j) c) :
    SameEntries (fun q c => K q c ∨ ∃ j ≤ n, q = r * hw + j) (rowCols hw r res n m) (rowCols hw r res' n m') := by
  induction n with
  | zero =>
    refine h.mono fun q c hq => hq.elim id ?_
    rintro ⟨j, hj, rfl⟩
    rw [Nat.le_zero.mp hj]
    exact hk c
  | succ n ih =>
    have hprev := ih fun j hj => hres j (hj.trans n.le_succ)
    refine (hprev.sumPixel (fun _ => .inr ⟨n, le_rfl, rfl⟩) (hres (n + 1) le_rfl)).mono fun q c hq => ?_
    rcases hq with hq | ⟨j, hj, rfl⟩
    · exact .inl (.inl hq)
    · rcases Nat.le_succ_iff.mp hj with hle | rfl
      · exact .inl (.inr ⟨j, hle, rfl⟩)
      · exact .inr rfl

end

/-! ### Phase A -/

section
variable {s s' t t' : State}

/-- What phase A reads at pixel `m` is the same in both runs, and so are the residuals of the pixels below `m` and those of
the channels `done` of pixel `m`; both VALBUF are canonical. -/
structure SameStaged (m : Nat) (done : List Channel) (s s' : State) : Prop extends SameDecoding m s s' where
  res : SameEntries (fun q c => q < m ∨ q = m ∧ c ∈ done) s.resbuf s'.resbuf
  val : SameEntries (fun _ _ => False) s.valbuf s'.valbuf

theorem stagedChannel_alike {m : Nat} {done : List Channel} (c : Channel) (h : SameStaged m done s s') :
    (stagedChannel c s).Alike (SameStaged m (c :: done)) (stagedChannel c s') := by
  have hbits : SameBits { s with ch := c } { s' with ch := c } :=
    .update h.toSamePayload rfl rfl rfl rfl h.cursor h.forward
  refine (decodeOne_alike c hbits h.ad).bind ?_
  rintro _ _ _ ⟨cur, sym, ad, hfwd, rfl, rfl⟩
  refine .ok _ _ _ ⟨h.toSameDecoding.update (.update h.toSamePayload rfl rfl rfl rfl rfl hfwd) rfl rfl rfl rfl rfl,
    ?_, h.val⟩
  have hp' : s'.p.toNat = m := by rw [h.p', h.p]
  simp only [storeResidual, h.p, hp']
  refine (h.res.bufWrite m c _).mono fun q d hq => ?_
  simp only [List.mem_cons] at hq
  tauto

theorem stagedPixel_alike {m : Nat} (h : SameStaged m [] s s') :
    (stagedPixel s).Alike (SameStaged m [.co, .cm, .cd, .y]) (stagedPixel s') := by
  refine (stagedChannel_alike .y h).bind fun _ _ _ h1 => (stagedChannel_alike .cd h1).bind fun _ _ _ h2 =>
    (stagedChannel_alike .cm h2).bind fun _ _ _ h3 => (stagedChannel_alike .co h3).bind fun _ u u' h4 =>
      .ok _ _ _ ⟨?_, h4.res, h4.val⟩
  exact h4.toSameDecoding.update (.update h4.toSamePayload rfl rfl rfl rfl h4.cursor h4.forward) rfl rfl
    (by simp [h4.cfg, h4.ad]) rfl rfl

theorem SameStaged.next {m : Nat} (h : SameStaged m [.co, .cm, .cd, .y] s s') (hm : m + 1 < 2 ^ 32) :
    SameStaged (m + 1) [] { s with p := s.p + 1 } { s' with p := s'.p + 1 } := by
  refine ⟨h.toSameDecoding.next hm, h.res.mono fun q c hq => ?_, h.val⟩
  rcases hq with hq | ⟨_, hc⟩
  · rcases Nat.lt_succ_iff_lt_or_eq.mp hq with hlt | rfl
    · exact .inl hlt
    · exact .inr ⟨rfl, by cases c <;> simp⟩
  · cases hc

theorem stagedPixels_alike {m : Nat} (n : Nat) (h : SameStaged m [.co, .cm, .cd, .y] s s') (hn : m + n < 2 ^ 32) :
    (stagedPixels n s).Alike (SameStaged (m + n) [.co, .cm, .cd, .y]) (stagedPixels n s') := by
  induction n generalizing m s s' with
  | zero => exact .ok _ _ _ h
  | succ n ih =>
    refine (stagedPixel_alike (h.next (by omega))).bind fun _ _ _ ht => ?_
    have hrest := ih ht (by omega)
    rwa [show m + 1 + n = m + (n + 1) by omega] at hrest

/-! ### Phases B and C -/

/-- The pixels of VALBUF that phase B has written when the rows below `n` are done: column 0 and those rows. -/
def rowsDone (hw hh n : Nat) (q : Nat) (_ : Channel) : Prop :=
  ∃ r < hh, ∃ j < hw, q = r * hw + j ∧ (r < n ∨ j = 0)

theorem rowsDone_lt {hw hh r j : Nat} (hr : r < hh) (hj : j < hw) : r * hw + j < hw * hh := by
  calc r * hw + j < r * hw + hw := by omega
    _ = hw * (r + 1) := by ring
    _ ≤ hw * hh := Nat.mul_le_mul_left _ hr

/-- After the last row every pixel of the image is done. -/
theorem rowsDone_all {hw hh q : Nat} (hq : q < hw * hh) (c : Channel) : rowsDone hw hh hh q c := by
  have hpos : 0 < hw := Nat.pos_of_ne_zero (by rintro rfl; simp at hq)
  have hr : q / hw < hh := Nat.div_lt_of_lt_mul hq
  exact ⟨q / hw, hr, q % hw, Nat.mod_lt _ hpos, by rw [mul_comm]; exact (Nat.div_add_mod q hw).symm, .inl hr⟩

/-- Phase B computes VALBUF from RESBUF alone (R173, R174, R175). -/
theorem stagedRows_alike (hcfg : s'.cfg = s.cfg) (hpos : 0 < npix s.cfg)
    (hres : SameEntries (fun q _ => q < npix s.cfg) s.resbuf s'.resbuf)
    (hval : SameEntries (fun _ _ => False) s.valbuf s'.valbuf) (n : Nat) (hn : n ≤ halfHeight s.cfg) :
    ∃ m m', stagedRows n (reconstructCol0 s) = { s with valbuf := m } ∧
      stagedRows n (reconstructCol0 s') = { s' with valbuf := m' } ∧
      SameEntries (rowsDone (halfWidth s.cfg) (halfHeight s.cfg) n) m m' := by
  have hw : 0 < halfWidth s.cfg := Nat.pos_of_mul_pos_right hpos
  have hh : 0 < halfHeight s.cfg := Nat.pos_of_mul_pos_left hpos
  have hread {r j : Nat} (hr : r < halfHeight s.cfg) (hj : j < halfWidth s.cfg) (c : Channel) :
      bufRead s'.resbuf (r * halfWidth s.cfg + j) c = bufRead s.resbuf (r * halfWidth s.cfg + j) c :=
    hres.read _ c (rowsDone_lt hr hj)
  induction n with
  | zero =>
    refine ⟨_, _, rfl, rfl, ?_⟩
    rw [hcfg, copyPixel0_eq, copyPixel0_eq, hres.bufQuad fun _ => hpos]
    have hfirst := (hval.writePixel 0 (bufQuad s.resbuf 0)).mono (L := fun q _ => q = 0) fun q _ hq => .inr hq
    refine (hfirst.col0Rows (halfHeight s.cfg - 1) fun r hr c => hread (by omega) hw c).mono fun q c hq => ?_
    obtain ⟨r, hr, j, _, rfl, hlt | rfl⟩ := hq
    · omega
    · exact ⟨r, by omega, rfl⟩
  | succ n ih =>
    obtain ⟨m, m', hm, hm', hsame⟩ := ih (by omega)
    refine ⟨_, _, by rw [stagedRows, hm]; rfl, by rw [stagedRows, hm']; rfl, ?_⟩
    rw [hcfg]
    refine (hsame.rowCols (fun _ => ⟨n, by omega, 0, hw, rfl, .inr rfl⟩) (halfWidth s.cfg - 1)
      fun j hj c => hread (by omega) (by omega) c).mono fun q c hq => ?_
    obtain ⟨r, hr, j, hj, rfl, hlt | rfl⟩ := hq
    · rcases Nat.lt_succ_iff_lt_or_eq.mp hlt with hlt | rfl
      · exact .inl ⟨r, hr, j, hj, rfl, .inl hlt⟩
      · exact .inr ⟨j, by omega, rfl⟩
    · exact .inl ⟨r, hr, 0, hj, rfl, .inr rfl⟩

/-- What phase C reads is the same in both runs, and so are the elements of the pixels below `n`. -/
structure SameQuads (n : Nat) (s s' : State) : Prop where
  cfg : s'.cfg = s.cfg
  pixelW : s'.pixelW = s.pixelW
  val : SameEntries (fun q _ => q < npix s.cfg) s.valbuf s'.valbuf
  out : SameOut n s s'

theorem stagedQuads_alike {p : Nat} (n : Nat) (h : SameQuads p s s') (hn : p + n ≤ npix s.cfg) :
    (stagedQuads p n s).Alike (SameQuads (p + n)) (stagedQuads p n s') := by
  induction n generalizing p s s' with
  | zero => exact .ok _ _ _ h
  | succ n ih =>
    rw [stagedQuads, stagedQuads, h.val.bufQuad fun _ => by omega]
    refine (transformQuad_alike h.cfg h.pixelW p _).bind fun _ t t' ht => ?_
    have hcfg : t.cfg = s.cfg := by rw [ht.left]
    have hout := h.out.quadWritten ht
    have hnext : SameQuads (p + 1) t t' := by
      rw [ht.left, ht.right] at hout ⊢
      exact ⟨h.cfg, h.pixelW, h.val, hout⟩
    have hrest := ih hnext (by rw [hcfg]; omega)
    rwa [show p + 1 + n = p + (n + 1) by omega] at hrest

theorem RunOpened.buffers (h : RunOpened s s' t t') :
    t.resbuf = s.resbuf ∧ t'.resbuf = s'.resbuf ∧ t.valbuf = s.valbuf ∧ t'.valbuf = s'.valbuf := by
  obtain ⟨cur, v, sv, ad, hfwd, rfl, rfl⟩ := h
  exact ⟨rfl, rfl, rfl, rfl⟩

/-- Canonical buffers, of which nothing more is known. -/
theorem sameEntries_of_memWF (h : s.memWF = true) (h' : s'.memWF = true) :
    SameEntries (fun _ _ => False) s.resbuf s'.resbuf ∧ SameEntries (fun _ _ => False) s.valbuf s'.valbuf := by
  obtain ⟨_, _, hr, hv⟩ := (State.memWF_iff s).mp h
  obtain ⟨_, _, hr', hv'⟩ := (State.memWF_iff s').mp h'
  exact ⟨⟨hr, hr', nofun⟩, ⟨hv, hv', nofun⟩⟩

/-- The whole image is the same in both output memories at the end of the Staged strategy (R215). -/
theorem runStaged_alike (hs : SamePayload s s') (hw : s'.pixelW = s.pixelW) (hwf : s.cfgWF = true)
    (hm : s.memWF = true) (hm' : s'.memWF = true) :
    (runStaged s).Alike (SameOut (npix s.cfg)) (runStaged s') := by
  have hpos := npix_pos hwf
  have hlt := npix_lt s.cfg
  obtain ⟨hres, hval⟩ := sameEntries_of_memWF hm hm'
  refine (openRun_alike hs hw).bind fun _ t t' ht => ?_
  obtain ⟨er, er', ev, ev'⟩ := ht.buffers
  have hdec := ht.sameDecoding hs hw
  have hseed : SameStaged 0 [.co, .cm, .cd, .y] (storeSeed t) (storeSeed t') := by
    rw [storeSeed_eq, storeSeed_eq, ht.seedVal]
    refine ⟨hdec.update (.update hdec.toSamePayload rfl rfl rfl rfl hdec.cursor hdec.forward) rfl rfl hdec.ad rfl rfl,
      ?_, by rw [ev, ev']; exact hval⟩
    rw [er, er']
    exact (hres.writePixel 0 _).mono fun q c hq => .inr (by omega)
  rw [hdec.cfg, ht.cfg]
  refine ((stagedPixels_alike _ hseed (by omega)).and
    (P := fun u => u.cfg = s.cfg) (Q := fun _ => True) ?_ (fun _ _ _ => trivial)).bind fun _ u u' hu => ?_
  · intro _ u hu
    obtain ⟨_, _, _, _, _, _, rfl⟩ := stagedPixels_ok hu
    exact ht.cfg
  · obtain ⟨hstaged, hcfg, _⟩ := hu
    have hall : SameEntries (fun q _ => q < npix u.cfg) u.resbuf u'.resbuf := by
      refine hstaged.res.mono fun q c hq => ?_
      rw [hcfg] at hq
      rcases Nat.lt_or_ge q (0 + (npix s.cfg - 1)) with hq' | hq'
      · exact .inl hq'
      · exact .inr ⟨by omega, by cases c <;> simp⟩
    obtain ⟨m, m', e, e', hsame⟩ :=
      stagedRows_alike hstaged.cfg (by rwa [hcfg]) hall hstaged.val (halfHeight s.cfg) (by rw [hcfg])
    rw [hstaged.cfg, hcfg, e, e']
    rw [← hcfg] at hsame
    have hquads : SameQuads 0 { u with valbuf := m } { u' with valbuf := m' } :=
      ⟨hstaged.cfg, hstaged.pixelW, hsame.mono fun q c hq => rowsDone_all hq c, nofun⟩
    refine (stagedQuads_alike (npix s.cfg) hquads (by simp [hcfg])).mono fun _ _ h => ?_
    have hout := h.out
    rwa [zero_add] at hout

/-! ### The whole run -/

/-- `SEQ.CHECK` reads the configuration and PIXEL_W only (R213). -/
theorem checkConfig_alike (hcfg : s'.cfg = s.cfg) (hw : s'.pixelW = s.pixelW) :
    (checkConfig s).Alike (fun t t' => t = s ∧ t' = s' ∧ checkFailure s.cfg = none ∧ s.cfgWF = true)
      (checkConfig s') := by
  have hcheck : checkFailure s'.cfg = checkFailure s.cfg := congrArg checkFailure hcfg
  have hregs : registersWF s'.cfg = registersWF s.cfg := congrArg registersWF hcfg
  have hwf : s'.cfgWF = s.cfgWF := cfgWF_congr hcfg hw
  cases h : checkConfig s with
  | ok a t =>
    obtain ⟨hc, hok, rfl⟩ := checkConfig_eq_ok.mp h
    rw [(checkConfig_eq_ok (a := a)).mpr ⟨hcheck.trans hc, hwf.trans hok, rfl⟩]
    exact .ok a _ _ ⟨rfl, rfl, hc, hok⟩
  | raised c t =>
    obtain ⟨hc, hr, rfl⟩ := checkConfig_eq_raised.mp h
    rw [checkConfig_eq_raised.mpr ⟨hcheck.trans hc, by rwa [hregs, hwf], rfl⟩]
    exact .raised c _ _
  | refused e =>
    rw [checkConfig_eq_refused] at h
    rw [checkConfig_eq_refused.mpr (by rwa [hcheck, hregs, hwf])]
    exact .refused e
  | fault e => exact absurd h (checkConfig_ne_fault s e)

/-- Two outcomes end alike: where the first is a next state, so is the second, with the same STATUS and, when that is
Success, the same first `len` elements of output memory. -/
def SameEnd (len : Nat) (o o' : Host.Outcome State Fault Refusal) : Prop :=
  ∀ t, o = .next t → ∃ t', o' = .next t' ∧ t'.status = t.status ∧
    (t.status.code = .success → ∀ j < len, Mem.find t'.out j = Mem.find t.out j)

/-- A raise ends both runs with its code; otherwise they go on. -/
theorem unlessIdle_sameEnd {len : Nat} {α : Type} {R : State → State → Prop} {x y : Run α}
    {f g : State → Host.Outcome State Fault Refusal} (h : x.Alike R y)
    (hf : ∀ t t', R t t' → t.seq ≠ .idle ∧ t'.seq ≠ .idle ∧ SameEnd len (f t) (g t')) :
    SameEnd len (unlessIdle x.outcome f) (unlessIdle y.outcome g) := by
  cases h with
  | ok a t t' hr =>
    obtain ⟨hi, hi', hsame⟩ := hf t t' hr
    simpa only [Run.outcome_ok, unlessIdle, if_neg hi, if_neg hi'] using hsame
  | raised c t t' =>
    intro u hu
    simp only [Run.outcome_raised, unlessIdle, fail_seq, if_true, Host.Outcome.next.injEq] at hu
    subst hu
    refine ⟨t'.fail c, rfl, rfl, fun hsuccess => ?_⟩
    cases c <;> cases hsuccess
  | fault e | refused e =>
    intro u hu
    simp [unlessIdle] at hu

/-- The strategy that the configuration names, as one operation (R211). -/
def runStrategy (s : State) : Run Unit := if isStaged s.cfg then runStaged s else runSequential s

theorem exec_strategy (s : State) :
    exec (if isStaged s.cfg then .seqRunStaged else .seqRunSeq) s = (runStrategy s).outcome := by
  cases h : isStaged s.cfg with
  | true =>
    rw [runStrategy, h, if_pos rfl, if_pos rfl]
    rfl
  | false =>
    rw [runStrategy, h, if_neg (by simp), if_neg (by simp)]
    rfl

theorem runStrategy_ok {a : Unit} (h : runStrategy s = .ok a t) : t.cfg = s.cfg ∧ t.seq = s.seq := by
  unfold runStrategy at h
  split at h
  · obtain ⟨_, _, _, _, _, _, _, _, _, _, rfl⟩ := runStaged_ok h
    exact ⟨rfl, rfl⟩
  · obtain ⟨_, _, _, _, _, _, _, _, _, rfl⟩ := runSequential_ok h
    exact ⟨rfl, rfl⟩

theorem runStrategy_alike (hs : SamePayload s s') (hw : s'.pixelW = s.pixelW) (hwf : s.cfgWF = true)
    (hm : s.memWF = true) (hm' : s'.memWF = true) :
    (runStrategy s).Alike (SameOut (npix s.cfg)) (runStrategy s') := by
  unfold runStrategy
  rw [show isStaged s'.cfg = isStaged s.cfg from congrArg isStaged hs.cfg]
  split
  · exact runStaged_alike hs hw hwf hm hm'
  · exact runSequential_alike hs hw hwf

end

/-- Settles O55, operation by operation: each register and each entry a run reads has been written in it, from the inputs, and
every element below CFG.OUT_LEN is written before a run succeeds. -/
theorem runDependsOnInputsOnly : Obligations.RunDependsOnInputsOnly := by
  intro s s' t hm hm' hcfg hw hpay h
  refine (?_ : SameEnd s.cfg.outLen.toNat (wholeRun s) (wholeRun s')) t h
  have hs : SamePayload s.begin s'.begin := ⟨hcfg, hpay⟩
  refine unlessIdle_sameEnd (checkConfig_alike hs.cfg hw) ?_
  rintro t t' ⟨rfl, rfl, hc, hwf⟩
  refine ⟨nofun, nofun, ?_⟩
  simp only [exec_strategy]
  refine unlessIdle_sameEnd ((runStrategy_alike hs hw hwf hm hm').and (fun _ _ => runStrategy_ok)
    (fun _ _ => runStrategy_ok)) ?_
  rintro u u' ⟨hout, ⟨hucfg, huseq⟩, _, huseq'⟩
  refine ⟨by rw [huseq]; nofun, by rw [huseq']; nofun, fun v hv => ?_⟩
  cases hv
  refine ⟨_, rfl, rfl, fun _ j hj => ?_⟩
  exact SameOut.find_eq (s := u) (s' := u') (by rwa [hucfg]) (by rwa [hucfg]) (by rwa [hucfg])

end Sys2Proof.Machine
end

section
/-! The ranges of a symbol (R151), and the statements about single operations and the state after reset. -/

namespace Sys2Proof.Machine

/-! ### The ranges of a symbol -/

section
variable {s t : State}

theorem kSearch_le (n a fuel k : Nat) : kSearch n a fuel k ≤ k + fuel := by
  induction fuel generalizing k with
  | zero => exact le_rfl
  | succ fuel ih =>
    unfold kSearch
    split
    · have := ih (k + 1)
      omega
    · omega

/-- The search for the Rice parameter has `bpp_eff + 2` rounds (R142). -/
theorem riceParam_le (n a bpp : Nat) : riceParam n a bpp ≤ bpp + 2 := by
  have := kSearch_le n a (bpp + 2) 0
  unfold riceParam
  omega

/-- The unary loop counts at most `n` ones (R143). -/
theorem unaryLoop_q_le {n : Nat} (hn : s.sym.q.toNat + n < 256) (h : unaryLoop n s = .ok () t) :
    t.sym.q.toNat ≤ s.sym.q.toNat + n := by
  induction n generalizing s with
  | zero => cases h; exact le_rfl
  | succ n ih =>
    simp only [unaryLoop, Run.bind_eq_ok] at h
    obtain ⟨b, u, hb, h⟩ := h
    obtain ⟨c, rfl⟩ := fetchBit_frame hb
    have hq : (s.sym.q + 1).toNat = s.sym.q.toNat + 1 := by bv_omega
    split at h
    · have hrest := ih (by simp only [hq]; omega) h
      simp only [hq] at hrest
      omega
    · cases h
      exact Nat.le_add_right _ _

theorem readUnary_q_le (h : readUnary s = .ok () t) : t.sym.q.toNat ≤ s.cfg.unaryCap.toNat := by
  unfold readUnary at h
  split at h
  · cases h
  · have hcap := s.cfg.unaryCap.isLt
    simpa using unaryLoop_q_le (by simpa using hcap) h

theorem fetchField_lt {n v : Nat} (h : fetchField n s = .ok v t) : v < 2 ^ n := by
  obtain ⟨bs, hbs, rfl⟩ := fetchField_ok.mp h
  obtain ⟨hlen, _⟩ := fetchBits_ok hbs
  exact hlen ▸ fieldValue_lt bs

/-- An escape's value has `bpp_eff + 3` bits (R144). -/
theorem readEscape_v_lt (h : readEscape s = .ok () t) : t.sym.v < 2 ^ (bppEff s.cfg + 3) := by
  simp only [readEscape, Run.bind_eq_ok] at h
  obtain ⟨v, u, hv, h⟩ := h
  cases h
  exact fetchField_lt hv

/-- A Rice codeword's value stays below `(Q + 1) * 2^K` (R145). -/
theorem readRemainder_v_lt (h : readRemainder s = .ok () t) : t.sym.v < (s.sym.q.toNat + 1) * 2 ^ s.sym.k := by
  simp only [readRemainder, Run.bind_eq_ok] at h
  obtain ⟨v, u, hv, h⟩ := h
  obtain ⟨c, rfl⟩ := fetchField_frame hv
  cases h
  have hlt := fetchField_lt hv
  rw [add_mul, one_mul]
  exact Nat.add_lt_add_left hlt _

/-- The magnitude of a residual (R97). -/
theorem fromAbs_bounds (v : Nat) : -((v : Int) + 1) ≤ 2 * fromAbs v ∧ 2 * fromAbs v ≤ v := by
  unfold fromAbs
  split <;> omega

/-- What a completed `AR.SYM` leaves in the symbol registers (R142, R143, R144, R145, R146). -/
theorem decodeOne_sym {c : Channel} (h : decodeOne c s = .ok () t) :
    t.sym.k ≤ bppEff s.cfg + 2 ∧ t.sym.q.toNat ≤ s.cfg.unaryCap.toNat ∧ t.sym.resid = fromAbs t.sym.v ∧
      (t.sym.q = s.cfg.unaryCap → t.sym.v < 2 ^ (bppEff s.cfg + 3)) ∧
      (t.sym.q ≠ s.cfg.unaryCap → t.sym.v < (t.sym.q.toNat + 1) * 2 ^ t.sym.k) := by
  simp only [decodeOne, Run.bind_eq_ok] at h
  obtain ⟨_, u, hu, _, v, hv, h⟩ := h
  have hq := readUnary_q_le hu
  obtain ⟨_, cu, q, rfl⟩ := readUnary_ok hu
  have hk : riceParam s.ad.n.toNat (s.ad.a.get c) (bppEff s.cfg) ≤ bppEff s.cfg + 2 := riceParam_le _ _ _
  cases h
  split at hv
  · rename_i hcap
    have hlt := readEscape_v_lt hv
    obtain ⟨cu', x, rfl⟩ := readEscape_ok hv
    exact ⟨hk, hq, rfl, fun _ => hlt, fun hne => absurd hcap hne⟩
  · rename_i hcap
    have hlt := readRemainder_v_lt hv
    obtain ⟨cu', x, rfl⟩ := readRemainder_ok hv
    exact ⟨hk, hq, rfl, fun heq => absurd heq hcap, fun _ => hlt⟩

/-- A completed operation left the sequencer where it was; a raise did not (R250). -/
theorem outcome_completed {x : Run Unit} (h : x.outcome = .next t) (hi : t.seq ≠ .idle) : x = .ok () t := by
  rcases Run.outcome_eq_next.mp h with ⟨_, hx⟩ | ⟨c, u, _, rfl⟩
  · exact hx
  · exact absurd (fail_seq u c) hi

end

/-- Settles O27: the search bounds K, the unary loop bounds Q, the width of the field bounds V, and the mapping halves it. -/
theorem symbolRanges : Obligations.SymbolRanges := by
  intro c s t hbpp h hseq hi
  obtain ⟨hk, hq, hresid, hesc, hrice⟩ := decodeOne_sym (outcome_completed (x := decodeOne c s) h (hseq ▸ hi))
  have hbits : bppEff s.cfg ≤ 12 := by omega
  have hbounds := fromAbs_bounds t.sym.v
  rw [← hresid] at hbounds
  refine ⟨hk, hq, fun heq => ?_, fun hne => ?_⟩
  · have hv := hesc heq
    have hv15 : t.sym.v < 2 ^ 15 := hv.trans_le (Nat.pow_le_pow_right (by norm_num) (by omega))
    exact ⟨hv, by omega, by omega⟩
  · have hlt : t.sym.q.toNat < s.cfg.unaryCap.toNat :=
      lt_of_le_of_ne hq fun heq => hne (BitVec.eq_of_toNat_eq heq)
    have hv : t.sym.v < s.cfg.unaryCap.toNat * 2 ^ t.sym.k :=
      (hrice hne).trans_le (Nat.mul_le_mul_right _ hlt)
    have hv22 : t.sym.v < 255 * 2 ^ 14 := by
      have hcap : s.cfg.unaryCap.toNat ≤ 255 := by omega
      exact hv.trans_le (Nat.mul_le_mul hcap (Nat.pow_le_pow_right (by norm_num) (by omega)))
    exact ⟨hv, by omega, by omega⟩

/-! ### `DP.STORE` and the stream -/

/-- Settles O31, by the read law of the buffers. -/
theorem dpStore : Obligations.DpStore := by
  intro p c x s hm
  obtain ⟨_, _, hres, _⟩ := (State.memWF_iff s).mp hm
  refine ⟨bufWrite s.resbuf p.toNat c (wrap16 x), rfl, ?_, fun p' c' hne => ?_⟩
  · rw [bufRead_bufWrite hres, if_pos ⟨rfl, rfl⟩]
  · rw [bufRead_bufWrite hres, if_neg]
    rintro ⟨rfl, rfl⟩
    exact hne rfl

/-- Settles O14: the load and the fetch test the index against CFG.STREAM_LEN and then read the byte. -/
theorem unwrittenStreamByteFaults : Obligations.UnwrittenStreamByteFaults := by
  intro s
  constructor
  · intro hlt hnone
    show (loadCursor s).outcome = _
    rw [loadCursor, if_neg (by omega), streamRead_of_unwritten hnone]
    rfl
  · intro h8 hlt hnone
    show ((fetchBit s).bind _).outcome = _
    rw [fetchBit, if_pos h8, if_neg (by omega), streamRead_of_unwritten hnone]
    rfl

/-! ### The host's operations -/

/-- A written register reads back truncated to its width (R23, R210). -/
theorem cfgRead_cfgWrite_same (c : Cfg) (r : CfgReg) (v : BitVec 32) :
    (cfgRead (cfgWrite c r v) r).toNat = v.toNat % 2 ^ cfgBits r := by
  cases r <;> simp [cfgRead, cfgWrite, cfgBits] <;> omega

theorem cfgRead_cfgWrite_other (c : Cfg) {r r' : CfgReg} (v : BitVec 32) (h : r' ≠ r) :
    cfgRead (cfgWrite c r v) r' = cfgRead c r' := by
  cases r <;> cases r' <;> first | rfl | exact absurd rfl h

/-- Settles O44, by the two laws of the configuration registers. -/
theorem hostCfgAccess : Obligations.HostCfgAccess := by
  intro s r v
  refine ⟨fun hb => ⟨cfgWrite s.cfg r v, ?_, cfgRead_cfgWrite_same s.cfg r v,
    fun r' hr => cfgRead_cfgWrite_other s.cfg v hr⟩, fun hb => ?_, rfl⟩
  · show Host.Outcome.next (cfgAccess _ s) = _
    rw [cfgAccess, if_neg (by simp [hb])]
  · show Host.Outcome.next (cfgAccess _ s) = _
    rw [cfgAccess, if_pos hb]

/-- The fields of the status word (R28). -/
theorem statusWord_fields (x : StatusReg) :
    (statusWord x).toNat % 8 = statusNumber x.code ∧ (statusWord x).getLsbD 3 = x.busy ∧
      (statusWord x).getLsbD 4 = x.done ∧ (statusWord x).toNat < 32 := by
  obtain ⟨code, busy, done⟩ := x
  cases code <;> cases busy <;> cases done <;> decide

/-- Settles O45, by the test of BUSY and the fields of the status word. -/
theorem hostStartAndStatusRead : Obligations.HostStartAndStatusRead := by
  intro s
  refine ⟨fun hb => ?_, fun hb => ?_, statusWord s.status, rfl, statusWord_fields s.status⟩
  · rw [exec_hostStart, if_neg (by simp [hb])]
    rfl
  · rw [exec_hostStart, if_pos hb]

/-! ### Reset -/

/-- Settles O56: the block is idle after reset, where the invariants of a run ask for nothing. -/
theorem resetState : Obligations.ResetState :=
  ⟨rfl, rfl, rfl, rfl, rfl, by simp [State.statusOk, State.reset], ⟨nofun, nofun⟩, floorOk_of_idle rfl,
    runCursorOk_of_idle rfl, geometryOk_of_idle rfl⟩

end Sys2Proof.Machine
end

section
/-! Output memory: the four elements of a pixel, and the statements about `CT.QUAD` and the host's accesses. -/

namespace Sys2Proof.Machine

/-! ### The output index map -/

/-- The row of a sub-pixel inside its quad (R66). -/
def rowInQuad : SubPixel → Nat
  | .gb | .b => 0
  | .r | .gr => 1

/-- The column of a sub-pixel inside its quad (R66). -/
def colInQuad : SubPixel → Nat
  | .gb | .r => 0
  | .b | .gr => 1

theorem rowInQuad_lt (i : SubPixel) : rowInQuad i < 2 := by cases i <;> decide

theorem colInQuad_lt (i : SubPixel) : colInQuad i < 2 := by cases i <;> decide

theorem subPixel_ext {i j : SubPixel} (hr : rowInQuad i = rowInQuad j)
    (hc : colInQuad i = colInQuad j) : i = j := by
  cases i <;> cases j <;> simp_all [rowInQuad, colInQuad]

/-- The output index as a row and a column of the image (R66). -/
theorem quadIndex_eq (hw p : Nat) (i : SubPixel) :
    quadIndex hw p i = 2 * hw * (2 * (p / hw) + rowInQuad i) + (2 * (p % hw) + colInQuad i) := by
  cases i <;> simp only [quadIndex, rowInQuad, colInQuad] <;> ring

/-- Different sub-pixels have different output elements (R66). -/
theorem quadIndex_inj {hw p q : Nat} {i j : SubPixel} (hpos : 0 < hw) (h : quadIndex hw p i = quadIndex hw q j) :
    p = q ∧ i = j := by
  have hcol (p : Nat) (i : SubPixel) : 2 * (p % hw) + colInQuad i < 2 * hw := by
    have := Nat.mod_lt p hpos
    have := colInQuad_lt i
    omega
  have hwidth : 0 < 2 * hw := by omega
  rw [quadIndex_eq, quadIndex_eq] at h
  have hrows : 2 * (p / hw) + rowInQuad i = 2 * (q / hw) + rowInQuad j := by
    have hdiv := congrArg (· / (2 * hw)) h
    simpa only [Nat.mul_add_div hwidth, Nat.div_eq_of_lt (hcol _ _), add_zero] using hdiv
  have hcols : 2 * (p % hw) + colInQuad i = 2 * (q % hw) + colInQuad j := by
    have hmod := congrArg (· % (2 * hw)) h
    simpa only [Nat.mul_add_mod, Nat.mod_eq_of_lt (hcol _ _)] using hmod
  have hri := rowInQuad_lt i
  have hrj := rowInQuad_lt j
  have hci := colInQuad_lt i
  have hcj := colInQuad_lt j
  refine ⟨?_, subPixel_ext (by omega) (by omega)⟩
  rw [← Nat.div_add_mod p hw, ← Nat.div_add_mod q hw, show p / hw = q / hw by omega, show p % hw = q % hw by omega]

/-- Settles O42: an element's row and column in the image name its quad and the sub-pixel in it. -/
theorem outputIndexMap : Obligations.OutputIndexMap := by
  intro hw hh hpos
  rw [show 4 * (hw * hh) = 2 * hw * (2 * hh) by ring]
  refine ⟨fun p i hp => quadIndex_lt hp i, fun j hj => ?_⟩
  obtain ⟨p, hp, i, rfl⟩ := exists_quadIndex hj
  refine ⟨(p, i), ⟨hp, rfl⟩, ?_⟩
  rintro ⟨q, k⟩ ⟨_, hq⟩
  obtain ⟨rfl, rfl⟩ := quadIndex_inj hpos hq
  rfl

/-! ### The four elements of a pixel -/

/-- The value `CT.QUAD` writes to a sub-pixel's element: the narrowed, shifted eighth of its sum (R191, R193 to R195). -/
def quadValue (s : State) (val : Quad Half) (i : SubPixel) : BitVec 16 :=
  narrow s.pixelW (shiftLossy s.cfg (div8 ((colourSums val).get i)))

/-- Output memory with the four elements of pixel `p` written, in the order of R195. -/
def writeQuad (hw p : Nat) (value : SubPixel → BitVec 16) (m : Mem 16) : Mem 16 :=
  [.gb, .b, .r, .gr].foldl (fun m i => Mem.write outDefault m (quadIndex hw p i) (value i)) m

section
variable {hw p q j : Nat} {value : SubPixel → BitVec 16} {m : Mem 16}

theorem writeQuad_wf (h : Mem.wf outDefault m = true) : Mem.wf outDefault (writeQuad hw p value m) = true :=
  Mem.write_wf (Mem.write_wf (Mem.write_wf (Mem.write_wf h _ _) _ _) _ _) _ _

theorem find_writeQuad_same (hpos : 0 < hw) (i : SubPixel) :
    Mem.find (writeQuad hw p value m) (quadIndex hw p i) = some (value i) := by
  have hne {i k : SubPixel} (h : k ≠ i) : quadIndex hw p k ≠ quadIndex hw p i := fun he => h (quadIndex_inj hpos he).2
  simp only [writeQuad, List.foldl, find_writeOut]
  cases i <;> simp [hne]

theorem find_writeQuad_other (h : ∀ i, j ≠ quadIndex hw p i) :
    Mem.find (writeQuad hw p value m) j = Mem.find m j := by
  simp only [writeQuad, List.foldl, find_writeOut, if_neg (h _).symm]

/-- Two pixels' elements can be written in either order. -/
theorem writeQuad_comm (hpos : 0 < hw) (hm : Mem.wf outDefault m = true) (hne : p ≠ q) (f g : SubPixel → BitVec 16) :
    writeQuad hw q g (writeQuad hw p f m) = writeQuad hw p f (writeQuad hw q g m) := by
  have hpq (i k : SubPixel) : quadIndex hw p i ≠ quadIndex hw q k := fun he => hne (quadIndex_inj hpos he).1
  refine Mem.ext_find (writeQuad_wf (writeQuad_wf hm)) (writeQuad_wf (writeQuad_wf hm)) fun j => ?_
  by_cases hp : ∃ i, j = quadIndex hw p i
  · obtain ⟨i, rfl⟩ := hp
    rw [find_writeQuad_other (hpq i), find_writeQuad_same hpos, find_writeQuad_same hpos]
  · rw [find_writeQuad_other (p := p) (not_exists.mp hp)]
    by_cases hq : ∃ i, j = quadIndex hw q i
    · obtain ⟨i, rfl⟩ := hq
      rw [find_writeQuad_same hpos, find_writeQuad_same hpos]
    · rw [find_writeQuad_other (not_exists.mp hq), find_writeQuad_other (not_exists.mp hp),
        find_writeQuad_other (not_exists.mp hq)]

end

/-! ### `CT.QUAD` -/

section
variable {s : State} {val : Quad Half}

theorem exec_ctQuad (p : BitVec 32) (val : Quad Half) (s : State) :
    exec (.ctQuad p val) s = (transformQuad p.toNat val s).outcome := rfl

theorem strictCheck_takeSums :
    strictCheck (takeSums val s) =
      if isStrict s.cfg = true ∧ (colourSums val).gr % 8 ≠ 0 then .raised .divisionError (takeSums val s)
      else .ok () (takeSums val s) := rfl

theorem transformQuad_of_strict (hs : isStrict s.cfg = true) (hv : (colourSums val).gr % 8 ≠ 0) (p : Nat) :
    transformQuad p val s = .raised .divisionError (takeSums val s) := by
  rw [transformQuad, strictCheck_takeSums, if_pos ⟨hs, hv⟩, Run.bind_raised]

/-- One element of `CT.QUAD` that lies in output memory, of a pixel whose sums have been taken (R195). -/
theorem writeElement_of_lt {p : Nat} {i : SubPixel} {col : ColourRegs} (m : Mem 16)
    (hsums : col.sums = colourSums val) (h : quadIndex (halfWidth s.cfg) p i < s.cfg.outLen.toNat) :
    ∃ col', col'.sums = colourSums val ∧ writeElement p i { s with colour := col, out := m } =
      .ok () { s with
        colour := col'
        out := Mem.write outDefault m (quadIndex (halfWidth s.cfg) p i) (quadValue s val i) } := by
  refine ⟨(narrowShifted i (shiftQuotient i (divideSum i { s with colour := col }))).colour, hsums, ?_⟩
  rw [writeElement_eq, if_pos h, quadValue, ← hsums]
  rfl

/-- `CT.QUAD` of a pixel whose four elements lie in output memory and whose sums pass the strict check (R195). -/
theorem transformQuad_of_lt {p : Nat} (hv : isStrict s.cfg = false ∨ (colourSums val).gr % 8 = 0)
    (hp : ∀ i, quadIndex (halfWidth s.cfg) p i < s.cfg.outLen.toNat) :
    ∃ col, transformQuad p val s =
      .ok () { s with colour := col, out := writeQuad (halfWidth s.cfg) p (quadValue s val) s.out } := by
  have hpass : ¬(isStrict s.cfg = true ∧ (colourSums val).gr % 8 ≠ 0) := by
    rcases hv with hv | hv <;> simp [hv]
  obtain ⟨_, hgb, egb⟩ := writeElement_of_lt (val := val) (col := (takeSums val s).colour) s.out rfl (hp .gb)
  obtain ⟨_, hb, eb⟩ := writeElement_of_lt _ hgb (hp .b)
  obtain ⟨_, hr, er⟩ := writeElement_of_lt _ hb (hp .r)
  obtain ⟨col, _, egr⟩ := writeElement_of_lt _ hr (hp .gr)
  refine ⟨col, ?_⟩
  rw [transformQuad, strictCheck_takeSums, if_neg hpass, Run.bind_ok,
    show takeSums val s = { s with colour := (takeSums val s).colour, out := s.out } from rfl, egb, Run.bind_ok, eb,
    Run.bind_ok, er, Run.bind_ok, egr]
  rfl

/-- Every element of a pixel of the image lies in an output memory of one element per sub-pixel (R66). -/
theorem quadIndex_lt_of_size {p : Nat} (hp : p < npix s.cfg) (hlen : s.cfg.outLen.toNat = 4 * npix s.cfg)
    (i : SubPixel) : quadIndex (halfWidth s.cfg) p i < s.cfg.outLen.toNat := by
  have h := quadIndex_lt hp i
  rw [hlen, npix]
  linarith

theorem halfWidth_pos {c : Cfg} {p : Nat} (hp : p < npix c) : 0 < halfWidth c :=
  Nat.pos_of_mul_pos_right (lt_of_le_of_lt (Nat.zero_le _) hp)

theorem exec_ctQuad_next {p : BitVec 32} (hp : p.toNat < npix s.cfg) (hlen : s.cfg.outLen.toNat = 4 * npix s.cfg)
    (hv : isStrict s.cfg = false ∨ (colourSums val).gr % 8 = 0) :
    ∃ col, exec (.ctQuad p val) s =
      .next { s with colour := col, out := writeQuad (halfWidth s.cfg) p.toNat (quadValue s val) s.out } := by
  obtain ⟨col, hq⟩ := transformQuad_of_lt hv (quadIndex_lt_of_size hp hlen)
  exact ⟨col, by rw [exec_ctQuad, hq]; rfl⟩

/-- What a pixel writes depends on its operands, the configuration and PIXEL_W alone. -/
theorem exec_ctQuad_out {p : BitVec 32} (hp : p.toNat < npix s.cfg) (hlen : s.cfg.outLen.toNat = 4 * npix s.cfg)
    (hv : isStrict s.cfg = false ∨ (colourSums val).gr % 8 = 0) (col : ColourRegs) (m : Mem 16) :
    ∃ t, exec (.ctQuad p val) { s with colour := col, out := m } = .next t ∧
      t.out = writeQuad (halfWidth s.cfg) p.toNat (quadValue s val) m := by
  obtain ⟨_, h⟩ := exec_ctQuad_next (s := { s with colour := col, out := m }) hp hlen hv
  exact ⟨_, h, rfl⟩

end

/-- Settles O39: the four elements are written where the index map says, and a raise comes before the first of them. -/
theorem ctQuad : Obligations.CtQuad := by
  intro p v s r c w hp hlen hr hc hw
  subst hr hc hw
  refine ⟨fun hv => ?writes, fun ⟨hs, hv⟩ => ?raises⟩
  case writes =>
    obtain ⟨col, hq⟩ := exec_ctQuad_next hp hlen hv
    refine ⟨col, _, hq, fun i j hij => ?_, fun j hj => ?_⟩
    · have hj : j = quadIndex (halfWidth s.cfg) p.toNat i := by
        simp only [List.mem_cons, Prod.mk.injEq, List.not_mem_nil, or_false] at hij
        rcases hij with ⟨rfl, rfl⟩ | ⟨rfl, rfl⟩ | ⟨rfl, rfl⟩ | ⟨rfl, rfl⟩ <;> rfl
      rw [hj, find_writeQuad_same (halfWidth_pos hp)]
      rfl
    · refine find_writeQuad_other fun i hi => hj ?_
      subst hi
      cases i <;> simp [quadIndex]
  case raises =>
    exact ⟨_, by rw [exec_ctQuad, transformQuad_of_strict hs hv]; rfl, stoppedBy_fail _ .divisionError⟩

/-- Settles O43: each pixel writes the same four values in either order, to elements of its own. -/
theorem pixelsInAnyOrder : Obligations.PixelsInAnyOrder := by
  intro s t u p q v w hne hp hq hlen hm hstrict ht hu
  obtain ⟨_, hout, _, _⟩ := (State.memWF_iff s).mp hm
  obtain ⟨_, hpv⟩ := exec_ctQuad_next (val := v) hp hlen (.inl hstrict)
  obtain ⟨_, hqw⟩ := exec_ctQuad_next (val := w) hq hlen (.inl hstrict)
  cases ht.symm.trans hpv
  cases hu.symm.trans hqw
  obtain ⟨t', ht', hto⟩ := exec_ctQuad_out (val := w) hq hlen (.inl hstrict) _ _
  obtain ⟨u', hu', huo⟩ := exec_ctQuad_out (val := v) hp hlen (.inl hstrict) _ _
  refine ⟨t', u', ht', hu', ?_⟩
  rw [hto, huo, writeQuad_comm (halfWidth_pos hp) hout fun h => hne (BitVec.eq_of_toNat_eq h)]

/-! ### The host's accesses -/

/-- Writing a byte of stream memory lists it and leaves the others. -/
theorem find_writeStream (m : Mem 8) (i k : Nat) (b : Byte) :
    Mem.find (Mem.write streamDefault m i b) k = if i = k then some b else Mem.find m k := by
  rw [Mem.write, if_neg (by simp [streamDefault]), Mem.find_put]

theorem outRead_of_find {s : State} {j : Nat} {v : BitVec 16} (h : Mem.find s.out j = some v) : outRead s j = v := by
  simp [outRead, Mem.read, h]

/-- Settles O46, by the tests of BUSY and of CFG.OUT_LEN. -/
theorem hostMemoryAccess : Obligations.HostMemoryAccess := by
  intro s a j b
  refine ⟨fun hb => ?write, fun hb hj v hv => ?read, fun hb hj => ?beyond, fun hb => ?busy⟩
  case write =>
    refine ⟨Mem.write streamDefault s.stream a.toNat b, ?_, ?_, fun i hi => ?_⟩
    · rw [hostMove, if_neg (by simp [hb])]
    · rw [find_writeStream, if_pos rfl]
    · rw [find_writeStream, if_neg hi.symm]
  case read => rw [hostMove, if_neg (by simp [hb]), if_pos hj, outRead_of_find hv]
  case beyond => rw [hostMove, if_neg (by simp [hb]), if_neg (by omega)]
  case busy => exact ⟨by rw [hostMove, if_pos hb], by rw [hostMove, if_pos hb]⟩

end Sys2Proof.Machine
end

section
/-! The row passes of phase B in any order (R75, R174). -/

namespace Sys2Proof.Machine

/-! ### The buffers as functions of pixel and channel -/

theorem exists_channel {k : Nat} (h : k < 4) : ∃ c : Channel, c.index = k := by
  interval_cases k
  exacts [⟨.y, rfl⟩, ⟨.cd, rfl⟩, ⟨.cm, rfl⟩, ⟨.co, rfl⟩]

/-- Every index of a buffer is an entry's (R39). -/
theorem exists_bufIndex (i : Nat) : ∃ p c, bufIndex p c = i := by
  obtain ⟨c, hc⟩ := exists_channel (Nat.mod_lt i (by norm_num : 0 < 4))
  exact ⟨i / 4, c, by rw [bufIndex, hc]; exact Nat.div_add_mod i 4⟩

/-- A buffer has a value at every index (log entry 3). -/
theorem read_bufIndex (m : Mem 16) (p : Nat) (c : Channel) :
    Mem.read bufDefault m (bufIndex p c) = some (bufRead m p c) := by
  unfold bufRead Mem.read bufDefault
  split <;> rfl

/-- Two canonical buffers with the same entries are equal. -/
theorem buffer_ext {m n : Mem 16} (hm : Mem.wf bufDefault m = true) (hn : Mem.wf bufDefault n = true)
    (h : ∀ p c, bufRead m p c = bufRead n p c) : m = n := by
  refine Mem.ext_read hm hn fun i => ?_
  obtain ⟨p, c, rfl⟩ := exists_bufIndex i
  rw [read_bufIndex, read_bufIndex, h]

/-! ### What a row pass reads and writes -/

/-- Pixel `q` is one that the pass of row `r` writes: in row r, from the second column on (R174). -/
def writtenByRow (hw r q : Nat) : Prop := q / hw = r ∧ q % hw ≠ 0

section
variable {hw r r' q : Nat} {res m : Mem 16}

theorem writtenByRow_of_col {j : Nat} (hj : j + 1 < hw) : writtenByRow hw r (r * hw + (j + 1)) := by
  rw [writtenByRow, mul_comm, Nat.mul_add_div (by omega), Nat.mul_add_mod, Nat.div_eq_of_lt hj, Nat.mod_eq_of_lt hj]
  omega

/-- No pass writes column 0, from which the pass of its row starts. -/
theorem not_writtenByRow_col0 : ¬writtenByRow hw r' (r * hw) := by
  simp [writtenByRow]

/-- The pass of a row leaves every other pixel (R174). -/
theorem bufRead_rowCols_other (hm : Mem.wf bufDefault m = true) (hq : ¬writtenByRow hw r q) {n : Nat}
    (hn : n ≤ hw - 1) (c : Channel) : bufRead (rowCols hw r res n m) q c = bufRead m q c := by
  induction n with
  | zero => rfl
  | succ n ih =>
    rw [rowCols, bufRead_sumPixel (rowCols_wf hm n), if_neg, ih (by omega)]
    rintro rfl
    exact hq (writtenByRow_of_col (by omega))

/-- The pass of a row computes its pixels from column 0 of the row, which no pass writes: a pass of another row before it
makes no difference outside the pixels of that other row. -/
theorem bufRead_rowCols_rowCols (hm : Mem.wf bufDefault m = true) (hq : ¬writtenByRow hw r' q) (c : Channel) :
    bufRead (rowCols hw r res (hw - 1) (rowCols hw r' res (hw - 1) m)) q c =
      bufRead (rowCols hw r res (hw - 1) m) q c := by
  have hsame : SameEntries (fun q _ => ¬writtenByRow hw r' q) m (rowCols hw r' res (hw - 1) m) :=
    ⟨hm, rowCols_wf hm _, fun q c hq => bufRead_rowCols_other hm hq le_rfl c⟩
  exact (hsame.rowCols (fun _ => not_writtenByRow_col0) (hw - 1) fun _ _ _ => rfl).read q c (.inl hq)

/-- The passes of two rows commute. -/
theorem rowCols_comm (hm : Mem.wf bufDefault m = true) (r r' : Nat) :
    rowCols hw r res (hw - 1) (rowCols hw r' res (hw - 1) m) =
      rowCols hw r' res (hw - 1) (rowCols hw r res (hw - 1) m) := by
  by_cases hrr : r = r'
  · rw [hrr]
  refine buffer_ext (rowCols_wf (rowCols_wf hm _) _) (rowCols_wf (rowCols_wf hm _) _) fun q c => ?_
  by_cases hq : writtenByRow hw r q
  · have hq' : ¬writtenByRow hw r' q := fun h => hrr (hq.1.symm.trans h.1)
    rw [bufRead_rowCols_rowCols hm hq', bufRead_rowCols_other (rowCols_wf hm _) hq' le_rfl]
  · rw [bufRead_rowCols_rowCols hm hq, bufRead_rowCols_other (rowCols_wf hm _) hq le_rfl]

end

/-! ### The passes as a list of operations -/

/-- The passes of a list of rows, in its order. -/
def rowPasses (s : State) (rows : List Nat) : Mem 16 :=
  rows.foldl (fun m r => rowCols (halfWidth s.cfg) r s.resbuf (halfWidth s.cfg - 1) m) s.valbuf

theorem performAll_dpRow (rows : List Nat) (s : State) :
    performAll (rows.map .dpRow) s = .next { s with valbuf := rowPasses s rows } := by
  induction rows generalizing s with
  | nil => rfl
  | cons r rows ih => exact ih (reconstructRow r s)

theorem foldl_rowCols_perm {hw : Nat} {res m : Mem 16} {rows rows' : List Nat} (h : rows.Perm rows')
    (hm : Mem.wf bufDefault m = true) :
    rows.foldl (fun m r => rowCols hw r res (hw - 1) m) m = rows'.foldl (fun m r => rowCols hw r res (hw - 1) m) m := by
  induction h generalizing m with
  | nil => rfl
  | cons r _ ih => exact ih (rowCols_wf hm _)
  | swap r r' rows => rw [List.foldl_cons, List.foldl_cons, List.foldl_cons, List.foldl_cons, rowCols_comm hm]
  | trans _ _ ih ih' => exact (ih hm).trans (ih' hm)

/-- Settles O34, by induction on the permutation: the passes of two rows commute on a canonical VALBUF. -/
theorem rowsInAnyOrder : Obligations.RowsInAnyOrder := by
  intro s rows hm hperm
  obtain ⟨_, _, _, hval⟩ := (State.memWF_iff s).mp hm
  refine ⟨_, performAll_dpRow rows s, ?_⟩
  rw [performAll_dpRow, rowPasses, rowPasses, foldl_rowCols_perm hperm hval]

end Sys2Proof.Machine
end

section
/-! Every step keeps the four memories in canonical form. -/

namespace Sys2Proof.Machine

/-- The answer leaves canonical memories, where it completes and where it raises. -/
def Run.KeepsMemories {α : Type} : Run α → Prop
  | .ok _ t => t.memWF = true
  | .raised _ t => t.memWF = true
  | .fault _ => True
  | .refused _ => True

section
variable {s t : State}

theorem Run.KeepsMemories.bind {α β : Type} {x : Run α} {f : α → State → Run β} (hx : x.KeepsMemories)
    (hf : ∀ a t, t.memWF = true → (f a t).KeepsMemories) : (x.bind f).KeepsMemories := by
  cases x with
  | ok a t => exact hf a t hx
  | raised c t => exact hx
  | fault e => trivial
  | refused e => trivial

/-- A raise empties the list of known output elements and leaves the other memories (R250, R252). -/
theorem fail_memWF (h : s.memWF = true) (c : RaiseCode) : (s.fail c).memWF = true :=
  memWF_of h rfl (fun _ => rfl) id id

theorem outcome_memWF {α : Type} {x : Run α} (hx : x.KeepsMemories) (h : x.outcome = .next t) : t.memWF = true := by
  rcases Run.outcome_eq_next.mp h with ⟨a, rfl⟩ | ⟨c, u, rfl, rfl⟩
  · exact hx
  · exact fail_memWF hx c

/-! ### The bit cursor and the adaptive Rice decoder write registers only -/

theorem streamRead_bind_keepsMemories {β : Type} {i : Nat} {f : Byte → State → Run β}
    (hf : ∀ b, (f b s).KeepsMemories) : ((streamRead s i).bind f).KeepsMemories := by
  unfold streamRead
  split
  · exact hf _
  · trivial

theorem fetchBit_keepsMemories (hm : s.memWF = true) : (fetchBit s).KeepsMemories := by
  unfold fetchBit
  split
  · split
    · exact hm
    · exact streamRead_bind_keepsMemories fun _ => hm
  · exact hm

theorem fetchBits_keepsMemories (n : Nat) (hm : s.memWF = true) : (fetchBits n s).KeepsMemories := by
  induction n generalizing s with
  | zero => exact hm
  | succ n ih => exact (fetchBit_keepsMemories hm).bind fun _ _ h => (ih h).bind fun _ _ h => h

theorem fetchField_keepsMemories (n : Nat) (hm : s.memWF = true) : (fetchField n s).KeepsMemories :=
  (fetchBits_keepsMemories n hm).bind fun _ _ h => h

theorem loadCursor_keepsMemories (hm : s.memWF = true) : (loadCursor s).KeepsMemories := by
  unfold loadCursor
  split
  · exact hm
  · exact streamRead_bind_keepsMemories fun _ => hm

theorem seedChannel_keepsMemories (c : Channel) (hm : s.memWF = true) : (seedChannel c s).KeepsMemories :=
  (fetchBit_keepsMemories hm).bind fun _ _ h => (fetchField_keepsMemories _ h).bind fun _ _ h => h

theorem seedPixel_keepsMemories (hm : s.memWF = true) : (seedPixel s).KeepsMemories :=
  (seedChannel_keepsMemories .y hm).bind fun _ _ h => (seedChannel_keepsMemories .cd h).bind fun _ _ h =>
    (seedChannel_keepsMemories .cm h).bind fun _ _ h => seedChannel_keepsMemories .co h

theorem unaryLoop_keepsMemories (n : Nat) (hm : s.memWF = true) : (unaryLoop n s).KeepsMemories := by
  induction n generalizing s with
  | zero => exact hm
  | succ n ih =>
    refine (fetchBit_keepsMemories hm).bind fun b t h => ?_
    cases b with
    | true => exact ih (s := { t with sym := { t.sym with q := t.sym.q + 1 } }) h
    | false => exact h

theorem readUnary_keepsMemories (hm : s.memWF = true) : (readUnary s).KeepsMemories := by
  unfold readUnary
  split
  · trivial
  · exact unaryLoop_keepsMemories (s := { s with sym := { s.sym with q := 0 } }) _ hm

theorem readEscape_keepsMemories (hm : s.memWF = true) : (readEscape s).KeepsMemories :=
  (fetchField_keepsMemories _ hm).bind fun _ _ h => h

theorem readRemainder_keepsMemories (hm : s.memWF = true) : (readRemainder s).KeepsMemories :=
  (fetchField_keepsMemories _ hm).bind fun _ _ h => h

theorem decodeOne_keepsMemories (c : Channel) (hm : s.memWF = true) : (decodeOne c s).KeepsMemories := by
  refine (readUnary_keepsMemories (s := recomputeK c s) hm).bind fun _ t h => Run.KeepsMemories.bind ?_ fun _ _ h => h
  split
  · exact readEscape_keepsMemories h
  · exact readRemainder_keepsMemories h

/-! ### Output memory and the buffers -/

theorem outWrite_keepsMemories (j : Nat) (v : BitVec 16) (hm : s.memWF = true) : (outWrite j v s).KeepsMemories := by
  unfold outWrite
  split
  · exact memWF_of hm rfl (fun h => Mem.write_wf h j v) id id
  · trivial

theorem writeElement_keepsMemories (p : Nat) (i : SubPixel) (hm : s.memWF = true) :
    (writeElement p i s).KeepsMemories :=
  outWrite_keepsMemories (s := narrowShifted i (shiftQuotient i (divideSum i s))) _ _ hm

theorem strictCheck_keepsMemories (hm : s.memWF = true) : (strictCheck s).KeepsMemories := by
  unfold strictCheck
  split <;> exact hm

theorem transformQuad_keepsMemories (p : Nat) (val : Quad Half) (hm : s.memWF = true) :
    (transformQuad p val s).KeepsMemories :=
  (strictCheck_keepsMemories (s := takeSums val s) hm).bind fun _ _ h =>
    (writeElement_keepsMemories p .gb h).bind fun _ _ h => (writeElement_keepsMemories p .b h).bind fun _ _ h =>
      (writeElement_keepsMemories p .r h).bind fun _ _ h => writeElement_keepsMemories p .gr h

theorem storeResidual_memWF (p : Nat) (c : Channel) (x : Int) (hm : s.memWF = true) :
    (storeResidual p c x s).memWF = true :=
  memWF_of hm rfl id (fun h => bufWrite_wf h p c _) id

theorem reconstructCol0_memWF (hm : s.memWF = true) : (reconstructCol0 s).memWF = true :=
  memWF_of hm rfl id id fun h => col0Rows_wf (copyPixel0_wf h) _

theorem reconstructRow_memWF (r : Nat) (hm : s.memWF = true) : (reconstructRow r s).memWF = true :=
  memWF_of hm rfl id id fun h => rowCols_wf h _

theorem checkConfig_keepsMemories (hm : s.memWF = true) : (checkConfig s).KeepsMemories := by
  cases h : checkConfig s with
  | ok a t =>
    obtain ⟨_, _, rfl⟩ := checkConfig_eq_ok.mp h
    exact hm
  | raised c t =>
    obtain ⟨_, _, rfl⟩ := checkConfig_eq_raised.mp h
    exact hm
  | fault e => trivial
  | refused e => trivial

/-! ### Every operation -/

/-- The two strategies, each of which is a run of its own and no operation that the sequencer selects. -/
def isStrategy (i : Instr) : Prop := i = .seqRunSeq ∨ i = .seqRunStaged

/-- Every operation but the two strategies keeps the memories canonical. -/
theorem exec_memWF {i : Instr} (hi : ¬isStrategy i) (hm : s.memWF = true) (h : exec i s = .next t) :
    t.memWF = true := by
  cases i with
  | bcLoad => exact outcome_memWF (loadCursor_keepsMemories hm) h
  | bcFetch1 =>
    exact outcome_memWF ((fetchBit_keepsMemories hm).bind
      (f := fun (b : Bool) s => .ok () { s with fetched := b.toNat }) fun _ _ h => h) h
  | bcFetchN n =>
    exact outcome_memWF ((fetchField_keepsMemories n hm).bind
      (f := fun v s => .ok () { s with fetched := v }) fun _ _ h => h) h
  | arSeed => exact outcome_memWF (seedPixel_keepsMemories hm) h
  | arUnary => exact outcome_memWF (readUnary_keepsMemories hm) h
  | arEsc => exact outcome_memWF (readEscape_keepsMemories hm) h
  | arRem => exact outcome_memWF (readRemainder_keepsMemories hm) h
  | arSym c => exact outcome_memWF (decodeOne_keepsMemories c hm) h
  | ctStrict => exact outcome_memWF (strictCheck_keepsMemories hm) h
  | ctQuad p val => exact outcome_memWF (transformQuad_keepsMemories _ val hm) h
  | seqCheck => exact outcome_memWF (checkConfig_keepsMemories hm) h
  | dpStore p c x => cases h; exact storeResidual_memWF _ c x hm
  | dpCol0 => cases h; exact reconstructCol0_memWF hm
  | dpRow r => cases h; exact reconstructRow_memWF r hm
  | seqFail c => cases h; exact fail_memWF hm c
  | hostCfgWrite acc =>
    obtain ⟨_, _, heq, _⟩ := cfgAccess_frame acc s
    cases h
    rw [heq]
    exact hm
  | hostStart =>
    rw [exec_hostStart] at h
    cases h
    split <;> exact hm
  | seqRunSeq => exact absurd (.inl rfl) hi
  | seqRunStaged => exact absurd (.inr rfl) hi
  | _ => cases h; exact hm

/-! ### The step -/

theorem selectedOp_not_isStrategy {i : Instr} (h : selectedOp s = some i) : ¬isStrategy i := by
  rintro (rfl | rfl) <;> rcases selectedOp_isControl h rfl with ⟨_, hi⟩ | ⟨_, hi⟩ | ⟨_, hi⟩ <;> cases hi

theorem isCodeword_not_isStrategy {i : Instr} (h : i.isCodeword = true) : ¬isStrategy i := by
  rintro (rfl | rfl) <;> cases h

/-- The advance writes no memory. -/
theorem advance_memWF (hm : s.memWF = true) : (advance s).memWF = true := by
  obtain ⟨_, _, _, heq⟩ := advance_frame s
  rw [heq]
  exact hm

theorem codewordMove_memWF (hm : s.memWF = true) (h : codewordMove s = .next t) : t.memWF = true := by
  rcases codewordMove_next h with ⟨i, n, bs, c, hi, _, he⟩ | ⟨c, rfl⟩ | ⟨_, _, ho⟩ | ⟨_, _, he⟩
  · exact exec_memWF (isCodeword_not_isStrategy (codewordAhead_isCodeword hi)) (s := { s with cursor := c }) hm he
  · exact fail_memWF (s := { s with cursor := c }) hm _
  · exact outcome_memWF (seedChannel_keepsMemories s.ch hm) ho
  · exact outcome_memWF (decodeOne_keepsMemories s.ch hm) he

theorem decoderMove_memWF (hm : s.memWF = true) (h : decoderMove s = .next t) : t.memWF = true := by
  rcases decoderMove_next h with ⟨i, u, hi, he, rfl⟩ | ⟨_, u, hu, rfl⟩ | ⟨_, _, rfl⟩ | ⟨_, rfl⟩
  · exact advance_memWF (exec_memWF (selectedOp_not_isStrategy hi) hm he)
  · exact advance_memWF (codewordMove_memWF hm hu)
  · exact hm
  · exact hm

theorem hostMove_memWF {e : HostEvent} (hm : s.memWF = true) (h : hostMove e s = .next t) : t.memWF = true := by
  cases e with
  | cfg acc => exact exec_memWF (i := .hostCfgWrite acc) (by simp [isStrategy]) hm h
  | start => exact exec_memWF (i := .hostStart) (by simp [isStrategy]) hm h
  | statusRead => exact exec_memWF (i := .hostStatusRead) (by simp [isStrategy]) hm h
  | streamWrite addr b =>
    simp only [hostMove] at h
    split at h
    · cases h
    · cases h
      rw [State.memWF_iff] at hm ⊢
      exact ⟨Mem.write_wf hm.1 _ b, hm.2⟩
  | outRead j =>
    simp only [hostMove] at h
    split at h
    · cases h
    · split at h
      · cases h
        exact hm
      · cases h

end

/-- Settles O57: a memory is only written entry by entry, which keeps the canonical form, or emptied by a raise. -/
theorem stepKeepsMemories : Obligations.StepKeepsMemories := by
  intro s t hm h
  rcases turn_cases s with ⟨l, hl⟩ | ⟨e, rest, hh⟩
  · exact decoderMove_memWF (s := { s with host := l }) hm (step_of_turn hl ▸ h)
  · exact hostMove_memWF (s := { s with host := rest }) hm (step_of_host hh ▸ h)

end Sys2Proof.Machine
end

section
/-! The two strategies as the lists of operations of R214 and R215. -/

namespace Sys2Proof.Machine

/-! ### An operation that a list of items performs -/

/-- The answer leaves `outEpoch`, where it completes and where it raises: no raise has been taken yet. -/
def Run.KeepsEpoch {α : Type} (s : State) : Run α → Prop
  | .ok _ t => t.outEpoch = s.outEpoch
  | .raised _ t => t.outEpoch = s.outEpoch
  | .fault _ => True
  | .refused _ => True

/-- The items in order, from `s`, do what the operation `x` does, which takes no raise before it ends. -/
structure Performs (s : State) (items : List Item) (x : Run Unit) : Prop where
  outcome : inOrder items s = x.outcome
  epoch : x.KeepsEpoch s

section
variable {s : State}

theorem Run.KeepsEpoch.of_ends {α : Type} {x : Run α} (hok : ∀ a t, x = .ok a t → t.outEpoch = s.outEpoch)
    (hraised : ∀ c t, x = .raised c t → t.outEpoch = s.outEpoch) : x.KeepsEpoch s := by
  cases x with
  | ok a t => exact hok a t rfl
  | raised c t => exact hraised c t rfl
  | fault e => trivial
  | refused e => trivial

theorem Performs.nil (s : State) : Performs s [] (.ok () s) := ⟨rfl, rfl⟩

theorem Performs.item {f : Item} {x : Run Unit} (hf : f s = x.outcome) (hx : x.KeepsEpoch s) : Performs s [f] x := by
  refine ⟨?_, hx⟩
  rw [inOrder, hf]
  cases x with
  | ok | raised => exact ite_self _
  | fault | refused => rfl

/-- A list of items, and then another where the first completes. -/
theorem Performs.append {items items' : List Item} {x : Run Unit} {g : Unit → State → Run Unit}
    (hx : Performs s items x) (hg : ∀ t, x = .ok () t → Performs t items' (g () t)) :
    Performs s (items ++ items') (x.bind g) := by
  obtain ⟨hout, hepoch⟩ := hx
  have hall := inOrder_append items items' s
  rw [hout] at hall
  cases x with
  | ok a t =>
    obtain ⟨hout', hepoch'⟩ := hg t rfl
    have ht : t.outEpoch = s.outEpoch := hepoch
    refine ⟨?_, ?_⟩
    · rw [hall, Run.outcome_ok, Run.bind_ok, ← hout']
      exact if_pos ht
    · rw [Run.bind_ok]
      unfold Run.KeepsEpoch at hepoch' ⊢
      rwa [← ht]
  | raised c t =>
    have ht : t.outEpoch = s.outEpoch := hepoch
    exact ⟨by rw [hall]; simp [ht], hepoch⟩
  | fault e => exact ⟨hall, trivial⟩
  | refused e => exact ⟨hall, trivial⟩

/-- An item, and then the others where it completes. -/
theorem Performs.cons {f : Item} {items : List Item} {x : Run Unit} {g : Unit → State → Run Unit}
    (hf : f s = x.outcome) (hx : x.KeepsEpoch s) (hg : ∀ t, x = .ok () t → Performs t items (g () t)) :
    Performs s (f :: items) (x.bind g) :=
  (Performs.item hf hx).append hg

/-- An item that only writes registers or buffers, and then the others. -/
theorem Performs.step {f : Item} {items : List Item} {t : State} {x : Run Unit} (hf : f s = .next t)
    (ht : t.outEpoch = s.outEpoch) (hx : Performs t items x) : Performs s (f :: items) x :=
  Performs.cons (x := .ok () t) (g := fun _ _ => x) hf ht fun u hu => by cases hu; exact hx

/-! ### The operations that can raise -/

theorem loadCursor_keepsEpoch (s : State) : (loadCursor s).KeepsEpoch s := by
  refine .of_ends (fun _ t h => ?_) fun c t h => ?_
  · obtain ⟨_, _, _, rfl⟩ := loadCursor_ok h
    rfl
  · obtain ⟨_, rfl, _⟩ := loadCursor_raised h
    rfl

theorem seedPixel_keepsEpoch (s : State) : (seedPixel s).KeepsEpoch s := by
  refine .of_ends (fun _ t h => ?_) fun c t h => ?_
  · obtain ⟨_, _, _, _, rfl⟩ := seedPixel_ok h
    rfl
  · obtain ⟨_, _, _, _, _, rfl⟩ := seedPixel_raised h
    rfl

theorem decodeOne_keepsEpoch (c : Channel) (s : State) : (decodeOne c s).KeepsEpoch s := by
  refine .of_ends (fun _ t h => ?_) fun c t h => ?_
  · obtain ⟨_, _, rfl⟩ := decodeOne_ok h
    rfl
  · obtain ⟨_, _, _, rfl⟩ := decodeOne_raised h
    rfl

theorem transformQuad_keepsEpoch (p : Nat) (val : Quad Half) (s : State) : (transformQuad p val s).KeepsEpoch s := by
  refine .of_ends (fun _ t h => ?_) fun c t h => ?_
  · obtain ⟨_, _, rfl⟩ := transformQuad_ok h
    rfl
  · obtain ⟨_, _, _, rfl⟩ := transformQuad_raised h
    rfl

/-! ### The parts that both strategies have -/

/-- The start of a run (R214, R215). -/
theorem openRun_performs (hwf : s.cfgWF = true) : Performs s openingItems (openRun s) := by
  rw [openRun, (requireCfgWF_eq_ok (a := ())).mpr ⟨hwf, rfl⟩, Run.bind_ok]
  exact .cons rfl (loadCursor_keepsEpoch s) fun t _ => .step rfl rfl <| .step rfl rfl <| .step rfl rfl <|
    .item rfl (seedPixel_keepsEpoch (firstPixel (initAdaptive t)))

/-- The four channels in channel order, and then what follows them (R11). -/
theorem eachChannel_performs {body : Channel → List Item} {rest : List Item} {channel : Channel → State → Run Unit}
    {f : State → Run Unit} (hc : ∀ c s, Performs s (setCh c :: body c) (channel c s))
    (hf : ∀ t, Performs t rest (f t)) (s : State) :
    Performs s (eachChannel body ++ rest) ((channel .y s).bind fun _ s => (channel .cd s).bind fun _ s =>
      (channel .cm s).bind fun _ s => (channel .co s).bind fun _ s => f s) := by
  have hlist : eachChannel body ++ rest = (setCh .y :: body .y) ++ ((setCh .cd :: body .cd) ++
      ((setCh .cm :: body .cm) ++ ((setCh .co :: body .co) ++ rest))) := by
    simp [eachChannel]
  rw [hlist]
  exact (hc .y s).append fun t _ => (hc .cd t).append fun t _ => (hc .cm t).append fun t _ =>
    (hc .co t).append fun t _ => hf t

/-- The loop over the pixels after pixel `m`, which numbers them with the register P (R32, R214, R215). -/
theorem laterPixels_performs {body : List Item} {pixel : State → Run Unit} {loop : Nat → State → Run Unit}
    (hzero : ∀ s, loop 0 s = .ok () s)
    (hsucc : ∀ n s, loop (n + 1) s = (pixel { s with p := s.p + 1 }).bind fun _ s => loop n s)
    (hbody : ∀ s, Performs s body (pixel s)) (hpixel : ∀ s t, pixel s = .ok () t → t.p = s.p) (n m : Nat)
    (hp : s.p = BitVec.ofNat 32 m) :
    Performs s ((List.range' m n).flatMap fun i => setP (i + 1) :: body) (loop n s) := by
  induction n generalizing m s with
  | zero => exact hzero s ▸ .nil s
  | succ n ih =>
    have hnext : s.p + 1 = BitVec.ofNat 32 (m + 1) := by rw [hp, BitVec.ofNat_add]; rfl
    rw [List.range'_succ, List.flatMap_cons, hsucc]
    have hset : setP (m + 1) s = .next { s with p := s.p + 1 } := by rw [setP, ← hnext]
    refine (Performs.step hset rfl (hbody { s with p := s.p + 1 })).append fun t ht => ih (m + 1) ?_
    rw [hpixel _ t ht, hnext]

/-! ### The Sequential strategy -/

theorem seqPixel_performs (s : State) :
    Performs s ((eachChannel fun c => [exec (.arSym c), exec (.dpSeq c)]) ++
      [exec .arUpdN, fun s => exec (.ctQuad s.p s.dpcm.prev) s]) (seqPixel s) := by
  refine eachChannel_performs (channel := seqChannel) (fun c s => ?_) (fun t => ?_) s
  · exact .step rfl rfl <| .cons rfl (decodeOne_keepsEpoch c _) fun t _ => .item rfl rfl
  · exact .step rfl rfl <| .item rfl (transformQuad_keepsEpoch _ _ (updateN t))

theorem runSequential_performs (hwf : s.cfgWF = true) :
    Performs s (sequentialItems (npix s.cfg)) (runSequential s) := by
  rw [sequentialItems, List.append_assoc]
  refine (openRun_performs hwf).append fun t ht => .step rfl rfl <|
    .cons rfl (transformQuad_keepsEpoch 0 _ (installSeed t)) fun u hu => ?_
  obtain ⟨_, _, _, _, _, rfl⟩ := openRun_ok ht
  obtain ⟨_, _, rfl⟩ := transformQuad_ok hu
  rw [eachLaterPixel, List.range_eq_range']
  exact laterPixels_performs (fun _ => rfl) (fun _ _ => rfl) seqPixel_performs (fun _ _ => seqPixel_p) _ 0 rfl

/-! ### The Staged strategy -/

theorem stagedPixel_performs (s : State) :
    Performs s ((eachChannel fun c => [exec (.arSym c), fun s => exec (.dpStore s.p c s.sym.resid) s]) ++
      [exec .arUpdN]) (stagedPixel s) := by
  refine eachChannel_performs (channel := stagedChannel) (fun c s => ?_) (fun t => ?_) s
  · exact .step rfl rfl <| .cons rfl (decodeOne_keepsEpoch c _) fun t _ => .item rfl rfl
  · exact .item rfl rfl

theorem stagedPixel_p {t : State} (h : stagedPixel s = .ok () t) : t.p = s.p := by
  obtain ⟨_, _, _, _, _, rfl⟩ := stagedPixel_ok h
  rfl

/-- The seed pixel's residuals (R172, R215). -/
theorem storeSeed_performs (s : State) :
    Performs s (eachChannel fun c => [fun s => exec (.dpStore 0 c (s.seedVal.get c)) s]) (.ok () (storeSeed s)) := by
  have h := eachChannel_performs (body := fun c => [fun s => exec (.dpStore 0 c (s.seedVal.get c)) s]) (rest := [])
    (channel := fun c s => .ok () (storeResidual 0 c (s.seedVal.get c) { s with ch := c })) (f := .ok ())
    (fun _ _ => .step rfl rfl (.item rfl rfl)) .nil s
  rwa [List.append_nil] at h

/-- Phase A for `n` pixels (R215). -/
theorem phaseA_performs (n : Nat) (hp : s.p = 0) :
    Performs s ((eachChannel fun c => [fun s => exec (.dpStore 0 c (s.seedVal.get c)) s]) ++
      eachLaterPixel n ((eachChannel fun c => [exec (.arSym c), fun s => exec (.dpStore s.p c s.sym.resid) s]) ++
        [exec .arUpdN])) (stagedPixels (n - 1) (storeSeed s)) := by
  rw [eachLaterPixel, List.range_eq_range']
  refine (storeSeed_performs s).append (g := fun _ t => stagedPixels (n - 1) t) fun t ht => ?_
  cases ht
  exact laterPixels_performs (fun _ => rfl) (fun _ _ => rfl) stagedPixel_performs (fun _ _ => stagedPixel_p) _ 0 hp

/-- Phase B's rows (R215). -/
theorem stagedRows_performs (n : Nat) (s : State) :
    Performs s ((List.range n).map fun r => exec (.dpRow r)) (.ok () (stagedRows n s)) := by
  induction n with
  | zero => exact .nil s
  | succ n ih =>
    rw [List.range_succ, List.map_append]
    exact Performs.append ih (g := fun _ t => .ok () (reconstructRow n t)) fun t _ => .item rfl rfl

/-- Phase C (R215). -/
theorem stagedQuads_performs (n p : Nat) (hn : p + n ≤ 2 ^ 32) (s : State) :
    Performs s ((List.range' p n).map fun p s => exec (.ctQuad (BitVec.ofNat 32 p) (bufQuad s.valbuf p)) s)
      (stagedQuads p n s) := by
  induction n generalizing p s with
  | zero => exact .nil s
  | succ n ih =>
    have hp : (BitVec.ofNat 32 p).toNat = p := by rw [BitVec.toNat_ofNat, Nat.mod_eq_of_lt (by omega)]
    rw [List.range'_succ, List.map_cons]
    refine .cons ?_ (transformQuad_keepsEpoch p _ s) fun t _ => ih (p + 1) (by omega) t
    rw [exec_ctQuad, hp]

/-- Phases B and C for `n` pixels in `rows` rows (R215). -/
theorem phasesBC_performs {n : Nat} (hn : n ≤ 2 ^ 32) (rows : Nat) (s : State) :
    Performs s ((exec .dpCol0 :: (List.range rows).map fun r => exec (.dpRow r)) ++
        (List.range n).map fun p s => exec (.ctQuad (BitVec.ofNat 32 p) (bufQuad s.valbuf p)) s)
      (stagedQuads 0 n (stagedRows rows (reconstructCol0 s))) := by
  rw [List.range_eq_range' (n := n)]
  exact .step rfl rfl <| (stagedRows_performs rows (reconstructCol0 s)).append (g := fun _ t => stagedQuads 0 n t)
    fun t _ => stagedQuads_performs n 0 (by omega) t

theorem runStaged_performs (hwf : s.cfgWF = true) :
    Performs s (stagedItems (npix s.cfg) (halfHeight s.cfg)) (runStaged s) := by
  rw [stagedItems, List.append_assoc, List.append_assoc openingItems, List.append_assoc openingItems]
  refine (openRun_performs hwf).append fun t ht => ?_
  obtain ⟨_, _, _, _, _, rfl⟩ := openRun_ok ht
  refine (phaseA_performs _ rfl).append fun u hu => ?_
  obtain ⟨_, _, _, _, _, _, rfl⟩ := stagedPixels_ok hu
  exact phasesBC_performs (npix_lt s.cfg).le _ _

end

end Sys2Proof.Machine
end

section
/-! A run that cannot run short completes: the bits each operation reads, and the elements it writes. -/

namespace Sys2Proof.Machine

/-! ### Operations that complete -/

/-- The operation completes, in a state with the property `P`. -/
def Run.Completes {α : Type} (P : State → Prop) : Run α → Prop
  | .ok _ t => P t
  | .raised _ _ => False
  | .fault _ => False
  | .refused _ => False

theorem Run.Completes.bind {α β : Type} {P Q : State → Prop} {x : Run α} {f : α → State → Run β} (hx : x.Completes P)
    (hf : ∀ a t, x = .ok a t → P t → (f a t).Completes Q) : (x.bind f).Completes Q := by
  cases x with
  | ok a t => exact hf a t rfl hx
  | raised c t => exact hx.elim
  | fault e => exact hx.elim
  | refused e => exact hx.elim

theorem Run.Completes.mono {α : Type} {P Q : State → Prop} {x : Run α} (hx : x.Completes P)
    (h : ∀ a t, x = .ok a t → P t → Q t) : x.Completes Q := by
  cases x with
  | ok a t => exact h a t rfl hx
  | raised c t => exact hx
  | fault e => exact hx
  | refused e => exact hx

theorem Run.Completes.eq_ok {P : State → Prop} {x : Run Unit} (hx : x.Completes P) : ∃ t, x = .ok () t ∧ P t := by
  cases x with
  | ok a t => exact ⟨t, rfl, hx⟩
  | raised c t => exact hx.elim
  | fault e => exact hx.elim
  | refused e => exact hx.elim

/-! ### The bits that are left -/

/-- `t` is a state of a run on the configuration and the payload of `s`, with at least `n` bits of the payload before the
cursor (R123). -/
structure HasBits (s : State) (n : Nat) (t : State) : Prop where
  cfg : t.cfg = s.cfg
  stream : t.stream = s.stream
  cursorOk : t.cursorOk
  room : t.position + n ≤ s.payloadBits

/-- The most bits a symbol can take: the escape's (R99). -/
def symbolBits (c : Cfg) : Nat := c.unaryCap.toNat + bppEff c + 3

section
variable {s t u : State} {m n : Nat}

theorem HasBits.update (h : HasBits s n t) (hcfg : u.cfg = t.cfg) (hstream : u.stream = t.stream)
    (hcur : u.cursor = t.cursor) : HasBits s n u := by
  refine ⟨hcfg.trans h.cfg, hstream.trans h.stream, (cursorOk_congr hcfg hcur hstream).mpr h.cursorOk, ?_⟩
  have hpos : u.position = t.position := by simp only [State.position, hcfg, hcur]
  rw [hpos]
  exact h.room

theorem HasBits.mono (h : HasBits s n t) (hmn : m ≤ n) : HasBits s m t :=
  ⟨h.cfg, h.stream, h.cursorOk, (Nat.add_le_add_left hmn _).trans h.room⟩

theorem HasBits.filled (h : HasBits s n t) (hf : s.streamFilled) : t.streamFilled := by
  unfold State.streamFilled
  rw [h.cfg, h.stream]
  exact hf

theorem HasBits.payloadBits (h : HasBits s n t) : t.payloadBits = s.payloadBits := by
  rw [State.payloadBits, State.payloadBits, h.cfg]

/-- Moving the cursor over `n` bits leaves the others. -/
theorem HasBits.moved {c : Cursor} (h : HasBits s (n + m) t) (hc : t.movedBy n c) :
    HasBits s m { t with cursor := c } := by
  obtain ⟨hok, hpos, _, _⟩ := hc
  have hroom := h.room
  exact ⟨h.cfg, h.stream, hok, by omega⟩

theorem fetchBits_completes (hf : s.streamFilled) (h : HasBits s (n + m) t) :
    (fetchBits n t).Completes (HasBits s m) := by
  have hroom := h.room
  obtain ⟨bs, hbs⟩ := bitsFrom_of_filled (h.filled hf) (pos := t.position) (n := n) (by rw [h.payloadBits]; omega)
  obtain ⟨c, hc, heq⟩ := fetchBits_of_bitsFrom h.cursorOk hbs
  rw [heq]
  exact h.moved hc

theorem fetchBit_completes (hf : s.streamFilled) (h : HasBits s (1 + m) t) :
    (fetchBit t).Completes (HasBits s m) := by
  have hroom := h.room
  obtain ⟨b, hb⟩ := bitAt_of_filled (h.filled hf) (pos := t.position) (by rw [h.payloadBits]; omega)
  obtain ⟨c, hc, heq⟩ := fetchBit_of_bitAt h.cursorOk hb
  rw [heq]
  exact h.moved hc

theorem fetchField_completes (hf : s.streamFilled) (h : HasBits s (n + m) t) :
    (fetchField n t).Completes (HasBits s m) :=
  (fetchBits_completes hf h).bind fun _ _ _ hu => hu

/-- `BC.LOAD` has the whole payload before it (R120). -/
theorem loadCursor_completes (hf : s.streamFilled) (hpos : 0 < s.payloadBits) :
    (loadCursor s).Completes (HasBits s s.payloadBits) := by
  have hlt : s.cfg.payloadOffset.toNat < s.cfg.streamLen.toNat := by
    rw [State.payloadBits] at hpos
    omega
  obtain ⟨b, hb⟩ := Option.ne_none_iff_exists'.mp (hf _ hlt le_rfl)
  rw [loadCursor, if_neg (by omega), streamRead_of_find hb]
  refine ⟨rfl, rfl, ⟨le_rfl, hlt, (by decide : (0 : BitVec 4).toNat ≤ 8), hb⟩, ?_⟩
  simp [State.position]

/-- One channel of `AR.SEED` reads the delimiter and the value (R91, R141). -/
theorem seedChannel_completes (hf : s.streamFilled) (c : Channel) (h : HasBits s (bppEff s.cfg + 4 + m) t) :
    (seedChannel c t).Completes (HasBits s m) := by
  refine (fetchBit_completes (m := bppEff s.cfg + 3 + m) hf (h.mono (by omega))).bind fun _ u _ hu => ?_
  rw [hu.cfg]
  exact (fetchField_completes hf hu).bind fun v w _ hw => hw.update rfl rfl rfl

theorem seedPixel_completes (hf : s.streamFilled) (h : HasBits s (4 * (bppEff s.cfg + 4) + m) t) :
    (seedPixel t).Completes (HasBits s m) :=
  (seedChannel_completes (m := 3 * (bppEff s.cfg + 4) + m) hf .y (h.mono (by omega))).bind fun _ _ _ h =>
    (seedChannel_completes (m := 2 * (bppEff s.cfg + 4) + m) hf .cd (h.mono (by omega))).bind fun _ _ _ h =>
      (seedChannel_completes (m := bppEff s.cfg + 4 + m) hf .cm (h.mono (by omega))).bind fun _ _ _ h =>
        seedChannel_completes hf .co h

/-- The unary loop reads at most one bit a round (R143). -/
theorem unaryLoop_completes (hf : s.streamFilled) (h : HasBits s (n + m) t) :
    (unaryLoop n t).Completes (HasBits s m) := by
  induction n generalizing t with
  | zero => exact h.mono (by omega)
  | succ n ih =>
    refine (fetchBit_completes (m := n + m) hf (h.mono (by omega))).bind fun b u _ hu => ?_
    cases b with
    | true => exact ih (hu.update rfl rfl rfl)
    | false => exact hu.mono (by omega)

theorem readUnary_completes (hf : s.streamFilled) (hcap : s.cfg.unaryCap ≠ 0)
    (h : HasBits s (s.cfg.unaryCap.toNat + m) t) : (readUnary t).Completes (HasBits s m) := by
  rw [readUnary, h.cfg, if_neg hcap]
  exact unaryLoop_completes hf (h.update h.cfg.symm rfl rfl)

/-- A symbol takes at most the bits of an escape (R92, R93, R99). -/
theorem decodeOne_completes (hf : s.streamFilled) (hcap : s.cfg.unaryCap ≠ 0) (c : Channel)
    (h : HasBits s (symbolBits s.cfg + m) t) : (decodeOne c t).Completes (HasBits s m) := by
  unfold symbolBits at h
  have hk : HasBits s (s.cfg.unaryCap.toNat + (bppEff s.cfg + 3 + m)) (recomputeK c t) :=
    (h.mono (by omega)).update rfl rfl rfl
  refine (readUnary_completes hf hcap hk).bind fun _ u hu h' => Run.Completes.bind (P := HasBits s m) ?_
    fun _ _ _ hv => hv.update rfl rfl rfl
  split
  · rw [readEscape, h'.cfg]
    exact (fetchField_completes hf h').bind fun _ _ _ hv => hv.update rfl rfl rfl
  · have hparam : u.sym.k ≤ bppEff s.cfg + 2 := by
      obtain ⟨_, _, _, rfl⟩ := readUnary_ok hu
      rw [← h.cfg]
      exact riceParam_le _ _ _
    exact (fetchField_completes hf (h'.mono (by omega))).bind fun _ _ _ hv => hv.update rfl rfl rfl

/-! ### The elements that are written -/

/-- Every element of the pixels below `n` is known, and beyond CFG.OUT_LEN nothing has changed since `s`. -/
structure Written (s : State) (n : Nat) (t : State) : Prop where
  known : ∀ q < n, ∀ i, Mem.find t.out (quadIndex (halfWidth s.cfg) q i) ≠ none
  beyond : ∀ j, s.cfg.outLen.toNat ≤ j → Mem.find t.out j = Mem.find s.out j

/-- A run on `s` with `bits` bits of the payload left and the pixels below `pix` written. -/
structure Progress (s : State) (bits pix : Nat) (t : State) : Prop extends HasBits s bits t, Written s pix t

theorem Written.update (h : Written s n t) (hout : u.out = t.out) : Written s n u :=
  ⟨by rw [hout]; exact h.known, by rw [hout]; exact h.beyond⟩

theorem Progress.update {bits : Nat} (h : Progress s bits n t) (hcfg : u.cfg = t.cfg) (hstream : u.stream = t.stream)
    (hcur : u.cursor = t.cursor) (hout : u.out = t.out) : Progress s bits n u :=
  ⟨h.toHasBits.update hcfg hstream hcur, h.toWritten.update hout⟩

/-- An image that has passed `SEQ.CHECK` has one output element per sub-pixel (R242). -/
theorem outLen_eq {c : Cfg} (hc : checkFailure c = none) : c.outLen.toNat = 2 * halfWidth c * (2 * halfHeight c) := by
  obtain ⟨hw, hh, hsize⟩ := checkFailure_none_geometry hc
  rw [hsize, show 2 * halfWidth c = c.width.toNat by unfold halfWidth; omega,
    show 2 * halfHeight c = c.height.toNat by unfold halfHeight; omega]

/-- When all pixels are written, so is every element of output memory. -/
theorem Written.all_known (hc : checkFailure s.cfg = none) (h : Written s (npix s.cfg) t) {j : Nat}
    (hj : j < s.cfg.outLen.toNat) : Mem.find t.out j ≠ none := by
  rw [outLen_eq hc] at hj
  obtain ⟨p, hp, i, rfl⟩ := exists_quadIndex hj
  exact h.known p hp i

/-- `CT.QUAD` writes the next pixel. -/
theorem transformQuad_completes {bits p : Nat} (hc : checkFailure s.cfg = none) (hstrict : isStrict s.cfg = false)
    (hp : p < npix s.cfg) (val : Quad Half) (h : Progress s bits p t) :
    (transformQuad p val t).Completes (Progress s bits (p + 1)) := by
  have hin (i : SubPixel) := quadIndex_lt_outLen hc hp i
  obtain ⟨col, hq⟩ := transformQuad_of_lt (s := t) (val := val) (.inl (h.cfg ▸ hstrict)) (h.cfg ▸ hin)
  rw [hq, h.cfg]
  refine ⟨h.toHasBits.update h.cfg.symm rfl rfl, fun q hq i => ?_, fun j hj => ?_⟩
  · by_cases hqp : q = p
    · rw [hqp, find_writeQuad_same (halfWidth_pos hp)]
      nofun
    · rw [find_writeQuad_other fun k he => hqp (quadIndex_inj (halfWidth_pos hp) he).1]
      exact h.known q (by omega) i
  · rw [find_writeQuad_other fun i he => absurd (hin i) (by omega)]
    exact h.beyond j hj

theorem decodeOne_progress (hf : s.streamFilled) (hcap : s.cfg.unaryCap ≠ 0) (c : Channel)
    (h : Progress s (symbolBits s.cfg + m) n t) : (decodeOne c t).Completes (Progress s m n) := by
  refine (decodeOne_completes hf hcap c h.toHasBits).mono fun _ u hu hbits => ⟨hbits, h.toWritten.update ?_⟩
  obtain ⟨_, _, rfl⟩ := decodeOne_ok hu
  rfl

end

/-! ### The two strategies -/

section
variable {s t : State} {m n : Nat}

/-- A run from a ready state opens with the bits of the later pixels left. -/
theorem openRun_completes (hr : s.ready) :
    (openRun s).Completes (Progress s ((npix s.cfg - 1) * (4 * symbolBits s.cfg)) 0) := by
  obtain ⟨_, hwf, hf, hbits⟩ := hr
  have hmost : 4 * (bppEff s.cfg + 4) + (npix s.cfg - 1) * (4 * symbolBits s.cfg) ≤ s.payloadBits :=
    le_of_eq_of_le (by rw [mostBits, symbolBits]; ring) hbits
  refine Run.Completes.mono (P := HasBits s ((npix s.cfg - 1) * (4 * symbolBits s.cfg))) ?_ fun _ u hu hbits =>
    ⟨hbits, nofun, fun j _ => ?_⟩
  · rw [openRun, (requireCfgWF_eq_ok (a := ())).mpr ⟨hwf, rfl⟩]
    exact (loadCursor_completes hf (by omega)).bind fun _ u _ hu =>
      seedPixel_completes hf ((hu.mono hmost).update rfl rfl rfl)
  · obtain ⟨_, _, _, _, _, rfl⟩ := openRun_ok hu
    rfl

/-- The four channels of a pixel, each of which takes at most the bits of a symbol and leaves P. -/
theorem channels_complete {channel : Channel → State → Run Unit} {f : State → Run Unit} {Q : State → Prop}
    (hc : ∀ c m t, Progress s (symbolBits s.cfg + m) n t → (channel c t).Completes (Progress s m n))
    (hp : ∀ c t u, channel c t = .ok () u → u.p = t.p) (h : Progress s (4 * symbolBits s.cfg + m) n t)
    (hf : ∀ u, Progress s m n u → u.p = t.p → (f u).Completes Q) :
    ((channel .y t).bind fun _ t => (channel .cd t).bind fun _ t => (channel .cm t).bind fun _ t =>
      (channel .co t).bind fun _ t => f t).Completes Q := by
  rw [show 4 * symbolBits s.cfg + m = symbolBits s.cfg + (symbolBits s.cfg + (symbolBits s.cfg +
    (symbolBits s.cfg + m))) by ring] at h
  refine (hc .y _ t h).bind fun _ _ e1 h1 => (hc .cd _ _ h1).bind fun _ _ e2 h2 =>
    (hc .cm _ _ h2).bind fun _ _ e3 h3 => (hc .co _ _ h3).bind fun _ u e4 h4 => hf u h4 ?_
  exact ((hp _ _ _ e4).trans (hp _ _ _ e3)).trans ((hp _ _ _ e2).trans (hp _ _ _ e1))

theorem seqChannel_completes (hf : s.streamFilled) (hcap : s.cfg.unaryCap ≠ 0) (c : Channel)
    (h : Progress s (symbolBits s.cfg + m) n t) : (seqChannel c t).Completes (Progress s m n) :=
  (decodeOne_progress (t := { t with ch := c }) hf hcap c (h.update rfl rfl rfl rfl)).bind
    fun _ _ _ hu => hu.update rfl rfl rfl rfl

theorem stagedChannel_completes (hf : s.streamFilled) (hcap : s.cfg.unaryCap ≠ 0) (c : Channel)
    (h : Progress s (symbolBits s.cfg + m) n t) : (stagedChannel c t).Completes (Progress s m n) :=
  (decodeOne_progress (t := { t with ch := c }) hf hcap c (h.update rfl rfl rfl rfl)).bind
    fun _ _ _ hu => hu.update rfl rfl rfl rfl

theorem stagedChannel_p {c : Channel} {u : State} (h : stagedChannel c t = .ok () u) : u.p = t.p := by
  obtain ⟨_, _, _, _, rfl⟩ := stagedChannel_ok h
  rfl

/-- A pixel of the Sequential strategy reads its four symbols and writes its four elements (R214). -/
theorem seqPixel_completes (hr : s.ready) (hstrict : isStrict s.cfg = false) (hp : t.p.toNat = n)
    (hn : n < npix s.cfg) (h : Progress s (4 * symbolBits s.cfg + m) n t) :
    (seqPixel t).Completes (Progress s m (n + 1)) := by
  obtain ⟨hc, hwf, hf, _⟩ := hr
  refine channels_complete (fun c _ _ => seqChannel_completes hf (cfgWF_bounds hwf).1 c) (fun _ _ _ => seqChannel_p) h
    fun u hu hpu => ?_
  show (transformQuad u.p.toNat u.dpcm.prev (updateN u)).Completes _
  rw [hpu, hp]
  exact transformQuad_completes hc hstrict hn _ (hu.update rfl rfl rfl rfl)

theorem seqPixels_completes (hr : s.ready) (hstrict : isStrict s.cfg = false) (k : Nat) (hp : t.p.toNat = n)
    (hn : n + k < npix s.cfg) (h : Progress s (k * (4 * symbolBits s.cfg)) (n + 1) t) :
    (seqPixels k t).Completes (Progress s 0 (n + 1 + k)) := by
  induction k generalizing n t with
  | zero =>
    rw [Nat.zero_mul] at h
    exact h
  | succ k ih =>
    have hlt := npix_lt s.cfg
    have hnext : (t.p + 1).toNat = n + 1 := by bv_omega
    rw [show (k + 1) * (4 * symbolBits s.cfg) = 4 * symbolBits s.cfg + k * (4 * symbolBits s.cfg) by ring] at h
    have hpixel := seqPixel_completes (t := { t with p := t.p + 1 }) hr hstrict hnext (by omega)
      (h.update rfl rfl rfl rfl)
    refine hpixel.bind fun _ u hu hprog => ?_
    have hrest := ih (n := n + 1) (by rw [seqPixel_p hu]; exact hnext) (by omega) hprog
    rwa [show n + 1 + 1 + k = n + 1 + (k + 1) by omega] at hrest

theorem runSequential_completes (hr : s.ready) (hstrict : isStrict s.cfg = false) :
    (runSequential s).Completes (Progress s 0 (npix s.cfg)) := by
  have ⟨hc, hwf, _, _⟩ := hr
  have hpos := npix_pos hwf
  refine (openRun_completes hr).bind fun _ t ht hopen => ?_
  refine (transformQuad_completes (t := installSeed t) hc hstrict hpos _ (hopen.update rfl rfl rfl rfl)).bind
    fun _ u hu hfirst => ?_
  have hp : u.p.toNat = 0 := by
    obtain ⟨_, _, _, _, _, rfl⟩ := openRun_ok ht
    obtain ⟨_, _, rfl⟩ := transformQuad_ok hu
    rfl
  rw [hfirst.cfg]
  have hall := seqPixels_completes hr hstrict _ hp (by omega) hfirst
  rwa [show 0 + 1 + (npix s.cfg - 1) = npix s.cfg by omega] at hall

/-- Phase A reads the symbols of the later pixels (R215). -/
theorem stagedPixels_completes (hr : s.ready) (k : Nat) (h : Progress s (k * (4 * symbolBits s.cfg)) n t) :
    (stagedPixels k t).Completes (Progress s 0 n) := by
  obtain ⟨_, hwf, hf, _⟩ := hr
  induction k generalizing t with
  | zero =>
    rw [Nat.zero_mul] at h
    exact h
  | succ k ih =>
    rw [show (k + 1) * (4 * symbolBits s.cfg) = 4 * symbolBits s.cfg + k * (4 * symbolBits s.cfg) by ring] at h
    refine Run.Completes.bind (P := Progress s (k * (4 * symbolBits s.cfg)) n) ?_ fun _ _ _ hu => ih hu
    exact channels_complete (t := { t with p := t.p + 1 }) (f := fun u => .ok () (updateN u))
      (fun c _ _ => stagedChannel_completes hf (cfgWF_bounds hwf).1 c)
      (fun _ _ _ => stagedChannel_p) (h.update rfl rfl rfl rfl) fun u hu _ => hu.update rfl rfl rfl rfl

/-- Phase C writes the pixels in turn (R215). -/
theorem stagedQuads_completes (hc : checkFailure s.cfg = none) (hstrict : isStrict s.cfg = false) (k : Nat)
    (hn : n + k ≤ npix s.cfg) (h : Progress s m n t) :
    (stagedQuads n k t).Completes (Progress s m (n + k)) := by
  induction k generalizing n t with
  | zero => exact h
  | succ k ih =>
    refine (transformQuad_completes hc hstrict (by omega) _ h).bind fun _ u _ hu => ?_
    have hrest := ih (by omega) hu
    rwa [show n + 1 + k = n + (k + 1) by omega] at hrest

theorem runStaged_completes (hr : s.ready) (hstrict : isStrict s.cfg = false) :
    (runStaged s).Completes (Progress s 0 (npix s.cfg)) := by
  have ⟨hc, _, _, _⟩ := hr
  refine (openRun_completes hr).bind fun _ t _ hopen => ?_
  rw [hopen.cfg]
  refine (stagedPixels_completes (t := storeSeed t) hr _ (hopen.update rfl rfl rfl rfl)).bind fun _ u _ hu => ?_
  rw [hu.cfg]
  obtain ⟨m, hm⟩ := stagedRows_frame (halfHeight s.cfg) (reconstructCol0 u)
  have hquads := stagedQuads_completes (t := { reconstructCol0 u with valbuf := m }) hc hstrict (npix s.cfg)
    (by omega) (hu.update rfl rfl rfl rfl)
  rwa [← hm, zero_add] at hquads

end

/-- From a ready state without the strict check either strategy completes, and leaves STATUS, the sequencer, PIXEL_W, the
host's requests and the counter of failures. -/
theorem strategy_completes {s : State} {i : Instr} (hi : i = .seqRunSeq ∨ i = .seqRunStaged) (hr : s.ready)
    (hstrict : isStrict s.cfg = false) :
    ∃ t, exec i s = .next t ∧ Progress s 0 (npix s.cfg) t ∧ t.status = s.status ∧ t.seq = s.seq ∧
      t.pixelW = s.pixelW ∧ t.host = s.host ∧ t.outEpoch = s.outEpoch := by
  rcases hi with rfl | rfl
  · obtain ⟨t, ht, hprog⟩ := (runSequential_completes hr hstrict).eq_ok
    refine ⟨t, congrArg Run.outcome ht, hprog, ?_⟩
    obtain ⟨_, _, _, _, _, _, _, _, _, rfl⟩ := runSequential_ok ht
    exact ⟨rfl, rfl, rfl, rfl, rfl⟩
  · obtain ⟨t, ht, hprog⟩ := (runStaged_completes hr hstrict).eq_ok
    refine ⟨t, congrArg Run.outcome ht, hprog, ?_⟩
    obtain ⟨_, _, _, _, _, _, _, _, _, _, rfl⟩ := runStaged_ok ht
    exact ⟨rfl, rfl, rfl, rfl, rfl⟩

/-- Settles O50: each strategy is its list of items part by part; and a ready state has the bits for each symbol before the
symbol is read, so that no fetch raises, while `CT.QUAD` writes the pixels one after the other. -/
theorem runsComplete : Obligations.RunsComplete := by
  refine ⟨fun s hwf => ⟨(runSequential_performs hwf).outcome.symm, (runStaged_performs hwf).outcome.symm⟩,
    fun s i hi hr hstrict => ?_⟩
  obtain ⟨t, ht, hprog, hst, hseq, hw, hhost, hepoch⟩ := strategy_completes hi hr hstrict
  obtain ⟨hc, _⟩ := hr
  exact ⟨t, ht, hst, hseq, hprog.cfg, hprog.stream, hw, hhost, hepoch, fun j hj => hprog.all_known hc hj, hprog.beyond⟩

end Sys2Proof.Machine
end

section
/-! The codewords as bit strings: which codewords a context admits, that the decoder inverts the encoder, and how long a
codeword is (R91 to R100). -/

namespace Sys2Proof

/-! ### Fields and unary quotients, read as they are written -/

/-- A field is read exactly where its bits stand, and then its value has `n` bits (R95). -/
theorem takeField_eq_some_iff {n v : Nat} {bs rest : List Bool} :
    takeField n bs = some (v, rest) ↔ v < 2 ^ n ∧ bs = fieldBits n v ++ rest := by
  rw [takeField_eq_some]
  constructor
  · rintro ⟨fs, rfl, rfl, rfl⟩
    exact ⟨fieldValue_lt fs, by rw [fieldBits_fieldValue]⟩
  · rintro ⟨hv, rfl⟩
    exact ⟨fieldBits n v, fieldBits_length n v, rfl, by rw [fieldValue_fieldBits, Nat.mod_eq_of_lt hv]⟩

/-- A unary quotient is read exactly where its ones stand, with the zero after them when they are fewer
than the cap (R94). -/
theorem takeUnary_eq_some_iff {cap q : Nat} {bs rest : List Bool} :
    takeUnary cap bs = some (q, rest) ↔
      (q < cap ∧ bs = List.replicate q true ++ false :: rest) ∨ (q = cap ∧ bs = List.replicate cap true ++ rest) := by
  refine ⟨takeUnary_eq_some, ?_⟩
  rintro (⟨hq, rfl⟩ | ⟨rfl, rfl⟩)
  · exact takeUnary_zero hq rest
  · exact takeUnary_cap q rest

/-! ### The codewords of a context -/

/-- The `SEED` codeword of a depth (R91). -/
def seedCodeword (depth : Nat) (d : Bool) (v : Nat) : Instr :=
  if depth = 8 then .seed8 d v else if depth = 10 then .seed10 d v else .seed12 d v

/-- The codewords that can stand in a context (R91 to R94). -/
inductive CodewordOf (x : Ctx) : Instr → Prop
  | seed (d : Bool) (v : Nat) : x.seedPixel = true → v < 2 ^ (x.bpp + 3) → CodewordOf x (seedCodeword x.bpp d v)
  | rice (q r : Nat) : x.seedPixel = false → q < x.cap → r < 2 ^ x.k → CodewordOf x (.rice q r)
  | esc (v : Nat) : x.seedPixel = false → v < 2 ^ (x.bpp + 3) → CodewordOf x (.esc v)

section
variable {x : Ctx} {i : Instr} {bs rest : List Bool}

theorem Ctx.wf_iff :
    x.wf = true ↔ (x.bpp = 8 ∨ x.bpp = 10 ∨ x.bpp = 12) ∧ 1 ≤ x.cap ∧ x.cap ≤ 255 ∧ x.k ≤ x.bpp + 2 := by
  simp [Ctx.wf, or_assoc, and_assoc]

theorem seedWellFormed_iff {depth v : Nat} :
    seedWellFormed x depth v = true ↔ x.wf = true ∧ x.seedPixel = true ∧ x.bpp = depth ∧ v < 2 ^ (depth + 3) := by
  simp [seedWellFormed, and_assoc]

theorem rice_wellFormed_iff {q r : Nat} :
    (Instr.rice q r).wellFormed x = true ↔ x.wf = true ∧ x.seedPixel = false ∧ q < x.cap ∧ r < 2 ^ x.k := by
  simp [Instr.wellFormed, and_assoc]

theorem esc_wellFormed_iff {v : Nat} :
    (Instr.esc v).wellFormed x = true ↔ x.wf = true ∧ x.seedPixel = false ∧ v < 2 ^ (x.bpp + 3) := by
  simp [Instr.wellFormed, and_assoc]

/-- A codeword is well formed in a context exactly when the context is and the codeword can stand in it. -/
theorem codewordOf_iff : (x.wf = true ∧ CodewordOf x i) ↔ (i.isCodeword = true ∧ i.wellFormed x = true) := by
  constructor
  · rintro ⟨hx, hi⟩
    cases hi with
    | seed d v hs hv =>
      obtain ⟨h | h | h, _⟩ := Ctx.wf_iff.mp hx <;> rw [h] at hv ⊢ <;>
        exact ⟨rfl, seedWellFormed_iff.mpr ⟨hx, hs, h, hv⟩⟩
    | rice q r hs hq hr => exact ⟨rfl, rice_wellFormed_iff.mpr ⟨hx, hs, hq, hr⟩⟩
    | esc v hs hv => exact ⟨rfl, esc_wellFormed_iff.mpr ⟨hx, hs, hv⟩⟩
  · rintro ⟨hc, hi⟩
    have hseed {depth : Nat} {d : Bool} {v : Nat} (h : seedWellFormed x depth v = true) :
        x.wf = true ∧ CodewordOf x (seedCodeword depth d v) := by
      obtain ⟨hx, hs, rfl, hv⟩ := seedWellFormed_iff.mp h
      exact ⟨hx, .seed d v hs hv⟩
    cases i with
    | seed8 d v => exact hseed hi
    | seed10 d v => exact hseed hi
    | seed12 d v => exact hseed hi
    | rice q r =>
      obtain ⟨hx, hs, hq, hr⟩ := rice_wellFormed_iff.mp hi
      exact ⟨hx, .rice q r hs hq hr⟩
    | esc v =>
      obtain ⟨hx, hs, hv⟩ := esc_wellFormed_iff.mp hi
      exact ⟨hx, .esc v hs hv⟩
    | _ => cases hc

/-- The bits of a `SEED` codeword: the delimiter and the value field (R91). -/
theorem encode_seedCodeword (hx : x.wf = true) (d : Bool) (v : Nat) :
    encode x (seedCodeword x.bpp d v) = d :: fieldBits (x.bpp + 3) v := by
  obtain ⟨h | h | h, _⟩ := Ctx.wf_iff.mp hx <;> rw [h] <;> rfl

/-! ### Decoding -/

theorem decodeSeed_eq_ok {depth : Nat} :
    decodeSeed depth bs = .ok (i, rest) ↔
      ∃ d v, v < 2 ^ (depth + 3) ∧ i = seedCodeword depth d v ∧ bs = d :: (fieldBits (depth + 3) v ++ rest) := by
  cases bs with
  | nil => simp [decodeSeed]
  | cons d bs =>
    cases hf : takeField (depth + 3) bs with
    | none =>
      simp only [decodeSeed, hf, reduceCtorEq, false_iff]
      rintro ⟨d', v, hv, _, heq⟩
      obtain ⟨rfl, rfl⟩ := List.cons.inj heq
      rw [takeField_eq_some_iff.mpr ⟨hv, rfl⟩] at hf
      cases hf
    | some y =>
      obtain ⟨v, rest'⟩ := y
      have hok : decodeSeed depth (d :: bs) = .ok (seedCodeword depth d v, rest') := by
        simp only [decodeSeed, hf, seedCodeword]
        split_ifs <;> rfl
      rw [hok]
      constructor
      · rintro ⟨⟩
        obtain ⟨hv, rfl⟩ := takeField_eq_some_iff.mp hf
        exact ⟨d, v, hv, rfl, rfl⟩
      · rintro ⟨d', v', hv', rfl, heq⟩
        obtain ⟨rfl, rfl⟩ := List.cons.inj heq
        rw [takeField_eq_some_iff.mpr ⟨hv', rfl⟩] at hf
        cases hf
        rfl

theorem decodeSymbol_eq_ok :
    decodeSymbol x bs = .ok (i, rest) ↔
      (∃ q r, q < x.cap ∧ r < 2 ^ x.k ∧ i = .rice q r ∧ bs = encode x (.rice q r) ++ rest) ∨
        ∃ v, v < 2 ^ (x.bpp + 3) ∧ i = .esc v ∧ bs = encode x (.esc v) ++ rest := by
  constructor
  · intro h
    unfold decodeSymbol at h
    split at h
    · cases h
    · rename_i q rest' hu
      rcases takeUnary_eq_some hu with ⟨hq, rfl⟩ | ⟨rfl, rfl⟩
      · rw [if_neg hq.ne] at h
        split at h
        · cases h
        · rename_i r rest'' hf
          cases h
          obtain ⟨hr, rfl⟩ := takeField_eq_some_iff.mp hf
          exact .inl ⟨q, r, hq, hr, rfl, by simp [encode]⟩
      · rw [if_pos rfl] at h
        split at h
        · cases h
        · rename_i v rest'' hf
          cases h
          obtain ⟨hv, rfl⟩ := takeField_eq_some_iff.mp hf
          exact .inr ⟨v, hv, rfl, by simp [encode]⟩
  · rintro (⟨q, r, hq, hr, rfl, rfl⟩ | ⟨v, hv, rfl, rfl⟩)
    · have hu : takeUnary x.cap (encode x (.rice q r) ++ rest) = some (q, fieldBits x.k r ++ rest) := by
        simpa [encode] using takeUnary_zero hq (fieldBits x.k r ++ rest)
      simp only [decodeSymbol, hu, if_neg hq.ne, takeField_eq_some_iff.mpr ⟨hr, rfl⟩]
    · have hu : takeUnary x.cap (encode x (.esc v) ++ rest) = some (x.cap, fieldBits (x.bpp + 3) v ++ rest) := by
        simpa [encode] using takeUnary_cap x.cap (fieldBits (x.bpp + 3) v ++ rest)
      simp only [decodeSymbol, hu, if_true, takeField_eq_some_iff.mpr ⟨hv, rfl⟩]

/-- In a context the decoder can meet, P alone says which format is read (R94). -/
theorem decode_of_wf (hx : x.wf = true) (bs : List Bool) :
    decode x bs = if x.seedPixel then decodeSeed x.bpp bs else decodeSymbol x bs := by
  obtain ⟨hbpp, hcap, hcap', hk⟩ := Ctx.wf_iff.mp hx
  have hdepth : (x.bpp == 8 || x.bpp == 10 || x.bpp == 12) = true := by simpa [or_assoc] using hbpp
  rw [decode, hdepth, if_neg (by simp), if_neg (by omega), if_neg (by omega)]

/-- Nothing is read in any other context. -/
theorem wf_of_decode_eq_ok (h : decode x bs = .ok (i, rest)) : x.wf = true := by
  unfold decode at h
  split at h; · cases h
  split at h; · cases h
  split at h; · cases h
  rename_i hbpp hcap hk
  rw [Bool.not_eq_true', Bool.not_eq_false] at hbpp
  exact Ctx.wf_iff.mpr ⟨by simpa [or_assoc] using hbpp, by omega, by omega, by omega⟩

/-- The decoder reads exactly the encodings of the context's codewords (R91 to R94). -/
theorem decode_eq_ok_iff (hx : x.wf = true) :
    decode x bs = .ok (i, rest) ↔ CodewordOf x i ∧ bs = encode x i ++ rest := by
  rw [decode_of_wf hx]
  cases hs : x.seedPixel with
  | true =>
    rw [if_pos rfl, decodeSeed_eq_ok]
    constructor
    · rintro ⟨d, v, hv, rfl, rfl⟩
      exact ⟨.seed d v hs hv, by rw [encode_seedCodeword hx]; rfl⟩
    · rintro ⟨hi, rfl⟩
      cases hi with
      | seed d v _ hv => exact ⟨d, v, hv, rfl, by rw [encode_seedCodeword hx]; rfl⟩
      | rice q r hn => simp [hs] at hn
      | esc v hn => simp [hs] at hn
  | false =>
    rw [if_neg (by simp), decodeSymbol_eq_ok]
    constructor
    · rintro (⟨q, r, hq, hr, rfl, rfl⟩ | ⟨v, hv, rfl, rfl⟩)
      · exact ⟨.rice q r hs hq hr, rfl⟩
      · exact ⟨.esc v hs hv, rfl⟩
    · rintro ⟨hi, rfl⟩
      cases hi with
      | seed d v hn => simp [hs] at hn
      | rice q r _ hq hr => exact .inl ⟨q, r, hq, hr, rfl, rfl⟩
      | esc v _ hv => exact .inr ⟨v, hv, rfl, rfl⟩

/-! ### Where the bits end inside a codeword -/

/-- The bits end inside the codeword they begin: inside a `SEED` codeword; inside the ones, inside the remainder or inside the
verbatim field of a symbol (R99, R100). -/
inductive CutCodeword (x : Ctx) : List Bool → Prop
  | seed (bs : List Bool) : x.seedPixel = true → bs.length < x.bpp + 4 → CutCodeword x bs
  | ones (n : Nat) : x.seedPixel = false → n < x.cap → CutCodeword x (List.replicate n true)
  | remainder (q : Nat) (fs : List Bool) : x.seedPixel = false → q < x.cap → fs.length < x.k →
      CutCodeword x (List.replicate q true ++ false :: fs)
  | verbatim (fs : List Bool) : x.seedPixel = false → fs.length < x.bpp + 3 →
      CutCodeword x (List.replicate x.cap true ++ fs)

theorem decodeSeed_eq_error {depth : Nat} {e : DecodeError} (h : decodeSeed depth bs = .error e) :
    e = .bitsEnd ∧ bs.length < depth + 4 := by
  unfold decodeSeed at h
  split at h
  · cases h
    exact ⟨rfl, by simp⟩
  · split at h
    · rename_i hf
      cases h
      have := takeField_eq_none.mp hf
      exact ⟨rfl, by simp only [List.length_cons]; omega⟩
    · split_ifs at h

theorem decodeSymbol_eq_error {e : DecodeError} (hs : x.seedPixel = false) (h : decodeSymbol x bs = .error e) :
    e = .bitsEnd ∧ CutCodeword x bs := by
  unfold decodeSymbol at h
  split at h
  · rename_i hu
    cases h
    obtain ⟨hlt, heq⟩ := takeUnary_eq_none hu
    exact ⟨rfl, heq ▸ .ones _ hs hlt⟩
  · rename_i q rest' hu
    rcases takeUnary_eq_some hu with ⟨hq, rfl⟩ | ⟨rfl, rfl⟩
    · rw [if_neg hq.ne] at h
      split at h
      · rename_i hf
        cases h
        exact ⟨rfl, .remainder q rest' hs hq (takeField_eq_none.mp hf)⟩
      · cases h
    · rw [if_pos rfl] at h
      split at h
      · rename_i hf
        cases h
        exact ⟨rfl, .verbatim rest' hs (takeField_eq_none.mp hf)⟩
      · cases h

/-- There is no illegal codeword: the decoder only fails where the bits end (R100). -/
theorem decode_eq_error {e : DecodeError} (hx : x.wf = true) (h : decode x bs = .error e) :
    e = .bitsEnd ∧ CutCodeword x bs := by
  rw [decode_of_wf hx] at h
  cases hs : x.seedPixel with
  | true =>
    rw [hs, if_pos rfl] at h
    obtain ⟨he, hlt⟩ := decodeSeed_eq_error h
    exact ⟨he, .seed bs hs hlt⟩
  | false =>
    rw [hs, if_neg (by simp)] at h
    exact decodeSymbol_eq_error hs h

/-- A cut codeword is shorter than the longest one (R99). -/
theorem CutCodeword.length_lt (hx : x.wf = true) (h : CutCodeword x bs) : bs.length < 270 := by
  obtain ⟨hbpp, _, hcap, hk⟩ := Ctx.wf_iff.mp hx
  cases h with
  | seed bs _ hlt => omega
  | ones n _ hn => simp only [List.length_replicate]; omega
  | remainder q fs _ hq hfs => simp only [List.length_append, List.length_replicate, List.length_cons]; omega
  | verbatim fs _ hfs => simp only [List.length_append, List.length_replicate]; omega

/-! ### Lengths -/

theorem encode_rice_length {q r : Nat} (h : (Instr.rice q r).wellFormed x = true) :
    (encode x (.rice q r)).length = q + 1 + x.k :=
  Laws.EncodeLength.rice q r x h

theorem encode_esc_length {v : Nat} (h : (Instr.esc v).wellFormed x = true) :
    (encode x (.esc v)).length = x.cap + x.bpp + 3 :=
  Laws.EncodeLength.esc v x h

theorem encode_seedCodeword_length (hx : x.wf = true) (d : Bool) (v : Nat) :
    (encode x (seedCodeword x.bpp d v)).length = x.bpp + 4 := by
  rw [encode_seedCodeword hx, List.length_cons, fieldBits_length]

/-- No codeword is longer than 270 bits: the escape at the largest cap and depth (R99). -/
theorem CodewordOf.encode_length_le (hx : x.wf = true) (h : CodewordOf x i) : (encode x i).length ≤ 270 := by
  obtain ⟨hbpp, _, hcap, hk⟩ := Ctx.wf_iff.mp hx
  obtain ⟨_, hwf⟩ := codewordOf_iff.mp ⟨hx, h⟩
  cases h with
  | seed d v => rw [encode_seedCodeword_length hx]; omega
  | rice q r _ hq => rw [encode_rice_length hwf]; omega
  | esc v => rw [encode_esc_length hwf]; omega

end

end Sys2Proof

namespace Sys2Proof.Machine

/-! ### The statements about the encoding -/

/-- Settles O1: a well-formed codeword is one of the context's, and the decoder reads exactly the encodings of those. -/
theorem decodeOfEncode : Obligations.DecodeOfEncode := by
  intro x i rest hc hi
  obtain ⟨hx, hi⟩ := codewordOf_iff.mpr ⟨hc, hi⟩
  exact (decode_eq_ok_iff hx).mpr ⟨hi, rfl⟩

/-- Settles O2, by the decoder's two answers: a codeword it reads is the encoding's inverse, and it fails only inside a cut
codeword, where by O1 no whole codeword can stand. -/
theorem everyBitStringParses : Obligations.EveryBitStringParses := by
  intro x bs hx
  cases hd : decode x bs with
  | ok y =>
    obtain ⟨i, rest⟩ := y
    obtain ⟨hi, hbs⟩ := (decode_eq_ok_iff hx).mp hd
    obtain ⟨hc, hwf⟩ := codewordOf_iff.mp ⟨hx, hi⟩
    exact ⟨hc, hwf, hbs⟩
  | error e =>
    obtain ⟨he, hcut⟩ := decode_eq_error hx hd
    refine ⟨he, hcut.length_lt hx, fun i rest hc hwf hbs => ?_⟩
    rw [hbs, decodeOfEncode x i rest hc hwf] at hd
    cases hd

/-- Settles O3, by the format of the codeword. -/
theorem codewordLengths : Obligations.CodewordLengths := by
  intro x i hc hwf
  obtain ⟨hx, hi⟩ := codewordOf_iff.mpr ⟨hc, hwf⟩
  obtain ⟨_, _, _, hk⟩ := Ctx.wf_iff.mp hx
  refine ⟨hi.encode_length_le hx, fun hs => ?_, ?_, ?_⟩
  · cases hi with
    | seed d v => exact encode_seedCodeword_length hx d v
    | rice q r hn => simp [hs] at hn
    | esc v hn => simp [hs] at hn
  · rintro q r rfl
    obtain ⟨_, _, hq, _⟩ := rice_wellFormed_iff.mp hwf
    rw [encode_rice_length hwf]
    omega
  · rintro v rfl
    exact encode_esc_length hwf

/-- The table word of the worked example of R91 (log entry 12). -/
theorem decodeTableWord_example : decodeTableWord 12 1520 = some (.seed8 false 760) := by decide +kernel

/-- Settles O4, by evaluating the decoder on the written-out bits. -/
theorem writtenOutCodewordsDecode : Obligations.WrittenOutCodewordsDecode :=
  ⟨rfl, rfl, rfl, decodeTableWord_example⟩

/-! ### The residual mapping -/

theorem fromAbs_even {v : Nat} (h : v % 2 = 0) : fromAbs v = ((v / 2 : Nat) : Int) := if_pos h

theorem fromAbs_odd {v : Nat} (h : v % 2 = 1) : fromAbs v = -(((v + 1) / 2 : Nat) : Int) := if_neg (by omega)

theorem toAbs_of_nonneg {x : Int} (h : 0 ≤ x) : (toAbs x : Int) = 2 * x := by
  rw [toAbs, if_pos h, Int.toNat_of_nonneg (by omega)]

theorem toAbs_of_neg {x : Int} (h : x < 0) : (toAbs x : Int) = -2 * x - 1 := by
  rw [toAbs, if_neg (by omega), Int.toNat_of_nonneg (by omega)]

/-- `toAbs` is the inverse of `fromAbs` (R98). -/
theorem fromAbs_eq_iff (v : Nat) (x : Int) : fromAbs v = x ↔ v = toAbs x := by
  rcases Nat.mod_two_eq_zero_or_one v with hv | hv <;> rcases lt_or_ge x 0 with hx | hx
  · have := toAbs_of_neg hx
    rw [fromAbs_even hv]
    omega
  · have := toAbs_of_nonneg hx
    rw [fromAbs_even hv]
    omega
  · have := toAbs_of_neg hx
    rw [fromAbs_odd hv]
    omega
  · have := toAbs_of_nonneg hx
    rw [fromAbs_odd hv]
    omega

/-- The values below `2 * m` are those whose residual is in `[-m, m - 1]` (R97). -/
theorem lt_two_mul_iff_fromAbs (m v : Nat) : v < 2 * m ↔ -(m : Int) ≤ fromAbs v ∧ fromAbs v ≤ (m : Int) - 1 := by
  rcases Nat.mod_two_eq_zero_or_one v with hv | hv
  · rw [fromAbs_even hv]
    omega
  · rw [fromAbs_odd hv]
    omega

/-- Settles O5, by the parity of v and the sign of the residual. -/
theorem residualMapping : Obligations.ResidualMapping := by
  refine ⟨fun _ => fromAbs_even, fun _ => fromAbs_odd, fromAbs_eq_iff, fun _ => toAbs_of_nonneg, fun _ => toAbs_of_neg,
    fun n v => ?_⟩
  rw [pow_succ, mul_comm]
  exact_mod_cast lt_two_mul_iff_fromAbs (2 ^ n) v

end Sys2Proof.Machine
end

section
/-! What the cursor delivers, bit after bit, and what the operations that read fields and codewords make of the bits they are
delivered, or of a payload that ends inside them (R121, R122, R141 to R149). -/

namespace Sys2Proof.Machine

/-! ### The bits the cursor delivers -/

/-- Fetching delivers the bits `bs` one after the other and brings the cursor to `c` (R121, R122). -/
def State.delivers (s : State) (bs : List Bool) (c : Cursor) : Prop :=
  fetchBits bs.length s = .ok bs { s with cursor := c }

section
variable {s : State} {c : Cursor} {b : Bool} {as bs : List Bool}

/-- A fetch inside a byte (R121). -/
theorem fetchBit_inside (h : s.cursor.cnt ≠ 8) :
    fetchBit s = .ok (s.cursor.cur.getLsbD (7 - s.cursor.cnt.toNat))
      { s with cursor := ⟨s.cursor.idx, s.cursor.cnt + 1, s.cursor.cur⟩ } := by
  rw [fetchBit, if_neg h]
  rfl

/-- A fetch that loads the next byte (R121). -/
theorem fetchBit_next {x : Byte} (h : s.cursor.cnt = 8) (hlt : s.cursor.idx.toNat + 1 < s.cfg.streamLen.toNat)
    (hx : Mem.find s.stream (s.cursor.idx.toNat + 1) = some x) :
    fetchBit s = .ok (x.getLsbD 7) { s with cursor := ⟨s.cursor.idx + 1, 1, x⟩ } := by
  rw [fetchBit, if_pos h, if_neg (by omega), streamRead_of_find hx]
  rfl

/-- A fetch reads CFG, stream memory and the cursor only. -/
theorem fetchBit_congr {t : State} (hcfg : t.cfg = s.cfg) (hstream : t.stream = s.stream) (hcur : t.cursor = s.cursor)
    (h : fetchBit s = .ok b { s with cursor := c }) : fetchBit t = .ok b { t with cursor := c } := by
  rcases fetchBit_ok h with ⟨h8, rfl, heq⟩ | ⟨h8, hlt, x, hx, rfl, heq⟩
  · obtain rfl : c = _ := congrArg State.cursor heq
    rw [fetchBit_inside (by rwa [hcur]), hcur]
  · obtain rfl : c = _ := congrArg State.cursor heq
    rw [fetchBit_next (by rwa [hcur]) (by rwa [hcur, hcfg]) (by rwa [hcur, hstream]), hcur]

theorem delivers_nil : s.delivers [] c ↔ c = s.cursor := by
  constructor
  · intro h
    obtain ⟨_, heq⟩ := Run.ok.inj h
    exact (congrArg State.cursor heq).symm
  · rintro rfl
    rfl

theorem delivers_cons :
    s.delivers (b :: bs) c ↔
      ∃ c', fetchBit s = .ok b { s with cursor := c' } ∧ ({ s with cursor := c' } : State).delivers bs c := by
  simp only [State.delivers, List.length_cons, fetchBits, Run.bind_eq_ok]
  constructor
  · rintro ⟨b', u, hb, bs', v, hbs, heq⟩
    cases heq
    obtain ⟨c', rfl⟩ := fetchBit_frame hb
    exact ⟨c', hb, hbs⟩
  · rintro ⟨c', hb, hbs⟩
    exact ⟨b, _, hb, bs, _, hbs, rfl⟩

theorem delivers_append :
    s.delivers (as ++ bs) c ↔ ∃ c', s.delivers as c' ∧ ({ s with cursor := c' } : State).delivers bs c := by
  induction as generalizing s with
  | nil => simp [delivers_nil]
  | cons a as ih =>
    simp only [List.cons_append, delivers_cons, ih]
    constructor
    · rintro ⟨c1, ha, c2, has, hbs⟩
      exact ⟨c2, ⟨c1, ha, has⟩, hbs⟩
    · rintro ⟨c2, ⟨c1, ha, has⟩, hbs⟩
      exact ⟨c1, ha, c2, has, hbs⟩

theorem delivers_congr {t : State} (hcfg : t.cfg = s.cfg) (hstream : t.stream = s.stream) (hcur : t.cursor = s.cursor)
    (h : s.delivers bs c) : t.delivers bs c := by
  induction bs generalizing s t with
  | nil => exact delivers_nil.mpr ((delivers_nil.mp h).trans hcur.symm)
  | cons b bs ih =>
    obtain ⟨c', hb, hbs⟩ := delivers_cons.mp h
    exact delivers_cons.mpr ⟨c', fetchBit_congr hcfg hstream hcur hb, ih (s := { s with cursor := c' }) hcfg hstream rfl hbs⟩

theorem delivers_withSym (h : s.delivers bs c) (y : SymbolRegs) : ({ s with sym := y } : State).delivers bs c :=
  delivers_congr (s := s) rfl rfl rfl h

/-- The bits at the stream positions from the cursor on are delivered (R123). -/
theorem delivers_of_bitsFrom (hc : s.cursorOk) (h : s.bitsFrom s.position bs.length = some bs) :
    ∃ c, s.movedBy bs.length c ∧ s.delivers bs c :=
  fetchBits_of_bitsFrom hc h

/-- Past all the bits that are left the cursor is at the payload's end (R123). -/
theorem movedBy_end (hc : s.cursorOk) (h : s.movedBy (s.payloadBits - s.position) c) :
    ({ s with cursor := c } : State).position = s.payloadBits := by
  obtain ⟨_, hpos, _⟩ := h
  have := position_le hc
  omega

/-! ### Fields -/

/-- The value of a field as the sum of R95. -/
theorem fieldValue_eq_sum (bs : List Bool) :
    fieldValue bs = ∑ i : Fin bs.length, (bs.get i).toNat * 2 ^ (i : Nat) := by
  induction bs with
  | nil => rfl
  | cons b bs ih =>
    have hhalf (n i : Nat) : n * 2 ^ (i + 1) = 2 * (n * 2 ^ i) := by rw [pow_succ]; ring
    simp only [fieldValue, ih, List.length_cons, Fin.sum_univ_succ, Fin.val_succ, hhalf,
      Finset.mul_sum]
    simp

theorem fetchField_of_delivers {n v : Nat} (hv : v < 2 ^ n) (h : s.delivers (fieldBits n v) c) :
    fetchField n s = .ok v { s with cursor := c } := by
  refine fetchField_ok.mpr ⟨fieldBits n v, ?_, by rw [fieldValue_fieldBits, Nat.mod_eq_of_lt hv]⟩
  rwa [State.delivers, fieldBits_length] at h

/-- A field that the payload's end cuts: what is left is consumed (R122, R123). -/
theorem fetchField_past_end {n : Nat} (hc : s.cursorOk) (hf : s.streamFilled) (h : s.payloadBits < s.position + n) :
    ∃ c, s.movedBy (s.payloadBits - s.position) c ∧
      fetchField n s = .raised .allBitsConsumed { s with cursor := c } := by
  obtain ⟨c, hm, hr⟩ := fetchBits_past_end hc hf h
  exact ⟨c, hm, by rw [fetchField, hr, Run.bind_raised]⟩

theorem readEscape_of_delivers {v : Nat} (hv : v < 2 ^ (bppEff s.cfg + 3))
    (h : s.delivers (fieldBits (bppEff s.cfg + 3) v) c) :
    readEscape s = .ok () { s with cursor := c, sym := { s.sym with v := v } } := by
  rw [readEscape, fetchField_of_delivers hv h, Run.bind_ok]

theorem readEscape_past_end (hc : s.cursorOk) (hf : s.streamFilled)
    (h : s.payloadBits < s.position + (bppEff s.cfg + 3)) :
    ∃ c, s.movedBy (s.payloadBits - s.position) c ∧
      readEscape s = .raised .allBitsConsumed { s with cursor := c } := by
  obtain ⟨c, hm, hr⟩ := fetchField_past_end hc hf h
  exact ⟨c, hm, by rw [readEscape, hr, Run.bind_raised]⟩

theorem readRemainder_of_delivers {k q r : Nat} (hk : s.sym.k = k) (hq : s.sym.q.toNat = q) (hr : r < 2 ^ k)
    (h : s.delivers (fieldBits k r) c) :
    readRemainder s = .ok () { s with cursor := c, sym := { s.sym with v := q * 2 ^ k + r } } := by
  subst hk hq
  rw [readRemainder, fetchField_of_delivers hr h, Run.bind_ok]

theorem readRemainder_past_end (hc : s.cursorOk) (hf : s.streamFilled) (h : s.payloadBits < s.position + s.sym.k) :
    ∃ c, s.movedBy (s.payloadBits - s.position) c ∧
      readRemainder s = .raised .allBitsConsumed { s with cursor := c } := by
  obtain ⟨c, hm, hr⟩ := fetchField_past_end hc hf h
  exact ⟨c, hm, by rw [readRemainder, hr, Run.bind_raised]⟩

/-! ### The unary quotient -/

/-- Each of the ones delivered counts (R143). -/
theorem unaryLoop_ones {m n : Nat} (h : s.delivers (List.replicate m true) c) :
    unaryLoop (m + n) s =
      unaryLoop n { s with cursor := c, sym := { s.sym with q := s.sym.q + BitVec.ofNat 8 m } } := by
  induction m generalizing s with
  | zero =>
    obtain rfl := delivers_nil.mp h
    simp
  | succ m ih =>
    obtain ⟨c', hb, hbs⟩ := delivers_cons.mp (List.replicate_succ ▸ h)
    have hq : s.sym.q + 1 + BitVec.ofNat 8 m = s.sym.q + BitVec.ofNat 8 (m + 1) := by
      rw [BitVec.ofNat_add]
      ac_rfl
    rw [show m + 1 + n = (m + n) + 1 by omega, unaryLoop, hb, Run.bind_ok, if_pos rfl,
      ih (delivers_withSym hbs { s.sym with q := s.sym.q + 1 })]
    simp only [hq]

theorem readUnary_ones {m n : Nat} (hcap : s.cfg.unaryCap ≠ 0) (hm : m + n = s.cfg.unaryCap.toNat)
    (h : s.delivers (List.replicate m true) c) :
    readUnary s = unaryLoop n { s with cursor := c, sym := { s.sym with q := BitVec.ofNat 8 m } } := by
  rw [readUnary, if_neg hcap, ← hm, unaryLoop_ones (delivers_withSym h { s.sym with q := 0 })]
  simp

/-- Ones below the cap and a zero give the quotient (R143). -/
theorem readUnary_zero {q : Nat} (hq : q < s.cfg.unaryCap.toNat) (h : s.delivers (List.replicate q true ++ [false]) c) :
    readUnary s = .ok () { s with cursor := c, sym := { s.sym with q := BitVec.ofNat 8 q } } := by
  have hcap : s.cfg.unaryCap ≠ 0 := by rintro h0; simp [h0] at hq
  obtain ⟨c', hones, hzero⟩ := delivers_append.mp h
  obtain ⟨c'', hb, hnil⟩ := delivers_cons.mp hzero
  obtain rfl := delivers_nil.mp hnil
  have hb' : fetchBit { s with cursor := c', sym := { s.sym with q := BitVec.ofNat 8 q } } = .ok false _ :=
    fetchBit_congr (s := { s with cursor := c' }) rfl rfl rfl hb
  rw [readUnary_ones hcap (n := (s.cfg.unaryCap.toNat - q - 1) + 1) (by omega) hones, unaryLoop, hb', Run.bind_ok]
  rfl

/-- The cap's ones give the cap, and nothing more is read (R143). -/
theorem readUnary_cap (hcap : s.cfg.unaryCap ≠ 0) (h : s.delivers (List.replicate s.cfg.unaryCap.toNat true) c) :
    readUnary s = .ok () { s with cursor := c, sym := { s.sym with q := s.cfg.unaryCap } } := by
  rw [readUnary_ones (m := s.cfg.unaryCap.toNat) (n := 0) hcap rfl h, unaryLoop, BitVec.ofNat_toNat, BitVec.setWidth_eq]

/-- A payload that ends in ones below the cap (R143). -/
theorem readUnary_cut {m : Nat} (hm : m < s.cfg.unaryCap.toNat) (h : s.delivers (List.replicate m true) c)
    (hc : ({ s with cursor := c } : State).cursorOk)
    (hend : s.payloadBits ≤ ({ s with cursor := c } : State).position) :
    readUnary s = .raised .allBitsConsumed { s with cursor := c, sym := { s.sym with q := BitVec.ofNat 8 m } } := by
  have hcap : s.cfg.unaryCap ≠ 0 := by rintro h0; simp [h0] at hm
  rw [readUnary_ones hcap (n := (s.cfg.unaryCap.toNat - m - 1) + 1) (by omega) h, unaryLoop,
    fetchBit_at_end (s := { s with cursor := c, sym := { s.sym with q := BitVec.ofNat 8 m } }) hc hend, Run.bind_raised]

/-! ### Codewords -/

/-- `AR.SYM` after a quotient below the cap goes on with the remainder (R149). -/
theorem decodeOne_of_remainder {d : Channel} {u : State} {x : Run Unit} (hu : readUnary (recomputeK d s) = .ok () u)
    (hq : u.sym.q ≠ u.cfg.unaryCap) (hx : readRemainder u = x) :
    decodeOne d s = x.bind fun _ t => .ok () (updateA d (mapResidual t)) := by
  rw [decodeOne, hu, Run.bind_ok, if_neg hq, hx]

/-- `AR.SYM` after the cap's ones goes on with the escape (R149). -/
theorem decodeOne_of_escape {d : Channel} {u : State} {x : Run Unit} (hu : readUnary (recomputeK d s) = .ok () u)
    (hq : u.sym.q = u.cfg.unaryCap) (hx : readEscape u = x) :
    decodeOne d s = x.bind fun _ t => .ok () (updateA d (mapResidual t)) := by
  rw [decodeOne, hu, Run.bind_ok, if_pos hq, hx]

/-- A quotient below the cap fits the register Q (R35). -/
theorem quotient_toNat {q : Nat} (hq : q < s.cfg.unaryCap.toNat) : (BitVec.ofNat 8 q).toNat = q := by
  rw [BitVec.toNat_ofNat, Nat.mod_eq_of_lt (hq.trans s.cfg.unaryCap.isLt)]

theorem quotient_ne_cap {q : Nat} (hq : q < s.cfg.unaryCap.toNat) : BitVec.ofNat 8 q ≠ s.cfg.unaryCap := by
  intro heq
  have hq8 := quotient_toNat hq
  rw [heq] at hq8
  omega

/-- `AR.SYM` on the bits of a `RICE` codeword (R92, R149). -/
theorem decodeOne_rice {d : Channel} {k q r : Nat} (hk : k = riceParam s.ad.n.toNat (s.ad.a.get d) (bppEff s.cfg))
    (hq : q < s.cfg.unaryCap.toNat) (hr : r < 2 ^ k)
    (h : s.delivers (List.replicate q true ++ false :: fieldBits k r) c) :
    decodeOne d s = .ok () { s with
      cursor := c
      sym := ⟨k, BitVec.ofNat 8 q, q * 2 ^ k + r, fromAbs (q * 2 ^ k + r)⟩
      ad := ⟨s.ad.n, s.ad.a.set d (s.ad.a.get d + (fromAbs (q * 2 ^ k + r)).natAbs)⟩ } := by
  subst hk
  rw [← List.singleton_append, ← List.append_assoc] at h
  obtain ⟨c', hunary, hfield⟩ := delivers_append.mp h
  exact decodeOne_of_remainder (readUnary_zero (s := recomputeK d s) hq (delivers_withSym hunary _)) (quotient_ne_cap hq)
    (readRemainder_of_delivers rfl (quotient_toNat hq) hr (delivers_withSym hfield _))

/-- `AR.SYM` on the bits of an `ESC` codeword (R93, R149). -/
theorem decodeOne_esc {d : Channel} {v : Nat} (hcap : s.cfg.unaryCap ≠ 0) (hv : v < 2 ^ (bppEff s.cfg + 3))
    (h : s.delivers (List.replicate s.cfg.unaryCap.toNat true ++ fieldBits (bppEff s.cfg + 3) v) c) :
    decodeOne d s = .ok () { s with
      cursor := c
      sym := ⟨riceParam s.ad.n.toNat (s.ad.a.get d) (bppEff s.cfg), s.cfg.unaryCap, v, fromAbs v⟩
      ad := ⟨s.ad.n, s.ad.a.set d (s.ad.a.get d + (fromAbs v).natAbs)⟩ } := by
  obtain ⟨c', hunary, hfield⟩ := delivers_append.mp h
  exact decodeOne_of_escape (readUnary_cap (s := recomputeK d s) hcap (delivers_withSym hunary _)) rfl
    (readEscape_of_delivers hv (delivers_withSym hfield _))

/-- One channel of `AR.SEED` fetches the bits of a codeword, drops the delimiter and takes the value's effect (R91, R141). -/
theorem seedChannel_eq (d : Channel) (s : State) :
    seedChannel d s = (fetchBits (bppEff s.cfg + 4) s).bind fun bs t => .ok () (seedEffect d (fieldValue bs.tail) t) := by
  simp only [seedChannel, fetchField, fetchBits, Run.bind_assoc, Run.bind_ok]
  cases hb : fetchBit s with
  | ok b t =>
    obtain ⟨c, rfl⟩ := fetchBit_frame hb
    rfl
  | raised x t => rfl
  | fault e => rfl
  | refused e => rfl

theorem seedChannel_of_delivers {d : Channel} {b : Bool} {v : Nat} (hv : v < 2 ^ (bppEff s.cfg + 3))
    (h : s.delivers (b :: fieldBits (bppEff s.cfg + 3) v) c) :
    seedChannel d s = .ok () (seedEffect d v { s with cursor := c }) := by
  rw [State.delivers, List.length_cons, fieldBits_length] at h
  rw [seedChannel_eq, h, Run.bind_ok, List.tail_cons, fieldValue_fieldBits, Nat.mod_eq_of_lt hv]

theorem seedChannel_past_end {d : Channel} (hc : s.cursorOk) (hf : s.streamFilled)
    (h : s.payloadBits < s.position + (bppEff s.cfg + 4)) :
    ∃ c, s.movedBy (s.payloadBits - s.position) c ∧
      seedChannel d s = .raised .allBitsConsumed { s with cursor := c } := by
  obtain ⟨c, hm, hr⟩ := fetchBits_past_end hc hf h
  exact ⟨c, hm, by rw [seedChannel_eq, hr, Run.bind_raised]⟩

end

/-! ### The statements about single operations -/

theorem exec_arK (d : Channel) (s : State) : exec (.arK d) s =
    .next { s with sym := { s.sym with k := riceParam s.ad.n.toNat (s.ad.a.get d) (bppEff s.cfg) } } := rfl

theorem exec_seedCodeword (depth : Nat) (d : Bool) (v : Nat) (s : State) :
    exec (seedCodeword depth d v) s = .next (seedEffect s.ch v s) := by
  unfold seedCodeword
  split_ifs <;> rfl

theorem exec_rice {k : Nat} {s : State} (hk : k = riceParam s.ad.n.toNat (s.ad.a.get s.ch) (bppEff s.cfg)) (q r : Nat) :
    exec (.rice q r) s = .next { s with
      sym := ⟨k, BitVec.ofNat 8 q, q * 2 ^ k + r, fromAbs (q * 2 ^ k + r)⟩
      ad := ⟨s.ad.n, s.ad.a.set s.ch (s.ad.a.get s.ch + (fromAbs (q * 2 ^ k + r)).natAbs)⟩ } := by
  subst hk
  rfl

theorem exec_esc (v : Nat) (s : State) :
    exec (.esc v) s = .next { s with
      sym := ⟨riceParam s.ad.n.toNat (s.ad.a.get s.ch) (bppEff s.cfg), s.cfg.unaryCap, v, fromAbs v⟩
      ad := ⟨s.ad.n, s.ad.a.set s.ch (s.ad.a.get s.ch + (fromAbs v).natAbs)⟩ } := rfl

/-- Settles O18: the three depths have one effect. -/
theorem seedCodewords : Obligations.SeedCodewords :=
  fun d v s => ⟨seedEffect s.ch v s, exec_seedCodeword 8 d v s, exec_seedCodeword 10 d v s, exec_seedCodeword 12 d v s, rfl⟩

/-- Settles O19: both codewords compute K as `AR.K` of their channel does. -/
theorem riceAndEscapeCodewords : Obligations.RiceAndEscapeCodewords :=
  fun s => ⟨fun q r => ⟨_, exec_arK s.ch s, exec_rice rfl q r⟩, fun v => ⟨_, exec_arK s.ch s, exec_esc v s⟩⟩

/-- A raised operation ends the run in the state at the raise (R217, R250). -/
theorem outcome_stoppedBy {α : Type} {x : Run α} {u : State} {c : RaiseCode} (h : x = .raised c u) :
    ∃ t, x.outcome = .next t ∧ u.stoppedBy t (raisedStatus c) :=
  ⟨u.fail c, by rw [h, Run.outcome_raised], stoppedBy_fail u c⟩

/-- Settles O13: the bits at the positions from the cursor on are fetched in order, and their value is the sum of R95. -/
theorem bcFetchN : Obligations.BcFetchN := by
  intro n s hc
  refine ⟨fun bs hbs => ?_, fun hf hlt => ?_⟩
  · obtain ⟨c, hm, hfetch⟩ := fetchBits_of_bitsFrom hc hbs
    refine ⟨c, hm, ?_⟩
    show (((fetchField n s).bind fun v t => .ok () { t with fetched := v } : Run Unit)).outcome = _
    rw [fetchField_ok.mpr ⟨bs, hfetch, rfl⟩, Run.bind_ok, fieldValue_eq_sum]
    rfl
  · obtain ⟨c, hm, hraise⟩ := fetchField_past_end hc hf hlt
    obtain ⟨t, ht, hstop⟩ := outcome_stoppedBy
      (x := ((fetchField n s).bind fun v t => .ok () { t with fetched := v } : Run Unit))
      (by rw [hraise, Run.bind_raised])
    exact ⟨t, c, ht, hstop, hm⟩

/-- Settles O22, by the field of the escape: delivered, or cut by the payload's end. -/
theorem arEsc : Obligations.ArEsc := by
  intro s hc
  refine ⟨fun v hv hbs => ?_, fun hf hlt => ?_⟩
  · obtain ⟨c, hm, hd⟩ := delivers_of_bitsFrom hc (by rwa [fieldBits_length])
    rw [fieldBits_length] at hm
    exact ⟨c, hm, congrArg Run.outcome (readEscape_of_delivers hv hd)⟩
  · obtain ⟨c, hm, hraise⟩ := readEscape_past_end hc hf hlt
    obtain ⟨t, ht, hstop⟩ := outcome_stoppedBy hraise
    exact ⟨t, c, ht, hm, hstop⟩

/-- Settles O23, by the remainder's field: delivered, or cut by the payload's end. -/
theorem arRem : Obligations.ArRem := by
  intro s hc
  refine ⟨fun r hr hbs => ?_, fun hf hlt => ?_⟩
  · obtain ⟨c, hm, hd⟩ := delivers_of_bitsFrom hc (by rwa [fieldBits_length])
    rw [fieldBits_length] at hm
    exact ⟨c, hm, congrArg Run.outcome (readRemainder_of_delivers rfl rfl hr hd)⟩
  · obtain ⟨c, hm, hraise⟩ := readRemainder_past_end hc hf hlt
    obtain ⟨t, ht, hstop⟩ := outcome_stoppedBy hraise
    exact ⟨t, c, ht, hm, hstop⟩

end Sys2Proof.Machine
end

section
/-! The codeword at the cursor: the bits that are looked at are the bits that will be delivered, so that fetching, decoding and
executing a codeword is the operation that reads it bit by bit (R94, R123, R141, R149). -/

namespace Sys2Proof.Machine

/-! ### The bits before the cursor -/

/-- The bits before the cursor with at most `n` further bytes; `bitsAhead` is this with the bytes of the longest codeword. -/
def bitsWithin (n : Nat) (s : State) : List Bool :=
  (byteBits s.cursor.cur).drop s.cursor.cnt.toNat ++ streamBits (bytesFrom s (s.cursor.idx.toNat + 1) n)

section
variable {s t : State} {c : Cursor} {b : Bool} {bs : List Bool} {n : Nat} {i : Instr}

theorem bitsAhead_eq (s : State) : bitsAhead s = bitsWithin longestBytes s := rfl

/-- The bytes ahead do not depend on where the cursor stands. -/
theorem bytesFrom_withCursor (s : State) (c : Cursor) (i n : Nat) :
    bytesFrom { s with cursor := c } i n = bytesFrom s i n := by
  induction n generalizing i with
  | zero => rfl
  | succ n ih => simp only [bytesFrom, ih]

theorem drop_byteBits (x : Byte) {k : Nat} (hk : k < 8) :
    (byteBits x).drop k = x.getLsbD (7 - k) :: (byteBits x).drop (k + 1) := by
  interval_cases k <;> rfl

theorem bitsWithin_inside (h : s.cursor.cnt.toNat < 8) :
    bitsWithin n s = s.cursor.cur.getLsbD (7 - s.cursor.cnt.toNat) ::
      bitsWithin n { s with cursor := ⟨s.cursor.idx, s.cursor.cnt + 1, s.cursor.cur⟩ } := by
  have hcnt : (s.cursor.cnt + 1).toNat = s.cursor.cnt.toNat + 1 := by bv_omega
  simp only [bitsWithin, drop_byteBits _ h, bytesFrom_withCursor, hcnt, List.cons_append]

theorem bitsWithin_next {x : Byte} (h : s.cursor.cnt = 8) (hlt : s.cursor.idx.toNat + 1 < s.cfg.streamLen.toNat)
    (hx : Mem.find s.stream (s.cursor.idx.toNat + 1) = some x) :
    bitsWithin (n + 1) s = x.getLsbD 7 :: bitsWithin n { s with cursor := ⟨s.cursor.idx + 1, 1, x⟩ } := by
  have hidx : (s.cursor.idx + 1).toNat = s.cursor.idx.toNat + 1 := by bv_omega
  simp only [bitsWithin, h, bytesFrom, if_pos hlt, Mem.read, hx, bytesFrom_withCursor, hidx]
  rfl

/-- With the byte used up there is a bit before the cursor only if there is a next byte. -/
theorem exists_byte_of_bitsWithin (h : s.cursor.cnt = 8) (hne : bitsWithin n s ≠ []) :
    ∃ m x, n = m + 1 ∧ s.cursor.idx.toNat + 1 < s.cfg.streamLen.toNat ∧
      Mem.find s.stream (s.cursor.idx.toNat + 1) = some x := by
  have hdrop : (byteBits s.cursor.cur).drop (8 : BitVec 4).toNat = [] := rfl
  rw [bitsWithin, h, hdrop, List.nil_append] at hne
  cases n with
  | zero => exact absurd rfl hne
  | succ m =>
    by_cases hlt : s.cursor.idx.toNat + 1 < s.cfg.streamLen.toNat
    · cases hx : Mem.find s.stream (s.cursor.idx.toNat + 1) with
      | none => simp [bytesFrom, hlt, Mem.read, hx, streamDefault, streamBits] at hne
      | some x => exact ⟨m, x, rfl, hlt, rfl⟩
    · simp [bytesFrom, hlt, streamBits] at hne

/-- A fetch takes the first of the bits before the cursor. -/
theorem fetchBit_of_bitsWithin (hcnt : s.cursor.cnt.toNat ≤ 8) (h : bitsWithin n s = b :: bs) :
    ∃ c m, fetchBit s = .ok b { s with cursor := c } ∧ c.cnt.toNat ≤ 8 ∧ bitsWithin m { s with cursor := c } = bs := by
  by_cases h8 : s.cursor.cnt = 8
  · obtain ⟨m, x, rfl, hlt, hx⟩ := exists_byte_of_bitsWithin h8 (h ▸ List.cons_ne_nil b bs)
    obtain ⟨rfl, hbs⟩ := List.cons.inj ((bitsWithin_next h8 hlt hx).symm.trans h)
    exact ⟨_, m, fetchBit_next h8 hlt hx, (by decide : (1 : BitVec 4).toNat ≤ 8), hbs⟩
  · have hlt : s.cursor.cnt.toNat < 8 := by bv_omega
    obtain ⟨rfl, hbs⟩ := List.cons.inj ((bitsWithin_inside hlt).symm.trans h)
    refine ⟨_, n, fetchBit_inside h8, ?_, hbs⟩
    show (s.cursor.cnt + 1).toNat ≤ 8
    bv_omega

/-- What is looked at is delivered. -/
theorem delivers_of_bitsWithin {rest : List Bool} (hcnt : s.cursor.cnt.toNat ≤ 8) (h : bitsWithin n s = bs ++ rest) :
    ∃ c, s.delivers bs c := by
  induction bs generalizing s n with
  | nil => exact ⟨s.cursor, delivers_nil.mpr rfl⟩
  | cons b bs ih =>
    obtain ⟨c', m, hb, hcnt', hrest⟩ := fetchBit_of_bitsWithin hcnt h
    obtain ⟨c, hbs⟩ := ih (s := { s with cursor := c' }) hcnt' hrest
    exact ⟨c, delivers_cons.mpr ⟨c', hb, hbs⟩⟩

/-- What is delivered has been looked at, as far as the bytes reach. -/
theorem bitsWithin_of_delivers (hcnt : s.cursor.cnt.toNat ≤ 8) (hlen : bs.length + s.cursor.cnt.toNat ≤ 8 * (n + 1))
    (h : s.delivers bs c) : ∃ rest, bitsWithin n s = bs ++ rest := by
  induction bs generalizing s n with
  | nil => exact ⟨_, rfl⟩
  | cons b bs ih =>
    obtain ⟨c', hb, hbs⟩ := delivers_cons.mp h
    rw [List.length_cons] at hlen
    rcases fetchBit_ok hb with ⟨h8, rfl, heq⟩ | ⟨h8, hlt, x, hx, rfl, heq⟩
    · obtain rfl : c' = _ := congrArg State.cursor heq
      have hlt : s.cursor.cnt.toNat < 8 := by bv_omega
      have hcnt' : (s.cursor.cnt + 1).toNat = s.cursor.cnt.toNat + 1 := by bv_omega
      obtain ⟨rest, hrest⟩ := ih (n := n) (by simp only [hcnt']; omega) (by simp only [hcnt']; omega) hbs
      exact ⟨rest, by rw [bitsWithin_inside hlt, hrest, List.cons_append]⟩
    · obtain rfl : c' = _ := congrArg State.cursor heq
      have h8' : s.cursor.cnt.toNat = 8 := by rw [h8]; rfl
      have h1 : (1 : BitVec 4).toNat = 1 := rfl
      obtain ⟨m, rfl⟩ : ∃ m, n = m + 1 := ⟨n - 1, by omega⟩
      obtain ⟨rest, hrest⟩ := ih (n := m) (by simp only [h1]; omega) (by simp only [h1]; omega) hbs
      exact ⟨rest, by rw [bitsWithin_next h8 hlt hx, hrest, List.cons_append]⟩

/-! ### The codeword at the cursor -/

theorem codewordAhead_of_bitsAhead {rest : List Bool} (hx : s.ctx.wf = true) (hi : CodewordOf s.ctx i)
    (h : bitsAhead s = encode s.ctx i ++ rest) : codewordAhead s = some (i, (encode s.ctx i).length) := by
  have hd : decode s.ctx (bitsAhead s) = .ok (i, rest) := (decode_eq_ok_iff hx).mpr ⟨hi, h⟩
  rw [codewordAhead, hd, h]
  simp

/-- The move where the bits before the cursor are a codeword's and are delivered. -/
theorem codewordMove_of_delivers {rest : List Bool} (hx : s.ctx.wf = true) (hi : CodewordOf s.ctx i)
    (h : bitsAhead s = encode s.ctx i ++ rest) (hd : s.delivers (encode s.ctx i) c) :
    codewordMove s = exec i { s with cursor := c } := by
  rw [State.delivers] at hd
  rw [codewordMove, codewordAhead_of_bitsAhead hx hi h]
  simp only [hd]

/-- The move where no codeword is read: the operation that reads bit by bit. -/
theorem codewordMove_of_error {e : DecodeError} (h : decode s.ctx (bitsAhead s) = .error e) :
    codewordMove s = if s.p = 0 then (seedChannel s.ch s).outcome else exec (.arSym s.ch) s := by
  rw [codewordMove, codewordAhead, h]

theorem unaryCap_ne_zero_of_wf (hx : s.ctx.wf = true) : s.cfg.unaryCap ≠ 0 := by
  obtain ⟨_, hcap, _⟩ := Ctx.wf_iff.mp hx
  rintro h0
  simp [State.ctx, h0] at hcap

/-- `AR.SYM` of channel CH on the bits of a codeword of a later pixel does what the codeword does (R149). -/
theorem exec_arSym_of_delivers (hx : s.ctx.wf = true) (hi : CodewordOf s.ctx i) (hp : s.p ≠ 0)
    (hd : s.delivers (encode s.ctx i) c) : exec (.arSym s.ch) s = exec i { s with cursor := c } := by
  cases hi with
  | seed d v hs => exact absurd (of_decide_eq_true hs) hp
  | rice q r _ hq hr =>
    rw [exec_rice rfl]
    exact congrArg Run.outcome (decodeOne_rice rfl hq hr hd)
  | esc v _ hv =>
    rw [exec_esc]
    exact congrArg Run.outcome (decodeOne_esc (unaryCap_ne_zero_of_wf hx) hv hd)

/-- One channel of `AR.SEED` on the bits of a `SEED` codeword does what the codeword does (R141). -/
theorem seedChannel_outcome_of_delivers (hx : s.ctx.wf = true) (hi : CodewordOf s.ctx i) (hp : s.p = 0)
    (hd : s.delivers (encode s.ctx i) c) : (seedChannel s.ch s).outcome = exec i { s with cursor := c } := by
  have hseed : s.ctx.seedPixel = true := decide_eq_true hp
  cases hi with
  | seed d v _ hv =>
    rw [encode_seedCodeword hx] at hd
    rw [exec_seedCodeword]
    exact congrArg Run.outcome (seedChannel_of_delivers hv hd)
  | rice q r hs => simp [hseed] at hs
  | esc v hs => simp [hseed] at hs

end

/-- Settles O9: where a codeword is read, its bits are delivered one by one, and the operation makes of them what the codeword
does; elsewhere the move is the operation. -/
theorem codewordMoveIsBitByBit : Obligations.CodewordMoveIsBitByBit := by
  intro s hcnt
  cases hdec : decode s.ctx (bitsAhead s) with
  | error e =>
    rw [codewordMove_of_error hdec]
    exact ⟨fun hp => if_neg hp, fun hp => if_pos hp⟩
  | ok y =>
    obtain ⟨i, rest⟩ := y
    have hx := wf_of_decode_eq_ok hdec
    obtain ⟨hi, hbits⟩ := (decode_eq_ok_iff hx).mp hdec
    obtain ⟨c, hd⟩ := delivers_of_bitsWithin hcnt (bitsAhead_eq s ▸ hbits)
    rw [codewordMove_of_delivers hx hi hbits hd]
    exact ⟨fun hp => (exec_arSym_of_delivers hx hi hp hd).symm,
      fun hp => (seedChannel_outcome_of_delivers hx hi hp hd).symm⟩

/-! ### The step at a codeword -/

/-- A step at a codeword is the codeword's move and the advance. -/
theorem step_of_codeword {s u : State} (hu : s.decoderTurn = some u) (hs : s.seq = .codeword) :
    step s = advanced (codewordMove u) := by
  obtain ⟨l, rfl⟩ := decoderTurn_frame hu
  rw [step_of_turn hu]
  simp only [decoderMove, selectedOp, hs]

/-- A codeword at the stream positions from the cursor on is fetched and executed: no codeword is longer than what is looked
at (R99). -/
theorem codewordMove_of_bitsFrom {s : State} {i : Instr} (hc : s.cursorOk) (hx : s.ctx.wf = true)
    (hi : CodewordOf s.ctx i) (h : s.bitsFrom s.position (encode s.ctx i).length = some (encode s.ctx i)) :
    ∃ c, s.movedBy (encode s.ctx i).length c ∧ codewordMove s = exec i { s with cursor := c } := by
  obtain ⟨c, hm, hd⟩ := delivers_of_bitsFrom hc h
  have ⟨_, _, hcnt, _⟩ := hc
  have hlen := hi.encode_length_le hx
  obtain ⟨rest, hrest⟩ := bitsWithin_of_delivers (n := longestBytes) hcnt (by rw [longestBytes]; omega) hd
  exact ⟨c, hm, codewordMove_of_delivers hx hi hrest hd⟩

/-- Settles O7, by the codeword's move in the decoder's turn, which differs from the state in the host's list only. -/
theorem stepRunsDecodedCodeword : Obligations.StepRunsDecodedCodeword := by
  intro s u i hu hs hc hx hic hiw hbits
  obtain ⟨_, hi⟩ := codewordOf_iff.mpr ⟨hic, hiw⟩
  rw [step_of_codeword hu hs]
  obtain ⟨l, rfl⟩ := decoderTurn_frame hu
  obtain ⟨c, hm, hmove⟩ := codewordMove_of_bitsFrom (s := { s with host := l }) hc hx hi
    ((bitsFrom_congr (s := s) (t := { s with host := l }) rfl rfl _ _).trans hbits)
  exact ⟨c, hm, congrArg advanced hmove⟩

/-! ### A payload cut inside a codeword -/

section
variable {s : State} {as bs fs : List Bool}

/-- When the first of the bits that are left have been delivered, the others are left (R123). -/
theorem delivers_of_bitsLeft (hc : s.cursorOk)
    (h : s.bitsFrom s.position (s.payloadBits - s.position) = some (as ++ fs)) :
    ∃ c, s.delivers as c ∧ ({ s with cursor := c } : State).cursorOk ∧
      s.payloadBits = ({ s with cursor := c } : State).position + fs.length := by
  have hlen := bitsFrom_length h
  have hle := position_le hc
  rw [List.length_append] at hlen
  rw [← hlen, bitsFrom_append rfl] at h
  obtain ⟨has, _⟩ := h
  obtain ⟨c, ⟨hok, hpos, _⟩, hd⟩ := delivers_of_bitsFrom hc has
  exact ⟨c, hd, hok, by omega⟩

/-- `AR.SYM` on bits that end inside a codeword consumes them and raises, before the accumulator is updated (R149). -/
theorem decodeOne_of_cut (hc : s.cursorOk) (hf : s.streamFilled) (hp : s.p ≠ 0)
    (hbs : s.bitsFrom s.position (s.payloadBits - s.position) = some bs) (hx : s.ctx.wf = true)
    (hcut : CutCodeword s.ctx bs) :
    ∃ c y, decodeOne s.ch s = .raised .allBitsConsumed { s with cursor := c, sym := y } ∧
      ({ s with cursor := c } : State).position = s.payloadBits := by
  cases hcut with
  | seed _ hs => exact absurd (of_decide_eq_true hs) hp
  | ones n _ hn =>
    rw [← List.append_nil (List.replicate n true)] at hbs
    obtain ⟨c, hd, hok, hend⟩ := delivers_of_bitsLeft hc hbs
    have hu := readUnary_cut (s := recomputeK s.ch s) hn (delivers_withSym hd _) hok hend.le
    exact ⟨c, _, by rw [decodeOne, hu, Run.bind_raised]; rfl, hend.symm⟩
  | remainder q fs _ hq hfs =>
    rw [← List.singleton_append, ← List.append_assoc] at hbs
    obtain ⟨c, hd, hok, hend⟩ := delivers_of_bitsLeft hc hbs
    have hu := readUnary_zero (s := recomputeK s.ch s) hq (delivers_withSym hd _)
    obtain ⟨c', hm, hr⟩ := readRemainder_past_end
      (s := { recomputeK s.ch s with cursor := c, sym := { (recomputeK s.ch s).sym with q := BitVec.ofNat 8 q } })
      hok hf (hend.trans_lt (Nat.add_lt_add_left hfs _))
    exact ⟨c', _, decodeOne_of_remainder hu (quotient_ne_cap hq) hr, movedBy_end (s := { s with cursor := c }) hok hm⟩
  | verbatim fs _ hfs =>
    obtain ⟨c, hd, hok, hend⟩ := delivers_of_bitsLeft hc hbs
    have hu := readUnary_cap (s := recomputeK s.ch s) (unaryCap_ne_zero_of_wf hx) (delivers_withSym hd _)
    obtain ⟨c', hm, hr⟩ := readEscape_past_end
      (s := { recomputeK s.ch s with cursor := c, sym := { (recomputeK s.ch s).sym with q := s.cfg.unaryCap } })
      hok hf (hend.trans_lt (Nat.add_lt_add_left hfs _))
    exact ⟨c', _, decodeOne_of_escape hu rfl hr, movedBy_end (s := { s with cursor := c }) hok hm⟩

/-- One channel of `AR.SEED` on bits that end inside a codeword consumes them and raises (R141). -/
theorem seedChannel_of_cut (hc : s.cursorOk) (hf : s.streamFilled) (hp : s.p = 0)
    (hbs : s.bitsFrom s.position (s.payloadBits - s.position) = some bs) (hcut : CutCodeword s.ctx bs) :
    ∃ c, seedChannel s.ch s = .raised .allBitsConsumed { s with cursor := c } ∧
      ({ s with cursor := c } : State).position = s.payloadBits := by
  have hseed : s.ctx.seedPixel = true := decide_eq_true hp
  cases hcut with
  | seed _ _ hlt =>
    have hlen := bitsFrom_length hbs
    have hbpp : s.ctx.bpp = bppEff s.cfg := rfl
    obtain ⟨c, hm, hr⟩ := seedChannel_past_end (d := s.ch) hc hf (by omega)
    exact ⟨c, hr, movedBy_end hc hm⟩
  | ones n hs => simp [hseed] at hs
  | remainder q fs hs => simp [hseed] at hs
  | verbatim fs hs => simp [hseed] at hs

/-- The bits that are left begin with a codeword or are cut inside one (R94, R100). -/
theorem cut_of_no_codeword (hx : s.ctx.wf = true)
    (hbs : s.bitsFrom s.position (s.payloadBits - s.position) = some bs)
    (hno : ∀ i, CodewordOf s.ctx i → s.bitsFrom s.position (encode s.ctx i).length ≠ some (encode s.ctx i)) :
    CutCodeword s.ctx bs := by
  cases hdec : decode s.ctx bs with
  | error e => exact (decode_eq_error hx hdec).2
  | ok y =>
    obtain ⟨i, rest⟩ := y
    obtain ⟨hi, rfl⟩ := (decode_eq_ok_iff hx).mp hdec
    have hlen := bitsFrom_length hbs
    rw [List.length_append] at hlen
    rw [← hlen, bitsFrom_append rfl] at hbs
    obtain ⟨hi', _⟩ := hbs
    exact absurd hi' (hno i hi)

/-- The move on a payload cut inside a codeword raises at its end (R100, R244). -/
theorem codewordMove_of_cut (hc : s.cursorOk) (hf : s.streamFilled) (hx : s.ctx.wf = true)
    (hno : ∀ i, CodewordOf s.ctx i → s.bitsFrom s.position (encode s.ctx i).length ≠ some (encode s.ctx i)) :
    ∃ c y, codewordMove s = .next (State.fail { s with cursor := c, sym := y } .allBitsConsumed) ∧
      ({ s with cursor := c } : State).position = s.payloadBits := by
  have hle := position_le hc
  obtain ⟨bs, hbs⟩ := bitsFrom_of_filled hf (pos := s.position) (n := s.payloadBits - s.position) (by omega)
  have hcut := cut_of_no_codeword hx hbs hno
  have ⟨_, _, hcnt, _⟩ := hc
  obtain ⟨hsym, hseed⟩ := codewordMoveIsBitByBit s hcnt
  by_cases hp : s.p = 0
  · obtain ⟨c, hr, hend⟩ := seedChannel_of_cut hc hf hp hbs hcut
    exact ⟨c, s.sym, (hseed hp).trans (congrArg Run.outcome hr), hend⟩
  · obtain ⟨c, y, hr, hend⟩ := decodeOne_of_cut hc hf hp hbs hx hcut
    exact ⟨c, y, (hsym hp).trans (congrArg Run.outcome hr), hend⟩

end

/-- Settles O8: by O2 the bits that are left are cut inside a codeword, by O9 the move reads them bit by bit, and it raises
before the accumulator's update. -/
theorem cutCodewordEndsTheRun : Obligations.CutCodewordEndsTheRun := by
  intro s u hu hs hc hf hx hno
  rw [step_of_codeword hu hs]
  obtain ⟨l, rfl⟩ := decoderTurn_frame hu
  obtain ⟨c, y, hmove, hend⟩ := codewordMove_of_cut (s := { s with host := l }) hc hf hx fun i hi => by
    obtain ⟨hic, hiw⟩ := codewordOf_iff.mp ⟨hx, hi⟩
    rw [bitsFrom_congr (s := s) (t := { s with host := l }) rfl rfl]
    exact hno i hic hiw
  rw [hmove, advanced, advance_idle (fail_seq _ _)]
  exact ⟨_, c, y, rfl, stoppedBy_fail _ _, hend⟩

end Sys2Proof.Machine
end

section
/-! `AR.SEED`, channel by channel: what the whole codewords leave, and where a payload that ends inside one leaves the
cursor (R91, R141, R244, R250). -/

namespace Sys2Proof.Machine

section
variable {s t : State} {c : Cursor} {m n : Nat} {d : Channel}

/-- Moving on from where the cursor has been moved to (R123). -/
theorem movedBy_trans (hcfg : t.cfg = s.cfg) (hstream : t.stream = s.stream) (h : s.movedBy m t.cursor)
    (h' : t.movedBy n c) : s.movedBy (m + n) c := by
  obtain ⟨_, hpos, heq, hge⟩ := h
  obtain ⟨hok', hpos', heq', hge'⟩ := h'
  simp only [State.position, hcfg] at hpos hpos'
  have hok : ({ s with cursor := c } : State).cursorOk :=
    (cursorOk_congr (s := { t with cursor := c }) (t := { s with cursor := c }) hcfg.symm rfl hstream.symm).mpr hok'
  refine ⟨hok, ?_, fun h0 => ?_, fun h0 => ?_⟩
  · simp only [State.position]
    omega
  · rw [heq' (by omega), heq (by omega)]
  · by_cases hn : n = 0
    · rw [heq' hn]
      exact hge (by omega)
    · exact hge' (by omega)

/-- One channel of `AR.SEED` after others, which have left CFG, stream memory and the cursor of `s` (R141). -/
theorem seedChannel_after {b : Bool} {v : Nat} (hcfg : t.cfg = s.cfg) (hstream : t.stream = s.stream)
    (hcur : t.cursor = s.cursor) (hv : v < 2 ^ (bppEff s.cfg + 3))
    (h : s.delivers (b :: fieldBits (bppEff s.cfg + 3) v) c) :
    seedChannel d t = .ok () (seedEffect d v { t with cursor := c }) := by
  rw [← hcfg] at hv h
  exact seedChannel_of_delivers hv (delivers_congr hcfg hstream hcur h)

/-- The bits of four `SEED` codewords, delivered one after the other, are the seed pixel's (R91, R141). -/
theorem seedPixel_of_delivers {b : Quad Bool} {v : Quad Nat} (hv : ∀ d, v.get d < 2 ^ (bppEff s.cfg + 3))
    (h : s.delivers (b.y :: fieldBits (bppEff s.cfg + 3) v.y ++ b.cd :: fieldBits (bppEff s.cfg + 3) v.cd ++
      b.cm :: fieldBits (bppEff s.cfg + 3) v.cm ++ b.co :: fieldBits (bppEff s.cfg + 3) v.co) c) :
    seedPixel s = .ok () { s with
      cursor := c
      sym := { s.sym with v := v.co }
      seedVal := ⟨fromAbs v.y, fromAbs v.cd, fromAbs v.cm, fromAbs v.co⟩
      ad := ⟨s.ad.n, ⟨s.ad.a.y + (fromAbs v.y).natAbs, s.ad.a.cd + (fromAbs v.cd).natAbs,
        s.ad.a.cm + (fromAbs v.cm).natAbs, s.ad.a.co + (fromAbs v.co).natAbs⟩⟩ } := by
  obtain ⟨c3, h, h4⟩ := delivers_append.mp h
  obtain ⟨c2, h, h3⟩ := delivers_append.mp h
  obtain ⟨c1, h1, h2⟩ := delivers_append.mp h
  exact Run.bind_eq_ok.mpr ⟨(), _, seedChannel_of_delivers (hv .y) h1,
    Run.bind_eq_ok.mpr ⟨(), _, seedChannel_after (s := { s with cursor := c1 }) rfl rfl rfl (hv .cd) h2,
      Run.bind_eq_ok.mpr ⟨(), _, seedChannel_after (s := { s with cursor := c2 }) rfl rfl rfl (hv .cm) h3,
        seedChannel_after (s := { s with cursor := c3 }) rfl rfl rfl (hv .co) h4⟩⟩⟩

/-! ### A payload cut inside the seed pixel -/

/-- The value field of a channel of the seed pixel, counted from the cursor of `s`, holds `x` (R91). -/
def seedField (s : State) (d : Channel) (x : Nat) : Prop :=
  x < 2 ^ (bppEff s.cfg + 3) ∧
    s.bitsFrom (s.position + d.index * (bppEff s.cfg + 4) + 1) (bppEff s.cfg + 3) =
      some (fieldBits (bppEff s.cfg + 3) x)

/-- `t` is `s` after the first `m` channels of `AR.SEED`. -/
structure SeedProgress (s : State) (m : Nat) (t : State) : Prop where
  frame : ∃ cur w v a, t = { s with cursor := cur, sym := { s.sym with v := w }, seedVal := v, ad := ⟨s.ad.n, a⟩ }
  moved : s.movedBy (m * (bppEff s.cfg + 4)) t.cursor
  start : m = 0 → t.sym.v = s.sym.v
  read : ∀ d : Channel, d.index < m →
    ∃ x, seedField s d x ∧ t.seedVal.get d = fromAbs x ∧ t.ad.a.get d = s.ad.a.get d + (fromAbs x).natAbs ∧
      (d.index + 1 = m → t.sym.v = x)
  unread : ∀ d : Channel, m ≤ d.index → t.seedVal.get d = s.seedVal.get d ∧ t.ad.a.get d = s.ad.a.get d

theorem SeedProgress.refl (hc : s.cursorOk) : SeedProgress s 0 s where
  frame := ⟨s.cursor, s.sym.v, s.seedVal, s.ad.a, rfl⟩
  moved := ⟨hc, by rw [Nat.zero_mul]; rfl, fun _ => rfl, fun h => by omega⟩
  start _ := rfl
  read _ h := by omega
  unread _ _ := ⟨rfl, rfl⟩

theorem SeedProgress.cfg (h : SeedProgress s m t) : t.cfg = s.cfg := by
  obtain ⟨_, _, _, _, rfl⟩ := h.frame
  rfl

theorem SeedProgress.stream (h : SeedProgress s m t) : t.stream = s.stream := by
  obtain ⟨_, _, _, _, rfl⟩ := h.frame
  rfl

theorem SeedProgress.filled (h : SeedProgress s m t) (hf : s.streamFilled) : t.streamFilled := by
  unfold State.streamFilled
  rw [h.cfg, h.stream]
  exact hf

theorem SeedProgress.payloadBits (h : SeedProgress s m t) : t.payloadBits = s.payloadBits := by
  rw [State.payloadBits, State.payloadBits, h.cfg]

theorem SeedProgress.cursorOk (h : SeedProgress s m t) : t.cursorOk := by
  obtain ⟨hok, _⟩ := h.moved
  exact (cursorOk_congr (s := { s with cursor := t.cursor }) h.cfg rfl h.stream).mpr hok

theorem SeedProgress.position (h : SeedProgress s m t) : t.position = s.position + m * (bppEff s.cfg + 4) := by
  obtain ⟨_, hpos, _⟩ := h.moved
  rw [← hpos, State.position, State.position, h.cfg]

/-- The effect of the next channel's codeword (R141). -/
theorem SeedProgress.next {x : Nat} (h : SeedProgress s d.index t) (hx : seedField s d x)
    (hm : t.movedBy (bppEff s.cfg + 4) c) : SeedProgress s (d.index + 1) (seedEffect d x { t with cursor := c }) where
  frame := by
    obtain ⟨_, _, _, _, rfl⟩ := h.frame
    exact ⟨c, x, _, _, rfl⟩
  moved := by
    rw [Nat.add_mul, Nat.one_mul]
    exact movedBy_trans h.cfg h.stream h.moved hm
  start := nofun
  read e he := by
    rw [seedEffect_seedVal, seedEffect_ad, seedEffect_sym, Quad.get_set, Quad.get_set]
    by_cases hed : e = d
    · subst hed
      obtain ⟨_, ha⟩ := h.unread e le_rfl
      exact ⟨x, hx, if_pos rfl, by rw [if_pos rfl]; exact congrArg (· + _) ha, fun _ => rfl⟩
    · have hne : e.index ≠ d.index := fun heq => hed (Channel.index_inj heq)
      obtain ⟨y, hy, hval, ha, _⟩ := h.read e (by omega)
      exact ⟨y, hy, by rwa [if_neg hed], by rwa [if_neg hed], fun heq => by omega⟩
  unread e he := by
    have hed : e ≠ d := by rintro rfl; omega
    rw [seedEffect_seedVal, seedEffect_ad, Quad.get_set_other _ _ hed, Quad.get_set_other _ _ hed]
    exact h.unread e (by omega)

/-- Every `n + 1` bits of a known payload are a bit and a field (R91, R95). -/
theorem exists_seedCodeword (hf : s.streamFilled) {pos : Nat} (h : pos + (n + 1) ≤ s.payloadBits) :
    ∃ b x, x < 2 ^ n ∧ s.bitsFrom pos (n + 1) = some (b :: fieldBits n x) ∧
      s.bitsFrom (pos + 1) n = some (fieldBits n x) := by
  obtain ⟨b, hb⟩ := bitAt_of_filled hf (pos := pos) (by omega)
  obtain ⟨fs, hfs⟩ := bitsFrom_of_filled hf (pos := pos + 1) (n := n) (by omega)
  have hlen := bitsFrom_length hfs
  have hfield : fieldBits n (fieldValue fs) = fs := hlen ▸ fieldBits_fieldValue fs
  refine ⟨b, fieldValue fs, hlen ▸ fieldValue_lt fs, ?_, ?_⟩ <;> rw [hfield]
  · exact bitsFrom_succ.mpr ⟨hb, hfs⟩
  · exact hfs

/-- The next channel's codeword is whole and is read, or the payload ends inside it (R141, R250). -/
theorem SeedProgress.next_cases (h : SeedProgress s d.index t) (hf : s.streamFilled) :
    (∃ u, seedChannel d t = .ok () u ∧ SeedProgress s (d.index + 1) u) ∨
      d.index = (s.payloadBits - s.position) / (bppEff s.cfg + 4) ∧
        ∃ c, seedChannel d t = .raised .allBitsConsumed { t with cursor := c } ∧
          s.movedBy (s.payloadBits - s.position) c := by
  have hpos := h.position
  have hbits := h.payloadBits
  have hle := position_le h.cursorOk
  have hnext : (d.index + 1) * (bppEff s.cfg + 4) = d.index * (bppEff s.cfg + 4) + (bppEff s.cfg + 4) :=
    Nat.succ_mul _ _
  by_cases hroom : t.position + (bppEff s.cfg + 4) ≤ s.payloadBits
  · left
    obtain ⟨b, x, hx, hcw, hfield⟩ := exists_seedCodeword hf (n := bppEff s.cfg + 3) hroom
    rw [hpos] at hfield
    obtain ⟨c, hm, hd⟩ := delivers_of_bitsFrom (bs := b :: fieldBits (bppEff s.cfg + 3) x) h.cursorOk (by
      rw [bitsFrom_congr h.cfg h.stream, List.length_cons, fieldBits_length]
      exact hcw)
    rw [List.length_cons, fieldBits_length] at hm
    refine ⟨_, seedChannel_of_delivers (by rw [h.cfg]; exact hx) (by rw [h.cfg]; exact hd), h.next ⟨hx, hfield⟩ hm⟩
  · right
    refine ⟨(Nat.div_eq_of_lt_le (by omega) (by omega)).symm, ?_⟩
    obtain ⟨c, hm, hr⟩ := seedChannel_past_end (d := d) h.cursorOk (h.filled hf) (by rw [h.cfg]; omega)
    refine ⟨c, hr, ?_⟩
    have hmoved := movedBy_trans h.cfg h.stream h.moved hm
    rwa [show d.index * (bppEff s.cfg + 4) + (t.payloadBits - t.position) = s.payloadBits - s.position by omega] at hmoved

/-- `AR.SEED` on a payload too short for it reads the whole codewords and raises inside the next one (R141, R250). -/
theorem seedPixel_past_end (hc : s.cursorOk) (hf : s.streamFilled)
    (h : s.payloadBits < s.position + 4 * (bppEff s.cfg + 4)) :
    ∃ m t c, m = (s.payloadBits - s.position) / (bppEff s.cfg + 4) ∧ SeedProgress s m t ∧
      seedPixel s = .raised .allBitsConsumed { t with cursor := c } ∧ s.movedBy (s.payloadBits - s.position) c := by
  have hp0 : SeedProgress s Channel.y.index s := .refl hc
  rcases hp0.next_cases hf with ⟨s1, h1, hp1⟩ | ⟨hm, c, hr, hc⟩
  · rcases SeedProgress.next_cases (d := .cd) hp1 hf with ⟨s2, h2, hp2⟩ | ⟨hm, c, hr, hc⟩
    · rcases SeedProgress.next_cases (d := .cm) hp2 hf with ⟨s3, h3, hp3⟩ | ⟨hm, c, hr, hc⟩
      · rcases SeedProgress.next_cases (d := .co) hp3 hf with ⟨s4, h4, hp4⟩ | ⟨hm, c, hr, hc⟩
        · have hle := position_le hp4.cursorOk
          have hpos : s4.position = s.position + 4 * (bppEff s.cfg + 4) := hp4.position
          have hbits := hp4.payloadBits
          omega
        · exact ⟨_, s3, c, hm, hp3, by simp only [seedPixel, h1, h2, h3, Run.bind_ok, hr], hc⟩
      · exact ⟨_, s2, c, hm, hp2, by simp only [seedPixel, h1, h2, Run.bind_ok, hr, Run.bind_raised], hc⟩
    · exact ⟨_, s1, c, hm, hp1, by simp only [seedPixel, h1, Run.bind_ok, hr, Run.bind_raised], hc⟩
  · exact ⟨_, s, c, hm, hp0, by simp only [seedPixel, hr, Run.bind_raised], hc⟩

end

/-- Settles O17: the four codewords are delivered one after the other; a payload that ends before them leaves the channels
whose codewords are whole. -/
theorem arSeed : Obligations.ArSeed := by
  intro s hc
  refine ⟨fun d v hv hbs => ?_, fun hf hlt => ?_⟩
  · have hlen := bitsFrom_length hbs
    obtain ⟨c, hm, hd⟩ := delivers_of_bitsFrom hc (by rw [hlen]; exact hbs)
    rw [hlen] at hm
    exact ⟨c, hm, congrArg Run.outcome (seedPixel_of_delivers hv hd)⟩
  · obtain ⟨m, u, c, hm, hp, hr, hmoved⟩ := seedPixel_past_end hc hf hlt
    obtain ⟨t, ht, hstop⟩ := outcome_stoppedBy hr
    have hstart := hp.start
    have hread := hp.read
    have hunread := hp.unread
    obtain ⟨_, w, v, a, rfl⟩ := hp.frame
    refine ⟨t, c, w, v, a, m, ht, hmoved, hm, hstop, hstart, fun d => ?_⟩
    split
    · rename_i hlt
      obtain ⟨x, ⟨hx, hfield⟩, hval, ha, hw⟩ := hread d hlt
      exact ⟨x, hx, hfield, hval, ha, hw⟩
    · rename_i hge
      exact hunread d (by omega)

end Sys2Proof.Machine
end

section
/-! The two single operations of the bit cursor: where a load or a fetch finds its byte, and where it raises (R120, R121). -/

namespace Sys2Proof.Machine

section
variable {s : State}

/-- A load of an empty payload (R120). -/
theorem loadCursor_of_empty (h : s.cfg.streamLen.toNat ≤ s.cfg.payloadOffset.toNat) :
    loadCursor s = .raised .allBitsConsumed s := by
  rw [loadCursor, if_pos h]

/-- A load whose byte is known (R120). -/
theorem loadCursor_of_find {b : Byte} (hlt : s.cfg.payloadOffset.toNat < s.cfg.streamLen.toNat)
    (hb : Mem.find s.stream s.cfg.payloadOffset.toNat = some b) :
    loadCursor s = .ok () { s with cursor := ⟨s.cfg.payloadOffset, 0, b⟩ } := by
  rw [loadCursor, if_neg (Nat.not_le.mpr hlt), streamRead_of_find hb, Run.bind_ok]

/-- A fetch after the last bit of the stream's last byte (R121). -/
theorem fetchBit_after_last (h : s.cursor.cnt = 8) (hle : s.cfg.streamLen.toNat ≤ s.cursor.idx.toNat + 1) :
    fetchBit s = .raised .allBitsConsumed s := by
  rw [fetchBit, if_pos h, if_pos hle]

theorem exec_bcLoad (s : State) : exec .bcLoad s = (loadCursor s).outcome := rfl

theorem exec_bcFetch1 (s : State) :
    exec .bcFetch1 s = ((fetchBit s).bind fun b t => .ok () { t with fetched := b.toNat } : Run Unit).outcome := rfl

end

/-- Settles O11, by the test of the payload offset against CFG.STREAM_LEN. -/
theorem bcLoad : Obligations.BcLoad := by
  intro s
  constructor
  · intro hle
    exact outcome_stoppedBy (loadCursor_of_empty hle)
  · intro b hlt hb
    rw [exec_bcLoad, loadCursor_of_find hlt hb, Run.outcome_ok]

/-- Settles O12, by the two tests of the fetch: whether the byte is used up, and whether it is the stream's last. -/
theorem bcFetch1 : Obligations.BcFetch1 := by
  intro s
  refine ⟨fun hlt => ?inside, fun b h8 hlt hb => ?next, fun h8 hle => ?last⟩
  case inside =>
    have h8 : s.cursor.cnt ≠ 8 := fun h => absurd hlt (by rw [h]; decide)
    rw [exec_bcFetch1, fetchBit_inside h8, Run.bind_ok, Run.outcome_ok]
  case next => rw [exec_bcFetch1, fetchBit_next h8 hlt hb, Run.bind_ok, Run.outcome_ok]
  case last =>
    rw [exec_bcFetch1, fetchBit_after_last h8 hle, Run.bind_raised]
    exact outcome_stoppedBy rfl

end Sys2Proof.Machine
end

section
/-! The adaptive parameter, the quotient, the symbol and the end-of-pixel update of the adaptive Rice decoder (R140, R142,
R143, R146 to R149, R152). -/

namespace Sys2Proof.Machine

/-! ### The search for the Rice parameter -/

/-- The search passes only numbers that are too small (R142). -/
theorem lt_of_lt_kSearch {n a fuel k j : Nat} (hk : k ≤ j) (hj : j < kSearch n a fuel k) : n * 2 ^ j < a := by
  induction fuel generalizing k with
  | zero => exact absurd hj hk.not_gt
  | succ fuel ih =>
    unfold kSearch at hj
    split at hj
    · rename_i hlt
      obtain rfl | hkj := hk.eq_or_lt
      · exact hlt
      · exact ih hkj hj
    · exact absurd hj hk.not_gt

/-- A search that ends before its last round has found a number that is large enough (R142). -/
theorem le_of_kSearch_lt {n a fuel k : Nat} (h : kSearch n a fuel k < k + fuel) : a ≤ n * 2 ^ kSearch n a fuel k := by
  induction fuel generalizing k with
  | zero => exact absurd h (lt_irrefl k)
  | succ fuel ih =>
    unfold kSearch at h ⊢
    split
    · rename_i hlt
      rw [if_pos hlt] at h
      exact ih (by omega)
    · rename_i hge
      exact Nat.le_of_not_lt hge

/-- The parameter is large enough, or it is the bound and no number up to the bound is (R152). -/
theorem riceParam_cases (n a bpp : Nat) :
    a ≤ n * 2 ^ riceParam n a bpp ∨ riceParam n a bpp = bpp + 2 ∧ ∀ j ≤ bpp + 2, n * 2 ^ j < a := by
  refine or_iff_not_imp_left.mpr fun hlt => ?_
  have hbound : riceParam n a bpp = bpp + 2 := by
    refine (riceParam_le n a bpp).eq_of_not_lt fun hr => hlt (le_of_kSearch_lt ?_)
    rwa [Nat.zero_add]
  refine ⟨hbound, fun j hj => ?_⟩
  obtain rfl | hj := hj.eq_or_lt
  · rw [← hbound]
    exact Nat.lt_of_not_le hlt
  · exact lt_of_lt_kSearch (Nat.zero_le j) (hj.trans_eq hbound.symm)

/-- Settles O20: the search passes the numbers that are too small, and only its last round ends it otherwise. -/
theorem arKSearch : Obligations.ArKSearch := fun c s =>
  ⟨_, exec_arK c s, riceParam_le _ _ _, fun _ hj => lt_of_lt_kSearch (Nat.zero_le _) hj, riceParam_cases _ _ _⟩

/-! ### The end-of-pixel update -/

/-- Below the threshold the counter counts and the floor holds (R148). -/
theorem updatedN_below {c : Cfg} {x : Adaptive} (h : x.n.toNat + 1 < c.nThreshold.toNat) :
    (updatedN c x).n.toNat = x.n.toNat + 1 ∧ ∀ d, (updatedN c x).a.get d = max (x.a.get d) c.aMin.toNat := by
  have hn := c.nThreshold.isLt
  have hcount : ¬ c.nThreshold.toNat ≤ x.n.toNat + 1 := Nat.not_le.mpr h
  constructor
  · simp only [updatedN, hcount, decide_false, Bool.false_eq_true, if_false, BitVec.toNat_ofNat]
    omega
  · intro d
    simp [updatedN, hcount]

/-- At the threshold the counter and the accumulators are halved (R148). -/
theorem updatedN_halved {c : Cfg} {x : Adaptive} (h : c.nThreshold.toNat ≤ x.n.toNat + 1) :
    (updatedN c x).n.toNat = (x.n.toNat + 1) / 2 ∧
      ∀ d, (updatedN c x).a.get d = max (x.a.get d / 2) c.aMin.toNat := by
  have hn := x.n.isLt
  constructor
  · simp only [updatedN, h, decide_true, if_true, BitVec.toNat_ofNat]
    omega
  · intro d
    simp [updatedN, h]

/-- Settles O25: below the threshold the count is below 255, at the threshold half of it is at most 128. -/
theorem arUpdN : Obligations.ArUpdN := fun _ => ⟨_, _, rfl, updatedN_below, updatedN_halved⟩

/-! ### Quotient and symbol -/

theorem exec_arUnary (s : State) : exec .arUnary s = (readUnary s).outcome := rfl

theorem exec_arSym (d : Channel) (s : State) : exec (.arSym d) s = (decodeOne d s).outcome := rfl

theorem readUnary_refused {s : State} (h : s.cfg.unaryCap = 0) : readUnary s = .refused .unaryCapZero := by
  rw [readUnary, if_pos h]

/-- The `n` bits at the stream positions from the cursor on are delivered (R123). -/
theorem exists_delivers {s : State} {n : Nat} {bs : List Bool} (hc : s.cursorOk)
    (h : s.bitsFrom s.position n = some bs) : ∃ c, s.movedBy n c ∧ s.delivers bs c := by
  obtain rfl := bitsFrom_length h
  exact delivers_of_bitsFrom hc h

/-- Settles O21, by what the loop finds after the ones it counts: a zero, the cap, or the payload's end. -/
theorem arUnary : Obligations.ArUnary := by
  intro s hc
  rw [exec_arUnary]
  refine ⟨fun hcap => ?refused, fun q hq hbs => ?quotient, fun hcap hbs => ?escape, fun n hn hend hbs => ?exhausted⟩
  case refused => rw [readUnary_refused hcap, Run.outcome_refused]
  case quotient =>
    obtain ⟨c, hm, hd⟩ := exists_delivers hc hbs
    exact ⟨c, hm, by rw [readUnary_zero hq hd, Run.outcome_ok]⟩
  case escape =>
    obtain ⟨c, hm, hd⟩ := exists_delivers hc hbs
    exact ⟨c, hm, by rw [readUnary_cap hcap hd, Run.outcome_ok]⟩
  case exhausted =>
    obtain ⟨c, hm, hd⟩ := exists_delivers hc hbs
    have ⟨hok, hpos, _⟩ := hm
    obtain ⟨t, ht, hstop⟩ := outcome_stoppedBy (readUnary_cut hn hd hok (hend.symm.trans hpos.symm).le)
    exact ⟨t, c, ht, hm, hstop⟩

/-- Settles O26: the bits of either codeword are delivered, and `AR.SYM` reads them. -/
theorem arSym : Obligations.ArSym := by
  intro d s k hc hk
  rw [exec_arSym]
  refine ⟨fun q r hq hr hbs => ?rice, fun v hcap hv hbs => ?esc⟩
  case rice =>
    obtain ⟨c, hm, hd⟩ := exists_delivers hc hbs
    exact ⟨c, hm, by rw [decodeOne_rice hk hq hr hd, Run.outcome_ok]⟩
  case esc =>
    obtain ⟨c, hm, hd⟩ := exists_delivers hc hbs
    exact ⟨c, hm, by rw [decodeOne_esc hcap hv hd, Run.outcome_ok, hk]⟩

/-! ### Operations with one outcome -/

/-- Settles O16: each accumulator is filled with CFG.A_INIT. -/
theorem arInit : Obligations.ArInit := fun _ => rfl

/-- Settles O24: the signed form of V is `fromAbs` of it, and the update of A is `accumulate`. -/
theorem arMapAndUpdA : Obligations.ArMapAndUpdA := fun _ => ⟨rfl, fun _ => rfl⟩

end Sys2Proof.Machine
end

section
/-! The parse and the reconstruction work on registers of their own (R150, R215). -/

namespace Sys2Proof.Machine

/-- The registers of the parse: the cursor, the adaptive state and the symbol registers. -/
def State.parse (s : State) : Cursor × Adaptive × SymbolRegs := (s.cursor, s.ad, s.sym)

/-- The registers and buffers of the reconstruction: the DPCM references, the colour registers, RESBUF and VALBUF. -/
def State.reconstruction (s : State) : DpcmRegs × ColourRegs × Mem 16 × Mem 16 := (s.dpcm, s.colour, s.resbuf, s.valbuf)

theorem State.parse_eq {s t : State} : t.parse = s.parse ↔ t.cursor = s.cursor ∧ t.ad = s.ad ∧ t.sym = s.sym := by
  simp only [State.parse, Prod.mk.injEq]

theorem State.reconstruction_eq {s t : State} : t.reconstruction = s.reconstruction ↔
    t.dpcm = s.dpcm ∧ t.colour = s.colour ∧ t.resbuf = s.resbuf ∧ t.valbuf = s.valbuf := by
  simp only [State.reconstruction, Prod.mk.injEq]

/-- Where the operation completes and where it raises, `f` is as it was in `s`. -/
def Run.Leaves {α β : Type} (f : State → β) (s : State) : Run α → Prop
  | .ok _ t => f t = f s
  | .raised _ t => f t = f s
  | .fault _ => True
  | .refused _ => True

section
variable {α β γ : Type} {f : State → γ} {s t : State}

theorem Run.Leaves.of_eq {x : Run α} (hx : x.Leaves f t) (h : f t = f s) : x.Leaves f s := by
  cases x with
  | ok a u => exact Eq.trans hx h
  | raised c u => exact Eq.trans hx h
  | fault e => trivial
  | refused e => trivial

theorem Run.Leaves.bind {x : Run α} {g : α → State → Run β} (hx : x.Leaves f s)
    (hg : ∀ a t, (g a t).Leaves f t) : (x.bind g).Leaves f s := by
  cases x with
  | ok a t => exact (hg a t).of_eq hx
  | raised c t => exact hx
  | fault e => trivial
  | refused e => trivial

/-- What an operation leaves as it was, and the raise itself as well, its outcome does (R250). -/
theorem Run.Leaves.outcome {x : Run α} (hx : x.Leaves f s) (hfail : ∀ u c, f (State.fail u c) = f u)
    (h : x.outcome = .next t) : f t = f s := by
  rcases Run.outcome_eq_next.mp h with ⟨a, rfl⟩ | ⟨c, u, rfl, rfl⟩
  · exact hx
  · exact (hfail u c).trans hx

theorem parse_of_outcome {x : Run α} (hx : x.Leaves State.parse s) (h : x.outcome = .next t) : t.parse = s.parse :=
  hx.outcome (fun _ _ => rfl) h

theorem reconstruction_of_outcome {x : Run α} (hx : x.Leaves State.reconstruction s) (h : x.outcome = .next t) :
    t.reconstruction = s.reconstruction :=
  hx.outcome (fun _ _ => rfl) h

end

/-! ### The reconstruction leaves the parse alone -/

theorem strictCheck_leaves_parse (s : State) : (strictCheck s).Leaves State.parse s := by
  unfold strictCheck
  split <;> rfl

theorem transformQuad_leaves_parse (p : Nat) (val : Quad Half) (s : State) :
    (transformQuad p val s).Leaves State.parse s := by
  cases h : transformQuad p val s with
  | ok a t =>
    obtain ⟨_, _, rfl⟩ := transformQuad_ok h
    rfl
  | raised c t =>
    obtain ⟨_, _, _, rfl⟩ := transformQuad_raised h
    rfl
  | fault e => trivial
  | refused e => trivial

/-! ### The parse leaves the reconstruction alone -/

theorem loadCursor_leaves_reconstruction (s : State) : (loadCursor s).Leaves State.reconstruction s := by
  cases h : loadCursor s with
  | ok a t =>
    obtain ⟨_, _, _, rfl⟩ := loadCursor_ok h
    rfl
  | raised c t =>
    obtain ⟨_, rfl, _⟩ := loadCursor_raised h
    rfl
  | fault e => trivial
  | refused e => trivial

theorem fetchBit_leaves_reconstruction (s : State) : (fetchBit s).Leaves State.reconstruction s := by
  cases h : fetchBit s with
  | ok b t =>
    obtain ⟨_, rfl⟩ := fetchBit_frame h
    rfl
  | raised c t =>
    obtain ⟨_, rfl, _⟩ := fetchBit_raised h
    rfl
  | fault e => trivial
  | refused e => trivial

theorem fetchField_leaves_reconstruction (n : Nat) (s : State) : (fetchField n s).Leaves State.reconstruction s := by
  cases h : fetchField n s with
  | ok v t =>
    obtain ⟨_, rfl⟩ := fetchField_frame h
    rfl
  | raised c t =>
    obtain ⟨_, _, rfl⟩ := fetchField_raised h
    rfl
  | fault e => trivial
  | refused e => trivial

theorem seedChannel_leaves_reconstruction (d : Channel) (s : State) :
    (seedChannel d s).Leaves State.reconstruction s :=
  (fetchBit_leaves_reconstruction s).bind fun _ t => (fetchField_leaves_reconstruction _ t).bind fun _ _ => rfl

theorem seedPixel_leaves_reconstruction (s : State) : (seedPixel s).Leaves State.reconstruction s :=
  (seedChannel_leaves_reconstruction .y s).bind fun _ t => (seedChannel_leaves_reconstruction .cd t).bind fun _ u =>
    (seedChannel_leaves_reconstruction .cm u).bind fun _ v => seedChannel_leaves_reconstruction .co v

theorem unaryLoop_leaves_reconstruction (n : Nat) (s : State) : (unaryLoop n s).Leaves State.reconstruction s := by
  induction n generalizing s with
  | zero => rfl
  | succ n ih =>
    refine (fetchBit_leaves_reconstruction s).bind fun b t => ?_
    cases b with
    | true => exact (ih _).of_eq rfl
    | false => rfl

theorem readUnary_leaves_reconstruction (s : State) : (readUnary s).Leaves State.reconstruction s := by
  unfold readUnary
  split
  · trivial
  · exact (unaryLoop_leaves_reconstruction _ _).of_eq rfl

theorem readEscape_leaves_reconstruction (s : State) : (readEscape s).Leaves State.reconstruction s :=
  (fetchField_leaves_reconstruction _ s).bind fun _ _ => rfl

theorem readRemainder_leaves_reconstruction (s : State) : (readRemainder s).Leaves State.reconstruction s :=
  (fetchField_leaves_reconstruction _ s).bind fun _ _ => rfl

theorem decodeOne_leaves_reconstruction (d : Channel) (s : State) : (decodeOne d s).Leaves State.reconstruction s := by
  refine Run.Leaves.of_eq (t := recomputeK d s) ?_ rfl
  refine (readUnary_leaves_reconstruction _).bind fun _ t => Run.Leaves.bind ?_ fun _ _ => rfl
  split
  · exact readEscape_leaves_reconstruction t
  · exact readRemainder_leaves_reconstruction t

/-- Settles O36, operation by operation. -/
theorem stagesAreApart : Obligations.StagesAreApart := by
  constructor
  · intro i s t hi h
    rw [← State.parse_eq]
    rcases hi with hi | ⟨c, rfl⟩ | ⟨p, c, x, rfl⟩ | ⟨r, rfl⟩ | ⟨v, rfl⟩ | ⟨j, rfl⟩ | ⟨j, rfl⟩ | ⟨j, rfl⟩ | ⟨p, v, rfl⟩
    · simp only [List.mem_cons, List.not_mem_nil, or_false] at hi
      rcases hi with rfl | rfl | rfl
      · cases h; rfl
      · cases h; rfl
      · exact parse_of_outcome (strictCheck_leaves_parse s) h
    · cases h; rfl
    · cases h; rfl
    · cases h; rfl
    · cases h; rfl
    · cases h; rfl
    · cases h; rfl
    · cases h; rfl
    · exact parse_of_outcome (transformQuad_leaves_parse _ v s) h
  · intro i s t hi h
    rw [← State.reconstruction_eq]
    rcases hi with hi | ⟨n, rfl⟩ | ⟨c, rfl⟩ | ⟨c, rfl⟩ | ⟨c, rfl⟩
    · simp only [List.mem_cons, List.not_mem_nil, or_false] at hi
      rcases hi with rfl | rfl | rfl | rfl | rfl | rfl | rfl | rfl | rfl
      · exact reconstruction_of_outcome (loadCursor_leaves_reconstruction s) h
      · exact reconstruction_of_outcome ((fetchBit_leaves_reconstruction s).bind
          (g := fun (b : Bool) u => (.ok () { u with fetched := b.toNat } : Run Unit)) fun _ _ => rfl) h
      · cases h; rfl
      · exact reconstruction_of_outcome (seedPixel_leaves_reconstruction s) h
      · exact reconstruction_of_outcome (readUnary_leaves_reconstruction s) h
      · exact reconstruction_of_outcome (readEscape_leaves_reconstruction s) h
      · exact reconstruction_of_outcome (readRemainder_leaves_reconstruction s) h
      · cases h; rfl
      · cases h; rfl
    · exact reconstruction_of_outcome ((fetchField_leaves_reconstruction n s).bind
        (g := fun v u => (.ok () { u with fetched := v } : Run Unit)) fun _ _ => rfl) h
    · cases h; rfl
    · cases h; rfl
    · exact reconstruction_of_outcome (decodeOne_leaves_reconstruction c s) h

end Sys2Proof.Machine
end

section
/-! DPCM reconstruction operation by operation: the seed, the references of the Sequential strategy, and the two
passes of phase B as running sums along a path of pixels (R170, R171, R173, R174). -/

namespace Sys2Proof.Machine

/-! ### 16-bit sums and the entries of a pixel -/

/-- Wrapping a sum is adding modulo 2^16 (R14). -/
theorem wrap16_toInt_add (a : Half) (x : Int) : wrap16 (a.toInt + x) = a + wrap16 x := by
  rw [wrap16, BitVec.ofInt_add, BitVec.ofInt_toInt, wrap16]

theorem wrap16_toInt (a : Half) : wrap16 a.toInt = a := BitVec.ofInt_toInt

@[simp] theorem bufQuad_get (m : Mem 16) (p : Nat) (c : Channel) : (bufQuad m p).get c = bufRead m p c := by
  cases c <;> rfl

section
variable {m res : Mem 16} {p q : Nat} {c : Channel}

theorem writePixel_wf (hm : Mem.wf bufDefault m = true) (p : Nat) (x : Quad Half) :
    Mem.wf bufDefault (writePixel m p x) = true :=
  bufWrite_wf (bufWrite_wf (bufWrite_wf (bufWrite_wf hm _ _ _) _ _ _) _ _ _) _ _ _

theorem bufRead_writePixel (hm : Mem.wf bufDefault m = true) (x : Quad Half) :
    bufRead (writePixel m p x) q c = if q = p then x.get c else bufRead m q c := by
  have hy := bufWrite_wf hm p .y x.y
  have hcd := bufWrite_wf hy p .cd x.cd
  have hcm := bufWrite_wf hcd p .cm x.cm
  rw [writePixel, bufRead_bufWrite hcm, bufRead_bufWrite hcd, bufRead_bufWrite hy, bufRead_bufWrite hm]
  by_cases hq : q = p
  · subst hq
    cases c <;> simp [Quad.get]
  · simp [hq, Ne.symm hq]

theorem bufRead_copyPixel0 (hm : Mem.wf bufDefault m = true) :
    bufRead (copyPixel0 res m) q c = if q = 0 then bufRead res 0 c else bufRead m q c := by
  rw [copyPixel0_eq, bufRead_writePixel hm, bufQuad_get]

/-- One pixel of phase B, modulo 2^16 (R173, R174). -/
theorem bufRead_sumPixel_eq_add (hm : Mem.wf bufDefault m = true) (ref : Nat) :
    bufRead (sumPixel res ref p m) q c = if q = p then bufRead m ref c + bufRead res p c else bufRead m q c := by
  rw [bufRead_sumPixel hm, wrap16_toInt_add, wrap16_toInt]

end

/-! ### Running sums along a path of pixels -/

/-- The pixels `path 1` to `path n` in turn, each from the one before it on the path. -/
def sumAlong (path : Nat → Nat) (res : Mem 16) : Nat → Mem 16 → Mem 16
  | 0, m => m
  | n + 1, m => sumPixel res (path n) (path (n + 1)) (sumAlong path res n m)

theorem col0Rows_eq (hw : Nat) (res : Mem 16) (n : Nat) (m : Mem 16) :
    col0Rows hw res n m = sumAlong (· * hw) res n m := by
  induction n with
  | zero => rfl
  | succ n ih => rw [col0Rows, sumAlong, ih]

theorem rowCols_eq (hw r : Nat) (res : Mem 16) (n : Nat) (m : Mem 16) :
    rowCols hw r res n m = sumAlong (r * hw + ·) res n m := by
  induction n with
  | zero => rfl
  | succ n ih => rw [rowCols, sumAlong, ih]

section
variable {path : Nat → Nat} {res m : Mem 16} {n q : Nat}

theorem sumAlong_wf (hm : Mem.wf bufDefault m = true) (n : Nat) : Mem.wf bufDefault (sumAlong path res n m) = true := by
  induction n with
  | zero => exact hm
  | succ n ih => exact sumPixel_wf ih _ _

/-- A pixel that is not on the path after its first keeps its values. -/
theorem bufRead_sumAlong_other (hm : Mem.wf bufDefault m = true) (hq : ∀ k < n, q ≠ path (k + 1)) (c : Channel) :
    bufRead (sumAlong path res n m) q c = bufRead m q c := by
  induction n with
  | zero => rfl
  | succ n ih =>
    rw [sumAlong, bufRead_sumPixel_eq_add (sumAlong_wf hm n), if_neg (hq n n.lt_succ_self),
      ih fun k hk => hq k (hk.trans n.lt_succ_self)]

/-- On the path, a pixel has the sum of the value before it and its residual. -/
theorem bufRead_sumAlong_next (hm : Mem.wf bufDefault m = true) (hpath : Function.Injective path) {k : Nat} (hk : k < n)
    (c : Channel) :
    bufRead (sumAlong path res n m) (path (k + 1)) c =
      bufRead (sumAlong path res n m) (path k) c + bufRead res (path (k + 1)) c := by
  induction n with
  | zero => exact absurd hk k.not_lt_zero
  | succ n ih =>
    have hne {j : Nat} (hj : j ≠ n + 1) : path j ≠ path (n + 1) := fun h => hj (hpath h)
    rw [sumAlong, bufRead_sumPixel_eq_add (sumAlong_wf hm n), bufRead_sumPixel_eq_add (sumAlong_wf hm n),
      if_neg (hne (j := k) (by omega))]
    rcases Nat.lt_succ_iff_lt_or_eq.mp hk with hlt | rfl
    · rw [if_neg (hne (by omega)), ih hlt]
    · rw [if_pos rfl]

end

theorem injective_col0 {hw : Nat} (hpos : 0 < hw) : Function.Injective (· * hw) :=
  fun _ _ h => Nat.eq_of_mul_eq_mul_right hpos h

theorem injective_row (hw r : Nat) : Function.Injective (r * hw + ·) := fun _ _ h => Nat.add_left_cancel h

/-! ### The operations of the DPCM stage -/

theorem exec_dpSeq (c : Channel) (s : State) : exec (.dpSeq c) s = .next (reconstruct c s) := rfl

theorem exec_dpCol0 (s : State) : exec .dpCol0 s = .next (reconstructCol0 s) := rfl

theorem exec_dpRow (r : Nat) (s : State) : exec (.dpRow r) s = .next (reconstructRow r s) := rfl

/-- `DP.SEQ` in column 0 (R171). -/
theorem reconstruct_column0 {s : State} (h : s.p.toNat % halfWidth s.cfg = 0) (c : Channel) :
    (reconstruct c s).dpcm = ⟨s.dpcm.prev.set c (wrap16 ((s.dpcm.above.get c).toInt + s.sym.resid)),
      s.dpcm.above.set c (wrap16 ((s.dpcm.above.get c).toInt + s.sym.resid))⟩ := by
  simp [reconstruct, dpValue, dpReference, inColumn0, h]

/-- `DP.SEQ` in the columns from the second on (R171). -/
theorem reconstruct_later_column {s : State} (h : s.p.toNat % halfWidth s.cfg ≠ 0) (c : Channel) :
    (reconstruct c s).dpcm =
      ⟨s.dpcm.prev.set c (wrap16 ((s.dpcm.prev.get c).toInt + s.sym.resid)), s.dpcm.above⟩ := by
  simp [reconstruct, dpValue, dpReference, inColumn0, h]

theorem reconstruct_eq (c : Channel) (s : State) : reconstruct c s = { s with dpcm := (reconstruct c s).dpcm } := rfl

/-- Settles O29: each of the four seed values is wrapped. -/
theorem dpSeed : Obligations.DpSeed := fun s => ⟨s.seedVal.map wrap16, fun c => Quad.get_map wrap16 s.seedVal c, rfl⟩

/-- Settles O30, by whether the pixel is in column 0. -/
theorem dpSeq : Obligations.DpSeq := by
  intro c s _
  rw [exec_dpSeq, reconstruct_eq]
  refine ⟨fun h => ⟨_, rfl, ?_⟩, fun h => ⟨_, rfl, ?_⟩⟩
  · rw [reconstruct_column0 h]
  · rw [reconstruct_later_column h]

/-- Settles O32: column 0 is the path of the pixels r * HW, which starts at pixel 0. -/
theorem dpCol0 : Obligations.DpCol0 := by
  intro s hpos hm
  obtain ⟨_, _, _, hval⟩ := (State.memWF_iff s).mp hm
  have hcopy : Mem.wf bufDefault (copyPixel0 s.resbuf s.valbuf) = true := copyPixel0_wf hval
  refine ⟨_, exec_dpCol0 s, fun c => ?pixel0, fun r c hr => ?column0, fun p c hp hother => ?other⟩
  all_goals simp only [col0Rows_eq]
  case pixel0 =>
    rw [bufRead_sumAlong_other hcopy fun k _ => (Nat.mul_pos k.succ_pos hpos).ne, bufRead_copyPixel0 hval, if_pos rfl]
  case column0 =>
    rw [wrap16_toInt_add, wrap16_toInt]
    exact bufRead_sumAlong_next hcopy (injective_col0 hpos) (by omega) c
  case other =>
    rw [bufRead_sumAlong_other hcopy fun k hk => hother (k + 1) (by omega), bufRead_copyPixel0 hval, if_neg hp]

/-- Settles O33: a row is the path of its columns. -/
theorem dpRow : Obligations.DpRow := by
  intro r s hm
  obtain ⟨_, _, _, hval⟩ := (State.memWF_iff s).mp hm
  refine ⟨_, exec_dpRow r s, fun j c hj => ?next, fun p c hother => ?other⟩
  all_goals simp only [rowCols_eq]
  case next =>
    rw [wrap16_toInt_add, wrap16_toInt]
    exact bufRead_sumAlong_next hval (injective_row _ r) (by omega) c
  case other => exact bufRead_sumAlong_other hval (fun k hk => hother k (by omega)) c

end Sys2Proof.Machine
end

section
/-! The closed form of phase B (R177): column 0 is summed from the seed down, and each row from its column 0. -/

namespace Sys2Proof.Machine

/-! ### The closed form -/

/-- The value of phase B at quad row `r` and column `j`, as the sum of residuals that R177 gives. -/
def gridValue (hw : Nat) (res : Mem 16) (r j : Nat) (c : Channel) : Half :=
  bufRead res 0 c + ((List.range r).map fun i => bufRead res ((i + 1) * hw) c).sum +
    ((List.range j).map fun i => bufRead res (r * hw + (i + 1)) c).sum

section
variable {hw r j : Nat} {res res' : Mem 16} {c : Channel}

theorem gridValue_seed : gridValue hw res 0 0 c = bufRead res 0 c := by simp [gridValue]

/-- Down column 0 each value adds its residual (R173). -/
theorem gridValue_next_row :
    gridValue hw res (r + 1) 0 c = gridValue hw res r 0 c + bufRead res ((r + 1) * hw) c := by
  simp [gridValue, List.range_succ, add_assoc]

/-- Along a row each value adds its residual (R174). -/
theorem gridValue_next_col :
    gridValue hw res r (j + 1) c = gridValue hw res r j c + bufRead res (r * hw + (j + 1)) c := by
  simp [gridValue, List.range_succ, add_assoc]

/-- The closed form reads the entries up to its own pixel only. -/
theorem gridValue_congr (h : ∀ q ≤ r * hw + j, bufRead res' q c = bufRead res q c) :
    gridValue hw res' r j c = gridValue hw res r j c := by
  have hcol0 (i : Nat) (hi : i ∈ List.range r) : bufRead res' ((i + 1) * hw) c = bufRead res ((i + 1) * hw) c :=
    h _ ((Nat.mul_le_mul_right hw (List.mem_range.mp hi)).trans (Nat.le_add_right _ _))
  have hrow (i : Nat) (hi : i ∈ List.range j) :
      bufRead res' (r * hw + (i + 1)) c = bufRead res (r * hw + (i + 1)) c :=
    h _ (Nat.add_le_add_left (List.mem_range.mp hi) _)
  rw [gridValue, gridValue, h 0 (Nat.zero_le _), List.map_congr_left hcol0, List.map_congr_left hrow]

end

/-! ### Phase B computes it -/

section
variable {hw : Nat} {res m : Mem 16}

theorem bufRead_col0Rows (hm : Mem.wf bufDefault m = true) (hpos : 0 < hw) {n r : Nat} (hr : r ≤ n) (c : Channel) :
    bufRead (col0Rows hw res n (copyPixel0 res m)) (r * hw) c = gridValue hw res r 0 c := by
  have hcopy : Mem.wf bufDefault (copyPixel0 res m) = true := copyPixel0_wf hm
  rw [col0Rows_eq]
  induction r with
  | zero =>
    rw [Nat.zero_mul, bufRead_sumAlong_other hcopy fun k _ => (Nat.mul_pos k.succ_pos hpos).ne, bufRead_copyPixel0 hm,
      if_pos rfl, gridValue_seed]
  | succ r ih =>
    rw [gridValue_next_row, ← ih (by omega)]
    exact bufRead_sumAlong_next hcopy (injective_col0 hpos) hr c

/-- A row whose column 0 has its value. -/
theorem bufRead_rowCols (hm : Mem.wf bufDefault m = true) {n r j : Nat} (hj : j ≤ n) {c : Channel}
    (h0 : bufRead m (r * hw) c = gridValue hw res r 0 c) :
    bufRead (rowCols hw r res n m) (r * hw + j) c = gridValue hw res r j c := by
  rw [rowCols_eq]
  induction j with
  | zero => rw [← h0]; exact bufRead_sumAlong_other hm (fun k _ => by omega) c
  | succ j ih =>
    rw [gridValue_next_col, ← ih (by omega)]
    exact bufRead_sumAlong_next hm (injective_row hw r) hj c

end

section
variable {s : State}

theorem stagedRows_memWF (n : Nat) (hm : s.memWF = true) : (stagedRows n s).memWF = true := by
  induction n with
  | zero => exact hm
  | succ n ih => exact reconstructRow_memWF n ih

/-- Phase B with the rows below `n` done: VALBUF holds the closed form in column 0 and in those rows. -/
theorem bufRead_stagedRows (hm : s.memWF = true) {n r j : Nat} (hr : r < halfHeight s.cfg) (hj : j < halfWidth s.cfg)
    (hdone : r < n ∨ j = 0) (c : Channel) :
    bufRead (stagedRows n (reconstructCol0 s)).valbuf (r * halfWidth s.cfg + j) c =
      gridValue (halfWidth s.cfg) s.resbuf r j c := by
  obtain ⟨_, _, _, hval⟩ := (State.memWF_iff s).mp hm
  induction n generalizing j with
  | zero =>
    obtain rfl : j = 0 := hdone.resolve_left r.not_lt_zero
    exact bufRead_col0Rows hval hj (by omega) c
  | succ n ih =>
    obtain ⟨m, hrows⟩ := stagedRows_frame n (reconstructCol0 s)
    have hwf := stagedRows_memWF n (reconstructCol0_memWF hm)
    rw [hrows] at ih hwf
    obtain ⟨_, _, _, hmwf⟩ := (State.memWF_iff _).mp hwf
    rw [stagedRows, hrows]
    by_cases hrn : r = n
    · subst hrn
      exact bufRead_rowCols hmwf (Nat.le_sub_one_of_lt hj) (ih (Nat.zero_lt_of_lt hj) (.inr rfl))
    · have hother : ¬writtenByRow (halfWidth s.cfg) n (r * halfWidth s.cfg + j) := by
        rintro ⟨hrow, _⟩
        rw [mul_comm, Nat.mul_add_div (by omega), Nat.div_eq_of_lt hj] at hrow
        exact hrn hrow
      rw [← ih hj (by omega)]
      exact bufRead_rowCols_other hmwf hother le_rfl c

theorem stagedRows_eq_rowPasses (n : Nat) (s : State) :
    stagedRows n s = { s with valbuf := rowPasses s (List.range n) } := by
  induction n with
  | zero => rfl
  | succ n ih =>
    have hpass : rowPasses s (List.range (n + 1)) =
        rowCols (halfWidth s.cfg) n s.resbuf (halfWidth s.cfg - 1) (rowPasses s (List.range n)) := by
      rw [rowPasses, List.range_succ, List.foldl_append]
      rfl
    rw [stagedRows, ih, hpass]
    rfl

theorem performAll_phaseB (n : Nat) (s : State) :
    performAll (.dpCol0 :: (List.range n).map .dpRow) s = .next (stagedRows n (reconstructCol0 s)) := by
  rw [stagedRows_eq_rowPasses]
  exact performAll_dpRow _ (reconstructCol0 s)

end

/-- Settles O35: by induction on the rows that are done, each of which starts from its column 0. -/
theorem phaseBClosedForm : Obligations.PhaseBClosedForm := fun s _ _ c hm hr hj =>
  ⟨_, performAll_phaseB (halfHeight s.cfg) s, bufRead_stagedRows hm hr hj (.inl hr) c⟩

end Sys2Proof.Machine
end

section
/-! Decoding does not read CFG.CTRL: the opening of a run and phase A do the same whatever strategy the register names
(R214, R215). -/

namespace Sys2Proof.Machine

/-! ### Two answers, compared in two stages -/

theorem Run.Alike.trans {α : Type} {R Q : State → State → Prop} {x y z : Run α} (h : x.Alike R y) (h' : y.Alike Q z) :
    x.Alike (fun s u => ∃ t, R s t ∧ Q t u) z := by
  cases h with
  | ok a s t hr => cases h' with | ok _ _ u hq => exact .ok a s u ⟨t, hr, hq⟩
  | raised c s t => cases h' with | raised _ _ u => exact .raised c s u
  | fault e => cases h'; exact .fault e
  | refused e => cases h'; exact .refused e

/-! ### The register CFG.CTRL -/

/-- The state with CFG.CTRL replaced. -/
def State.withCtrl (s : State) (x : BitVec 2) : State := { s with cfg := { s.cfg with ctrl := x } }

/-- The two states differ in CFG.CTRL at most, where the second has `x`. -/
def SameButCtrl (x : BitVec 2) (t t' : State) : Prop := t' = t.withCtrl x

section
variable {x : BitVec 2}

/-- Operations after one that answers alike but for CFG.CTRL. -/
theorem Run.Alike.bind_withCtrl {α β : Type} {y z : Run α} {f g : α → State → Run β}
    (h : y.Alike (SameButCtrl x) z) (hf : ∀ a t, (f a t).Alike (SameButCtrl x) (g a (t.withCtrl x))) :
    (y.bind f).Alike (SameButCtrl x) (z.bind g) :=
  h.bind fun a t _ ht => ht ▸ hf a t

theorem streamRead_withCtrl (i : Nat) (s : State) :
    (streamRead s i).Alike (SameButCtrl x) (streamRead (s.withCtrl x) i) := by
  cases hb : Mem.find s.stream i with
  | none =>
    rw [streamRead_of_unwritten hb, streamRead_of_unwritten (s := s.withCtrl x) hb]
    exact .fault _
  | some b =>
    rw [streamRead_of_find hb, streamRead_of_find (s := s.withCtrl x) hb]
    exact .ok _ _ _ rfl

theorem fetchBit_withCtrl (s : State) : (fetchBit s).Alike (SameButCtrl x) (fetchBit (s.withCtrl x)) := by
  by_cases h8 : s.cursor.cnt = 8
  · by_cases hend : s.cfg.streamLen.toNat ≤ s.cursor.idx.toNat + 1
    · rw [fetchBit_after_last h8 hend, fetchBit_after_last (s := s.withCtrl x) h8 hend]
      exact .raised _ _ _
    · rw [fetchBit, fetchBit, if_pos h8, if_neg hend, if_pos (by exact h8), if_neg (by exact hend)]
      exact (streamRead_withCtrl _ s).bind_withCtrl fun _ _ => .ok _ _ _ rfl
  · rw [fetchBit_inside h8, fetchBit_inside (s := s.withCtrl x) h8]
    exact .ok _ _ _ rfl

theorem fetchBits_withCtrl (n : Nat) (s : State) :
    (fetchBits n s).Alike (SameButCtrl x) (fetchBits n (s.withCtrl x)) := by
  induction n generalizing s with
  | zero => exact .ok _ _ _ rfl
  | succ n ih =>
    exact (fetchBit_withCtrl s).bind_withCtrl fun _ t => (ih t).bind_withCtrl fun _ _ => .ok _ _ _ rfl

theorem fetchField_withCtrl (n : Nat) (s : State) :
    (fetchField n s).Alike (SameButCtrl x) (fetchField n (s.withCtrl x)) :=
  (fetchBits_withCtrl n s).bind_withCtrl fun _ _ => .ok _ _ _ rfl

theorem loadCursor_withCtrl (s : State) : (loadCursor s).Alike (SameButCtrl x) (loadCursor (s.withCtrl x)) := by
  by_cases hempty : s.cfg.streamLen.toNat ≤ s.cfg.payloadOffset.toNat
  · rw [loadCursor_of_empty hempty, loadCursor_of_empty (s := s.withCtrl x) hempty]
    exact .raised _ _ _
  · rw [loadCursor, loadCursor, if_neg hempty, if_neg (by exact hempty)]
    exact (streamRead_withCtrl _ s).bind_withCtrl fun _ _ => .ok _ _ _ rfl

theorem seedChannel_withCtrl (c : Channel) (s : State) :
    (seedChannel c s).Alike (SameButCtrl x) (seedChannel c (s.withCtrl x)) :=
  (fetchBit_withCtrl s).bind_withCtrl fun _ t => (fetchField_withCtrl _ t).bind_withCtrl fun _ _ => .ok _ _ _ rfl

theorem seedPixel_withCtrl (s : State) : (seedPixel s).Alike (SameButCtrl x) (seedPixel (s.withCtrl x)) :=
  (seedChannel_withCtrl .y s).bind_withCtrl fun _ t => (seedChannel_withCtrl .cd t).bind_withCtrl fun _ t =>
    (seedChannel_withCtrl .cm t).bind_withCtrl fun _ t => seedChannel_withCtrl .co t

/-- The opening of a run, where `CfgWF` holds with either value of the register. -/
theorem openRun_withCtrl {s : State} (hwf : s.cfgWF = true) (hwf' : (s.withCtrl x).cfgWF = true) :
    (openRun s).Alike (SameButCtrl x) (openRun (s.withCtrl x)) := by
  rw [openRun, openRun, (requireCfgWF_eq_ok (a := ())).mpr ⟨hwf, rfl⟩, (requireCfgWF_eq_ok (a := ())).mpr ⟨hwf', rfl⟩]
  exact (loadCursor_withCtrl s).bind_withCtrl fun _ t => seedPixel_withCtrl (firstPixel (initAdaptive t))

theorem unaryLoop_withCtrl (n : Nat) (s : State) :
    (unaryLoop n s).Alike (SameButCtrl x) (unaryLoop n (s.withCtrl x)) := by
  induction n generalizing s with
  | zero => exact .ok _ _ _ rfl
  | succ n ih =>
    refine (fetchBit_withCtrl s).bind_withCtrl fun b t => ?_
    cases b with
    | true => exact ih { t with sym := { t.sym with q := t.sym.q + 1 } }
    | false => exact .ok _ _ _ rfl

theorem readUnary_withCtrl (s : State) : (readUnary s).Alike (SameButCtrl x) (readUnary (s.withCtrl x)) := by
  by_cases hcap : s.cfg.unaryCap = 0
  · rw [readUnary_refused hcap, readUnary_refused (s := s.withCtrl x) hcap]
    exact .refused _
  · rw [readUnary, readUnary, if_neg hcap, if_neg (by exact hcap)]
    exact unaryLoop_withCtrl _ { s with sym := { s.sym with q := 0 } }

theorem readEscape_withCtrl (s : State) : (readEscape s).Alike (SameButCtrl x) (readEscape (s.withCtrl x)) :=
  (fetchField_withCtrl _ s).bind_withCtrl fun _ _ => .ok _ _ _ rfl

theorem readRemainder_withCtrl (s : State) :
    (readRemainder s).Alike (SameButCtrl x) (readRemainder (s.withCtrl x)) :=
  (fetchField_withCtrl _ s).bind_withCtrl fun _ _ => .ok _ _ _ rfl

theorem decodeOne_withCtrl (c : Channel) (s : State) :
    (decodeOne c s).Alike (SameButCtrl x) (decodeOne c (s.withCtrl x)) := by
  refine (readUnary_withCtrl (recomputeK c s)).bind_withCtrl fun _ t =>
    Run.Alike.bind_withCtrl ?_ fun _ _ => .ok _ _ _ rfl
  by_cases hcap : t.sym.q = t.cfg.unaryCap
  · rw [if_pos hcap, if_pos (by exact hcap)]
    exact readEscape_withCtrl t
  · rw [if_neg hcap, if_neg (by exact hcap)]
    exact readRemainder_withCtrl t

/-! ### Phase A -/

theorem stagedChannel_withCtrl (c : Channel) (s : State) :
    (stagedChannel c s).Alike (SameButCtrl x) (stagedChannel c (s.withCtrl x)) :=
  (decodeOne_withCtrl c { s with ch := c }).bind_withCtrl fun _ _ => .ok _ _ _ rfl

theorem stagedPixel_withCtrl (s : State) : (stagedPixel s).Alike (SameButCtrl x) (stagedPixel (s.withCtrl x)) :=
  (stagedChannel_withCtrl .y s).bind_withCtrl fun _ t => (stagedChannel_withCtrl .cd t).bind_withCtrl fun _ t =>
    (stagedChannel_withCtrl .cm t).bind_withCtrl fun _ t => (stagedChannel_withCtrl .co t).bind_withCtrl fun _ _ =>
      .ok _ _ _ rfl

theorem stagedPixels_withCtrl (n : Nat) (s : State) :
    (stagedPixels n s).Alike (SameButCtrl x) (stagedPixels n (s.withCtrl x)) := by
  induction n generalizing s with
  | zero => exact .ok _ _ _ rfl
  | succ n ih => exact (stagedPixel_withCtrl { s with p := s.p + 1 }).bind_withCtrl fun _ t => ih t

/-- The Staged strategy up to the end of phase A (R215). -/
def phaseA (s : State) : Run Unit := (openRun s).bind fun _ t => stagedPixels (npix t.cfg - 1) (storeSeed t)

theorem runStaged_eq (s : State) :
    runStaged s = (phaseA s).bind fun _ t =>
      stagedQuads 0 (npix t.cfg) (stagedRows (halfHeight t.cfg) (reconstructCol0 t)) :=
  (Run.bind_assoc _ _ _).symm

theorem phaseA_withCtrl {s : State} (hwf : s.cfgWF = true) (hwf' : (s.withCtrl x).cfgWF = true) :
    (phaseA s).Alike (SameButCtrl x) (phaseA (s.withCtrl x)) :=
  (openRun_withCtrl hwf hwf').bind_withCtrl fun _ t => stagedPixels_withCtrl _ (storeSeed t)

end

end Sys2Proof.Machine
end

section
/-! The Sequential strategy beside phase A of the Staged strategy, pixel by pixel (R176): PREV and ABOVE are the
closed form of phase B on the residuals that phase A has stored. -/

namespace Sys2Proof.Machine

/-! ### Two operations that answer alike unless the strict check fails -/

/-- Two operations answer alike, unless one of them raises `DivisionError`. -/
inductive Run.AlikeUnlessDivision {α : Type} (R : State → State → Prop) : Run α → Run α → Prop
  | alike {x y : Run α} (h : x.Alike R y) : AlikeUnlessDivision R x y
  | left (t : State) (y : Run α) : AlikeUnlessDivision R (.raised .divisionError t) y
  | right (x : Run α) (t : State) : AlikeUnlessDivision R x (.raised .divisionError t)

section
variable {α β : Type} {R Q : State → State → Prop} {x y z : Run α}

theorem Run.AlikeUnlessDivision.bind {f g : α → State → Run β} (h : x.AlikeUnlessDivision R y)
    (hf : ∀ a t t', R t t' → (f a t).AlikeUnlessDivision Q (g a t')) :
    (x.bind f).AlikeUnlessDivision Q (y.bind g) := by
  cases h with
  | alike h =>
    cases h with
    | ok a t t' hr => exact hf a t t' hr
    | raised c t t' => exact .alike (.raised c t t')
    | fault e => exact .alike (.fault e)
    | refused e => exact .alike (.refused e)
  | left t y => exact .left t _
  | right x t => exact .right _ t

/-- The second operation may go on alone. -/
theorem Run.AlikeUnlessDivision.bind_right {g : α → State → Run α} (h : x.AlikeUnlessDivision R y)
    (hg : ∀ a t t', R t t' → (Run.ok a t).AlikeUnlessDivision Q (g a t')) :
    x.AlikeUnlessDivision Q (y.bind g) := by
  have hx : x.bind .ok = x := by cases x <;> rfl
  exact hx ▸ h.bind hg

theorem Run.AlikeUnlessDivision.trans_alike (h : x.AlikeUnlessDivision R y) (h' : y.Alike Q z) :
    x.AlikeUnlessDivision (fun s u => ∃ t, R s t ∧ Q t u) z := by
  cases h with
  | alike h => exact .alike (h.trans h')
  | left t y => exact .left t z
  | right x t => cases h' with | raised _ _ u => exact .right x u

theorem Run.AlikeUnlessDivision.of_ne_division (h : x.AlikeUnlessDivision R y)
    (hx : ∀ t, x ≠ .raised .divisionError t) (hy : ∀ t, y ≠ .raised .divisionError t) : x.Alike R y := by
  cases h with
  | alike h => exact h
  | left t y => exact absurd rfl (hx t)
  | right x t => exact absurd rfl (hy t)

/-- An operation answers as it does. -/
theorem Run.alike_self (x : Run α) : x.Alike (fun t t' => t' = t ∧ ∃ a, x = .ok a t) x := by
  cases x with
  | ok a t => exact .ok a t t ⟨rfl, a, rfl⟩
  | raised c t => exact .raised c t t
  | fault e => exact .fault e
  | refused e => exact .refused e

end

/-! ### The references of the Sequential strategy -/

/-- After pixel `p`, PREV and ABOVE of a channel are the closed form at the pixel and at column 0 of its row. -/
structure Reconstructs (hw : Nat) (res : Mem 16) (d : DpcmRegs) (p : Nat) (c : Channel) : Prop where
  prev : d.prev.get c = gridValue hw res (p / hw) (p % hw) c
  above : d.above.get c = gridValue hw res (p / hw) 0 c

section
variable {hw p k : Nat} {res res' : Mem 16} {d : DpcmRegs} {c e : Channel} {s : State}

theorem Reconstructs.congr (h : Reconstructs hw res d p c) (hres : ∀ q ≤ p, bufRead res' q c = bufRead res q c) :
    Reconstructs hw res' d p c := by
  have hp := Nat.div_add_mod' p hw
  refine ⟨h.prev.trans (gridValue_congr fun q hq => ?_).symm, h.above.trans (gridValue_congr fun q hq => ?_).symm⟩
  · exact hres q (by omega)
  · exact hres q (by omega)

/-- `DP.SEED` beside the seed pixel's `DP.STORE`s (R170, R172). -/
theorem reconstructs_seed (hwf : Mem.wf bufDefault res = true) (v : Quad Half) :
    Reconstructs hw (writePixel res 0 v) ⟨v, v⟩ 0 c := by
  have hread : bufRead (writePixel res 0 v) 0 c = v.get c := by rw [bufRead_writePixel hwf, if_pos rfl]
  constructor
  · rw [Nat.zero_div, Nat.zero_mod, gridValue_seed, hread]
  · rw [Nat.zero_div, gridValue_seed, hread]

/-- `DP.SEQ` of a channel leaves the references of the others. -/
theorem Reconstructs.other (h : Reconstructs hw res s.dpcm p e) (hne : e ≠ c) :
    Reconstructs hw res (reconstruct c s).dpcm p e := by
  by_cases hcol : s.p.toNat % halfWidth s.cfg = 0
  · rw [reconstruct_column0 hcol]
    exact ⟨by rw [Quad.get_set_other _ _ hne, h.prev], by rw [Quad.get_set_other _ _ hne, h.above]⟩
  · rw [reconstruct_later_column hcol]
    exact ⟨by rw [Quad.get_set_other _ _ hne, h.prev], h.above⟩

/-- `DP.SEQ` of the next pixel beside its `DP.STORE` (R171, R172): in column 0 a new row of the closed form begins,
elsewhere the row goes on. -/
theorem Reconstructs.next (h : Reconstructs (halfWidth s.cfg) res s.dpcm k c) (hwf : Mem.wf bufDefault res = true)
    (hp : s.p.toNat = k + 1) :
    Reconstructs (halfWidth s.cfg) (bufWrite res (k + 1) c (wrap16 s.sym.resid)) (reconstruct c s).dpcm (k + 1) c := by
  have hold : Reconstructs (halfWidth s.cfg) (bufWrite res (k + 1) c (wrap16 s.sym.resid)) s.dpcm k c :=
    h.congr fun q hq => by rw [bufRead_bufWrite hwf, if_neg (by omega)]
  have hnew : bufRead (bufWrite res (k + 1) c (wrap16 s.sym.resid)) (k + 1) c = wrap16 s.sym.resid := by
    rw [bufRead_bufWrite hwf, if_pos ⟨rfl, rfl⟩]
  have hsplit := Nat.div_add_mod' (k + 1) (halfWidth s.cfg)
  by_cases hcol : (k + 1) % halfWidth s.cfg = 0
  · have hdiv := Nat.succ_div_of_dvd (Nat.dvd_of_mod_eq_zero hcol)
    rw [hcol, add_zero, hdiv] at hsplit
    have hvalue : wrap16 ((s.dpcm.above.get c).toInt + s.sym.resid) =
        gridValue (halfWidth s.cfg) (bufWrite res (k + 1) c (wrap16 s.sym.resid)) (k / halfWidth s.cfg + 1) 0 c := by
      rw [wrap16_toInt_add, hold.above, gridValue_next_row, hsplit, hnew]
    rw [reconstruct_column0 (by rwa [hp])]
    constructor <;> rw [Quad.get_set_same, hdiv]
    · rw [hcol, hvalue]
    · rw [hvalue]
  · have hdiv := Nat.succ_div_of_not_dvd (mt Nat.mod_eq_zero_of_dvd hcol)
    have hmod : (k + 1) % halfWidth s.cfg = k % halfWidth s.cfg + 1 := by
      have hk := Nat.div_add_mod' k (halfWidth s.cfg)
      rw [hdiv] at hsplit
      omega
    rw [hdiv, hmod] at hsplit
    rw [reconstruct_later_column (by rwa [hp])]
    constructor <;> rw [hdiv]
    · rw [Quad.get_set_same, wrap16_toInt_add, hold.prev, hmod, gridValue_next_col, hsplit, hnew]
    · exact hold.above

end

end Sys2Proof.Machine
end

section
/-! Reconstruction identity (R176, R249): both strategies end with the same image, cursor and adaptive state. -/

namespace Sys2Proof.Machine

/-! ### The elements of the first pixels -/

/-- Output memory with the elements of the pixels below `n` written, in increasing order. -/
def writeQuads (hw : Nat) (value : Nat → SubPixel → BitVec 16) : Nat → Mem 16 → Mem 16
  | 0, m => m
  | n + 1, m => writeQuad hw n (value n) (writeQuads hw value n m)

section
variable {hw n q : Nat} {value value' : Nat → SubPixel → BitVec 16} {m : Mem 16}

theorem writeQuads_congr (h : ∀ q < n, value' q = value q) : writeQuads hw value' n m = writeQuads hw value n m := by
  induction n with
  | zero => rfl
  | succ n ih => rw [writeQuads, writeQuads, h n n.lt_succ_self, ih fun q hq => h q (hq.trans n.lt_succ_self)]

theorem find_writeQuads (hpos : 0 < hw) (hq : q < n) (i : SubPixel) :
    Mem.find (writeQuads hw value n m) (quadIndex hw q i) = some (value q i) := by
  induction n with
  | zero => exact absurd hq q.not_lt_zero
  | succ n ih =>
    rw [writeQuads]
    rcases Nat.lt_succ_iff_lt_or_eq.mp hq with hlt | rfl
    · rw [find_writeQuad_other fun k he => hlt.ne (quadIndex_inj hpos he).1, ih hlt]
    · exact find_writeQuad_same hpos i

end

/-- The closed form of phase B as the four channels of a pixel. -/
def gridQuad (hw : Nat) (res : Mem 16) (q : Nat) : Quad Half :=
  ⟨gridValue hw res (q / hw) (q % hw) .y, gridValue hw res (q / hw) (q % hw) .cd,
    gridValue hw res (q / hw) (q % hw) .cm, gridValue hw res (q / hw) (q % hw) .co⟩

@[simp] theorem gridQuad_get (hw : Nat) (res : Mem 16) (q : Nat) (c : Channel) :
    (gridQuad hw res q).get c = gridValue hw res (q / hw) (q % hw) c := by
  cases c <;> rfl

theorem gridQuad_congr {hw q : Nat} {res res' : Mem 16} (h : ∀ k ≤ q, ∀ c, bufRead res' k c = bufRead res k c) :
    gridQuad hw res' q = gridQuad hw res q := by
  have hq := Nat.div_add_mod' q hw
  refine Quad.ext_get fun c => ?_
  rw [gridQuad_get, gridQuad_get]
  exact gridValue_congr fun k hk => h k (by omega) c

/-- After phase B, VALBUF holds the closed form at every pixel of the image. -/
theorem bufQuad_stagedRows {s : State} (hm : s.memWF = true) {q : Nat} (hq : q < npix s.cfg) :
    bufQuad (stagedRows (halfHeight s.cfg) (reconstructCol0 s)).valbuf q = gridQuad (halfWidth s.cfg) s.resbuf q := by
  have hrow : q / halfWidth s.cfg < halfHeight s.cfg := Nat.div_lt_of_lt_mul hq
  refine Quad.ext_get fun c => ?_
  have hread := bufRead_stagedRows hm hrow (Nat.mod_lt q (halfWidth_pos hq)) (.inl hrow) c
  rw [Nat.div_add_mod'] at hread
  rw [bufQuad_get, gridQuad_get, hread]

/-- What a pixel writes depends on the configuration and PIXEL_W of the state only. -/
theorem quadValue_congr {s t : State} (hcfg : t.cfg = s.cfg) (hw : t.pixelW = s.pixelW) (val : Quad Half) :
    quadValue t val = quadValue s val := by
  funext i
  rw [quadValue, quadValue, hcfg, hw]

/-- `CT.QUAD` of a pixel inside output memory fails the strict check or writes its four elements (R192, R195). -/
theorem transformQuad_cases {s : State} {p : Nat} (hp : ∀ i, quadIndex (halfWidth s.cfg) p i < s.cfg.outLen.toNat)
    (val : Quad Half) :
    transformQuad p val s = .raised .divisionError (takeSums val s) ∨
      ∃ col, transformQuad p val s =
        .ok () { s with colour := col, out := writeQuad (halfWidth s.cfg) p (quadValue s val) s.out } := by
  by_cases hv : isStrict s.cfg = true ∧ (colourSums val).gr % 8 ≠ 0
  · exact .inl (transformQuad_of_strict hv.1 hv.2 p)
  · refine .inr (transformQuad_of_lt ?_ hp)
    rw [← Bool.not_eq_true]
    exact (not_and_or.mp hv).imp_right not_not.mp

/-- Output memory with the pixels below `n` written from the values `val`, under the configuration of `s`. -/
def imageOf (s : State) (val : Nat → Quad Half) (n : Nat) (m : Mem 16) : Mem 16 :=
  writeQuads (halfWidth s.cfg) (fun q => quadValue s (val q)) n m

theorem imageOf_congr {s t : State} {val val' : Nat → Quad Half} {n : Nat} {m : Mem 16} (hcfg : t.cfg = s.cfg)
    (hw : t.pixelW = s.pixelW) (h : ∀ q < n, val' q = val q) : imageOf t val' n m = imageOf s val n m := by
  rw [imageOf, imageOf, hcfg]
  exact writeQuads_congr fun q hq => by rw [quadValue_congr hcfg hw, h q hq]

/-! ### The Sequential strategy beside phase A -/

/-- A state of the Sequential strategy and one of phase A, in runs on the configuration of `s₀`, at pixel `m`: they
decode alike; the references of each channel `c` are those after pixel `last c` of the residuals that phase A has
stored; and the Sequential strategy has written the pixels below `n`, phase A none. -/
structure Parallel (s₀ : State) (m : Nat) (last : Channel → Nat) (n : Nat) (s s' : State) : Prop
    extends SameDecoding m s s' where
  base : s.cfg = s₀.cfg
  basePixelW : s.pixelW = s₀.pixelW
  mem : s'.memWF = true
  dpcm : ∀ c, Reconstructs (halfWidth s₀.cfg) s'.resbuf s.dpcm (last c) c
  out : s.out = imageOf s₀ (gridQuad (halfWidth s₀.cfg) s'.resbuf) n s'.out

section
variable {s₀ s s' : State} {k m n : Nat} {last : Channel → Nat}

theorem Parallel.resbuf_wf (h : Parallel s₀ m last n s s') : Mem.wf bufDefault s'.resbuf = true := by
  obtain ⟨_, _, hres, _⟩ := (State.memWF_iff s').mp h.mem
  exact hres

/-- One channel of the next pixel: the same symbol is decoded, and reconstructed by one strategy and stored by the
other. -/
theorem Parallel.channel {c : Channel} (h : Parallel s₀ (k + 1) last (k + 1) s s') (hlast : last c = k) :
    (seqChannel c s).Alike (Parallel s₀ (k + 1) (Function.update last c (k + 1)) (k + 1)) (stagedChannel c s') := by
  have hbits : SameBits { s with ch := c } { s' with ch := c } :=
    .update h.toSamePayload rfl rfl rfl rfl h.cursor h.forward
  have hwf := h.resbuf_wf
  have hp' : s'.p.toNat = k + 1 := by rw [h.p', h.p]
  refine (decodeOne_alike c hbits h.ad).bind ?_
  rintro _ t t' ⟨cur, sym, ad, hfwd, rfl, rfl⟩
  refine .ok _ _ _ ⟨h.toSameDecoding.update (.update h.toSamePayload rfl rfl rfl rfl rfl hfwd) rfl rfl rfl rfl rfl,
    h.base, h.basePixelW, storeResidual_memWF _ _ _ h.mem, fun e => ?dpcm, ?out⟩
  case dpcm =>
    simp only [storeResidual_resbuf, hp']
    by_cases he : e = c
    · subst he
      have hold := hlast ▸ h.dpcm e
      rw [← h.base] at hold ⊢
      rw [Function.update_self]
      exact hold.next (s := { s with ch := e, cursor := cur, sym := sym, ad := ad }) hwf h.p
    · rw [Function.update_of_ne he]
      have hstored :
          Reconstructs (halfWidth s₀.cfg) (bufWrite s'.resbuf (k + 1) c (wrap16 sym.resid)) s.dpcm (last e) e :=
        (h.dpcm e).congr fun q _ => by rw [bufRead_bufWrite hwf, if_neg fun hqc => he hqc.2.symm]
      exact hstored.other (s := { s with ch := c, cursor := cur, sym := sym, ad := ad }) he
  case out =>
    simp only [storeResidual_resbuf, hp']
    refine h.out.trans (imageOf_congr rfl rfl fun q hq => (gridQuad_congr fun i hi d => ?_).symm)
    rw [bufRead_bufWrite hwf, if_neg fun hic => by omega]

/-- `CT.QUAD` of the pixel whose four channels have been reconstructed (R214). -/
theorem Parallel.quad (hc : checkFailure s₀.cfg = none) (hm : m < npix s₀.cfg) (h : Parallel s₀ m (fun _ => m) m s s') :
    (∃ t, transformQuad m s.dpcm.prev s = .raised .divisionError t) ∨
      ∃ t, transformQuad m s.dpcm.prev s = .ok () t ∧ Parallel s₀ m (fun _ => m) (m + 1) t s' := by
  have hprev : s.dpcm.prev = gridQuad (halfWidth s₀.cfg) s'.resbuf m :=
    Quad.ext_get fun c => by rw [(h.dpcm c).prev, gridQuad_get]
  have hin := quadIndex_lt_outLen hc hm
  rw [← h.base] at hin
  refine (transformQuad_cases hin s.dpcm.prev).imp (fun hq => ⟨_, hq⟩) fun ⟨col, hq⟩ => ⟨_, hq, ?_⟩
  refine ⟨h.toSameDecoding.update (.update h.toSamePayload rfl rfl rfl rfl h.cursor h.forward) rfl rfl h.ad rfl rfl,
    h.base, h.basePixelW, h.mem, h.dpcm, ?_⟩
  rw [quadValue_congr h.base h.basePixelW, h.base, hprev, h.out]
  rfl

/-- One pixel of the Sequential strategy beside one of phase A. -/
theorem Parallel.pixel (hc : checkFailure s₀.cfg = none) (hk : k + 1 < npix s₀.cfg)
    (h : Parallel s₀ (k + 1) (fun _ => k) (k + 1) s s') :
    (seqPixel s).AlikeUnlessDivision (Parallel s₀ (k + 1) (fun _ => k + 1) (k + 1 + 1)) (stagedPixel s') := by
  refine (Run.AlikeUnlessDivision.alike (h.channel (c := .y) rfl)).bind fun _ _ _ h1 =>
    (Run.AlikeUnlessDivision.alike (h1.channel (c := .cd) rfl)).bind fun _ _ _ h2 =>
      (Run.AlikeUnlessDivision.alike (h2.channel (c := .cm) rfl)).bind fun _ _ _ h3 =>
        (Run.AlikeUnlessDivision.alike (h3.channel (c := .co) rfl)).bind fun _ u u' h4 => ?_
  have hn : Parallel s₀ (k + 1) (fun _ => k + 1) (k + 1) (updateN u) (updateN u') :=
    ⟨h4.toSameDecoding.update (.update h4.toSamePayload rfl rfl rfl rfl h4.cursor h4.forward) rfl rfl
      (by simp [h4.cfg, h4.ad]) rfl rfl, h4.base, h4.basePixelW, h4.mem, fun c => ?_, h4.out⟩
  · show (transformQuad u.p.toNat (updateN u).dpcm.prev (updateN u)).AlikeUnlessDivision _ _
    rw [h4.p]
    rcases hn.quad hc hk with ⟨t, hq⟩ | ⟨t, hq, ht⟩
    · rw [hq]
      exact .left t _
    · rw [hq]
      exact .alike (.ok () t _ ht)
  · have hdpcm := h4.dpcm c
    cases c <;> exact hdpcm

theorem Parallel.next (h : Parallel s₀ m last n s s') (hm : m + 1 < 2 ^ 32) :
    Parallel s₀ (m + 1) last n { s with p := s.p + 1 } { s' with p := s'.p + 1 } :=
  ⟨h.toSameDecoding.next hm, h.base, h.basePixelW, h.mem, h.dpcm, h.out⟩

theorem Parallel.pixels (hc : checkFailure s₀.cfg = none) (n : Nat) (hn : m + n < npix s₀.cfg)
    (h : Parallel s₀ m (fun _ => m) (m + 1) s s') :
    (seqPixels n s).AlikeUnlessDivision (Parallel s₀ (m + n) (fun _ => m + n) (m + n + 1)) (stagedPixels n s') := by
  have hlt := npix_lt s₀.cfg
  induction n generalizing m s s' with
  | zero => exact .alike (.ok _ _ _ h)
  | succ n ih =>
    refine ((h.next (by omega)).pixel hc (by omega)).bind fun _ _ _ ht => ?_
    have hrest := ih (by omega) ht
    rwa [show m + 1 + n = m + (n + 1) by omega] at hrest

/-- The seed pixel (R170, R172). -/
theorem parallel_seed (hm : s₀.memWF = true) (hs : openRun s₀ = .ok () s) :
    Parallel s₀ 0 (fun _ => 0) 0 (installSeed s) (storeSeed s) := by
  have hrun : SameRun s₀ s := by
    have hstay := openRun_staysIn (openRun_ok hs).1
    rwa [hs] at hstay
  obtain ⟨_, cur, v, sv, a, rfl⟩ := openRun_ok hs
  obtain ⟨_, _, hres, _⟩ := (State.memWF_iff s₀).mp hm
  exact ⟨⟨⟨⟨rfl, fun _ _ _ => rfl⟩, rfl, hrun.forward⟩, rfl, rfl, rfl, rfl⟩, rfl, rfl,
    memWF_of hm rfl id (fun h => writePixel_wf h 0 (sv.map wrap16)) id,
    fun c => reconstructs_seed hres (sv.map wrap16), rfl⟩

theorem runSequential_phaseA (hwf : s₀.cfgWF = true) (hc : checkFailure s₀.cfg = none) (hm : s₀.memWF = true) :
    (runSequential s₀).AlikeUnlessDivision
      (Parallel s₀ (npix s₀.cfg - 1) (fun _ => npix s₀.cfg - 1) (npix s₀.cfg)) (phaseA s₀) := by
  have hpos := npix_pos hwf
  refine (Run.AlikeUnlessDivision.alike (Run.alike_self (openRun s₀))).bind ?_
  rintro _ _ t ⟨rfl, _, ht⟩
  have hseed := parallel_seed hm ht
  rcases hseed.quad hc hpos with ⟨u, hq⟩ | ⟨u, hq, hu⟩
  · rw [hq]
    exact .left u _
  · rw [hq, Run.bind_ok, hu.base, show t.cfg = s₀.cfg from hseed.base]
    have hall := hu.pixels hc (npix s₀.cfg - 1) (by omega)
    rwa [show 0 + (npix s₀.cfg - 1) + 1 = npix s₀.cfg by omega, Nat.zero_add] at hall

end

/-! ### Phases B and C -/

/-- Phase C from pixel `p` on, where the earlier pixels have been written: it fails the strict check or writes the
others. -/
theorem stagedQuads_cases {s : State} {p n : Nat} (m : Mem 16) (col : ColourRegs)
    (hin : ∀ q < p + n, ∀ i, quadIndex (halfWidth s.cfg) q i < s.cfg.outLen.toNat) :
    (∃ t, stagedQuads p n { s with colour := col, out := imageOf s (bufQuad s.valbuf) p m } =
        .raised .divisionError t) ∨
      ∃ col', stagedQuads p n { s with colour := col, out := imageOf s (bufQuad s.valbuf) p m } =
        .ok () { s with colour := col', out := imageOf s (bufQuad s.valbuf) (p + n) m } := by
  induction n generalizing p col with
  | zero => exact .inr ⟨col, rfl⟩
  | succ n ih =>
    rw [stagedQuads]
    rcases transformQuad_cases (s := { s with colour := col, out := imageOf s (bufQuad s.valbuf) p m })
      (hin p (by omega)) (bufQuad s.valbuf p) with hq | ⟨col', hq⟩
    · exact .inl ⟨_, by rw [hq]; rfl⟩
    · rw [hq, Run.bind_ok, show p + (n + 1) = p + 1 + n by omega]
      exact ih (p := p + 1) col' fun q hq => hin q (by omega)

/-- Phases B and C after phase A: VALBUF takes the closed form, and unless the strict check fails the image is written
from it. -/
theorem phasesBC_cases {s : State} (hm : s.memWF = true)
    (hin : ∀ q < npix s.cfg, ∀ i, quadIndex (halfWidth s.cfg) q i < s.cfg.outLen.toNat) :
    (∃ t, stagedQuads 0 (npix s.cfg) (stagedRows (halfHeight s.cfg) (reconstructCol0 s)) =
        .raised .divisionError t) ∨
      ∃ col val, stagedQuads 0 (npix s.cfg) (stagedRows (halfHeight s.cfg) (reconstructCol0 s)) =
          .ok () { s with
            valbuf := val
            colour := col
            out := imageOf s (gridQuad (halfWidth s.cfg) s.resbuf) (npix s.cfg) s.out } ∧
        ∀ q < npix s.cfg, bufQuad val q = gridQuad (halfWidth s.cfg) s.resbuf q := by
  have hval (q : Nat) (hq : q < npix s.cfg) := bufQuad_stagedRows hm hq
  obtain ⟨val, hrows⟩ := stagedRows_frame (halfHeight s.cfg) (reconstructCol0 s)
  rw [hrows] at hval ⊢
  rw [← Nat.zero_add (npix s.cfg)] at hin
  refine (stagedQuads_cases (s := { s with valbuf := val }) s.out s.colour hin).imp_right fun ⟨col, hq⟩ =>
    ⟨col, val, ?_, hval⟩
  rw [← imageOf_congr (s := s) (t := s) rfl rfl hval]
  rw [Nat.zero_add] at hq
  exact hq

/-- What the two strategies leave alike (R176): the whole output memory, cursor and adaptive state; the last PREV is
the last entry of VALBUF, and each element comes from the entry of VALBUF of its pixel. -/
structure SameImage (s t u : State) : Prop where
  out : t.out = u.out
  cursor : t.cursor = u.cursor
  ad : t.ad = u.ad
  prev : t.dpcm.prev = bufQuad u.valbuf (npix s.cfg - 1)
  elements : ∀ p < npix s.cfg, ∀ i,
    Mem.find u.out (quadIndex (halfWidth s.cfg) p i) = some (quadValue s (bufQuad u.valbuf p) i)

section
variable {s₀ t u : State} {x : BitVec 2}

/-- The end of the Sequential strategy beside phases B and C after phase A. -/
theorem Parallel.phasesBC (hc : checkFailure s₀.cfg = none) (hpos : 0 < npix s₀.cfg)
    (h : Parallel s₀ (npix s₀.cfg - 1) (fun _ => npix s₀.cfg - 1) (npix s₀.cfg) t u) :
    (Run.ok () t).AlikeUnlessDivision (SameImage s₀)
      (stagedQuads 0 (npix (u.withCtrl x).cfg)
        (stagedRows (halfHeight (u.withCtrl x).cfg) (reconstructCol0 (u.withCtrl x)))) := by
  have hcfg : u.cfg = s₀.cfg := h.cfg.trans h.base
  have hw : halfWidth (u.withCtrl x).cfg = halfWidth s₀.cfg := by rw [← hcfg]; rfl
  have hn : npix (u.withCtrl x).cfg = npix s₀.cfg := by rw [← hcfg]; rfl
  have hin (q : Nat) (hq : q < npix (u.withCtrl x).cfg) (i : SubPixel) :
      quadIndex (halfWidth (u.withCtrl x).cfg) q i < (u.withCtrl x).cfg.outLen.toNat := by
    have hlt := quadIndex_lt_outLen hc (hn ▸ hq) i
    rwa [← hcfg] at hlt
  rcases phasesBC_cases (s := u.withCtrl x) h.mem hin with ⟨f, hq⟩ | ⟨col, val, hq, hval⟩
  · rw [hq]
    exact .right _ f
  · rw [hw, hn] at hval
    have himage (val : Nat → Quad Half) (n : Nat) : imageOf (u.withCtrl x) val n u.out = imageOf s₀ val n u.out :=
      imageOf_congr (t := u) hcfg (h.pixelW.trans h.basePixelW) fun _ _ => rfl
    rw [hq]
    refine .alike (.ok _ _ _ ⟨?out, h.cursor.symm, h.ad.symm, ?prev, fun q hq i => ?elements⟩)
    case out =>
      rw [hw, hn]
      exact h.out.trans (himage _ _).symm
    case prev => exact Quad.ext_get fun c => by rw [(h.dpcm c).prev, ← gridQuad_get, hval _ (by omega)]; rfl
    case elements =>
      rw [hw, hn]
      show Mem.find (imageOf (u.withCtrl x) _ _ u.out) _ = _
      rw [himage, imageOf, find_writeQuads (halfWidth_pos hpos) hq, hval q hq]

/-- The two strategies from the same state but for CFG.CTRL, as single operations (R176, R249). -/
theorem strategies_alike (hwf : s₀.cfgWF = true) (hwf' : (s₀.withCtrl x).cfgWF = true)
    (hc : checkFailure s₀.cfg = none) (hm : s₀.memWF = true) :
    (runSequential s₀).AlikeUnlessDivision (SameImage s₀) (runStaged (s₀.withCtrl x)) := by
  rw [runStaged_eq]
  refine ((runSequential_phaseA hwf hc hm).trans_alike (phaseA_withCtrl hwf hwf')).bind_right ?_
  rintro _ t _ ⟨u, hu, rfl⟩
  exact hu.phasesBC hc (npix_pos hwf)

end

/-! ### The two whole runs -/

section
variable {s t : State}

theorem unlessIdle_eq_next {α : Type} {x : Run α} {f : State → Host.Outcome State Fault Refusal}
    (hx : ∀ a u, x = .ok a u → u.seq ≠ .idle) (h : unlessIdle x.outcome f = .next t) :
    (∃ a u, x = .ok a u ∧ f u = .next t) ∨ ∃ c u, x = .raised c u ∧ t = u.fail c := by
  cases x with
  | ok a u =>
    rw [Run.outcome_ok, unlessIdle, if_neg (hx a u rfl)] at h
    exact .inl ⟨a, u, rfl, h⟩
  | raised c u =>
    rw [Run.outcome_raised, unlessIdle, if_pos (fail_seq u c)] at h
    cases h
    exact .inr ⟨c, u, rfl, rfl⟩
  | fault e => cases h
  | refused e => cases h

/-- A whole run fails a test of `SEQ.CHECK`, or performs its strategy and ends as that does (R211). -/
theorem wholeRun_next (h : wholeRun s = .next t) :
    (∃ c, checkFailure s.cfg = some c ∧ t.status.code = raisedStatus c) ∨
      (checkFailure s.cfg = none ∧ s.cfgWF = true ∧
        ((∃ u, runStrategy s.begin = .ok () u ∧ t = u.succeed) ∨
          ∃ c u, runStrategy s.begin = .raised c u ∧ t = u.fail c)) := by
  have hcheck (a : Unit) (u : State) (hu : checkConfig s.begin = .ok a u) : u.seq ≠ .idle := by
    obtain ⟨_, _, rfl⟩ := checkConfig_eq_ok.mp hu
    nofun
  rcases unlessIdle_eq_next hcheck h with ⟨_, v, hv, h⟩ | ⟨c, v, hv, rfl⟩
  · obtain ⟨hc, hwf, rfl⟩ := checkConfig_eq_ok.mp hv
    rw [exec_strategy] at h
    have hstrategy (a : Unit) (u : State) (hu : runStrategy s.begin = .ok a u) : u.seq ≠ .idle := by
      rw [(runStrategy_ok hu).2]
      nofun
    refine .inr ⟨hc, hwf, (unlessIdle_eq_next hstrategy h).imp_left ?_⟩
    rintro ⟨_, u, hu, hdone⟩
    cases hdone
    exact ⟨u, hu, rfl⟩
  · exact .inl ⟨c, (checkConfig_eq_raised.mp hv).1, rfl⟩

theorem raisedStatus_ne_success (c : RaiseCode) : raisedStatus c ≠ .success := by cases c <;> nofun

/-- A run that ends with Success has passed `SEQ.CHECK` and completed its strategy (R216, R247). -/
theorem wholeRun_success (h : wholeRun s = .next t) (hs : t.status.code = .success) :
    checkFailure s.cfg = none ∧ s.cfgWF = true ∧ ∃ u, runStrategy s.begin = .ok () u ∧ t = u.succeed := by
  rcases wholeRun_next h with ⟨c, _, hc⟩ | ⟨hc, hwf, hrun | ⟨c, u, _, rfl⟩⟩
  · exact absurd (hc.symm.trans hs) (raisedStatus_ne_success c)
  · exact ⟨hc, hwf, hrun⟩
  · exact absurd hs (raisedStatus_ne_success c)

/-! ### CFG.STRATEGY -/

theorem isStaged_withStrategy (s : State) (b : Bool) : isStaged (s.withStrategy b).cfg = b := by
  show (BitVec.ofBool (isStrict s.cfg) ++ BitVec.ofBool b).getLsbD 0 = b
  cases isStrict s.cfg <;> cases b <;> rfl

theorem isStrict_withStrategy (s : State) (b : Bool) : isStrict (s.withStrategy b).cfg = isStrict s.cfg := by
  show (BitVec.ofBool (isStrict s.cfg) ++ BitVec.ofBool b).getLsbD 1 = isStrict s.cfg
  cases isStrict s.cfg <;> cases b <;> rfl

/-- What passes `SEQ.CHECK` and is in `CfgWF` under Staged is so under Sequential (R9, R213). -/
theorem sequential_of_staged (hc : checkFailure (s.withStrategy true).cfg = none)
    (hwf : (s.withStrategy true).cfgWF = true) :
    checkFailure (s.withStrategy false).cfg = none ∧ (s.withStrategy false).cfgWF = true := by
  obtain ⟨hg, hsize, _⟩ := checkFailure_eq_none.mp hc
  refine ⟨checkFailure_eq_none.mpr ⟨hg, hsize, fun hd => ?_⟩, ?_⟩
  · have hstaged := isStaged_withStrategy s false
    rw [isStaged, hd.1] at hstaged
    cases hstaged
  · have hregs := registersWF_of_cfgWF hwf
    rw [State.cfgWF, isStaged_withStrategy, Bool.not_false, Bool.true_or, Bool.and_true]
    exact hregs

theorem runStrategy_withStrategy (s : State) :
    runStrategy (s.withStrategy false).begin = runSequential (s.withStrategy false).begin ∧
      runStrategy (s.withStrategy true).begin = runStaged (s.withStrategy true).begin := by
  refine ⟨if_neg ?_, if_pos (isStaged_withStrategy s true)⟩
  rw [show isStaged (s.withStrategy false).begin.cfg = false from isStaged_withStrategy s false]
  nofun

/-- The strategies that the two whole runs perform, where the Staged one passes `SEQ.CHECK`. -/
theorem runStrategy_withStrategy_alike (hm : s.memWF = true) (hc : checkFailure (s.withStrategy true).cfg = none)
    (hwf : (s.withStrategy true).cfgWF = true) :
    (runStrategy (s.withStrategy false).begin).AlikeUnlessDivision (SameImage (s.withStrategy false).begin)
      (runStrategy (s.withStrategy true).begin) := by
  obtain ⟨hc', hwf'⟩ := sequential_of_staged hc hwf
  obtain ⟨hseq, hstaged⟩ := runStrategy_withStrategy s
  rw [hseq, hstaged]
  exact strategies_alike (s₀ := (s.withStrategy false).begin)
    (x := BitVec.ofBool (isStrict s.cfg) ++ BitVec.ofBool true) hwf' hwf hc' hm

/-- Without the strict check no strategy raises `DivisionError` (R192, R245). -/
theorem runStrategy_ne_division (hstrict : isStrict s.cfg = false) :
    runStrategy s ≠ .raised .divisionError t := by
  intro h
  unfold runStrategy at h
  have hcode : RaiseCode.divisionError = .allBitsConsumed ∨
      RaiseCode.divisionError = .divisionError ∧ isStrict s.cfg = true := by
    split at h
    · exact (runStaged_raised h).1
    · exact (runSequential_raised h).1
  simp [hstrict] at hcode

/-- The two whole runs end with the same code where the Staged one passes `SEQ.CHECK` and there is no strict check. -/
theorem wholeRun_code_eq {u : State} (hm : s.memWF = true) (hstrict : isStrict s.cfg = false)
    (hc : checkFailure (s.withStrategy true).cfg = none) (ht : wholeRun (s.withStrategy false) = .next t)
    (hu : wholeRun (s.withStrategy true) = .next u) : t.status.code = u.status.code := by
  rcases wholeRun_next hu with ⟨c, hfail, _⟩ | ⟨_, hwf, hstaged⟩
  · rw [hc] at hfail
    cases hfail
  rcases wholeRun_next ht with ⟨c, hfail, _⟩ | ⟨_, _, hseq⟩
  · rw [(sequential_of_staged hc hwf).1] at hfail
    cases hfail
  have hdiv (b : Bool) (v : State) := runStrategy_ne_division (s := (s.withStrategy b).begin) (t := v)
    ((isStrict_withStrategy s b).trans hstrict)
  have hagree := (runStrategy_withStrategy_alike hm hc hwf).of_ne_division (hdiv false) (hdiv true)
  rcases hseq with ⟨v, hv, rfl⟩ | ⟨c, v, hv, rfl⟩ <;> rcases hstaged with ⟨w, hw, rfl⟩ | ⟨d, w, hw, rfl⟩
  all_goals
    rw [hv, hw] at hagree
    cases hagree <;> rfl

end

/-- Settles O52, by the two strategies side by side: phase A decodes what the Sequential strategy decodes, whose
references are the closed form of phase B on the residuals stored so far, and phase C writes the pixels in the same
order. -/
theorem strategiesAgree : Obligations.StrategiesAgree := by
  intro s t u hm ht hu
  refine ⟨fun hts hus => ?same, fun hstrict hc => wholeRun_code_eq hm hstrict hc ht hu⟩
  case same =>
    obtain ⟨_, _, v, hv, rfl⟩ := wholeRun_success ht hts
    obtain ⟨hc, hwf, w, hw, rfl⟩ := wholeRun_success hu hus
    have hagree := runStrategy_withStrategy_alike hm hc hwf
    rw [hv, hw] at hagree
    cases hagree with
    | alike h =>
      cases h with
      | ok _ _ _ himage => exact ⟨himage.out, himage.cursor, himage.ad, himage.prev, himage.elements⟩

end Sys2Proof.Machine
end

section
/-! The arithmetic of the inverse colour transform: the four sums as S_GR less eight times the channels, the quotients, the
narrowing and the strict check (R190 to R194, R196, R197). -/

namespace Sys2Proof.Machine

/-! ### The four sums (R196) -/

section
variable (v : Quad Half)

theorem colourSums_gr :
    (colourSums v).gr = 2 * (v.y.toInt + v.cd.toInt + 2 * v.cm.toInt + v.co.toInt) := by
  simp only [colourSums]
  ring

theorem colourSums_r : (colourSums v).r = (colourSums v).gr - 8 * v.cm.toInt := by
  simp only [colourSums]
  ring

theorem colourSums_b : (colourSums v).b = (colourSums v).r - 8 * v.co.toInt := by
  simp only [colourSums]
  ring

theorem colourSums_gb : (colourSums v).gb = (colourSums v).gr - 8 * v.cd.toInt := by
  simp only [colourSums]
  ring

/-- S_GR stands for the four sums modulo 8, so that testing it alone is enough (R192, R196). -/
theorem colourSums_get_emod_eight (i : SubPixel) : (colourSums v).get i % 8 = (colourSums v).gr % 8 := by
  have hr := colourSums_r v
  have hb := colourSums_b v
  have hgb := colourSums_gb v
  cases i <;> simp only [Bayer.get] <;> omega

end

/-! ### Division, narrowing and the strict check -/

/-- The floor of the eighth drops a remainder below 8 (R191). -/
theorem div8_bounds (x : Int) : 8 * div8 x ≤ x ∧ x < 8 * div8 x + 8 := by
  unfold div8
  omega

/-- A multiple of 8 comes out of the division whole, whatever the remainder (R196). -/
theorem div8_sub_mul (x m : Int) : div8 (x - 8 * m) = div8 x - m :=
  Int.sub_mul_ediv_left x m (by decide)

/-- The low PIXEL_W bits, at most the 16 of an element (R15, R194). -/
theorem toNat_narrow (w : PixelWidth) (u : Int) : ((narrow w u).toNat : Int) = u % 2 ^ w.bits := by
  cases w <;> simp only [narrow, PixelWidth.bits, BitVec.toNat_ofNat] <;> omega

section
variable {s : State}

theorem strictCheck_of_fails (hs : isStrict s.cfg = true) (hgr : s.colour.sums.gr % 8 ≠ 0) :
    strictCheck s = .raised .divisionError s := by
  rw [strictCheck, if_pos ⟨hs, hgr⟩]

theorem strictCheck_of_passes (h : isStrict s.cfg = false ∨ s.colour.sums.gr % 8 = 0) : strictCheck s = .ok () s := by
  rw [strictCheck, if_neg]
  rcases h with hs | hgr
  · simp [hs]
  · simp [hgr]

end

theorem exec_ctStrict (s : State) : exec .ctStrict s = (strictCheck s).outcome := rfl

/-! ### The statements -/

/-- Settles O37: each operation replaces one colour register, by the sums, the floor, the product or the low bits. -/
theorem colourArithmetic : Obligations.ColourArithmetic := fun s =>
  ⟨fun v => ⟨colourSums v, rfl, rfl, rfl, rfl, rfl⟩,
    fun i => ⟨_, rfl, div8_bounds (s.colour.sums.get i)⟩,
    fun _ => rfl,
    fun i => ⟨_, rfl, toNat_narrow s.pixelW (s.colour.shifted.get i)⟩⟩

/-- Settles O38, by the two tests of the strict check. -/
theorem ctStrict : Obligations.CtStrict := by
  intro s
  constructor
  · rintro ⟨hs, hgr⟩
    exact outcome_stoppedBy (strictCheck_of_fails hs hgr)
  · intro h
    rw [exec_ctStrict, strictCheck_of_passes h, Run.outcome_ok]

/-- Settles O40: the sums differ from S_GR by eight times the channels, and S_GR is twice the number whose divisibility
by 4 is asked. -/
theorem sumsAreCongruent : Obligations.SumsAreCongruent := by
  intro v
  refine ⟨fun i j => ?congruent, fun i => ?divisible, ?cm, ?co, ?cd⟩
  case congruent => rw [colourSums_get_emod_eight v i, colourSums_get_emod_eight v j]
  case divisible =>
    rw [colourSums_get_emod_eight, colourSums_gr]
    omega
  case cm => rw [colourSums_r, div8_sub_mul, sub_sub_cancel]
  case co => rw [colourSums_b, div8_sub_mul, sub_sub_cancel]
  case cd => rw [colourSums_gb, div8_sub_mul, sub_sub_cancel]

/-- Settles O41: the three differences of the sums fix Cm, Co and Cd, and S_GR then fixes Y. -/
theorem forwardTransform : Obligations.ForwardTransform := by
  intro v o
  have hsum := colourSums_gr v
  have hcm := colourSums_r v
  have hco := colourSums_b v
  have hcd := colourSums_gb v
  constructor
  · intro h
    have hgr : (colourSums v).gr = 8 * o.gr := h .gr
    have hr : (colourSums v).r = 8 * o.r := h .r
    have hb : (colourSums v).b = 8 * o.b := h .b
    have hgb : (colourSums v).gb = 8 * o.gb := h .gb
    omega
  · rintro ⟨hy, hd, hm, ho⟩ i
    cases i <;> simp only [Bayer.get] <;> omega

end Sys2Proof.Machine
end

section
/-! A step and the sequencer: the operation at a place, and the end of a run (R214 to R218, R250). -/

namespace Sys2Proof.Machine

/-- Settles O6: the sequencer's selection does not read the host's list, by which alone the decoder's turn differs. -/
theorem stepRunsSelectedOperation : Obligations.StepRunsSelectedOperation := by
  intro s u i hu hi
  obtain ⟨l, rfl⟩ := decoderTurn_frame hu
  have hsel : selectedOp { s with host := l } = some i := hi
  rw [step_of_turn hu, decoderMove, hsel]

/-- Settles O48: both operations write STATUS and the sequencer's place, and a raise output memory as well. -/
theorem seqDoneAndFail : Obligations.SeqDoneAndFail := fun s =>
  ⟨rfl, fun c => ⟨s.fail c, rfl, stoppedBy_fail s c⟩⟩

end Sys2Proof.Machine
end

section
/-! Every run ends (R219): an operation leaves what decides where the run goes on, and the sequencer's advance comes
closer to the end. -/

namespace Sys2Proof.Machine

/-! ### What the operation at a place leaves -/

/-- What decides where the sequencer goes on, and the host's requests. -/
def State.place (s : State) : Cfg × BitVec 32 × Channel × SeqPoint × List HostRequest :=
  (s.cfg, s.p, s.ch, s.seq, s.host)

section
variable {s t u : State}

theorem State.place_eq : t.place = s.place ↔
    t.cfg = s.cfg ∧ t.p = s.p ∧ t.ch = s.ch ∧ t.seq = s.seq ∧ t.host = s.host := by
  simp only [State.place, Prod.mk.injEq]

theorem Run.Leaves.of_ends {α β : Type} {f : State → β} {x : Run α} (hok : ∀ a t, x = .ok a t → f t = f s)
    (hraised : ∀ c t, x = .raised c t → f t = f s) : x.Leaves f s := by
  cases x with
  | ok a t => exact hok a t rfl
  | raised c t => exact hraised c t rfl
  | fault e => trivial
  | refused e => trivial

theorem checkConfig_leaves_place (s : State) : (checkConfig s).Leaves State.place s := by
  refine .of_ends (fun _ t h => ?_) fun c t h => ?_
  · obtain ⟨_, _, rfl⟩ := checkConfig_eq_ok.mp h
    rfl
  · obtain ⟨_, _, rfl⟩ := checkConfig_eq_raised.mp h
    rfl

theorem loadCursor_leaves_place (s : State) : (loadCursor s).Leaves State.place s := by
  refine .of_ends (fun _ t h => ?_) fun c t h => ?_
  · obtain ⟨_, _, _, rfl⟩ := loadCursor_ok h
    rfl
  · obtain ⟨_, rfl, _⟩ := loadCursor_raised h
    rfl

theorem seedChannel_leaves_place (d : Channel) (s : State) : (seedChannel d s).Leaves State.place s := by
  refine .of_ends (fun _ t h => ?_) fun c t h => ?_
  · obtain ⟨_, _, rfl⟩ := seedChannel_ok h
    rfl
  · obtain ⟨_, _, rfl⟩ := seedChannel_raised h
    rfl

theorem decodeOne_leaves_place (d : Channel) (s : State) : (decodeOne d s).Leaves State.place s := by
  refine .of_ends (fun _ t h => ?_) fun c t h => ?_
  · obtain ⟨_, _, rfl⟩ := decodeOne_ok h
    rfl
  · obtain ⟨_, _, _, rfl⟩ := decodeOne_raised h
    rfl

theorem transformQuad_leaves_place (p : Nat) (val : Quad Half) (s : State) :
    (transformQuad p val s).Leaves State.place s := by
  refine .of_ends (fun _ t h => ?_) fun c t h => ?_
  · obtain ⟨_, _, rfl⟩ := transformQuad_ok h
    rfl
  · obtain ⟨_, _, _, rfl⟩ := transformQuad_raised h
    rfl

/-- Every selected operation but `SEQ.DONE` leaves the place, where it completes and where it raises. -/
theorem selectedOp_leaves_place {i : Instr} (h : selectedOp s = some i) (hf : s.seq ≠ .finish) :
    ∃ x : Run Unit, exec i s = x.outcome ∧ x.Leaves State.place s := by
  unfold selectedOp at h
  cases hs : s.seq <;> simp only [hs, Option.some.injEq, reduceCtorEq] at h <;> subst h
  case check => exact ⟨_, rfl, checkConfig_leaves_place s⟩
  case load => exact ⟨_, rfl, loadCursor_leaves_place s⟩
  case init => exact ⟨.ok () (initAdaptive s), rfl, rfl⟩
  case dpSeed => exact ⟨.ok () (installSeed s), rfl, rfl⟩
  case dpSeq => exact ⟨.ok () (reconstruct s.ch s), rfl, rfl⟩
  case store => exact ⟨.ok () (storeResidual s.p.toNat s.ch (storeOperand s) s), rfl, rfl⟩
  case updN => exact ⟨.ok () (updateN s), rfl, rfl⟩
  case quad => exact ⟨_, rfl, transformQuad_leaves_place s.p.toNat s.dpcm.prev s⟩
  case col0 => exact ⟨.ok () (reconstructCol0 s), rfl, rfl⟩
  case row r => exact ⟨.ok () (reconstructRow r s), rfl, rfl⟩
  case stagedQuad p => exact ⟨_, rfl, transformQuad_leaves_place _ (bufQuad s.valbuf p) s⟩
  case finish => exact absurd hs hf

/-- A codeword's effect leaves the place. -/
theorem exec_isCodeword_place {i : Instr} (hi : i.isCodeword = true) (h : exec i s = .next t) :
    t.place = s.place := by
  cases i with
  | seed8 | seed10 | seed12 | rice | esc => cases h; rfl
  | _ => cases hi

/-- A move of the decoder leaves the place, or it ends the run. -/
def KeepsPlace (s u : State) : Prop := u.place = s.place ∨ u.seq = .idle ∧ u.host = s.host

theorem Run.Leaves.keepsPlace {x : Run Unit} (hx : x.Leaves State.place s) (h : x.outcome = .next u) :
    KeepsPlace s u := by
  rcases Run.outcome_eq_next.mp h with ⟨a, rfl⟩ | ⟨c, v, rfl, rfl⟩
  · exact .inl hx
  · obtain ⟨_, _, _, _, hhost⟩ := State.place_eq.mp hx
    exact .inr ⟨rfl, hhost⟩

theorem codewordMove_keepsPlace (h : codewordMove s = .next u) : KeepsPlace s u := by
  rcases codewordMove_next h with ⟨i, n, bs, c, hi, _, he⟩ | ⟨c, rfl⟩ | ⟨_, _, ho⟩ | ⟨_, _, ho⟩
  · exact .inl (exec_isCodeword_place (s := { s with cursor := c }) (codewordAhead_isCodeword hi) he)
  · exact .inr ⟨rfl, rfl⟩
  · exact (seedChannel_leaves_place s.ch s).keepsPlace ho
  · exact (decodeOne_leaves_place s.ch s).keepsPlace ho

/-- A move of a run is an operation that leaves the place or ends the run, and the advance after it. -/
theorem decoderMove_advances (hs : s.seq ≠ .idle) (h : decoderMove s = .next t) :
    ∃ u, KeepsPlace s u ∧ t = advance u := by
  rcases decoderMove_next h with ⟨i, u, hi, he, rfl⟩ | ⟨_, u, hu, rfl⟩ | ⟨hsel, _, rfl⟩ | ⟨hidle, _⟩
  · by_cases hf : s.seq = .finish
    · simp only [selectedOp, hf, Option.some.injEq] at hi
      subst hi
      cases he
      exact ⟨s.succeed, .inr ⟨rfl, rfl⟩, rfl⟩
    · obtain ⟨x, hx, hleaves⟩ := selectedOp_leaves_place hi hf
      exact ⟨u, hleaves.keepsPlace (hx ▸ he), rfl⟩
  · exact ⟨u, codewordMove_keepsPlace hu, rfl⟩
  · exact ⟨s, .inl rfl, by simp [advance, hsel]⟩
  · exact absurd hidle hs

@[simp] theorem advance_host (s : State) : (advance s).host = s.host := by
  obtain ⟨_, _, _, heq⟩ := advance_frame s
  rw [heq]

/-- A move of the decoder leaves the host's requests. -/
theorem decoderMove_host (h : decoderMove s = .next t) : t.host = s.host := by
  by_cases hs : s.seq = .idle
  · cases (decoderMove_idle hs).symm.trans h
    rfl
  · obtain ⟨u, hplace | ⟨_, hhost⟩, rfl⟩ := decoderMove_advances hs h
    · obtain ⟨_, _, _, _, hhost⟩ := State.place_eq.mp hplace
      rw [advance_host, hhost]
    · rw [advance_host, hhost]

end

/-! ### The sequencer comes closer to the end -/

/-- A number that falls with each of the sequencer's moves at one pixel, and stays below 18. The seed pixel stores its
four values after its codewords, a later pixel stores each residual before the next codeword (R214, R215). -/
def movesAtPixel (seed : Bool) (ch : Channel) : SeqPoint → Nat
  | .codeword => 11 + 2 * (3 - ch.index)
  | .dpSeq => 10 + 2 * (3 - ch.index)
  | .store => if seed then 3 + (3 - ch.index) else 10 + 2 * (3 - ch.index)
  | .dpSeed => 2
  | .updN => 1
  | _ => 0

/-- A bound on the sequencer's moves after the last pixel's (R215). -/
def movesAfterPixels (c : Cfg) : Nat := npix c + halfHeight c + 5

/-- A bound on the sequencer's moves to the end of the run. -/
def State.movesLeft (s : State) : Nat :=
  match s.seq with
  | .idle => 0
  | .finish => 1
  | .stagedQuad p => 2 + (npix s.cfg - p)
  | .row r => npix s.cfg + 3 + (halfHeight s.cfg - r)
  | .col0 => npix s.cfg + halfHeight s.cfg + 4
  | .init => movesAfterPixels s.cfg + 18 * npix s.cfg + 18
  | .load => movesAfterPixels s.cfg + 18 * npix s.cfg + 19
  | .select => movesAfterPixels s.cfg + 18 * npix s.cfg + 20
  | .check => movesAfterPixels s.cfg + 18 * npix s.cfg + 21
  | q => movesAfterPixels s.cfg + 18 * (npix s.cfg - s.p.toNat) + movesAtPixel (decide (s.p = 0)) s.ch q

section
variable {s : State}

theorem movesAtPixel_lt (seed : Bool) (ch : Channel) (q : SeqPoint) : movesAtPixel seed ch q < 18 := by
  cases q
  case store => cases seed <;> simp only [movesAtPixel, Bool.false_eq_true, reduceIte] <;> omega
  all_goals
    simp only [movesAtPixel]
    omega

theorem Channel.index_next {c d : Channel} (h : c.next = some d) : d.index = c.index + 1 := by
  cases c <;> cases h <;> rfl

/-- The places at one pixel. -/
def SeqPoint.atPixel : SeqPoint → Bool
  | .codeword | .dpSeed | .dpSeq | .store | .updN | .quad => true
  | .idle | .check | .select | .load | .init | .col0 | .row _ | .stagedQuad _ | .finish => false

theorem movesLeft_atPixel (h : s.seq.atPixel = true) :
    s.movesLeft =
      movesAfterPixels s.cfg + 18 * (npix s.cfg - s.p.toNat) + movesAtPixel (decide (s.p = 0)) s.ch s.seq := by
  unfold State.movesLeft
  cases hs : s.seq
  case codeword | dpSeed | dpSeq | store | updN | quad => rfl
  all_goals
    rw [hs] at h
    cases h

/-- A place at the same pixel is nearer to the end where its own number is smaller. -/
theorem movesLeft_lt_samePixel {c : Channel} {q : SeqPoint} (h : s.seq.atPixel = true) (hq : q.atPixel = true)
    (hlt : movesAtPixel (decide (s.p = 0)) c q < movesAtPixel (decide (s.p = 0)) s.ch s.seq) :
    State.movesLeft { s with ch := c, seq := q } < s.movesLeft := by
  rw [movesLeft_atPixel h, movesLeft_atPixel (s := { s with ch := c, seq := q }) hq]
  exact Nat.add_lt_add_left hlt _

/-- The next pixel, and the end of the last one, are nearer to the end than any place at a pixel. -/
theorem movesLeft_nextPixel (h : s.seq.atPixel = true) {after : SeqPoint} (ha : after = .col0 ∨ after = .finish) :
    (nextPixel after s).movesLeft < s.movesLeft := by
  rw [movesLeft_atPixel h]
  unfold nextPixel
  split
  · rename_i hlt
    have hnpix := npix_lt s.cfg
    have hp : (s.p + 1).toNat = s.p.toNat + 1 := by bv_omega
    have hmoves := movesAtPixel_lt (decide (s.p + 1 = 0)) .y .codeword
    rw [movesLeft_atPixel (s := { s with p := s.p + 1, ch := .y, seq := .codeword }) rfl]
    simp only [hp]
    omega
  · rcases ha with rfl | rfl <;> simp only [State.movesLeft, movesAfterPixels] <;> omega

/-- The next channel is nearer to the end where its place's number is smaller. -/
theorem movesLeft_nextChannel {here : SeqPoint} {after : State → State} (h : s.seq.atPixel = true)
    (hh : here.atPixel = true)
    (hlt : ∀ c, s.ch.next = some c →
      movesAtPixel (decide (s.p = 0)) c here < movesAtPixel (decide (s.p = 0)) s.ch s.seq)
    (ha : (after s).movesLeft < s.movesLeft) : (nextChannel here after s).movesLeft < s.movesLeft := by
  unfold nextChannel
  split
  · rename_i c hc
    exact movesLeft_lt_samePixel h hh (hlt c hc)
  · exact ha

/-- The advance from a place at a pixel, along R214 and R215. -/
theorem advance_movesLeft_atPixel (h : s.seq.atPixel = true) : (advance s).movesLeft < s.movesLeft := by
  have hindex (c : Channel) (hc : s.ch.next = some c) : c.index = s.ch.index + 1 ∧ c.index < 4 :=
    ⟨Channel.index_next hc, c.index_lt⟩
  cases hq : s.seq <;> simp only [advance, hq]
  case idle | check | select | load | init | col0 | row | stagedQuad | finish => rw [hq] at h; cases h
  case codeword =>
    split
    · rename_i hp
      refine movesLeft_nextChannel h rfl (fun c hc => ?_) ?_
      · obtain ⟨hc1, hc4⟩ := hindex c hc
        simp only [hq, movesAtPixel]
        omega
      · cases isStaged s.cfg <;> refine movesLeft_lt_samePixel h rfl ?_ <;>
          simp only [hq, decide_eq_true hp, movesAtPixel, Channel.index, Bool.false_eq_true, reduceIte] <;> omega
    · rename_i hp
      cases isStaged s.cfg <;> refine movesLeft_lt_samePixel h rfl ?_ <;>
        simp only [hq, decide_eq_false hp, movesAtPixel, Bool.false_eq_true, reduceIte] <;> omega
  case dpSeed => exact movesLeft_lt_samePixel h rfl (by simp [hq, movesAtPixel])
  case dpSeq =>
    refine movesLeft_nextChannel h rfl (fun c hc => ?_) (movesLeft_lt_samePixel h rfl ?_)
    · obtain ⟨hc1, hc4⟩ := hindex c hc
      simp only [hq, movesAtPixel]
      omega
    · simp only [hq, movesAtPixel]
      omega
  case store =>
    split
    · rename_i hp
      refine movesLeft_nextChannel h rfl (fun c hc => ?_) (movesLeft_nextPixel h (.inl rfl))
      obtain ⟨hc1, hc4⟩ := hindex c hc
      simp only [hq, decide_eq_true hp, movesAtPixel, if_true]
      omega
    · rename_i hp
      refine movesLeft_nextChannel h rfl (fun c hc => ?_) (movesLeft_lt_samePixel h rfl ?_)
      · obtain ⟨hc1, hc4⟩ := hindex c hc
        simp only [hq, decide_eq_false hp, movesAtPixel, Bool.false_eq_true, if_false]
        omega
      · simp only [hq, decide_eq_false hp, movesAtPixel, Bool.false_eq_true, if_false]
        omega
  case updN =>
    split
    · exact movesLeft_nextPixel h (.inl rfl)
    · exact movesLeft_lt_samePixel h rfl (by simp [hq, movesAtPixel])
  case quad => exact movesLeft_nextPixel h (.inr rfl)

/-- Every advance of the sequencer comes closer to the end of the run. -/
theorem advance_movesLeft (hs : s.seq ≠ .idle) : (advance s).movesLeft < s.movesLeft := by
  cases hat : s.seq.atPixel with
  | true => exact advance_movesLeft_atPixel hat
  | false =>
    cases hq : s.seq <;> simp only [advance, hq]
    case idle => exact absurd hq hs
    case codeword | dpSeed | dpSeq | store | updN | quad => rw [hq] at hat; cases hat
    case init =>
      have hmoves := movesAtPixel_lt true .y .codeword
      rw [movesLeft_atPixel (s := { firstPixel s with seq := .codeword }) rfl]
      simp only [State.movesLeft, hq, firstPixel_cfg, firstPixel_p, firstPixel_ch, decide_true]
      omega
    case row r =>
      split <;> simp only [State.movesLeft, hq] <;> omega
    case stagedQuad p =>
      split <;> simp only [State.movesLeft, hq] <;> omega
    all_goals
      simp only [State.movesLeft, hq, movesAfterPixels]
      omega

/-- The number of moves left depends on the place only. -/
theorem movesLeft_congr {u : State} (h : u.place = s.place) : u.movesLeft = s.movesLeft := by
  obtain ⟨hcfg, hp, hch, hseq, _⟩ := State.place_eq.mp h
  simp only [State.movesLeft, hcfg, hp, hch, hseq]

/-- An operation that leaves the place, and the advance after it, come closer to the end. -/
theorem movesLeft_advance {u : State} (h : u.place = s.place) (hs : s.seq ≠ .idle) :
    (advance u).movesLeft < s.movesLeft := by
  obtain ⟨_, _, _, hseq, _⟩ := State.place_eq.mp h
  rw [← movesLeft_congr h]
  exact advance_movesLeft (hseq ▸ hs)

end

/-! ### Every run ends -/

theorem runSteps_succ {s t : State} (h : step s = .next t) (n : Nat) : runSteps (n + 1) s = runSteps n t := by
  rw [runSteps, h]

/-- A step whose host is silent is a move of the decoder. -/
theorem step_of_silent {s : State} (h : s.host = []) : step s = decoderMove s := by
  rw [step, h]

/-- Settles O54: a move ends the run or comes closer to its end. -/
theorem everyRunEnds : Obligations.EveryRunEnds := by
  intro s hhost
  induction hk : s.movesLeft using Nat.strong_induction_on generalizing s with
  | _ k ih =>
    by_cases hidle : s.seq = .idle
    · exact ⟨0, hidle⟩
    have hstep := step_of_silent hhost
    cases hmove : decoderMove s with
    | fault e => exact ⟨1, by rw [runSteps, hstep, hmove]; trivial⟩
    | refused e => exact ⟨1, by rw [runSteps, hstep, hmove]; trivial⟩
    | next t =>
      rw [hmove] at hstep
      have ht : t.host = [] := (decoderMove_host hmove).trans hhost
      obtain ⟨u, hplace | ⟨hend, _⟩, rfl⟩ := decoderMove_advances hidle hmove
      · obtain ⟨n, hn⟩ := ih _ (hk ▸ movesLeft_advance hplace hidle) _ ht rfl
        exact ⟨n + 1, by rw [runSteps_succ hstep]; exact hn⟩
      · exact ⟨1, by rw [runSteps_succ hstep, runSteps, advance_idle hend]; exact hend⟩

end Sys2Proof.Machine
end

section
/-! The operations neither read nor write the sequencer's place and CH: what the whole pseudocode does in one operation,
the steps do at the places of the run (R214, R215). -/

namespace Sys2Proof.Machine

/-! ### The sequencer at another place -/

/-- The state with the sequencer at place `q` and channel `c`. -/
def State.placed (s : State) (q : SeqPoint) (c : Channel) : State := { s with seq := q, ch := c }

/-- The same answer with the sequencer at place `q` and channel `c`. -/
def Run.placed {α : Type} (x : Run α) (q : SeqPoint) (c : Channel) : Run α :=
  match x with
  | .ok a s => .ok a (s.placed q c)
  | .raised e s => .raised e (s.placed q c)
  | .fault e => .fault e
  | .refused e => .refused e

/-- The operation neither reads nor writes the sequencer's place and CH. -/
def Unplaced {α : Type} (op : State → Run α) : Prop :=
  ∀ s q c, op (s.placed q c) = (op s).placed q c

section
variable {α β : Type}

theorem Unplaced.bind {op : State → Run α} {k : α → State → Run β} (hop : Unplaced op)
    (hk : ∀ a, Unplaced (k a)) : Unplaced fun s => (op s).bind k := by
  intro s q c
  simp only [hop s q c]
  cases op s with
  | ok a t => exact hk a t q c
  | raised e t => rfl
  | fault e => rfl
  | refused e => rfl

/-- An update that the place does not take part in. -/
theorem Unplaced.update (a : α) {f : State → State} (hf : ∀ s q c, f (s.placed q c) = (f s).placed q c) :
    Unplaced fun s => Run.ok a (f s) :=
  fun s q c => congrArg (Run.ok a) (hf s q c)

/-- An operation after such an update. -/
theorem Unplaced.comp {op : State → Run α} (hop : Unplaced op) {f : State → State}
    (hf : ∀ s q c, f (s.placed q c) = (f s).placed q c) : Unplaced fun s => op (f s) :=
  fun s q c => (congrArg op (hf s q c)).trans (hop (f s) q c)

/-- A choice by a test that the place does not take part in. -/
theorem Unplaced.ite {P : State → Prop} [DecidablePred P] {op op' : State → Run α}
    (hP : ∀ s q c, P (s.placed q c) = P s) (hop : Unplaced op) (hop' : Unplaced op') :
    Unplaced fun s => if P s then op s else op' s := by
  intro s q c
  by_cases h : P s
  · simp only [hP, if_pos h]
    exact hop s q c
  · simp only [hP, if_neg h]
    exact hop' s q c

end

/-! ### The shared operations -/

theorem streamRead_unplaced (i : State → Nat) (hi : ∀ s q c, i (s.placed q c) = i s) :
    Unplaced fun s => streamRead s (i s) := by
  intro s q c
  simp only [hi]
  cases h : Mem.find s.stream (i s) with
  | none => rw [streamRead_of_unwritten h]; exact streamRead_of_unwritten h
  | some b => rw [streamRead_of_find h]; exact streamRead_of_find h

theorem deliverBit_unplaced : Unplaced deliverBit := fun _ _ _ => rfl

theorem fetchBit_unplaced : Unplaced fetchBit := by
  have hnext (b : Byte) : Unplaced fun s => deliverBit { s with cursor := ⟨s.cursor.idx + 1, 0, b⟩ } :=
    deliverBit_unplaced.comp fun _ _ _ => rfl
  exact .ite (fun _ _ _ => rfl)
    (.ite (fun _ _ _ => rfl) (fun _ _ _ => rfl)
      ((streamRead_unplaced (fun s => s.cursor.idx.toNat + 1) fun _ _ _ => rfl).bind hnext))
    deliverBit_unplaced

theorem fetchBits_unplaced (n : Nat) : Unplaced (fetchBits n) := by
  induction n with
  | zero => exact .update [] fun _ _ _ => rfl
  | succ n ih => exact fetchBit_unplaced.bind fun b => ih.bind fun bs => .update (b :: bs) fun _ _ _ => rfl

theorem fetchField_unplaced (n : Nat) : Unplaced (fetchField n) :=
  (fetchBits_unplaced n).bind fun bs => .update (fieldValue bs) fun _ _ _ => rfl

theorem loadCursor_unplaced : Unplaced loadCursor :=
  .ite (fun _ _ _ => rfl) (fun _ _ _ => rfl)
    ((streamRead_unplaced (fun s => s.cfg.payloadOffset.toNat) fun _ _ _ => rfl).bind fun b =>
      .update () (f := fun s => { s with cursor := ⟨s.cfg.payloadOffset, 0, b⟩ }) fun _ _ _ => rfl)

theorem requireCfgWF_unplaced : Unplaced requireCfgWF :=
  .ite (fun _ _ _ => rfl) (fun _ _ _ => rfl) fun _ _ _ => rfl

theorem checkConfig_unplaced : Unplaced checkConfig := by
  intro s q c
  have hraise (e : RaiseCode) : Unplaced fun s => (requireCfgWF s).bind fun _ s => (.raised e s : Run Unit) :=
    requireCfgWF_unplaced.bind fun _ _ _ _ => rfl
  have hdepth : Unplaced fun s =>
      if registersWF s.cfg then (.raised .unsupportedBitDepth s : Run Unit) else .refused .outsideCfgWF :=
    .ite (fun _ _ _ => rfl) (fun _ _ _ => rfl) fun _ _ _ => rfl
  have hcfg : (s.placed q c).cfg = s.cfg := rfl
  cases hf : checkFailure s.cfg with
  | none =>
    simp only [checkConfig, hcfg, hf]
    exact requireCfgWF_unplaced s q c
  | some e =>
    simp only [checkConfig, hcfg, hf]
    cases e with
    | invalidHeader => rfl
    | unsupportedBitDepth => exact hdepth s q c
    | divisionError | allBitsConsumed | bufferSizeMismatch => exact hraise _ s q c

/-! ### The adaptive Rice decoder -/

theorem seedChannel_unplaced (d : Channel) : Unplaced (seedChannel d) := by
  have hfield : Unplaced fun s => fetchField (bppEff s.cfg + 3) s := fun s q c => fetchField_unplaced _ s q c
  exact fetchBit_unplaced.bind fun _ => hfield.bind fun v => .update () (f := seedEffect d v) fun _ _ _ => rfl

theorem unaryLoop_unplaced (n : Nat) : Unplaced (unaryLoop n) := by
  induction n with
  | zero => exact fun _ _ _ => rfl
  | succ n ih =>
    refine fetchBit_unplaced.bind fun b => ?_
    cases b with
    | true => exact ih.comp fun _ _ _ => rfl
    | false => exact fun _ _ _ => rfl

theorem readUnary_unplaced : Unplaced readUnary := by
  have hloop : Unplaced fun s => unaryLoop s.cfg.unaryCap.toNat { s with sym := { s.sym with q := 0 } } :=
    fun s q c => unaryLoop_unplaced _ { s with sym := { s.sym with q := 0 } } q c
  exact .ite (fun _ _ _ => rfl) (fun _ _ _ => rfl) hloop

theorem readEscape_unplaced : Unplaced readEscape := by
  have hfield : Unplaced fun s => fetchField (bppEff s.cfg + 3) s := fun s q c => fetchField_unplaced _ s q c
  exact hfield.bind fun v => .update () (f := fun s => { s with sym := { s.sym with v := v } }) fun _ _ _ => rfl

theorem readRemainder_unplaced : Unplaced readRemainder := by
  have hfield : Unplaced fun s => fetchField s.sym.k s := fun s q c => fetchField_unplaced _ s q c
  exact hfield.bind fun r =>
    .update () (f := fun s => { s with sym := { s.sym with v := s.sym.q.toNat * 2 ^ s.sym.k + r } }) fun _ _ _ => rfl

theorem decodeOne_unplaced (d : Channel) : Unplaced (decodeOne d) := by
  have hvalue : Unplaced fun s => if s.sym.q = s.cfg.unaryCap then readEscape s else readRemainder s :=
    .ite (fun _ _ _ => rfl) readEscape_unplaced readRemainder_unplaced
  have hunary : Unplaced fun s => readUnary (recomputeK d s) := readUnary_unplaced.comp fun _ _ _ => rfl
  exact hunary.bind fun _ => hvalue.bind fun _ =>
    .update () (f := fun s => updateA d (mapResidual s)) fun _ _ _ => rfl

/-! ### The colour transform -/

theorem writeElement_unplaced (p : Nat) (i : SubPixel) : Unplaced (writeElement p i) :=
  .ite (fun _ _ _ => rfl) (fun _ _ _ => rfl) fun _ _ _ => rfl

theorem transformQuad_unplaced (p : Nat) (val : Quad Half) : Unplaced (transformQuad p val) := by
  have hstrict : Unplaced strictCheck := .ite (fun _ _ _ => rfl) (fun _ _ _ => rfl) fun _ _ _ => rfl
  have hsums : Unplaced fun s => strictCheck (takeSums val s) := hstrict.comp fun _ _ _ => rfl
  exact hsums.bind fun _ => (writeElement_unplaced p .gb).bind fun _ => (writeElement_unplaced p .b).bind fun _ =>
    (writeElement_unplaced p .r).bind fun _ => writeElement_unplaced p .gr

end Sys2Proof.Machine
end

section
/-! The steps of a run compute the run (R211, R214, R215): each operation at its place, the opening of a run, the later
pixels, and the Sequential strategy. -/

namespace Sys2Proof.Machine

/-! ### States of a run, and the steps from them -/

/-- The host is silent, and once the run has loaded the cursor it agrees with the stream (R29 to R31). -/
def Running (s : State) : Prop := s.host = [] ∧ s.runCursorOk

section
variable {s t a b : State}

theorem Running.step (h : Running s) (ht : step s = .next t) : Running t := by
  obtain ⟨hhost, hcur⟩ := h
  rw [step_of_silent hhost] at ht
  exact ⟨(decoderMove_host ht).trans hhost, (decoderMove_moves ht).runCursorOk hcur⟩

theorem Running.runSteps (h : Running s) {n : Nat} (ht : runSteps n s = .next t) : Running t := by
  induction n generalizing s with
  | zero => cases ht; exact h
  | succ n ih =>
    cases hs : Machine.step s with
    | next u => exact ih (h.step hs) (runSteps_succ hs n ▸ ht)
    | fault e | refused e => rw [Machine.runSteps, hs] at ht; cases ht

theorem runSteps_add {m : Nat} (h : runSteps m s = .next t) (n : Nat) : runSteps (m + n) s = runSteps n t := by
  induction m generalizing s with
  | zero => cases h; rw [Nat.zero_add]
  | succ m ih =>
    cases hs : step s with
    | next u =>
      rw [runSteps_succ hs] at h
      rw [Nat.add_right_comm, runSteps_succ hs, ih h]
    | fault e | refused e => rw [runSteps, hs] at h; cases h

/-! ### What the steps do -/

/-- From `a`, some number of steps does what the operation `x` does: where `x` completes in `t` they reach `after t`,
where it raises they raise, in the same state but for CH (log entry 14), and where it stops the model so do they. -/
def StepsDo (a : State) (x : Run Unit) (after : State → State) : Prop :=
  Running a →
    match x with
    | .ok _ t => ∃ n, runSteps n a = .next (after t)
    | .raised e t => ∃ n c, runSteps n a = .next (State.fail { t with ch := c } e)
    | .fault e => ∃ n, runSteps n a = .fault e
    | .refused e => ∃ n, runSteps n a = .refused e

theorem StepsDo.nil {after : State → State} (h : a = after t) : StepsDo a (.ok () t) after :=
  fun _ => ⟨0, congrArg Host.Outcome.next h⟩

/-- One operation, and then another where the first completes. -/
theorem StepsDo.bind {x : Run Unit} {g : Unit → State → Run Unit} {after after' : State → State}
    (hx : StepsDo a x after) (hg : ∀ t, x = .ok () t → StepsDo (after t) (g () t) after') :
    StepsDo a (x.bind g) after' := by
  intro ha
  cases x with
  | raised e t => exact hx ha
  | fault e => exact hx ha
  | refused e => exact hx ha
  | ok u t =>
    obtain ⟨m, hm⟩ := hx ha
    have hrest := hg t rfl (ha.runSteps hm)
    rw [Run.bind_ok]
    cases hy : g () t with
    | ok v w =>
      rw [hy] at hrest
      obtain ⟨n, hn⟩ := hrest
      exact ⟨m + n, (runSteps_add hm n).trans hn⟩
    | raised e w =>
      rw [hy] at hrest
      obtain ⟨n, c, hn⟩ := hrest
      exact ⟨m + n, c, (runSteps_add hm n).trans hn⟩
    | fault e | refused e =>
      rw [hy] at hrest
      obtain ⟨n, hn⟩ := hrest
      exact ⟨m + n, (runSteps_add hm n).trans hn⟩

/-- One step performs the operation at the sequencer's place, which neither reads nor writes it, and advances. -/
theorem StepsDo.operation {op : State → Run Unit} {q : SeqPoint} {c : Channel} {after : State → State}
    (hop : Unplaced op)
    (hmove : Running (t.placed q c) → decoderMove (t.placed q c) = advanced (op (t.placed q c)).outcome)
    (hafter : ∀ u, op t = .ok () u → advance (u.placed q c) = after u) : StepsDo (t.placed q c) (op t) after := by
  intro hrun
  have hstep : step (t.placed q c) = advanced ((op t).placed q c).outcome := by
    rw [step_of_silent hrun.1, hmove hrun, hop]
  cases hx : op t with
  | ok v u =>
    rw [hx] at hstep
    exact ⟨1, (runSteps_succ hstep 0).trans (congrArg Host.Outcome.next (hafter u hx))⟩
  | raised e u =>
    rw [hx] at hstep
    exact ⟨1, c, runSteps_succ (t := State.fail { u with ch := c } e) hstep 0⟩
  | fault e | refused e =>
    rw [hx] at hstep
    exact ⟨1, by rw [runSteps, hstep]; rfl⟩

/-- A move of the decoder that cannot stop the run, and then the rest. -/
theorem StepsDo.move {x : Run Unit} {after : State → State} (hmove : decoderMove a = .next b)
    (hx : StepsDo b x after) : StepsDo a x after := by
  intro hrun
  have hstep : step a = .next b := (step_of_silent hrun.1).trans hmove
  have hrest := hx (hrun.step hstep)
  cases x with
  | raised e t =>
    obtain ⟨n, c, hn⟩ := hrest
    exact ⟨n + 1, c, (runSteps_succ hstep n).trans hn⟩
  | ok | fault | refused =>
    obtain ⟨n, hn⟩ := hrest
    exact ⟨n + 1, (runSteps_succ hstep n).trans hn⟩

end

/-! ### The codewords -/

section
variable {t : State} {c : Channel}

theorem Running.cnt_le {s : State} (h : Running s) (hs : s.seq.loaded = true) : s.cursor.cnt.toNat ≤ 8 := by
  obtain ⟨_, _, hcnt, _⟩ := h.2 hs
  exact hcnt

/-- The move at a codeword of the seed pixel reads it bit by bit (R141). -/
theorem decoderMove_seedCodeword {s : State} (hs : s.seq = .codeword) (hp : s.p = 0) (hrun : Running s) :
    decoderMove s = advanced (seedChannel s.ch s).outcome := by
  rw [← (codewordMoveIsBitByBit s (hrun.cnt_le (by rw [hs]; rfl))).2 hp]
  simp only [decoderMove, selectedOp, hs]

/-- The move at a codeword of a later pixel reads it bit by bit (R149). -/
theorem decoderMove_symbol {s : State} (hs : s.seq = .codeword) (hp : s.p ≠ 0) (hrun : Running s) :
    decoderMove s = advanced (decodeOne s.ch s).outcome := by
  rw [← exec_arSym, ← (codewordMoveIsBitByBit s (hrun.cnt_le (by rw [hs]; rfl))).1 hp]
  simp only [decoderMove, selectedOp, hs]

theorem seedChannel_stepsDo {after : State → State} (hp : t.p = 0)
    (hafter : ∀ u, u.p = 0 → advance (u.placed .codeword c) = after u) :
    StepsDo (t.placed .codeword c) (seedChannel c t) after := by
  refine .operation (seedChannel_unplaced c) (decoderMove_seedCodeword rfl hp) fun u hu => ?_
  obtain ⟨_, _, rfl⟩ := seedChannel_ok hu
  exact hafter _ hp

theorem decodeOne_stepsDo {q : SeqPoint} (hp : t.p ≠ 0)
    (hq : (if isStaged t.cfg then SeqPoint.store else .dpSeq) = q) :
    StepsDo (t.placed .codeword c) (decodeOne c t) fun u => u.placed q c := by
  refine .operation (decodeOne_unplaced c) (decoderMove_symbol rfl hp) fun u hu => ?_
  obtain ⟨_, _, rfl⟩ := decodeOne_ok hu
  subst hq
  exact if_neg hp

end

/-! ### The opening of a run -/

section
variable {t : State} {c : Channel}

/-- After the seed pixel's codewords the strategies part (R214, R215). -/
def afterSeed (u : State) : State := u.placed (if isStaged u.cfg then .store else .dpSeed) .y

theorem seedChannel_p {u : State} (h : seedChannel c t = .ok () u) : u.p = t.p := by
  obtain ⟨_, _, rfl⟩ := seedChannel_ok h
  rfl

/-- The four codewords of `AR.SEED` (R141). -/
theorem seedPixel_stepsDo (hp : t.p = 0) : StepsDo (t.placed .codeword .y) (seedPixel t) afterSeed := by
  have hnext {t : State} {c d : Channel} (hp : t.p = 0) (hd : c.next = some d) :
      StepsDo (t.placed .codeword c) (seedChannel c t) fun u => u.placed .codeword d := by
    refine seedChannel_stepsDo hp fun u hu => (if_pos hu).trans ?_
    cases c <;> cases hd <;> rfl
  refine (hnext hp rfl).bind fun t1 h1 => ?_
  have hp1 := (seedChannel_p h1).trans hp
  refine (hnext hp1 rfl).bind fun t2 h2 => ?_
  have hp2 := (seedChannel_p h2).trans hp1
  refine (hnext hp2 rfl).bind fun t3 h3 => ?_
  exact seedChannel_stepsDo ((seedChannel_p h3).trans hp2) fun _ hu => if_pos hu

/-- What both strategies begin with (R214, R215). -/
theorem openRun_stepsDo (t : State) (c : Channel) : StepsDo (t.placed .select c) (openRun t) afterSeed := by
  have hselect : StepsDo (t.placed .select c) (requireCfgWF t) fun u => u.placed .load c :=
    .operation requireCfgWF_unplaced (fun _ => rfl) fun _ _ => rfl
  have hload (u : State) : StepsDo (u.placed .load c) (loadCursor u) fun v => v.placed .init c :=
    .operation loadCursor_unplaced (fun _ => rfl) fun _ _ => rfl
  exact hselect.bind fun u _ => (hload u).bind fun v _ =>
    .move (b := (firstPixel (initAdaptive v)).placed .codeword .y) rfl (seedPixel_stepsDo rfl)

theorem openRun_frame {u : State} (h : openRun t = .ok () u) : u.cfg = t.cfg ∧ u.p = 0 ∧ u.ch = .y := by
  obtain ⟨_, _, _, _, _, rfl⟩ := openRun_ok h
  exact ⟨rfl, rfl, rfl⟩

end

/-! ### The later pixels -/

/-- A pixel after the seed pixel, in a run of the strategy that `staged` names. -/
def LaterPixel (staged : Bool) (t : State) : Prop := t.p ≠ 0 ∧ isStaged t.cfg = staged

/-- After a channel of a later pixel comes the next one's codeword, or `AR.UPD_N` (R214, R215). -/
def afterChannel (c : Channel) (u : State) : State :=
  match c.next with
  | some d => u.placed .codeword d
  | none => u.placed .updN c

section
variable {staged : Bool} {t u : State} {c : Channel}

theorem nextChannel_placed (q : SeqPoint) (c : Channel) (u : State) :
    nextChannel .codeword (fun s => { s with seq := .updN }) (u.placed q c) = afterChannel c u := by
  cases c <;> rfl

/-- The four channels of a later pixel, and then what follows them (R11). -/
theorem channels_stepsDo {channel : Channel → State → Run Unit} {f : State → Run Unit} {after : State → State}
    (hkeep : ∀ {c t u}, LaterPixel staged t → channel c t = .ok () u → LaterPixel staged u)
    (hc : ∀ {c t}, LaterPixel staged t → StepsDo (t.placed .codeword c) (channel c t) (afterChannel c))
    (hf : ∀ {t}, LaterPixel staged t → StepsDo (t.placed .updN .co) (f t) after) (h : LaterPixel staged t) :
    StepsDo (t.placed .codeword .y) ((channel .y t).bind fun _ t => (channel .cd t).bind fun _ t =>
      (channel .cm t).bind fun _ t => (channel .co t).bind fun _ t => f t) after := by
  refine (hc h).bind fun t1 e1 => ?_
  have h1 := hkeep h e1
  refine (hc h1).bind fun t2 e2 => ?_
  have h2 := hkeep h1 e2
  refine (hc h2).bind fun t3 e3 => ?_
  have h3 := hkeep h2 e3
  exact (hc h3).bind fun t4 e4 => hf (hkeep h3 e4)

/-- The loop over the pixels after the one of `t`, up to the last pixel of the image (R32, R214, R215). -/
theorem laterPixels_stepsDo {pixel : State → Run Unit} {loop : Nat → State → Run Unit} {after : SeqPoint}
    (hzero : ∀ s, loop 0 s = .ok () s)
    (hsucc : ∀ n s, loop (n + 1) s = (pixel { s with p := s.p + 1 }).bind fun _ s => loop n s)
    (hpixel : ∀ {t}, LaterPixel staged t →
      StepsDo (t.placed .codeword .y) (pixel t) fun u => nextPixel after (u.placed after .co))
    (hkeep : ∀ {t u}, pixel t = .ok () u → u.cfg = t.cfg ∧ u.p = t.p ∧ u.ch = .co) (n : Nat)
    (hs : isStaged t.cfg = staged) (hn : t.p.toNat + n + 1 = npix t.cfg) :
    StepsDo (nextPixel after (t.placed after t.ch)) (loop n t) fun u => u.placed after u.ch := by
  induction n generalizing t with
  | zero =>
    rw [hzero]
    exact .nil (if_neg (by show ¬t.p.toNat + 1 < npix t.cfg; omega))
  | succ n ih =>
    have hnpix := npix_lt t.cfg
    have hp : (t.p + 1).toNat = t.p.toNat + 1 := by bv_omega
    have hne : t.p + 1 ≠ 0 := fun h0 => by rw [h0] at hp; simp at hp
    have hnext : nextPixel after (t.placed after t.ch) = State.placed { t with p := t.p + 1 } .codeword .y :=
      if_pos (by show t.p.toNat + 1 < npix t.cfg; omega)
    rw [hsucc, hnext]
    refine (hpixel (t := { t with p := t.p + 1 }) ⟨hne, hs⟩).bind fun u hu => ?_
    obtain ⟨hcfg, hpu, hch⟩ := hkeep hu
    rw [← hch]
    exact ih (by rw [hcfg]; exact hs) (by rw [hpu, hp, hcfg]; show _ = npix t.cfg; omega)

end

/-! ### The Sequential strategy -/

section
variable {t u : State} {c : Channel}

theorem seqChannel_laterPixel {staged : Bool} (h : LaterPixel staged t) (hu : seqChannel c t = .ok () u) :
    LaterPixel staged u := by
  obtain ⟨_, _, _, _, rfl⟩ := seqChannel_ok hu
  exact h

theorem seqChannel_stepsDo (h : LaterPixel false t) :
    StepsDo (t.placed .codeword c) (seqChannel c t) (afterChannel c) := by
  obtain ⟨hp, hs⟩ := h
  refine (decodeOne_stepsDo (t := { t with ch := c }) hp (if_neg (by simp [hs]))).bind fun u _ => ?_
  exact .move (congrArg Host.Outcome.next (nextChannel_placed .dpSeq c (reconstruct c u))) (.nil rfl)

theorem transformQuad_stepsDo {p : Nat} (hp : t.p.toNat = p) :
    StepsDo (t.placed .quad c) (transformQuad p t.dpcm.prev t) fun u => nextPixel .finish (u.placed .finish c) := by
  subst hp
  exact .operation (transformQuad_unplaced _ _) (fun _ => rfl) fun _ _ => rfl

theorem seqPixel_stepsDo (h : LaterPixel false t) :
    StepsDo (t.placed .codeword .y) (seqPixel t) fun u => nextPixel .finish (u.placed .finish .co) := by
  refine channels_stepsDo seqChannel_laterPixel seqChannel_stepsDo (fun {v} ⟨_, hs⟩ => ?_) h
  have hmove : decoderMove (v.placed .updN .co) = .next ((updateN v).placed .quad .co) :=
    congrArg Host.Outcome.next (if_neg (Bool.not_eq_true _ ▸ hs))
  exact .move hmove (transformQuad_stepsDo rfl)

theorem seqPixel_frame (h : seqPixel t = .ok () u) : u.cfg = t.cfg ∧ u.p = t.p ∧ u.ch = .co := by
  simp only [seqPixel, Run.bind_eq_ok] at h
  obtain ⟨_, s1, h1, _, s2, h2, _, s3, h3, _, s4, h4, h⟩ := h
  obtain ⟨_, _, _, _, rfl⟩ := seqChannel_ok h1
  obtain ⟨_, _, _, _, rfl⟩ := seqChannel_ok h2
  obtain ⟨_, _, _, _, rfl⟩ := seqChannel_ok h3
  obtain ⟨_, _, _, _, rfl⟩ := seqChannel_ok h4
  obtain ⟨_, _, rfl⟩ := transformQuad_ok h
  exact ⟨rfl, rfl, rfl⟩

theorem runSequential_stepsDo (hwf : t.cfgWF = true) (hs : isStaged t.cfg = false) (c : Channel) :
    StepsDo (t.placed .select c) (runSequential t) fun u => u.placed .finish u.ch := by
  refine (openRun_stepsDo t c).bind fun u hu => ?_
  have hpos := npix_pos hwf
  obtain ⟨hcfg, hp, hch⟩ := openRun_frame hu
  rw [← hcfg] at hs hpos
  have hfirst : (installSeed u).p.toNat = 0 := congrArg BitVec.toNat hp
  rw [afterSeed, if_neg (by simp [hs])]
  refine .move (b := (installSeed u).placed .quad .y) rfl ((transformQuad_stepsDo hfirst).bind fun v hv => ?_)
  obtain ⟨_, _, rfl⟩ := transformQuad_ok hv
  rw [← hch]
  exact laterPixels_stepsDo (fun _ => rfl) (fun _ _ => rfl) seqPixel_stepsDo seqPixel_frame _ hs
    (by rw [hfirst]; show 0 + (npix u.cfg - 1) + 1 = npix u.cfg; omega)

end

end Sys2Proof.Machine
end

section
/-! The steps of a run compute the run (R211, R215): the Staged strategy, and the whole run. -/

namespace Sys2Proof.Machine

/-! ### Phase A -/

section
variable {t u : State} {c : Channel}

/-- `DP.STORE` of the seed value of one channel, with CH at the channel (R172, R215). -/
def storeSeedChannel (c : Channel) (s : State) : State := storeResidual 0 c (s.seedVal.get c) { s with ch := c }

theorem storeSeed_eq_channels (s : State) :
    storeSeed s = storeSeedChannel .co (storeSeedChannel .cm (storeSeedChannel .cd (storeSeedChannel .y s))) := rfl

theorem decoderMove_store {x : Int} (hx : storeOperand (t.placed .store c) = x) :
    decoderMove (t.placed .store c) = .next (advance ((storeResidual t.p.toNat c x t).placed .store c)) := by
  subst hx
  rfl

/-- Storing a seed value, and the advance (R172, R215). -/
theorem decoderMove_store_seed (hp : t.p = 0) :
    decoderMove (t.placed .store c) =
      .next (nextChannel .store (nextPixel .col0) ((storeSeedChannel c t).placed .store c)) := by
  rw [decoderMove_store (x := t.seedVal.get c) (if_pos hp), hp]
  exact congrArg Host.Outcome.next (if_pos hp)

/-- Storing a residual of a later pixel, and the advance (R172, R215). -/
theorem decoderMove_store_later (hp : t.p ≠ 0) :
    decoderMove (t.placed .store c) = .next (afterChannel c (storeResidual t.p.toNat c t.sym.resid t)) := by
  rw [decoderMove_store (x := t.sym.resid) (if_neg hp), ← nextChannel_placed .store]
  exact congrArg Host.Outcome.next (if_neg hp)

/-- The seed pixel's four `DP.STORE`, and then the rest (R215). -/
theorem storeSeed_stepsDo {x : Run Unit} {after : State → State} (hp : t.p = 0)
    (hx : StepsDo (nextPixel .col0 ((storeSeed t).placed .col0 .co)) x after) :
    StepsDo (t.placed .store .y) x after := by
  have hnext {t : State} {c d : Channel} (hp : t.p = 0) (hd : c.next = some d) :
      decoderMove (t.placed .store c) = .next ((storeSeedChannel c t).placed .store d) := by
    rw [decoderMove_store_seed hp]
    cases c <;> cases hd <;> rfl
  rw [storeSeed_eq_channels] at hx
  exact .move (hnext hp rfl) <| .move (hnext hp rfl) <| .move (hnext hp rfl) <| .move (decoderMove_store_seed hp) hx

theorem stagedChannel_laterPixel {staged : Bool} (h : LaterPixel staged t) (hu : stagedChannel c t = .ok () u) :
    LaterPixel staged u := by
  obtain ⟨_, _, _, _, rfl⟩ := stagedChannel_ok hu
  exact h

theorem stagedChannel_stepsDo (h : LaterPixel true t) :
    StepsDo (t.placed .codeword c) (stagedChannel c t) (afterChannel c) := by
  obtain ⟨hp, hs⟩ := h
  refine (decodeOne_stepsDo (t := { t with ch := c }) hp (if_pos hs)).bind fun u hu => ?_
  obtain ⟨_, _, rfl⟩ := decodeOne_ok hu
  exact .move (decoderMove_store_later hp) (.nil rfl)

theorem stagedPixel_stepsDo (h : LaterPixel true t) :
    StepsDo (t.placed .codeword .y) (stagedPixel t) fun u => nextPixel .col0 (u.placed .col0 .co) := by
  refine channels_stepsDo stagedChannel_laterPixel stagedChannel_stepsDo (fun {v} ⟨_, hs⟩ => ?_) h
  have hmove : decoderMove (v.placed .updN .co) = .next (nextPixel .col0 ((updateN v).placed .col0 .co)) :=
    congrArg Host.Outcome.next (if_pos hs)
  exact .move hmove (.nil rfl)

theorem stagedPixel_frame (h : stagedPixel t = .ok () u) : u.cfg = t.cfg ∧ u.p = t.p ∧ u.ch = .co := by
  simp only [stagedPixel, Run.bind_eq_ok] at h
  obtain ⟨_, s1, h1, _, s2, h2, _, s3, h3, _, s4, h4, h⟩ := h
  obtain ⟨_, _, _, _, rfl⟩ := stagedChannel_ok h1
  obtain ⟨_, _, _, _, rfl⟩ := stagedChannel_ok h2
  obtain ⟨_, _, _, _, rfl⟩ := stagedChannel_ok h3
  obtain ⟨_, _, _, _, rfl⟩ := stagedChannel_ok h4
  cases h
  exact ⟨rfl, rfl, rfl⟩

/-! ### Phases B and C -/

/-- The place of row `r`, or, after the last row, of phase C (R215). -/
def rowPlace (cfg : Cfg) (r : Nat) : SeqPoint := if r < halfHeight cfg then .row r else .stagedQuad 0

/-- The place of pixel `p` of phase C, or, after the last pixel, of the end (R215). -/
def quadPlace (cfg : Cfg) (p : Nat) : SeqPoint := if p < npix cfg then .stagedQuad p else .finish

/-- The first `n` rows, and then the rest (R215). -/
theorem stagedRows_stepsDo {x : Run Unit} {after : State → State} (n : Nat) (hn : n ≤ halfHeight t.cfg)
    (hx : StepsDo ((stagedRows n t).placed (rowPlace t.cfg n) c) x after) :
    StepsDo (t.placed (rowPlace t.cfg 0) c) x after := by
  induction n with
  | zero => exact hx
  | succ n ih =>
    refine ih (by omega) (.move ?_ hx)
    obtain ⟨m, hm⟩ := stagedRows_frame n t
    rw [stagedRows, hm, rowPlace, if_pos (by omega)]
    rfl

/-- `n` pixels of phase C from pixel `p` on, up to the last (R215). -/
theorem stagedQuads_stepsDo (n p : Nat) (hp : p + n = npix t.cfg) :
    StepsDo (t.placed (quadPlace t.cfg p) t.ch) (stagedQuads p n t) fun u => u.placed .finish u.ch := by
  induction n generalizing p t with
  | zero =>
    rw [quadPlace, if_neg (by omega)]
    exact .nil rfl
  | succ n ih =>
    have hnpix := npix_lt t.cfg
    have hop : Unplaced fun s => transformQuad p (bufQuad s.valbuf p) s :=
      fun s q c => transformQuad_unplaced _ _ s q c
    have hp32 : (BitVec.ofNat 32 p).toNat = p := by rw [BitVec.toNat_ofNat, Nat.mod_eq_of_lt (by omega)]
    rw [quadPlace, if_pos (by omega), stagedQuads]
    refine (StepsDo.operation (after := fun u => u.placed (quadPlace u.cfg (p + 1)) t.ch) hop (fun _ => ?_)
      fun _ _ => rfl).bind fun u hu => ?_
    · show advanced (transformQuad (BitVec.ofNat 32 p).toNat _ _).outcome = _
      rw [hp32]
    · obtain ⟨_, _, rfl⟩ := transformQuad_ok hu
      exact ih (p + 1) (by show p + 1 + n = npix t.cfg; omega)

/-- Phase C follows the last row (R215). -/
theorem rowPlace_last {cfg : Cfg} (h : 0 < npix cfg) : rowPlace cfg (halfHeight cfg) = quadPlace cfg 0 := by
  rw [rowPlace, if_neg (lt_irrefl _), quadPlace, if_pos h]

theorem phasesBC_stepsDo (hpos : 0 < npix t.cfg) (hrows : 0 < halfHeight t.cfg) :
    StepsDo (t.placed .col0 t.ch)
      (stagedQuads 0 (npix t.cfg) (stagedRows (halfHeight t.cfg) (reconstructCol0 t)))
      fun u => u.placed .finish u.ch := by
  have hcol0 : decoderMove (t.placed .col0 t.ch) = .next ((reconstructCol0 t).placed (rowPlace t.cfg 0) t.ch) := by
    rw [rowPlace, if_pos hrows]
    rfl
  refine .move hcol0 (stagedRows_stepsDo (halfHeight t.cfg) le_rfl ?_)
  obtain ⟨m, hm⟩ := stagedRows_frame (halfHeight t.cfg) (reconstructCol0 t)
  rw [reconstructCol0_cfg, rowPlace_last hpos, hm]
  exact stagedQuads_stepsDo (t := { reconstructCol0 t with valbuf := m }) (npix t.cfg) 0 (Nat.zero_add _)

theorem stagedPixels_frame {n : Nat} (h : stagedPixels n t = .ok () u) : u.cfg = t.cfg := by
  obtain ⟨_, _, _, _, _, _, rfl⟩ := stagedPixels_ok h
  rfl

theorem runStaged_stepsDo (hwf : t.cfgWF = true) (hs : isStaged t.cfg = true) (c : Channel) :
    StepsDo (t.placed .select c) (runStaged t) fun u => u.placed .finish u.ch := by
  refine (openRun_stepsDo t c).bind fun u hu => ?_
  obtain ⟨hcfg, hp, _⟩ := openRun_frame hu
  have hpos := npix_pos hwf
  obtain ⟨_, _, hheight⟩ := cfgWF_bounds hwf
  have hrows : 0 < halfHeight t.cfg := by unfold halfHeight; omega
  rw [← hcfg] at hs hpos hrows
  have hfirst : u.p.toNat = 0 := congrArg BitVec.toNat hp
  rw [afterSeed, if_pos hs]
  have hphaseA := laterPixels_stepsDo (t := storeSeed u) (loop := stagedPixels) (after := .col0) (fun _ => rfl)
    (fun _ _ => rfl) stagedPixel_stepsDo stagedPixel_frame (npix u.cfg - 1) hs
    (by show u.p.toNat + (npix u.cfg - 1) + 1 = npix u.cfg; omega)
  refine (storeSeed_stepsDo hp hphaseA).bind fun v hv => ?_
  have hcfgv : v.cfg = u.cfg := stagedPixels_frame (t := storeSeed u) hv
  rw [← hcfgv] at hpos hrows
  exact phasesBC_stepsDo hpos hrows

/-! ### The whole run -/

theorem runStrategy_stepsDo (hwf : t.cfgWF = true) (c : Channel) :
    StepsDo (t.placed .select c) (runStrategy t) fun u => u.placed .finish u.ch := by
  unfold runStrategy
  split
  · rename_i hs
    exact runStaged_stepsDo hwf hs c
  · rename_i hs
    exact runSequential_stepsDo hwf (Bool.not_eq_true _ ▸ hs) c

/-- A raise leaves the block idle, so that going on unless it is idle is going on where nothing was raised. -/
theorem unlessIdle_outcome {α β : Type} {x : Run α} {g : α → State → Run β}
    {f : State → Host.Outcome State Fault Refusal}
    (hx : ∀ a u, x = .ok a u → u.seq ≠ .idle ∧ f u = (g a u).outcome) :
    unlessIdle x.outcome f = (x.bind g).outcome := by
  cases x with
  | ok a u =>
    obtain ⟨hu, hf⟩ := hx a u rfl
    exact (if_neg hu).trans hf
  | raised | fault | refused => rfl

/-- The whole pseudocode of a run as one operation (R211). -/
def runWhole (s : State) : Run Unit :=
  (checkConfig s).bind fun _ s => (runStrategy s).bind fun _ s => .ok () s.succeed

theorem wholeRun_eq (s : State) : wholeRun s = (runWhole s.begin).outcome := by
  refine unlessIdle_outcome fun _ u hu => ?_
  obtain ⟨_, _, rfl⟩ := checkConfig_eq_ok.mp hu
  refine ⟨nofun, ?_⟩
  rw [exec_strategy]
  refine unlessIdle_outcome fun _ v hv => ⟨?_, rfl⟩
  rw [(runStrategy_ok hv).2]
  nofun

/-- The steps from an accepted start do what the whole pseudocode does (R211). -/
theorem runWhole_stepsDo (s : State) : StepsDo s.begin (runWhole s.begin) id := by
  refine (StepsDo.operation (t := s.begin) (q := .check) (c := s.ch) (after := fun u => u.placed .select s.ch)
    checkConfig_unplaced (fun _ => rfl) fun _ _ => rfl).bind fun t ht => ?_
  obtain ⟨_, hwf, rfl⟩ := checkConfig_eq_ok.mp ht
  exact (runStrategy_stepsDo hwf s.ch).bind fun u _ => .move (b := u.succeed) rfl (.nil rfl)

/-- Settles O53: the pseudocode and the steps perform the same operations, none of which reads or writes the place at
which a step performs it. -/
theorem stepsComputeTheRun : Obligations.StepsComputeTheRun := by
  intro s hhost
  have hsteps := runWhole_stepsDo s ⟨hhost, nofun⟩
  rw [wholeRun_eq]
  cases hx : runWhole s.begin with
  | ok a t =>
    rw [hx] at hsteps
    obtain ⟨n, hn⟩ := hsteps
    exact ⟨n, t, hn, rfl, fun _ => rfl⟩
  | raised e t =>
    rw [hx] at hsteps
    obtain ⟨n, c, hn⟩ := hsteps
    exact ⟨n, _, hn, rfl, fun hsuccess => absurd hsuccess (raisedStatus_ne_success e)⟩
  | fault e | refused e =>
    rw [hx] at hsteps
    exact hsteps

end

end Sys2Proof.Machine
end

section
/-! Output memory after a failure: every element reads as a free value (R252, U1). -/

namespace Sys2Proof.Machine

/-- An element of output memory that is not listed reads as the free value of its run (R41, R252). -/
theorem outRead_of_unknown {s : State} {j : Nat} (h : Mem.find s.out j = none) :
    outRead s j = narrow s.pixelW (Config.unspecifiedOut s.outEpoch j).toNat := by
  simp [outRead, Mem.read, h, outDefault]

/-- An idle block answers the host's read of an element below CFG.OUT_LEN with what `outRead` gives. -/
theorem hostMove_outRead {s : State} {j : BitVec 32} (hb : s.status.busy = false)
    (hj : j.toNat < s.cfg.outLen.toNat) :
    hostMove (.outRead j) s = .next { s with hostData := (outRead s j.toNat).setWidth 32 } := by
  rw [hostMove, if_neg (by simp [hb]), if_pos hj]

/-- Settles O49: a failure clears BUSY and empties the list of known elements, so that the host's read is answered, and
by the free value of the failure just counted. -/
theorem outputAfterFailureIsFree : Obligations.OutputAfterFailureIsFree := by
  intro c s t j hj ht
  obtain rfl : s.fail c = t := Host.Outcome.next.inj ht
  have hunknown : Mem.find (s.fail c).out j.toNat = none := rfl
  rw [hostMove_outRead (s := s.fail c) rfl hj, outRead_of_unknown hunknown, fail_pixelW, fail_outEpoch]

end Sys2Proof.Machine
end
